-- ==== Sys2Proof/Word.lean ====
section
/-! DEFINITION. The widths of HUFF-CORE's quantities (spec/00_scope.md R8, spec/10_state.md R18). -/

namespace Sys2Proof

/-- One byte: a symbol, or a byte of IBUF or OBUF (R8, R40). -/
abbrev Byte := BitVec 8

/-- One register word (R18, R43), a command word (R59), or a frequency count (R8, R35). -/
abbrev Word := BitVec 32

/-- A 64-bit register: TOTAL, ORIG_BITS, COMP_BITS, ERR_INFO (R8, R29, R30, R32). -/
abbrev DWord := BitVec 64

/-- A node index: 0 to 510, or NONE = 511 (R6, R36). -/
abbrev NodeIdx := BitVec 9

/-- The reserved node index NONE = 0x1FF, "no node" (R6). -/
abbrev NONE : NodeIdx := 0x1FF#9

end Sys2Proof
end

