-- ==== Sys2Proof/Syntax.lean ====
section
/-! DEFINITION. The command set: one constructor per row of spec/opcode_table.json (spec/30_encoding.md R61). No command
carries an operand (R60). -/

namespace Sys2Proof

/-- The eleven commands of R61. -/
inductive Instr where
  | nop
  | clear
  | count
  | serialize
  | build
  | gencodes
  | pack
  | compress
  | deserialize
  | decode
  | decompress
  deriving DecidableEq, Repr

/-- The two fields of the one format CMD32 (R59). -/
structure Cmd32 where
  opcode : BitVec 8
  mbz    : BitVec 24
  deriving DecidableEq, Repr

end Sys2Proof
end

