-- ==== Sys2Proof/Config.lean ====
section
/-! DEFINITION. What an implementation fixes (the two parameters of spec/00_scope.md R5) and the free values: what the
spec leaves open (spec/93_implementation_defined.md U1 to U6). A free value is an opaque constant applied to the counter
`draws` of State, so nothing can be proved of it (logs 3, 4, 5, 7). -/

namespace Sys2Proof

/-- The two parameters of R5. They are plain data in State, so that a statement about every state is a statement about
every pair of sizes (log 1). The upper bound 2^32 - 1 is the width of the fields. -/
structure Config where
  ibufSize : Word
  obufSize : Word
  deriving DecidableEq, Repr

/-- The sizes `State.reset` takes: those of the spec's own vectors (spec/95_test_vectors.md, conventions).
DESIGN CHOICE (log 1): the spec leaves both OPEN. -/
def Config.default : Config := { ibufSize := 65536#32, obufSize := 65536#32 }

/-- FREE VALUE: a byte nobody has written since reset, at the n-th draw (R39, R45; U2, U3; log 4). -/
opaque Config.freeByte : Nat → Byte

/-- FREE VALUE: a register word the spec says reads as any value, at the n-th draw (R39, R46; U1, U4; logs 5, 7). -/
opaque Config.freeWord : Nat → Word

/-- FREE VALUE: how many host steps come between an accepted CMD write and its command step (R68, R129; U6; log 3). -/
opaque Config.commandDelay : Nat → Nat

end Sys2Proof
end

