-- ==== Sys2Proof/WellFormed.lean ====
section
/-! DEFINITION. Well-formed command words (spec/30_encoding.md R59, R63) and well-formed parameters
(spec/00_scope.md R5). -/

namespace Sys2Proof

/-- The opcodes of R61, in the table's order. -/
def legalOpcodes : List (BitVec 8) :=
  [0x00#8, 0x01#8, 0x10#8, 0x11#8, 0x12#8, 0x13#8, 0x14#8, 0x18#8, 0x20#8, 0x21#8, 0x28#8]

/-- "A word is legal when MBZ = 0 and OPCODE is one of the eleven values of rule R61" (R59). -/
def Cmd32.wellFormed (c : Cmd32) : Bool := c.mbz == 0#24 && legalOpcodes.contains c.opcode

/-- A command carries no operand, register number or immediate (R60): there is nothing in one that could be ill-formed.
Its word is checked by `Cmd32.wellFormed`. -/
def Instr.wellFormed : Instr → Bool
  | .nop => true
  | .clear => true
  | .count => true
  | .serialize => true
  | .build => true
  | .gencodes => true
  | .pack => true
  | .compress => true
  | .deserialize => true
  | .decode => true
  | .decompress => true

/-- The constraints of R5: 1 <= IBUF_SIZE and 1288 <= OBUF_SIZE; both are below 2^32 by their width. -/
def Config.wellFormed (c : Config) : Bool := decide (1 ≤ c.ibufSize.toNat) && decide (1288 ≤ c.obufSize.toNat)

end Sys2Proof
end

