-- ==== Sys2Proof/Decode.lean ====
section
/-! DEFINITION. Decoding a command word (spec/30_encoding.md R59, R61, R62, R63), total on all 2^32 words, and then the
encoder, from the same table. -/

namespace Sys2Proof

/-- Why a word is illegal: the two tests of R62, in their order. -/
inductive Illegal where
  /-- R62 (1): a bit of [31:8] is set. -/
  | mbzNonzero
  /-- R62 (2): OPCODE is not in the table of R61. -/
  | reservedOpcode
  deriving DecidableEq, Repr

/-- The opcode map of R61. -/
def opcodeTable : List (BitVec 8 × Instr) :=
  [(0x00#8, .nop), (0x01#8, .clear),
   (0x10#8, .count), (0x11#8, .serialize), (0x12#8, .build), (0x13#8, .gencodes), (0x14#8, .pack), (0x18#8, .compress),
   (0x20#8, .deserialize), (0x21#8, .decode), (0x28#8, .decompress)]

/-- The fields of a command word: OPCODE = [7:0], MBZ = [31:8] (R59). -/
def splitWord (v : Word) : Cmd32 := { opcode := v.extractLsb' 0 8, mbz := v.extractLsb' 8 24 }

/-- "The engine decodes a command word v in this order: (1) if v[31:8] != 0, the word is illegal; (2) otherwise, if v[7:0]
is not in the table of rule R61, the word is illegal; (3) otherwise it is the command of that row" (R62). -/
def decodeWord (v : Word) : Except Illegal Instr :=
  if (splitWord v).mbz ≠ 0#24 then .error .mbzNonzero
  else match opcodeTable.lookup (splitWord v).opcode with
    | none => .error .reservedOpcode
    | some i => .ok i

/-- The OPCODE of each command (R61). -/
def opcodeOf : Instr → BitVec 8
  | .nop => 0x00#8
  | .clear => 0x01#8
  | .count => 0x10#8
  | .serialize => 0x11#8
  | .build => 0x12#8
  | .gencodes => 0x13#8
  | .pack => 0x14#8
  | .compress => 0x18#8
  | .deserialize => 0x20#8
  | .decode => 0x21#8
  | .decompress => 0x28#8

/-- "The command word of each is OPCODE in bits [7:0] with bits [31:8] zero" (R61). -/
def encode (i : Instr) : Word := 0#24 ++ opcodeOf i

/-- The decoder on a row of spec/opcode_table.json: the word is the low nbits bits of w, every bit above them 0; a command
word has 32 bits (R59), so a number that needs more is no command word. -/
def decodeTableWord (nbits w : Nat) : Option Instr :=
  if 2 ^ 32 ≤ w % 2 ^ nbits then none
  else match decodeWord (BitVec.ofNat 32 (w % 2 ^ nbits)) with
    | .ok i => some i
    | .error _ => none

end Sys2Proof
end

