-- ==== Sys2Proof/Machine/State.lean ====
section
/-! DEFINITION. Everything the spec gives the machine, as plain data (spec/10_state.md, spec/20_memory.md R40), the reasons
a step can stop, and the machine right after reset (R39). -/

namespace Sys2Proof.Machine

/-- The twelve values of STATUS.ERRCODE (spec/60_exceptions.md R108). "Values 0x0C to 0xFF are never written", so the field
holds a name; `ErrCode.toBits` (Flags.lean) gives the bits the host reads. -/
inductive ErrCode where
  | noError
  | ioErrorInput
  | ioErrorOutput
  | hdrShort
  | hdrCountRange
  | hdrTruncated
  | hdrZeroFreq
  | hdrDupSymbol
  | streamAbsentChild
  | streamEos
  | illegalCmd
  | seqError
  deriving DecidableEq, Repr

/-- One entry of the NODE arena (R36). -/
structure Node where
  valid : Bool
  leaf  : Bool
  freq  : BitVec 40
  left  : NodeIdx
  right : NodeIdx
  deriving DecidableEq, Repr

/-- The entry BUILD and CLEAR write first: both words zero (R77, R87). -/
def Node.empty : Node := { valid := false, leaf := false, freq := 0#40, left := 0#9, right := 0#9 }

/-- One entry of the CODE table: the code is BITS[LEN-1], ..., BITS[0] (R37, R11). -/
structure Code where
  len  : BitVec 8
  bits : BitVec 256
  deriving DecidableEq, Repr

/-- No code: LEN = 0, BITS = 0 (R37). -/
def Code.empty : Code := { len := 0#8, bits := 0#256 }

/-- IBUF or OBUF (R40): the bytes written since reset, by index, in the canonical form `Memory.wf` (Ops.lean). An index
that is not listed has not been written since reset, and has no value (R39, R45; log 4). -/
abbrev Memory := List Host.Cell

/-- The engine's hidden working state (R38; R87, R96, R98, R99, R100). It does not survive a command. -/
structure Work where
  /-- the queue Q of BUILD -/
  queue : List NodeIdx
  /-- m, the index of the next internal node -/
  m     : Nat
  /-- ACC, the bit packer's accumulator -/
  acc   : Byte
  /-- NB, its bit count -/
  nb    : Nat
  /-- the number of code bits PACK has written -/
  nbits : Nat
  /-- RBUF, the bit unpacker's buffer -/
  rbuf  : Byte
  /-- REM, its remaining-bit count -/
  rem   : Nat
  /-- RP, its byte cursor -/
  rp    : Nat
  /-- the decode cursor -/
  cur   : NodeIdx
  /-- the symbols emitted by DECODE -/
  cnt   : Nat
  /-- the payload bits consumed by DECODE -/
  k     : Nat
  /-- the stage counter of COMPRESS and DECOMPRESS -/
  stage : Nat
  deriving DecidableEq, Repr

/-- The working state between commands. "Each command initialises every piece of it that it uses before use, so none has a
reset value" (R38): these values are the model's. DESIGN CHOICE (log 9). -/
def Work.idle : Work :=
  { queue := [], m := 256, acc := 0#8, nb := 0, nbits := 0, rbuf := 0#8, rem := 0, rp := 0, cur := NONE, cnt := 0, k := 0,
    stage := 0 }

/-- What the host can do in one step (spec/20_memory.md R43, R44, R45; WAIT of spec/30_encoding.md R65; waiting for the
interrupt, R115, R125; the reset input, R123). -/
inductive HostAction where
  /-- read the REG word at a byte offset -/
  | regRead (off : BitVec 16)
  /-- write the REG word at a byte offset -/
  | regWrite (off : BitVec 16) (v : Word)
  /-- read IBUF[i] -/
  | ibufRead (i : Nat)
  /-- write IBUF[i] -/
  | ibufWrite (i : Nat) (v : Byte)
  /-- read OBUF[i] -/
  | obufRead (i : Nat)
  /-- write OBUF[i] -/
  | obufWrite (i : Nat) (v : Byte)
  /-- WAIT: read STATUS, and again until BUSY = 0 -/
  | wait
  /-- wait until the IRQ output is 1 -/
  | waitIrq
  /-- assert and release reset -/
  | reset
  deriving DecidableEq, Repr

/-- What a host read returned. -/
inductive Reply where
  | word (v : Word)
  | byte (v : Byte)
  deriving DecidableEq, Repr

/-- Where a command's pseudocode has no next step. No run from reset reaches one (`Inv` of Safety.lean rules them out):
each needs a NODE arena that is not a tree BUILD made. All are safe: the machine stops (log 8). -/
inductive Fault where
  /-- Raised by GENCODES and DECODE: the body would not end (a cyclic NODE arena). Safe. -/
  | unboundedLoop
  /-- Raised by GENCODES and DECODE: NODE[511] is used, an entry that does not exist. Safe. -/
  | nodeOutsideArena
  /-- Raised by GENCODES and DECODE: a leaf at an index above 255, which is no symbol. Safe. -/
  | leafOutsideAlphabet
  deriving DecidableEq, Repr

/-- Why a step gives no meaning. -/
inductive Refusal where
  /-- Raised by exec for a command without a meaning: none is left. Safe. -/
  | notModelled (mnemonic : String)
  deriving DecidableEq, Repr

/-- The state of HUFF-CORE and of its host. -/
structure State where
  /-- IBUF_SIZE and OBUF_SIZE, the registers CAP_IBUF_SIZE and CAP_OBUF_SIZE (R5, R19) -/
  cfg        : Config
  /-- STATUS.BUSY (R22) -/
  busy       : Bool
  /-- STATUS.DONE (R22) -/
  done       : Bool
  /-- STATUS.OVR (R22) -/
  ovr        : Bool
  /-- STATUS.FT_V (R22, R23) -/
  ftV        : Bool
  /-- STATUS.FT_SRC (R22, R23) -/
  ftSrc      : Bool
  /-- STATUS.TREE_V (R22, R23) -/
  treeV      : Bool
  /-- STATUS.CODES_V (R22, R23) -/
  codesV     : Bool
  /-- STATUS.ERRCODE (R22, R108) -/
  errCode    : ErrCode
  /-- STATUS.LAST_OP (R22) -/
  lastOp     : BitVec 8
  /-- IN_LEN (R25) -/
  inLen      : Word
  /-- OUT_LEN (R26) -/
  outLen     : Word
  /-- NSYM (R27) -/
  nsym       : BitVec 9
  /-- ROOT (R28) -/
  root       : NodeIdx
  /-- TOTAL (R29) -/
  total      : DWord
  /-- ORIG_BITS (R30) -/
  origBits   : DWord
  /-- COMP_BITS (R30) -/
  compBits   : DWord
  /-- PAYLOAD_OFF (R31) -/
  payloadOff : Word
  /-- ERR_INFO (R32) -/
  errInfo    : DWord
  /-- IRQ_EN: bit 0 DONE, bit 1 ERROR (R33) -/
  irqEn      : BitVec 2
  /-- IRQ_STATUS: bit 0 DONE, bit 1 ERROR (R33) -/
  irqStatus  : BitVec 2
  /-- FREQ (R35) -/
  freq       : Vector Word 256
  /-- NODE (R36) -/
  node       : Vector Node 511
  /-- CODE (R37) -/
  code       : Vector Code 256
  /-- IBUF (R40, R44) -/
  ibuf       : Memory
  /-- OBUF (R40, R45) -/
  obuf       : Memory
  /-- CUR_CMD (R66) -/
  curCmd     : Word
  /-- the hidden working state (R38) -/
  work       : Work
  /-- the model's own (log 5): FREQ has been written since reset -/
  freqKnown  : Bool
  /-- the model's own (log 5): NODE has been written since reset -/
  nodeKnown  : Bool
  /-- the model's own (log 5): CODE has been written since reset -/
  codeKnown  : Bool
  /-- the model's own (log 2): the host's accesses still to come, in order -/
  script     : List HostAction
  /-- the model's own (log 2): what the host's reads returned, newest first -/
  reads      : List Reply
  /-- the model's own (log 3): the host steps still to come before the command step of the running command -/
  delay      : Nat
  /-- the model's own (logs 3, 4, 5, 7): the free values drawn so far -/
  draws      : Nat
  deriving DecidableEq, Repr

/-- The machine right after reset with given buffer sizes (R39, R123). FREQ, NODE and CODE hold a placeholder that no read
returns while their known bit is false; IBUF and OBUF list nothing. -/
def State.resetWith (c : Config) : State :=
  { cfg := c
    busy := false, done := false, ovr := false
    ftV := false, ftSrc := false, treeV := false, codesV := false
    errCode := .noError, lastOp := 0#8
    inLen := 0#32, outLen := 0#32, nsym := 0#9, root := NONE
    total := 0#64, origBits := 0#64, compBits := 0#64, payloadOff := 0#32, errInfo := 0#64
    irqEn := 0#2, irqStatus := 0#2
    freq := Vector.replicate 256 0#32
    node := Vector.replicate 511 Node.empty
    code := Vector.replicate 256 Code.empty
    ibuf := [], obuf := []
    curCmd := 0#32, work := Work.idle
    freqKnown := false, nodeKnown := false, codeKnown := false
    script := [], reads := [], delay := 0, draws := 0 }

/-- The machine right after reset, with the buffer sizes of `Config.default` (log 1). -/
def State.reset : State := State.resetWith Config.default

end Sys2Proof.Machine
end

