-- ==== Sys2Proof/Machine/Flags.lean ====
section
/-! DEFINITION. The STATUS word, the error codes and classes, the validity flags, and the interrupt line
(spec/10_state.md R22, R23, R33; spec/60_exceptions.md R107, R108, R115). -/

namespace Sys2Proof.Machine

/-- The value of STATUS.ERRCODE (R108). -/
def ErrCode.toBits : ErrCode → BitVec 8
  | .noError => 0x00#8
  | .ioErrorInput => 0x01#8
  | .ioErrorOutput => 0x02#8
  | .hdrShort => 0x03#8
  | .hdrCountRange => 0x04#8
  | .hdrTruncated => 0x05#8
  | .hdrZeroFreq => 0x06#8
  | .hdrDupSymbol => 0x07#8
  | .streamAbsentChild => 0x08#8
  | .streamEos => 0x09#8
  | .illegalCmd => 0x0A#8
  | .seqError => 0x0B#8

/-- The error classes of R107: the IoError, CorruptHeader and CorruptStream of the document, and two of the hardware's. -/
inductive ErrClass where
  | ioError
  | corruptHeader
  | corruptStream
  | illegalCommand
  | sequenceError
  deriving DecidableEq, Repr

/-- The class column of R108. -/
def ErrCode.errClass : ErrCode → Option ErrClass
  | .noError => none
  | .ioErrorInput => some .ioError
  | .ioErrorOutput => some .ioError
  | .hdrShort => some .corruptHeader
  | .hdrCountRange => some .corruptHeader
  | .hdrTruncated => some .corruptHeader
  | .hdrZeroFreq => some .corruptHeader
  | .hdrDupSymbol => some .corruptHeader
  | .streamAbsentChild => some .corruptStream
  | .streamEos => some .corruptStream
  | .illegalCmd => some .illegalCommand
  | .seqError => some .sequenceError

/-- STATUS.ERR, a read-only view of ERRCODE (R22, R70). -/
def errBit (s : State) : Bool := decide (s.errCode ≠ .noError)

/-- The STATUS word from its fields, [31:24] reserved and 0 (R22). -/
def statusOf (lastOp errCode : BitVec 8) (codesV treeV ftSrc ftV ovr err done busy : Bool) : Word :=
  0#8 ++ lastOp ++ errCode ++ BitVec.ofBool codesV ++ BitVec.ofBool treeV ++ BitVec.ofBool ftSrc ++ BitVec.ofBool ftV
    ++ BitVec.ofBool ovr ++ BitVec.ofBool err ++ BitVec.ofBool done ++ BitVec.ofBool busy

/-- The STATUS word of a state (R22). -/
def statusWord (s : State) : Word :=
  statusOf s.lastOp s.errCode.toBits s.codesV s.treeV s.ftSrc s.ftV s.ovr (errBit s) s.done s.busy

/-- What a read of STATUS returns while BUSY = 1: BUSY, DONE, OVR and LAST_OP exactly, and in ERR, FT_V, FT_SRC, TREE_V,
CODES_V and ERRCODE the bits of a free word (R22, R46). -/
def statusWhileBusy (s : State) (anyWord : Word) : Word :=
  statusOf s.lastOp (anyWord.extractLsb' 8 8) (anyWord.getLsbD 7) (anyWord.getLsbD 6) (anyWord.getLsbD 5)
    (anyWord.getLsbD 4) s.ovr (anyWord.getLsbD 2) s.done s.busy

/-- All four validity flags to 0 (R23 (b), (e)). -/
def clearFlags (s : State) : State := { s with ftV := false, ftSrc := false, treeV := false, codesV := false }

/-- A host write ignored because BUSY = 1 sets OVR "and nothing else" (R67, R111). -/
def overrun (s : State) : State := { s with ovr := true }

/-- IRQ_STATUS.DONE and IRQ_EN.DONE (R33). -/
def irqDone : BitVec 2 := 0b01#2

/-- IRQ_STATUS.ERROR and IRQ_EN.ERROR (R33). -/
def irqError : BitVec 2 := 0b10#2

/-- The IRQ output: "(IRQ_STATUS.DONE and IRQ_EN.DONE) or (IRQ_STATUS.ERROR and IRQ_EN.ERROR)" (R115). -/
def irqLine (s : State) : Bool :=
  (s.irqStatus.getLsbD 0 && s.irqEn.getLsbD 0) || (s.irqStatus.getLsbD 1 && s.irqEn.getLsbD 1)

end Sys2Proof.Machine
end

