-- ==== Sys2Proof/Machine/Ops.lean ====
section
/-! DEFINITION. The shared operations: buffers, byte order, table entries, the engine's access primitives
(spec/20_memory.md R49 to R51), errors, acceptance and completion (spec/40_command_common.md R66, R68, R70;
spec/60_exceptions.md R109, R113, R114). -/

namespace Sys2Proof.Machine

/-! ### Buffers -/

/-- The canonical form of a buffer: indices strictly rising. An unlisted index has no value, so every written byte is
listed (log 4). -/
def Memory.wf : Memory → Bool
  | [] => true
  | [_] => true
  | a :: b :: m => decide (a.1 < b.1) && Memory.wf (b :: m)

/-- The byte last written at an index, `none` where nothing has been written since reset (R39, R44, R45). -/
def Memory.read : Memory → Nat → Option Byte
  | [], _ => none
  | c :: m, i => if c.1 = i then some c.2 else Memory.read m i

/-- Write one byte, keeping the canonical form. -/
def Memory.write : Memory → Nat → Byte → Memory
  | [], i, v => [(i, v)]
  | c :: m, i, v =>
    if i < c.1 then (i, v) :: c :: m
    else if c.1 = i then (i, v) :: m
    else c :: Memory.write m i v

/-- Every listed index is inside a buffer of the given size (R40). -/
def Memory.within (size : Nat) (m : Memory) : Bool := m.all fun c => decide (c.1 < size)

/-! ### Byte order (R47, R49) -/

/-- The unsigned little-endian value of a list of bytes, the first the least significant. -/
def leValue : List Byte → Nat
  | [] => 0
  | b :: bs => b.toNat + 256 * leValue bs

/-- The n low bytes of v, least significant first: `(v >> (8*k)) & 0xFF` for k = 0 .. n-1 (R81). -/
def leBytes : Nat → Nat → List Byte
  | 0, _ => []
  | n + 1, v => BitVec.ofNat 8 v :: leBytes n (v / 256)

/-! ### Named updates of State -/

/-- Set the count of free values drawn (the model's own field). -/
def setDraws (d : Nat) (s : State) : State := { s with draws := d }

/-- A free value has been used. -/
def drawn (s : State) : State := setDraws (s.draws + 1) s

/-- Set FREQ. -/
def setTable (f : Vector Word 256) (s : State) : State := { s with freq := f }

/-- Set NODE. -/
def setArena (t : Vector Node 511) (s : State) : State := { s with node := t }

/-- Set CODE. -/
def setCodes (c : Vector Code 256) (s : State) : State := { s with code := c }

/-- Set ROOT. -/
def setRoot (i : NodeIdx) (s : State) : State := { s with root := i }

/-- Set OBUF and OUT_LEN. -/
def setOutput (m : Memory) (n : Word) (s : State) : State := { s with obuf := m, outLen := n }

/-- Set the hidden working state. -/
def setWork (w : Work) (s : State) : State := { s with work := w }

/-! ### Table entries -/

/-- The symbols 0 to 255 in increasing order (R6). -/
def symbols : List Byte := (List.range 256).map (BitVec.ofNat 8)

/-- FREQ[sym] of a frequency table (R35). -/
def freqAt (f : Vector Word 256) (sym : Byte) : Word := f[sym.toNat]'(sym.isLt)

/-- FREQ[sym] <- c. -/
def setFreq (sym : Byte) (c : Word) (s : State) : State := setTable (s.freq.set sym.toNat c sym.isLt) s

/-- The number of symbols with FREQ[sym] > 0 (R79). -/
def alphabetSize (f : Vector Word 256) : Nat := symbols.countP fun sym => freqAt f sym ≠ 0#32

/-- The sum of FREQ over all symbols (R29). -/
def freqTotal (f : Vector Word 256) : Nat := (symbols.map fun sym => (freqAt f sym).toNat).sum

/-- NODE[i], `none` for i = NONE = 511, which is no entry (R6, R36). -/
def nodeAt (t : Vector Node 511) (i : NodeIdx) : Option Node := t[i.toNat]?

/-- NODE[i] <- n. -/
def setNode (i : NodeIdx) (n : Node) (s : State) : State := setArena (s.node.setIfInBounds i.toNat n) s

/-- CODE[sym] (R37). -/
def codeAt (t : Vector Code 256) (sym : Byte) : Code := t[sym.toNat]'(sym.isLt)

/-- CODE[sym] <- c. -/
def setCode (sym : Byte) (c : Code) (s : State) : State := setCodes (s.code.set sym.toNat c sym.isLt) s

/-! ### Errors, completion, acceptance -/

/-- What a command's body comes to: it ends, it raises an error, or its pseudocode has no next step (log 8). -/
inductive Body where
  | ok (s : State)
  | raised (e : ErrCode) (info : DWord) (s : State)
  | stuck (f : Fault)
  deriving Repr

/-- Go on after a part of a body: "nothing after it in the command runs" once an error is raised (R12, R109). -/
def Body.bind (b : Body) (next : State → Body) : Body :=
  match b with
  | .ok s => next s
  | .raised e info s => .raised e info s
  | .stuck f => .stuck f

/-- `raise E(info)`: the body stops, with the state as written so far (R109). -/
def raise (e : ErrCode) (info : Nat) (s : State) : Body := .raised e (BitVec.ofNat 64 info) s

/-- "STATUS.ERRCODE <- E, ERR_INFO <- zext_64(info)" (R109). -/
def recordError (e : ErrCode) (info : DWord) (s : State) : State := { s with errCode := e, errInfo := info }

/-- Completion of every command (R70): BUSY <- 0, DONE <- 1, IRQ_STATUS.DONE <- 1, and IRQ_STATUS.ERROR <- 1 when ERRCODE
is not 0. The working state does not survive the command (R38). -/
def complete (s : State) : State :=
  { s with
    busy := false
    done := true
    irqStatus := if s.errCode ≠ .noError then s.irqStatus ||| irqDone ||| irqError else s.irqStatus ||| irqDone
    work := Work.idle }

/-- Error entry (R113): the error is recorded and the command completes. It changes no mode, no mask and no stack, and
transfers no control. -/
def errorEntry (e : ErrCode) (info : DWord) (s : State) : State := complete (recordError e info s)

/-- Acceptance of a command word v (R66). It is also the block's part of the return from an error: "the next accepted
command clears ERRCODE and ERR_INFO" (R114). -/
def accepted (v : Word) (s : State) : State :=
  { s with busy := true, done := false, errCode := .noError, errInfo := 0#64, lastOp := v.extractLsb' 0 8, curCmd := v }

/-- The end of a command step, from what its body came to (R68, R109). -/
def finish : Body → Host.Outcome State Fault Refusal
  | .ok s => .next (complete s)
  | .raised e info s => .next (errorEntry e info s)
  | .stuck f => .fault f

/-- A command step: the precondition, then the body, then completion. A precondition that fails "records the error of the
table, changes no other state, and completes" (R68, R69). -/
def runCommand (pre : Bool) (e : ErrCode) (info : Nat) (body : State → Body) (s : State) :
    Host.Outcome State Fault Refusal :=
  if pre then finish (body s) else .next (errorEntry e (BitVec.ofNat 64 info) s)

/-- The precondition IN_LEN <= IBUF_SIZE (R69). -/
def inputFits (s : State) : Bool := decide (s.inLen ≤ s.cfg.ibufSize)

/-! ### The engine's access primitives -/

/-- The byte IBUF[i] as the engine or the host reads it: the byte last written there, or a fresh free value where nothing
has been written since reset (R39, R44, R50; U2; log 4). -/
def readIbuf (i : Nat) (s : State) : Byte × State :=
  match Memory.read s.ibuf i with
  | some b => (b, s)
  | none => (Config.freeByte s.draws, drawn s)

/-- IBUF[a], ..., IBUF[a+n-1], in order. -/
def readBytes : Nat → Nat → State → List Byte × State
  | 0, _, s => ([], s)
  | n + 1, a, s =>
    let first := readIbuf a s
    let rest := readBytes n (a + 1) first.2
    (first.1 :: rest.1, rest.2)

/-- MemRead(IBUF, a, n), the little-endian value of n bytes (R49). -/
def memRead (a n : Nat) (s : State) : Nat × State :=
  let bytes := readBytes n a s
  (leValue bytes.1, bytes.2)

/-- emitByte(v), the engine's only write to OBUF (R51). -/
def emitByte (v : Byte) (s : State) : Body :=
  if s.cfg.obufSize ≤ s.outLen then raise .ioErrorOutput s.outLen.toNat s
  else .ok (setOutput (Memory.write s.obuf s.outLen.toNat v) (s.outLen + 1#32) s)

/-- emitByte of each byte of a list, in order. -/
def emitBytes : List Byte → State → Body
  | [], s => .ok s
  | b :: bs, s => (emitByte b s).bind (emitBytes bs)

end Sys2Proof.Machine
end

