-- ==== Sys2Proof/Machine/Bitstream.lean ====
section
/-! DEFINITION. The bit packer and unpacker, PACK and DECODE (spec/43_bitstream.md R96 to R101). -/

namespace Sys2Proof.Machine

/-! ### Bit packer (R96, R97) -/

/-- ACC <- 0; NB <- 0 (R96, R97). -/
def emptyPacker (s : State) : State := setWork { s.work with acc := 0#8, nb := 0 } s

/-- writeBit(b): MSB first into ACC; the eighth bit sends the byte (R96). -/
def writeBit (b : Bool) (s : State) : Body :=
  let acc := (s.work.acc <<< 1) ||| (BitVec.ofBool b).setWidth 8
  if s.work.nb + 1 = 8 then
    (emitByte acc (setWork { s.work with acc := acc, nb := 8 } s)).bind fun t => .ok (emptyPacker t)
  else .ok (setWork { s.work with acc := acc, nb := s.work.nb + 1 } s)

/-- flushBits(): the remaining bits in the high bits of a final byte, zero-padded; nothing when NB = 0 (R97). -/
def flushBits (s : State) : Body :=
  if 0 < s.work.nb then
    (emitByte (s.work.acc <<< (8 - s.work.nb)) s).bind fun t => .ok (emptyPacker t)
  else .ok s

/-! ### PACK (R99) -/

/-- nbits <- nbits + 1 (R99). -/
def bitWritten (s : State) : State := setWork { s.work with nbits := s.work.nbits + 1 } s

/-- `for j in LEN - 1 down to 0: writeBit(BITS[j]); nbits <- nbits + 1` (R99), for the len low bits. -/
def writeBits : Nat → BitVec 256 → State → Body
  | 0, _, s => .ok s
  | j + 1, bits, s =>
    (writeBit (bits.getLsbD j) s).bind fun t => writeBits j bits (bitWritten t)

/-- Write the code of IBUF[i], first code bit first (R99). -/
def packByte (i : Nat) (s : State) : Body :=
  let b := readIbuf i s
  writeBits (codeAt b.2.code b.1).len.toNat (codeAt b.2.code b.1).bits b.2

/-- The n bytes from index i on, in original order (R99). -/
def packLoop : Nat → Nat → State → Body
  | 0, _, s => .ok s
  | n + 1, i, s => (packByte i s).bind (packLoop n (i + 1))

/-- PACK's first lines (R99). -/
def packStart (s : State) : State := { s with compBits := 0#64, work := { s.work with acc := 0#8, nb := 0, nbits := 0 } }

/-- PACK's last line (R99). -/
def packEnd (s : State) : State := { s with compBits := BitVec.ofNat 64 s.work.nbits }

/-- The body of PACK: the codes of the input, then flushBits exactly once (R97, R99). -/
def packBody (s : State) : Body :=
  ((packLoop s.inLen.toNat 0 (packStart s)).bind flushBits).bind fun t => .ok (packEnd t)

/-! ### Bit unpacker (R98) -/

/-- RBUF <- IBUF[RP]; RP <- RP + 1; REM <- 8 (R98). -/
def refill (s : State) : State :=
  let b := readIbuf s.work.rp s
  setWork { s.work with rbuf := b.1, rp := s.work.rp + 1, rem := 8 } b.2

/-- b <- RBUF[7]; RBUF <- (RBUF << 1) & 0xFF; REM <- REM - 1 (R98). -/
def takeBit (s : State) : Bool × State :=
  (s.work.rbuf.getLsbD 7, setWork { s.work with rbuf := s.work.rbuf <<< 1, rem := s.work.rem - 1 } s)

/-- readBit(): `none` is EOS (R98). -/
def readBit (s : State) : Option Bool × State :=
  if s.work.rem = 0 then
    if s.inLen.toNat ≤ s.work.rp then (none, s)
    else (some (takeBit (refill s)).1, (takeBit (refill s)).2)
  else (some (takeBit s).1, (takeBit s).2)

/-! ### DECODE (R100) -/

/-- NODE[cur].LEFT on a 0 bit, NODE[cur].RIGHT on a 1 bit (R100). -/
def Node.child (n : Node) (b : Bool) : NodeIdx := if b then n.right else n.left

/-- The cursor arrives at a node: a leaf's symbol is emitted and the cursor returns to the root (R100). -/
def arrive (nxt : NodeIdx) (s : State) : Body :=
  match nodeAt s.node nxt with
  | none => .stuck .nodeOutsideArena
  | some n =>
    if n.leaf then
      if nxt < 256#9 then
        (emitByte (nxt.setWidth 8) s).bind fun t => .ok (setWork { t.work with cnt := t.work.cnt + 1, cur := t.root } t)
      else .stuck .leafOutsideAlphabet
    else .ok (setWork { s.work with cur := nxt } s)

/-- Take the branch of the bit b: an absent child raises STREAM_ABSENT_CHILD with the index of that bit, before k counts it
(R100, R112). -/
def descend (b : Bool) (s : State) : Body :=
  match nodeAt s.node s.work.cur with
  | none => .stuck .nodeOutsideArena
  | some n =>
    if n.child b = NONE then raise .streamAbsentChild s.work.k s
    else arrive (n.child b) (setWork { s.work with k := s.work.k + 1 } s)

/-- One round of the loop of R100: no bit raises STREAM_EOS. -/
def decodeRound (s : State) : Body :=
  match readBit s with
  | (none, t) => raise .streamEos t.work.k t
  | (some b, t) => descend b t

/-- `while cnt < TOTAL` of R100. Each round takes one payload bit or ends the command, so the fuel that `decodeBody` gives,
one more than the bits of IBUF[0 .. IN_LEN-1], is never used up (R72). -/
def decodeLoop : Nat → State → Body
  | 0, _ => .stuck .unboundedLoop
  | fuel + 1, s => if s.work.cnt < s.total.toNat then (decodeRound s).bind (decodeLoop fuel) else .ok s

/-- DECODE's first lines (R100). -/
def decodeStart (s : State) : State :=
  { s with
    outLen := 0#32, origBits := 0#64, compBits := 0#64
    work := { s.work with rp := s.payloadOff.toNat, rbuf := 0#8, rem := 0, k := 0, cnt := 0, cur := s.root } }

/-- DECODE's last lines (R100). -/
def decodeEnd (s : State) : State :=
  { s with origBits := BitVec.ofNat 64 (8 * s.total.toNat), compBits := BitVec.ofNat 64 s.work.k }

/-- The body of DECODE (R100). -/
def decodeBody (s : State) : Body := (decodeLoop (8 * s.inLen.toNat + 1) (decodeStart s)).bind fun t => .ok (decodeEnd t)

/-! ### The commands -/

/-- PACK: needs CODES_V = 1 and FT_SRC = 0, else SEQ_ERROR (R69, R99). -/
def execPack (s : State) : Host.Outcome State Fault Refusal := runCommand (s.codesV && !s.ftSrc) .seqError 0 packBody s

/-- DECODE: needs TREE_V = 1 and FT_SRC = 1, else SEQ_ERROR (R69, R100). -/
def execDecode (s : State) : Host.Outcome State Fault Refusal := runCommand (s.treeV && s.ftSrc) .seqError 0 decodeBody s

end Sys2Proof.Machine
end

