-- ==== Sys2Proof/Machine/Frequency.lean ====
section
/-! DEFINITION. COUNT, SERIALIZE and DESERIALIZE (spec/41_frequency.md R78, R79, R81, R83). -/

namespace Sys2Proof.Machine

/-! ### COUNT -/

/-- COUNT's first lines: the flags, ROOT, PAYLOAD_OFF and FREQ (R79). -/
def countStart (s : State) : State :=
  { clearFlags s with root := NONE, payloadOff := 0#32, freq := Vector.replicate 256 0#32, freqKnown := true }

/-- FREQ[IBUF[i]] <- FREQ[IBUF[i]] + 1 (R79). -/
def countByte (i : Nat) (s : State) : State :=
  let b := readIbuf i s
  setFreq b.1 (freqAt b.2.freq b.1 + 1#32) b.2

/-- The n bytes from index i on, in order (R79). -/
def countLoop : Nat → Nat → State → State
  | 0, _, s => s
  | n + 1, i, s => countLoop n (i + 1) (countByte i s)

/-- COUNT's last lines (R79). -/
def countEnd (s : State) : State :=
  { s with
    nsym := BitVec.ofNat 9 (alphabetSize s.freq)
    total := BitVec.ofNat 64 s.inLen.toNat
    origBits := BitVec.ofNat 64 (8 * s.inLen.toNat)
    compBits := 0#64
    ftV := true, ftSrc := false }

/-- The state COUNT's pseudocode ends in (R79). -/
def countState (s : State) : State := countEnd (countLoop s.inLen.toNat 0 (countStart s))

/-- The body of COUNT: "Errors: none once the precondition has passed" (R79). -/
def countBody (s : State) : Body := .ok (countState s)

/-! ### SERIALIZE -/

/-- The five bytes of one entry: symbol, then count, little-endian; nothing for an absent symbol (R78, R81). -/
def entryBytes (f : Vector Word 256) (sym : Byte) : List Byte :=
  if freqAt f sym = 0#32 then [] else sym :: leBytes 4 (freqAt f sym).toNat

/-- The header: the entry count NSYM in 8 bytes, then the entries in increasing symbol order (R78, R81). -/
def headerBytes (f : Vector Word 256) (nsym : BitVec 9) : List Byte := leBytes 8 nsym.toNat ++ symbols.flatMap (entryBytes f)

/-- The body of SERIALIZE (R81). -/
def serializeBody (s : State) : Body := emitBytes (headerBytes s.freq s.nsym) (setOutput s.obuf 0#32 s)

/-! ### DESERIALIZE -/

/-- DESERIALIZE's first lines (R83). -/
def deserializeStart (s : State) : State :=
  { clearFlags s with
    root := NONE, origBits := 0#64, compBits := 0#64, payloadOff := 0#32, nsym := 0#9, total := 0#64
    freq := Vector.replicate 256 0#32, freqKnown := true }

/-- FREQ, NSYM, TOTAL and PAYLOAD_OFF to 0 (R83). -/
def zeroHeader (s : State) : State :=
  { s with freq := Vector.replicate 256 0#32, nsym := 0#9, total := 0#64, payloadOff := 0#32 }

/-- `fail(code, info)` of R83: zero FREQ, NSYM, TOTAL and PAYLOAD_OFF, then raise. -/
def headerFail (e : ErrCode) (info : Nat) (s : State) : Body := raise e info (zeroHeader s)

/-- The entry at byte offset o: HDR_ZERO_FREQ is checked before HDR_DUP_SYMBOL (R83, R112). -/
def readEntry (o : Nat) (s : State) : Body :=
  let sym := readIbuf o s
  let cnt := memRead (o + 1) 4 sym.2
  if cnt.1 = 0 then headerFail .hdrZeroFreq o cnt.2
  else if freqAt cnt.2.freq sym.1 ≠ 0#32 then headerFail .hdrDupSymbol o cnt.2
  else .ok (setFreq sym.1 (BitVec.ofNat 32 cnt.1) cnt.2)

/-- The n entries from byte offset o on, in file order (R83). -/
def readEntries : Nat → Nat → State → Body
  | 0, _, s => .ok s
  | n + 1, o, s => (readEntry o s).bind (readEntries n (o + 5))

/-- DESERIALIZE's last lines, for a header of e entries (R83). -/
def deserializeEnd (e : Nat) (s : State) : State :=
  { s with
    nsym := BitVec.ofNat 9 e
    total := BitVec.ofNat 64 (freqTotal s.freq)
    payloadOff := BitVec.ofNat 32 (8 + 5 * e)
    ftV := true, ftSrc := true }

/-- What follows the entry count e of the header (R83). -/
def deserializeEntries (e : Nat) (s : State) : Body :=
  if 256 < e then headerFail .hdrCountRange e s
  else if s.inLen.toNat < 8 + 5 * e then headerFail .hdrTruncated e s
  else (readEntries e 8 s).bind fun t => .ok (deserializeEnd e t)

/-- The body of DESERIALIZE (R83). -/
def deserializeBody (s : State) : Body :=
  let t := deserializeStart s
  if s.inLen.toNat < 8 then headerFail .hdrShort s.inLen.toNat t
  else deserializeEntries (memRead 0 8 t).1 (memRead 0 8 t).2

/-! ### The commands -/

/-- COUNT: needs IN_LEN <= IBUF_SIZE, else IO_ERROR_INPUT with ERR_INFO = IN_LEN (R69, R79). -/
def execCount (s : State) : Host.Outcome State Fault Refusal :=
  runCommand (inputFits s) .ioErrorInput s.inLen.toNat countBody s

/-- SERIALIZE: needs FT_V = 1, else SEQ_ERROR (R69, R81). -/
def execSerialize (s : State) : Host.Outcome State Fault Refusal := runCommand s.ftV .seqError 0 serializeBody s

/-- DESERIALIZE: needs IN_LEN <= IBUF_SIZE, else IO_ERROR_INPUT with ERR_INFO = IN_LEN (R69, R83). -/
def execDeserialize (s : State) : Host.Outcome State Fault Refusal :=
  runCommand (inputFits s) .ioErrorInput s.inLen.toNat deserializeBody s

end Sys2Proof.Machine
end

