-- ==== Sys2Proof/Machine/Housekeeping.lean ====
section
/-! DEFINITION. NOP and CLEAR (spec/40_command_common.md R76, R77). -/

namespace Sys2Proof.Machine

/-- NOP has no body and no precondition (R76). -/
def nopBody (s : State) : Body := .ok s

/-- The state CLEAR's pseudocode ends in: the engine's state is empty (R77). CLEAR is the only command that clears OVR. -/
def clearState (s : State) : State :=
  { clearFlags s with
    freq := Vector.replicate 256 0#32, freqKnown := true
    node := Vector.replicate 511 Node.empty, nodeKnown := true
    code := Vector.replicate 256 Code.empty, codeKnown := true
    nsym := 0#9, root := NONE, total := 0#64
    origBits := 0#64, compBits := 0#64, payloadOff := 0#32
    outLen := 0#32, errInfo := 0#64
    ovr := false }

/-- The body of CLEAR (R77). -/
def clearBody (s : State) : Body := .ok (clearState s)

/-- NOP (R76). -/
def execNop (s : State) : Host.Outcome State Fault Refusal := runCommand true .noError 0 nopBody s

/-- CLEAR (R77). -/
def execClear (s : State) : Host.Outcome State Fault Refusal := runCommand true .noError 0 clearBody s

end Sys2Proof.Machine
end

