-- ==== Sys2Proof/Machine/Tree.lean ====
section
/-! DEFINITION. BUILD and GENCODES (spec/42_tree.md R86 to R94). -/

namespace Sys2Proof.Machine

/-! ### The priority queue (R86) -/

/-- NODE[i].FREQ, the first part of a key. -/
def nodeFreq (t : Vector Node 511) (i : NodeIdx) : BitVec 40 :=
  match nodeAt t i with
  | some n => n.freq
  | none => 0#40

/-- "Node i comes before node j when NODE[i].FREQ < NODE[j].FREQ, or when the frequencies are equal and i < j" (R86). -/
def keyLt (t : Vector Node 511) (i j : NodeIdx) : Bool :=
  decide (nodeFreq t i < nodeFreq t j) || (decide (nodeFreq t i = nodeFreq t j) && decide (i < j))

/-- The element with the least key, of a first one and the rest of a queue. -/
def least (t : Vector Node 511) : NodeIdx → List NodeIdx → NodeIdx
  | best, [] => best
  | best, j :: q => least t (if keyLt t j best then j else best) q

/-- popmin(Q) of R87: the element with the least key, taken out of the queue; `none` for the empty queue. -/
def popMin (s : State) : Option (NodeIdx × State) :=
  match s.work.queue with
  | [] => none
  | i :: q => some (least s.node i q, setWork { s.work with queue := (i :: q).erase (least s.node i q) } s)

/-! ### BUILD (R87) -/

/-- BUILD's first lines: the flags, ROOT, every NODE entry and the queue (R87). -/
def buildStart (s : State) : State :=
  { s with
    treeV := false, codesV := false, root := NONE
    node := Vector.replicate 511 Node.empty, nodeKnown := true
    work := { s.work with queue := [], m := 256 } }

/-- The leaf of a symbol whose count is c (R87, R36). -/
def leafNode (c : Word) : Node := { valid := true, leaf := true, freq := c.setWidth 40, left := NONE, right := NONE }

/-- A symbol with FREQ > 0 gets its leaf and joins the queue (R87). -/
def plantLeaf (s : State) (sym : Byte) : State :=
  if freqAt s.freq sym = 0#32 then s
  else
    setWork { s.work with queue := s.work.queue ++ [sym.setWidth 9] }
      (setNode (sym.setWidth 9) (leafNode (freqAt s.freq sym)) s)

/-- The leaves, in increasing symbol order (R87). -/
def plantLeaves (s : State) : State := symbols.foldl plantLeaf s

/-- The internal node over a (first extracted: left, bit 0) and b (second extracted: right, bit 1) (R87, R88). -/
def mergedNode (t : Vector Node 511) (a b : NodeIdx) : Node :=
  { valid := true, leaf := false, freq := nodeFreq t a + nodeFreq t b, left := a, right := b }

/-- Make NODE[m] over a and b, put m into the queue, and advance m (R87). -/
def merge (a b : NodeIdx) (s : State) : State :=
  setWork { s.work with queue := s.work.queue ++ [BitVec.ofNat 9 s.work.m], m := s.work.m + 1 }
    (setNode (BitVec.ofNat 9 s.work.m) (mergedNode s.node a b) s)

/-- `while |Q| >= 2` of R87. Each round takes two elements out of the queue and puts one in, so as many rounds as the queue
has elements suffice. -/
def mergeLoop : Nat → State → State
  | 0, s => s
  | n + 1, s =>
    match popMin s with
    | none => s
    | some (a, t) =>
      match popMin t with
      | none => s
      | some (b, u) => mergeLoop n (merge a b u)

/-- The one internal node of the single-symbol tree: LEFT = the symbol, RIGHT = NONE (R90). -/
def loneRoot (t : Vector Node 511) (i : NodeIdx) : Node :=
  { valid := true, leaf := false, freq := nodeFreq t i, left := i, right := NONE }

/-- The tree over the planted leaves, by how many there are: none (R89), one (R90), or more (R87). -/
def growTree (s : State) : State :=
  match s.work.queue with
  | [] => s
  | [i] => setRoot 256#9 (setNode 256#9 (loneRoot s.node i) s)
  | _ :: _ :: _ =>
    let t := mergeLoop s.work.queue.length s
    setRoot (BitVec.ofNat 9 (t.work.m - 1)) t

/-- TREE_V <- 1, BUILD's last line (R87). -/
def treeDone (s : State) : State := { s with treeV := true }

/-- The state BUILD's pseudocode ends in (R87). -/
def buildState (s : State) : State := treeDone (growTree (plantLeaves (buildStart s)))

/-- The body of BUILD: "Errors: none once the precondition has passed" (R87). -/
def buildBody (s : State) : Body := .ok (buildState s)

/-! ### GENCODES (R94) -/

/-- `walk(i, c, l)` of R94. The fuel is how many more nodes the path may have: a path over more nodes than the arena's 511
entries meets one twice, and then the walk of R94 has no end. -/
def walk : Nat → NodeIdx → Nat → Nat → State → Body
  | 0, _, _, _, _ => .stuck .unboundedLoop
  | fuel + 1, i, c, l, s =>
    match nodeAt s.node i with
    | none => .stuck .nodeOutsideArena
    | some n =>
      if n.leaf then
        if i < 256#9 then .ok (setCode (i.setWidth 8) { len := BitVec.ofNat 8 l, bits := BitVec.ofNat 256 c } s)
        else .stuck .leafOutsideAlphabet
      else
        (walk fuel n.left (2 * c) (l + 1) s).bind fun t =>
          if n.right = NONE then .ok t else walk fuel n.right (2 * c + 1) (l + 1) t

/-- GENCODES's first lines (R94). -/
def gencodesStart (s : State) : State :=
  { s with codesV := false, code := Vector.replicate 256 Code.empty, codeKnown := true }

/-- CODES_V <- 1, GENCODES's last line (R94). -/
def codesDone (s : State) : State := { s with codesV := true }

/-- The body of GENCODES (R94). -/
def gencodesBody (s : State) : Body :=
  let t := gencodesStart s
  (if t.root = NONE then .ok t else walk 511 t.root 0 0 t).bind fun u => .ok (codesDone u)

/-! ### The commands -/

/-- BUILD: needs FT_V = 1, else SEQ_ERROR (R69, R87). -/
def execBuild (s : State) : Host.Outcome State Fault Refusal := runCommand s.ftV .seqError 0 buildBody s

/-- GENCODES: needs TREE_V = 1, else SEQ_ERROR (R69, R94). -/
def execGencodes (s : State) : Host.Outcome State Fault Refusal := runCommand s.treeV .seqError 0 gencodesBody s

end Sys2Proof.Machine
end

