-- ==== Sys2Proof/Machine/Pipelines.lean ====
section
/-! DEFINITION. COMPRESS and DECOMPRESS: the bodies of the single-stage commands in a fixed order, with one acceptance, one
precondition and one completion (spec/44_pipelines.md R103, R104). -/

namespace Sys2Proof.Machine

/-- The stage counter moves on (R38). -/
def enterStage (n : Nat) (s : State) : State := setWork { s.work with stage := n } s

/-- The body of COMPRESS: COUNT, SERIALIZE, BUILD, GENCODES, PACK (R103). -/
def compressBody (s : State) : Body :=
  ((((countBody (enterStage 1 s)).bind fun t => serializeBody (enterStage 2 t)).bind fun t =>
    buildBody (enterStage 3 t)).bind fun t => gencodesBody (enterStage 4 t)).bind fun t => packBody (enterStage 5 t)

/-- The body of DECOMPRESS: OUT_LEN <- 0, then DESERIALIZE, BUILD, DECODE (R104; C11 of spec/90_conflicts.md). -/
def decompressBody (s : State) : Body :=
  ((deserializeBody (enterStage 1 (setOutput s.obuf 0#32 s))).bind fun t => buildBody (enterStage 2 t)).bind fun t =>
    decodeBody (enterStage 3 t)

/-- COMPRESS: needs IN_LEN <= IBUF_SIZE, else IO_ERROR_INPUT with ERR_INFO = IN_LEN (R69, R103). -/
def execCompress (s : State) : Host.Outcome State Fault Refusal :=
  runCommand (inputFits s) .ioErrorInput s.inLen.toNat compressBody s

/-- DECOMPRESS: needs IN_LEN <= IBUF_SIZE, else IO_ERROR_INPUT with ERR_INFO = IN_LEN (R69, R104). -/
def execDecompress (s : State) : Host.Outcome State Fault Refusal :=
  runCommand (inputFits s) .ioErrorInput s.inLen.toNat decompressBody s

end Sys2Proof.Machine
end

