-- ==== Sys2Proof/Machine/Dispatch.lean ====
section
/-! DEFINITION. One arm per command of spec/30_encoding.md R61. -/

namespace Sys2Proof.Machine

/-- The command step of a decoded command (R68). -/
def exec (i : Instr) (s : State) : Host.Outcome State Fault Refusal :=
  match i with
  | .nop => Sys2Proof.Machine.execNop s
  | .clear => Sys2Proof.Machine.execClear s
  | .count => Sys2Proof.Machine.execCount s
  | .serialize => Sys2Proof.Machine.execSerialize s
  | .build => Sys2Proof.Machine.execBuild s
  | .gencodes => Sys2Proof.Machine.execGencodes s
  | .pack => Sys2Proof.Machine.execPack s
  | .compress => Sys2Proof.Machine.execCompress s
  | .deserialize => Sys2Proof.Machine.execDeserialize s
  | .decode => Sys2Proof.Machine.execDecode s
  | .decompress => Sys2Proof.Machine.execDecompress s

end Sys2Proof.Machine
end

