-- ==== Sys2Proof/Machine/Operands.lean ====
section
/-! DEFINITION. The register space REG as the host addresses it: the register map, the windows of FREQ, NODE and CODE, the
value of every word, and which reads are exact (spec/10_state.md R18 to R37; spec/20_memory.md R43, R46). -/

namespace Sys2Proof.Machine

/-- The words of REG (R18, R35, R36, R37). -/
inductive Reg where
  | id
  | version
  | cmd
  | status
  | inLen
  | outLen
  | nsym
  | root
  | totalLo
  | totalHi
  | origBitsLo
  | origBitsHi
  | compBitsLo
  | compBitsHi
  | payloadOff
  | errInfoLo
  | errInfoHi
  | irqEn
  | irqStatus
  | capIbufSize
  | capObufSize
  /-- FREQ[s] -/
  | freq (s : Byte)
  /-- word 0 of NODE[i] -/
  | node0 (i : NodeIdx)
  /-- word 1 of NODE[i] -/
  | node1 (i : NodeIdx)
  /-- word w (0 to 15) of CODE[s], at byte offset 4w of the entry -/
  | code (s : Byte) (w : BitVec 4)
  | reserved
  deriving DecidableEq, Repr

/-- The register map of R18 below 0x400, by byte offset. -/
def regTable : List (BitVec 16 × Reg) :=
  [(0x000#16, .id), (0x004#16, .version), (0x008#16, .cmd), (0x00C#16, .status), (0x010#16, .inLen), (0x014#16, .outLen),
   (0x018#16, .nsym), (0x01C#16, .root), (0x020#16, .totalLo), (0x024#16, .totalHi), (0x028#16, .origBitsLo),
   (0x02C#16, .origBitsHi), (0x030#16, .compBitsLo), (0x034#16, .compBitsHi), (0x038#16, .payloadOff),
   (0x03C#16, .errInfoLo), (0x040#16, .errInfoHi), (0x044#16, .irqEn), (0x048#16, .irqStatus), (0x04C#16, .capIbufSize),
   (0x050#16, .capObufSize)]

/-- An offset with bits [1:0] cleared: "the offset's bits [1:0] are ignored" (R43). -/
def wordOffset (off : BitVec 16) : BitVec 16 := off &&& 0xFFFC#16

/-- The windows of R18: FREQ at 0x400 + 4s (R35), NODE at 0x1000 + 8i (R36), CODE at 0x2000 + 64s (R37); the rest is
reserved. The argument is a word offset as a number. -/
def windowAt (a : Nat) : Reg :=
  if 0x400 ≤ a ∧ a ≤ 0x7FC then .freq (BitVec.ofNat 8 ((a - 0x400) / 4))
  else if 0x1000 ≤ a ∧ a ≤ 0x1FF4 then
    if a % 8 < 4 then .node0 (BitVec.ofNat 9 ((a - 0x1000) / 8)) else .node1 (BitVec.ofNat 9 ((a - 0x1000) / 8))
  else if 0x2000 ≤ a ∧ a ≤ 0x5FFC then .code (BitVec.ofNat 8 ((a - 0x2000) / 64)) (BitVec.ofNat 4 (a / 4))
  else .reserved

/-- The word a host access at a byte offset goes to (R18, R43). -/
def regAt (off : BitVec 16) : Reg :=
  match regTable.lookup (wordOffset off) with
  | some r => r
  | none => windowAt (wordOffset off).toNat

/-- Word 0 of a node: FREQ[31:0]; 0 where VALID = 0 (R36). -/
def Node.word0 (n : Node) : Word := if n.valid then n.freq.extractLsb' 0 32 else 0#32

/-- Word 1 of a node: VALID [31], LEAF [30], reserved [29:26], RIGHT [25:17], LEFT [16:8], FREQ[39:32] [7:0]; 0 where
VALID = 0 (R36). -/
def Node.word1 (n : Node) : Word :=
  if n.valid then
    BitVec.ofBool n.valid ++ BitVec.ofBool n.leaf ++ 0#4 ++ n.right ++ n.left ++ n.freq.extractLsb' 32 8
  else 0#32

/-- Word w of a code entry: LEN at w = 0, BITS[32j+31 : 32j] at w = 8 + j, the others reserved and 0 (R37). -/
def Code.word (c : Code) (w : BitVec 4) : Word :=
  if w = 0#4 then c.len.setWidth 32
  else if w < 8#4 then 0#32
  else c.bits.extractLsb' (32 * (w.toNat - 8)) 32

/-- The value of a word of REG while BUSY = 0 (R18 to R37). CMD and reserved offsets read 0 (R20, R21). -/
def regValue (s : State) : Reg → Word
  | .id => 0x48554646#32
  | .version => 0x00010000#32
  | .cmd => 0#32
  | .status => statusWord s
  | .inLen => s.inLen
  | .outLen => s.outLen
  | .nsym => s.nsym.setWidth 32
  | .root => s.root.setWidth 32
  | .totalLo => s.total.extractLsb' 0 32
  | .totalHi => s.total.extractLsb' 32 32
  | .origBitsLo => s.origBits.extractLsb' 0 32
  | .origBitsHi => s.origBits.extractLsb' 32 32
  | .compBitsLo => s.compBits.extractLsb' 0 32
  | .compBitsHi => s.compBits.extractLsb' 32 32
  | .payloadOff => s.payloadOff
  | .errInfoLo => s.errInfo.extractLsb' 0 32
  | .errInfoHi => s.errInfo.extractLsb' 32 32
  | .irqEn => s.irqEn.setWidth 32
  | .irqStatus => s.irqStatus.setWidth 32
  | .capIbufSize => s.cfg.ibufSize
  | .capObufSize => s.cfg.obufSize
  | .freq sym => freqAt s.freq sym
  | .node0 i => match nodeAt s.node i with
    | some n => n.word0
    | none => 0#32
  | .node1 i => match nodeAt s.node i with
    | some n => n.word1
    | none => 0#32
  | .code sym w => (codeAt s.code sym).word w
  | .reserved => 0#32

/-- The bits of a word that belong to a field. The others are reserved, and a read of them returns 0 at all times (R20, U8),
also where R39 or R46 leaves the fields open (logs 5, 7). -/
def Reg.fields : Reg → Word
  | .id => 0xFFFFFFFF#32
  | .version => 0xFFFFFFFF#32
  | .cmd => 0#32
  | .status => 0x00FFFFFF#32
  | .inLen => 0xFFFFFFFF#32
  | .outLen => 0xFFFFFFFF#32
  | .nsym => 0x000001FF#32
  | .root => 0x000001FF#32
  | .totalLo => 0xFFFFFFFF#32
  | .totalHi => 0xFFFFFFFF#32
  | .origBitsLo => 0xFFFFFFFF#32
  | .origBitsHi => 0xFFFFFFFF#32
  | .compBitsLo => 0xFFFFFFFF#32
  | .compBitsHi => 0xFFFFFFFF#32
  | .payloadOff => 0xFFFFFFFF#32
  | .errInfoLo => 0xFFFFFFFF#32
  | .errInfoHi => 0xFFFFFFFF#32
  | .irqEn => 0x00000003#32
  | .irqStatus => 0x00000003#32
  | .capIbufSize => 0xFFFFFFFF#32
  | .capObufSize => 0xFFFFFFFF#32
  | .freq _ => 0xFFFFFFFF#32
  | .node0 _ => 0xFFFFFFFF#32
  | .node1 _ => 0xC3FFFFFF#32
  | .code _ w => if w = 0#4 then 0x000000FF#32 else if w < 8#4 then 0#32 else 0xFFFFFFFF#32
  | .reserved => 0#32

/-- The words whose read is exact while BUSY = 1 (R46). STATUS has its own rule (`statusWhileBusy`). -/
def Reg.exactWhileBusy : Reg → Bool
  | .id => true
  | .version => true
  | .cmd => true
  | .status => true
  | .inLen => true
  | .outLen => false
  | .nsym => false
  | .root => false
  | .totalLo => false
  | .totalHi => false
  | .origBitsLo => false
  | .origBitsHi => false
  | .compBitsLo => false
  | .compBitsHi => false
  | .payloadOff => false
  | .errInfoLo => false
  | .errInfoHi => false
  | .irqEn => true
  | .irqStatus => true
  | .capIbufSize => true
  | .capObufSize => true
  | .freq _ => false
  | .node0 _ => false
  | .node1 _ => false
  | .code _ _ => false
  | .reserved => true

/-- Whether the word has been written since reset: FREQ, NODE and CODE are unspecified until a command writes them
(R39; U1; log 5); every other word has a reset value. -/
def Reg.known (s : State) : Reg → Bool
  | .freq _ => s.freqKnown
  | .node0 _ => s.nodeKnown
  | .node1 _ => s.nodeKnown
  | .code _ _ => s.codeKnown
  | .id => true
  | .version => true
  | .cmd => true
  | .status => true
  | .inLen => true
  | .outLen => true
  | .nsym => true
  | .root => true
  | .totalLo => true
  | .totalHi => true
  | .origBitsLo => true
  | .origBitsHi => true
  | .compBitsLo => true
  | .compBitsHi => true
  | .payloadOff => true
  | .errInfoLo => true
  | .errInfoHi => true
  | .irqEn => true
  | .irqStatus => true
  | .capIbufSize => true
  | .capObufSize => true
  | .reserved => true

/-- What a host read of a word returns, with the next free word in hand, and whether it took that word: where the fields are
open they are those of the free word, and the reserved bits are 0 (R20, R22, R39, R46). -/
def readReg (s : State) (r : Reg) (anyWord : Word) : Word × Bool :=
  if r = .status ∧ s.busy then (statusWhileBusy s anyWord, true)
  else if (s.busy && !r.exactWhileBusy) || !Reg.known s r then (anyWord &&& r.fields, true)
  else (regValue s r, false)

end Sys2Proof.Machine
end

