-- ==== Sys2Proof/Machine/HostPort.lean ====
section
/-! DEFINITION. The host's steps (spec/20_memory.md R43 to R46; spec/10_state.md R20, R21, R25, R33;
spec/40_command_common.md R66, R67; WAIT of spec/30_encoding.md R65; reset, spec/70_reset_and_hazards.md R123), and the
command step of an illegal word (R71). -/

namespace Sys2Proof.Machine

/-- A host read returns v. -/
def reply (v : Reply) (s : State) : State := { s with reads := v :: s.reads }

/-- A host register read at a byte offset (R43, R46). -/
def hostRegRead (off : BitVec 16) (s : State) : State :=
  let r := readReg s (regAt off) (Config.freeWord s.draws)
  reply (.word r.1) (if r.2 then drawn s else s)

/-- A host CMD write while BUSY = 0 (R66). How many host steps come before the command step is a free value (R68, R129;
log 3). -/
def acceptCmd (v : Word) (s : State) : State := drawn { accepted v s with delay := Config.commandDelay s.draws }

/-- A host register write at a byte offset: CMD (R21, R66, R67), IN_LEN (R25), IRQ_EN and IRQ_STATUS (R33); a write to any
other word is ignored (R20, R43). -/
def hostRegWrite (off : BitVec 16) (v : Word) (s : State) : State :=
  match regAt off with
  | .cmd => if s.busy then overrun s else acceptCmd v s
  | .inLen => if s.busy then overrun s else { clearFlags s with inLen := v }
  | .irqEn => { s with irqEn := v.extractLsb' 0 2 }
  | .irqStatus => { s with irqStatus := s.irqStatus &&& ~~~(v.extractLsb' 0 2) }
  | .id => s
  | .version => s
  | .status => s
  | .outLen => s
  | .nsym => s
  | .root => s
  | .totalLo => s
  | .totalHi => s
  | .origBitsLo => s
  | .origBitsHi => s
  | .compBitsLo => s
  | .compBitsHi => s
  | .payloadOff => s
  | .errInfoLo => s
  | .errInfoHi => s
  | .capIbufSize => s
  | .capObufSize => s
  | .freq _ => s
  | .node0 _ => s
  | .node1 _ => s
  | .code _ _ => s
  | .reserved => s

/-- A host read of IBUF[i]: exact whether BUSY is 0 or 1; 0 out of range (R44). -/
def hostIbufRead (i : Nat) (s : State) : State :=
  if i < s.cfg.ibufSize.toNat then reply (.byte (readIbuf i s).1) (readIbuf i s).2 else reply (.byte 0#8) s

/-- A host write of IBUF[i]: clears the four flags; ignored with OVR while BUSY = 1; ignored out of range (R44, R67). -/
def hostIbufWrite (i : Nat) (v : Byte) (s : State) : State :=
  if i < s.cfg.ibufSize.toNat then
    if s.busy then overrun s else { clearFlags s with ibuf := Memory.write s.ibuf i v }
  else s

/-- A host read of OBUF[i]: any value while BUSY = 1 or where nothing has been written since reset; 0 out of range (R45). -/
def hostObufRead (i : Nat) (s : State) : State :=
  if i < s.cfg.obufSize.toNat then
    if s.busy then reply (.byte (Config.freeByte s.draws)) (drawn s)
    else match Memory.read s.obuf i with
      | some b => reply (.byte b) s
      | none => reply (.byte (Config.freeByte s.draws)) (drawn s)
  else reply (.byte 0#8) s

/-- The reset input (R123, R39): every register takes its reset value, the tables and buffers become unspecified, a command
in progress and the hidden state are discarded. The sizes stay, and so does the host's own side (log 10). -/
def resetInput (s : State) : State :=
  { State.resetWith s.cfg with script := s.script, reads := s.reads, draws := s.draws }

/-- One host step. WAIT reads STATUS and stays the host's next action while BUSY = 1 (R65); a host that waits for the
interrupt stays while IRQ = 0 (R115, R125). -/
def hostAct : HostAction → State → State
  | .regRead off, s => hostRegRead off s
  | .regWrite off v, s => hostRegWrite off v s
  | .ibufRead i, s => hostIbufRead i s
  | .ibufWrite i v, s => hostIbufWrite i v s
  | .obufRead i, s => hostObufRead i s
  | .obufWrite _ _, s => s
  | .wait, s =>
    let t := hostRegRead 0x00C#16 s
    if s.busy then { t with script := .wait :: t.script } else t
  | .waitIrq, s => if irqLine s then s else { s with script := .waitIrq :: s.script }
  | .reset, s => resetInput s

/-- The host takes its next action; with none left the block stays as it is: "when BUSY = 0 it is idle and keeps all its
state" (R122). Each host step while a command runs uses up one step of its delay (log 3). -/
def hostStep (s : State) : State :=
  match s.script with
  | [] => s
  | a :: rest => hostAct a { s with script := rest, delay := s.delay - 1 }

/-- Whether the next step is the command step: BUSY = 1 and the host takes no further step before it (R68, R129). -/
def engineTurn (s : State) : Bool := s.busy && (decide (s.delay = 0) || s.script.isEmpty)

/-- The command step of an illegal word: ERRCODE <- ILLEGAL_CMD, ERR_INFO <- the word, no other state, completion (R71). -/
def illegalCommand (s : State) : State := errorEntry .illegalCmd (s.curCmd.setWidth 64) s

/-- A command word as the host's write of it left it in the block: accepted, with the command step next. -/
def placeCommand (nbits w : Nat) (s : State) : State := { accepted (BitVec.ofNat 32 (w % 2 ^ nbits)) s with delay := 0 }

end Sys2Proof.Machine
end

