-- ==== Sys2Proof/Machine/Step.lean ====
section
/-! DEFINITION. One step of HUFF-CORE and its host: the command step when it is the engine's turn, else a host step
(spec/40_command_common.md R68; spec/20_memory.md R54). -/

namespace Sys2Proof.Machine

/-- The command step: decode CUR_CMD; an illegal word completes with ILLEGAL_CMD, a legal one runs (R68, R71). -/
def commandStep (s : State) : Host.Outcome State Fault Refusal :=
  match decodeWord s.curCmd with
  | .error _ => .next (illegalCommand s)
  | .ok i => exec i s

/-- One step (R68, R129; log 3). -/
def step (s : State) : Host.Outcome State Fault Refusal :=
  if engineTurn s then commandStep s else .next (hostStep s)

/-- The state in which the command word w has just been accepted and the very next step is its command step (R66; log 11). -/
def State.withFetchWord (s : State) (nbits w : Nat) : State := placeCommand nbits w s

end Sys2Proof.Machine
end

