-- ==== Sys2Proof/Safety.lean ====
section
/-! DEFINITION. The terms claims use: the input a command reads, codes and payloads as bit strings, trees and their paths, the
results of BUILD and GENCODES as functions, and the invariant of the machine (spec/10_state.md R24 and the bounds of R26,
R27, R29, R31). -/

namespace Sys2Proof.Machine

/-! ### Input and bit strings -/

/-- The host has written every byte of IBUF[0 .. IN_LEN-1] since reset. -/
def InputWritten (s : State) : Prop := ∀ i, i < s.inLen.toNat → (Memory.read s.ibuf i).isSome = true

/-- IBUF[0 .. IN_LEN-1]; only spoken of under `InputWritten`, where no default is taken. -/
def inputOf (s : State) : List Byte := (List.range s.inLen.toNat).map fun i => (Memory.read s.ibuf i).getD 0#8

/-- OBUF[0 .. OUT_LEN-1], the output of a command (R74); bytes below OUT_LEN have been written. -/
def outputOf (s : State) : List Byte := (List.range s.outLen.toNat).map fun i => (Memory.read s.obuf i).getD 0#8

/-- The code as a bit string, first bit first: BITS[LEN-1], ..., BITS[0] (R11, R37). -/
def codeBits (c : Code) : List Bool := ((List.range c.len.toNat).map fun j => c.bits.getLsbD j).reverse

/-- The code bits of a list of bytes under a code table, in order (R99). -/
def payloadBits (t : Vector Code 256) (bytes : List Byte) : List Bool := bytes.flatMap fun b => codeBits (codeAt t b)

/-- The bits of a byte, MSB first (R48). -/
def bitsOfByte (b : Byte) : List Bool := ((List.range 8).map fun j => b.getLsbD j).reverse

/-- The bits of a list of bytes in stream order (R48). -/
def bitsOfBytes (bytes : List Byte) : List Bool := bytes.flatMap bitsOfByte

/-! ### Trees -/

/-- Go from node i along bits, left on 0 and right on 1, through internal nodes only (R14, R100). -/
def follow (t : Vector Node 511) : NodeIdx → List Bool → Option NodeIdx
  | i, [] => some i
  | i, b :: bs =>
    match nodeAt t i with
    | none => none
    | some n => if n.leaf then none else if n.child b = NONE then none else follow t (n.child b) bs

/-- The bit string p is the path from the root to the leaf of a symbol. -/
def IsPath (t : Vector Node 511) (root : NodeIdx) (p : List Bool) (sym : Byte) : Prop :=
  follow t root p = some (sym.setWidth 9) ∧ ∃ n, nodeAt t (sym.setWidth 9) = some n ∧ n.leaf = true

/-- Entry j is a valid entry below index i. -/
def ChildOk (t : Vector Node 511) (i j : NodeIdx) : Prop := j < i ∧ ∃ n, nodeAt t j = some n ∧ n.valid = true

/-- The arena is one BUILD could have made (R36): a valid entry below 256 is a leaf without children, a valid entry from 256
on is an internal node whose children are valid entries of lower index, RIGHT possibly absent, and no other entry is a
leaf. -/
def ArenaOk (t : Vector Node 511) : Prop :=
  ∀ i n, nodeAt t i = some n → n.valid = true →
    (i < 256#9 → n.leaf = true ∧ n.left = NONE ∧ n.right = NONE) ∧
    (256#9 ≤ i → n.leaf = false ∧ ChildOk t i n.left ∧ (n.right = NONE ∨ ChildOk t i n.right))

/-- ROOT is NONE or a valid internal node (R28, R89). -/
def RootOk (t : Vector Node 511) (root : NodeIdx) : Prop :=
  root = NONE ∨ (256#9 ≤ root ∧ ∃ n, nodeAt t root = some n ∧ n.valid = true)

/-- The result of BUILD on a frequency table: NODE and ROOT (R93: a function of FREQ alone). -/
@[irreducible] def builtTree (f : Vector Word 256) : Vector Node 511 × NodeIdx :=
  let t := buildState { State.reset with freq := f }
  (t.node, t.root)

/-- The result of GENCODES on a tree: CODE, where the walk ends (R94). -/
@[irreducible] def generatedCodes (t : Vector Node 511) (root : NodeIdx) : Option (Vector Code 256) :=
  match gencodesBody { State.reset with node := t, root := root } with
  | .ok u => some u.code
  | _ => none

/-! ### The invariant -/

/-- The buffers are in canonical form and inside their sizes, and OUT_LEN is inside OBUF with every output byte written
(R26, R40, R74). -/
structure BuffersOk (s : State) : Prop where
  config     : s.cfg.wellFormed = true
  ibufWf     : Memory.wf s.ibuf = true
  ibufWithin : Memory.within s.cfg.ibufSize.toNat s.ibuf = true
  obufWf     : Memory.wf s.obuf = true
  obufWithin : Memory.within s.cfg.obufSize.toNat s.obuf = true
  outLen     : s.outLen ≤ s.cfg.obufSize
  output     : ∀ i, i < s.outLen.toNat → (Memory.read s.obuf i).isSome = true

/-- The lifecycle registers (R22, R32, R38, R66, R70): no error is recorded while a command runs, DONE and BUSY exclude each
other, ERR_INFO is 0 without an error, and the working state is idle between steps. -/
structure LifecycleOk (s : State) : Prop where
  busyClean : s.busy = true → s.done = false ∧ s.errCode = .noError
  errInfo   : s.errCode = .noError → s.errInfo = 0#64
  lastOp    : s.busy = true → s.lastOp = s.curCmd.extractLsb' 0 8
  work      : s.work = Work.idle

/-- What the validity flags guarantee (R24 (a) to (e); IN_LEN <= IBUF_SIZE by D15 of spec/92_eei_decisions.md), with the
order of the flags (R22, R23) and the tables they speak of written since reset. -/
structure FlagsOk (s : State) : Prop where
  srcNeedsTable  : s.ftSrc = true → s.ftV = true
  treeNeedsTable : s.treeV = true → s.ftV = true
  codesNeedTree  : s.codesV = true → s.treeV = true
  freqKnown      : s.ftV = true → s.freqKnown = true
  nodeKnown      : s.treeV = true → s.nodeKnown = true
  codeKnown      : s.codesV = true → s.codeKnown = true
  inputFits      : s.ftV = true → s.inLen ≤ s.cfg.ibufSize
  alphabet       : s.ftV = true → s.nsym.toNat = alphabetSize s.freq ∧ s.total.toNat = freqTotal s.freq
  counted        : s.ftV = true → s.ftSrc = false → s.total.toNat = s.inLen.toNat ∧
                     (InputWritten s → ∀ sym, (freqAt s.freq sym).toNat = (inputOf s).count sym)
  parsed         : s.ftV = true → s.ftSrc = true → s.payloadOff.toNat = 8 + 5 * s.nsym.toNat ∧ s.payloadOff ≤ s.inLen
  tree           : s.treeV = true → builtTree s.freq = (s.node, s.root)
  codes          : s.codesV = true → generatedCodes s.node s.root = some s.code

/-- The invariant every step keeps. -/
structure Inv (s : State) : Prop where
  buffers   : BuffersOk s
  lifecycle : LifecycleOk s
  flags     : FlagsOk s

/-- The state in which a command step is taken: BUSY = 1, in any state of the invariant. -/
def Ready (s : State) : Prop := Inv s ∧ s.busy = true

/-! ### How commands end -/

/-- A state s as a command without an error leaves it (R70). -/
def succeeded (s : State) : State :=
  { s with busy := false, done := true, irqStatus := s.irqStatus ||| irqDone, work := Work.idle }

/-- A state s as a command that ends with error e leaves it (R70, R109). -/
def failed (e : ErrCode) (info : DWord) (s : State) : State :=
  { s with
    busy := false, done := true, errCode := e, errInfo := info, irqStatus := s.irqStatus ||| irqDone ||| irqError
    work := Work.idle }

/-- s with what the end of a command writes, and the model's count of free values, as in t. -/
def ended (t s : State) : State :=
  { s with
    busy := t.busy, done := t.done, errCode := t.errCode, errInfo := t.errInfo, irqStatus := t.irqStatus, work := t.work
    draws := t.draws }

/-- The four validity flags FT_V, FT_SRC, TREE_V and CODES_V (R23). -/
def flagsOf (s : State) : Bool × Bool × Bool × Bool := (s.ftV, s.ftSrc, s.treeV, s.codesV)

/-- A command after another one, where the first ended without an error (R103, R104: "stop at the first stage that ends with
an error", R75). -/
def thenExec (i : Instr) (r : Host.Outcome State Fault Refusal) : Host.Outcome State Fault Refusal :=
  match r with
  | .next t => if t.errCode = .noError then exec i t else .next t
  | .fault f => .fault f
  | .refused f => .refused f

/-! ### Files (R78) -/

/-- Entries of a header: symbols with their counts, in file order. -/
abbrev Entries := List (Byte × Word)

/-- The header bytes of a list of entries (R78). -/
def headerOf (es : Entries) : List Byte := leBytes 8 es.length ++ es.flatMap fun e => e.1 :: leBytes 4 e.2.toNat

/-- No entry has count 0 and no symbol occurs twice (R83). -/
def EntriesOk (es : Entries) : Prop := (es.map fun e => e.1).Nodup ∧ ∀ e ∈ es, e.2 ≠ 0#32

/-- The table f holds exactly these entries (R83). -/
def TableOf (es : Entries) (f : Vector Word 256) : Prop :=
  (∀ e ∈ es, freqAt f e.1 = e.2) ∧ ∀ b, (∀ e ∈ es, e.1 ≠ b) → freqAt f b = 0#32

/-- The bytes, as bits in stream order, are the given bits and then fewer than eight zero bits (R48, R97). -/
def PaddedBits (bytes : List Byte) (bits : List Bool) : Prop :=
  ∃ pad, pad < 8 ∧ bitsOfBytes bytes = bits ++ List.replicate pad false

/-- The bits of the IBUF bytes from PAYLOAD_OFF to IN_LEN: the payload DECODE reads (R98). -/
def payloadOf (s : State) : List Bool := bitsOfBytes ((inputOf s).drop s.payloadOff.toNat)

/-- What the host copied from the OBUF of t into the IBUF of s, setting IN_LEN (H5 of R126). -/
def Copied (t s : State) : Prop :=
  s.inLen = t.outLen ∧ ∀ i, i < t.outLen.toNat → Memory.read s.ibuf i = Memory.read t.obuf i

end Sys2Proof.Machine
end

