-- ==== Sys2Proof/Certificates/Slice0/Obligations.lean ====
section
/-! DEFINITION. The statements for the provers: the numbered rules of spec/ that say what the machine does. -/

open Sys2Proof Sys2Proof.Machine

/-! ### Command words -/

/-- R59, R61: the words of the opcode map, written out; every command's word is legal and decodes to it; and one illegal word
for each of the two reasons of R62. -/
def Obligations.OpcodeMapWords : Prop :=
  (∀ i : Instr, (splitWord (encode i)).wellFormed = true ∧ decodeWord (encode i) = .ok i) ∧
  decodeWord 0x00000000#32 = .ok .nop ∧ decodeWord 0x00000001#32 = .ok .clear ∧
  decodeWord 0x00000010#32 = .ok .count ∧ decodeWord 0x00000011#32 = .ok .serialize ∧
  decodeWord 0x00000012#32 = .ok .build ∧ decodeWord 0x00000013#32 = .ok .gencodes ∧
  decodeWord 0x00000014#32 = .ok .pack ∧ decodeWord 0x00000018#32 = .ok .compress ∧
  decodeWord 0x00000020#32 = .ok .deserialize ∧ decodeWord 0x00000021#32 = .ok .decode ∧
  decodeWord 0x00000028#32 = .ok .decompress ∧
  decodeWord 0x00000105#32 = .error .mbzNonzero ∧ decodeWord 0x00000002#32 = .error .reservedOpcode

/-- R61, R63: a word is the command i exactly when it is i's opcode with [31:8] zero; a word with a bit of [31:8] set, and a
word whose opcode is in one of the reserved ranges, is no command. -/
def Obligations.ElevenWordsOnly : Prop :=
  (∀ (v : Word) (i : Instr), decodeWord v = .ok i ↔ v.toNat = (opcodeOf i).toNat) ∧
  (∀ v : Word, 256 ≤ v.toNat → ∃ e, decodeWord v = .error e) ∧
  ∀ v : Word, (0x02 ≤ v.toNat ∧ v.toNat ≤ 0x0F) ∨ (0x15 ≤ v.toNat ∧ v.toNat ≤ 0x17) ∨ (0x19 ≤ v.toNat ∧ v.toNat ≤ 0x1F) ∨
    (0x22 ≤ v.toNat ∧ v.toNat ≤ 0x27) ∨ (0x29 ≤ v.toNat ∧ v.toNat ≤ 0xFF) → ∃ e, decodeWord v = .error e

/-- R62, R71: what the engine does with each of the 2^32 words the host can have it accept, the word's LAST_OP with it. That
the working state is `Work.idle` after an illegal word is the model's choice (R38, log 9). -/
def Obligations.EveryAcceptedWord : Prop :=
  ∀ (s : State) (v : Word), s.busy = false →
    (accepted v s).lastOp = v.extractLsb' 0 8 ∧
    (v.extractLsb' 8 24 ≠ 0#24 ∨ v.extractLsb' 0 8 ∉ legalOpcodes →
      commandStep (accepted v s) = .next (failed .illegalCmd (v.setWidth 64) (accepted v s))) ∧
    (v.extractLsb' 8 24 = 0#24 → v.extractLsb' 0 8 ∈ legalOpcodes →
      ∃ i, opcodeOf i = v.extractLsb' 0 8 ∧ commandStep (accepted v s) = exec i (accepted v s))

/-! ### Steps -/

/-- R68, R54, R65: a step in the engine's turn runs the decoded command, an illegal word included; else the host takes the
first of its accesses still to come, by the operation of that access, and WAIT reads STATUS again while BUSY = 1. A word placed
by `State.withFetchWord` is run by the very next step (log 11). The list of accesses and its count of steps are the model's
(logs 2, 3), waiting for IRQ too (log 12), and so is the working state after an illegal word (log 9). -/
def Obligations.StepRunsDecodedCommand : Prop :=
  (∀ (s : State) (i : Instr), engineTurn s = true → decodeWord s.curCmd = .ok i → step s = exec i s) ∧
  (∀ (s : State) (e : Illegal), engineTurn s = true → decodeWord s.curCmd = .error e → step s = .next (illegalCommand s)) ∧
  (∀ s : State, engineTurn s = false → step s = .next (hostStep s)) ∧
  (∀ (s : State) (i : Instr), step (s.withFetchWord 32 (encode i).toNat) = exec i (s.withFetchWord 32 (encode i).toNat)) ∧
  (∀ s : State, s.script = [] → hostStep s = s) ∧
  (∀ (s : State) (a : HostAction) (rest : List HostAction), s.script = a :: rest →
    hostStep s = hostAct a { s with script := rest, delay := s.delay - 1 }) ∧
  ∀ s : State,
    (∀ off, hostAct (.regRead off) s = hostRegRead off s) ∧ (∀ off v, hostAct (.regWrite off v) s = hostRegWrite off v s) ∧
    (∀ i, hostAct (.ibufRead i) s = hostIbufRead i s) ∧ (∀ i v, hostAct (.ibufWrite i v) s = hostIbufWrite i v s) ∧
    (∀ i, hostAct (.obufRead i) s = hostObufRead i s) ∧ (∀ i v, hostAct (.obufWrite i v) s = s) ∧
    (s.busy = false → hostAct .wait s = hostRegRead 0x00C#16 s) ∧
    (s.busy = true → hostAct .wait s = { hostRegRead 0x00C#16 s with script := .wait :: s.script }) ∧
    (irqLine s = true → hostAct .waitIrq s = s) ∧ (irqLine s = false → hostAct .waitIrq s = { s with script := .waitIrq :: s.script })

/-- R68, R129: a command that has been accepted is not postponed for ever: after at most DELAY host steps it is the engine's
turn, or the host has reset the block. The number is a free value (log 3). -/
def Obligations.CommandStepIsReached : Prop :=
  ∀ s : State, s.busy = true → ∃ k t, k ≤ s.delay ∧ Host.Core.run Sys2Proof.core k s = .next t ∧
    (engineTurn t = true ∨ t.busy = false)

/-- R66: a CMD write while BUSY = 0 is accepted; nothing else changes but the model's own delay and count (log 3). -/
def Obligations.CmdWriteAccepted : Prop :=
  ∀ (s : State) (off : BitVec 16) (v : Word), s.busy = false → wordOffset off = 0x008#16 →
    ∃ n d, hostRegWrite off v s =
      { s with
        busy := true, done := false, errCode := .noError, errInfo := 0#64, lastOp := v.extractLsb' 0 8, curCmd := v
        delay := n, draws := d }

/-- R67: CMD, IN_LEN and in-range IBUF writes while BUSY = 1 set OVR and nothing else; IRQ_EN and IRQ_STATUS are written as
ever; OVR then stays until CLEAR or reset. -/
def Obligations.WritesWhileBusy : Prop :=
  (∀ s : State, s.busy = true →
    (∀ off v, wordOffset off = 0x008#16 ∨ wordOffset off = 0x010#16 → hostRegWrite off v s = { s with ovr := true }) ∧
    (∀ i v, i < s.cfg.ibufSize.toNat → hostIbufWrite i v s = { s with ovr := true }) ∧
    (∀ off v, wordOffset off = 0x044#16 → hostRegWrite off v s = { s with irqEn := v.extractLsb' 0 2 }) ∧
    ∀ off v, wordOffset off = 0x048#16 → hostRegWrite off v s = { s with irqStatus := s.irqStatus &&& ~~~(v.extractLsb' 0 2) }) ∧
  ∀ s t : State, s.ovr = true → step s = .next t → t.ovr = true ∨
    (engineTurn s = true ∧ decodeWord s.curCmd = .ok .clear) ∨ (engineTurn s = false ∧ s.script.head? = some .reset)

/-! ### Registers and buffers as the host sees them -/

/-- R25, R23, R33: an IN_LEN write while BUSY = 0 stores any value and clears the four flags, and no command writes IN_LEN; the
bits of IRQ_EN and IRQ_STATUS a write changes, whether BUSY is 0 or 1, where [31:2] do not matter. -/
def Obligations.ControlRegisterWrites : Prop :=
  (∀ (s : State) (off : BitVec 16) (v : Word),
    (s.busy = false → wordOffset off = 0x010#16 →
      hostRegWrite off v s = { s with inLen := v, ftV := false, ftSrc := false, treeV := false, codesV := false }) ∧
    (wordOffset off = 0x044#16 → hostRegWrite off v s = { s with irqEn := v.extractLsb' 0 2 }) ∧
    (wordOffset off = 0x048#16 → ∃ b, hostRegWrite off v s = { s with irqStatus := b } ∧
      ∀ j, j < 2 → b.getLsbD j = (s.irqStatus.getLsbD j && !v.getLsbD j))) ∧
  ∀ (i : Instr) (s t : State), exec i s = .next t → t.inLen = s.inLen

/-- R18, R35, R36, R37: which offsets every register, table word and reserved word has. -/
def Obligations.RegisterMap : Prop :=
  ∀ off : BitVec 16, (wordOffset off).toNat = off.toNat / 4 * 4 ∧
    (∀ p ∈ regTable, regAt off = p.2 ↔ wordOffset off = p.1) ∧
    (∀ sym : Byte, regAt off = .freq sym ↔ (wordOffset off).toNat = 0x400 + 4 * sym.toNat) ∧
    (∀ i : NodeIdx, regAt off = .node0 i ↔ (wordOffset off).toNat = 0x1000 + 8 * i.toNat ∧ i ≠ NONE) ∧
    (∀ i : NodeIdx, regAt off = .node1 i ↔ (wordOffset off).toNat = 0x1000 + 8 * i.toNat + 4 ∧ i ≠ NONE) ∧
    (∀ (sym : Byte) (w : BitVec 4), regAt off = .code sym w ↔ (wordOffset off).toNat = 0x2000 + 64 * sym.toNat + 4 * w.toNat) ∧
    (regAt off = .reserved ↔
      (0x54 ≤ (wordOffset off).toNat ∧ (wordOffset off).toNat ≤ 0x3FC) ∨
      (0x800 ≤ (wordOffset off).toNat ∧ (wordOffset off).toNat ≤ 0xFFC) ∨
      (0x1FF8 ≤ (wordOffset off).toNat ∧ (wordOffset off).toNat ≤ 0x1FFC) ∨ 0x6000 ≤ (wordOffset off).toNat)

/-- R19: ID, VERSION and the two sizes read as their constants at all times, and writes to them are ignored. -/
def Obligations.ConstantRegisters : Prop :=
  ∀ (s : State) (off : BitVec 16),
    (wordOffset off = 0x000#16 → hostRegRead off s = reply (.word 0x48554646#32) s ∧ ∀ v, hostRegWrite off v s = s) ∧
    (wordOffset off = 0x004#16 → hostRegRead off s = reply (.word 0x00010000#32) s ∧ ∀ v, hostRegWrite off v s = s) ∧
    (wordOffset off = 0x04C#16 → hostRegRead off s = reply (.word s.cfg.ibufSize) s ∧ ∀ v, hostRegWrite off v s = s) ∧
    (wordOffset off = 0x050#16 → hostRegRead off s = reply (.word s.cfg.obufSize) s ∧ ∀ v, hostRegWrite off v s = s)

/-- R20, R21: a reserved offset reads 0, and so do CMD and every reserved field, whether BUSY is 0 or 1, whatever free word w is
in hand, and before a table is written too; a write to a reserved offset or to any register but CMD, IN_LEN, IRQ_EN and
IRQ_STATUS changes nothing, OVR included, and the reserved bits [31:2] written to the last two do not matter. That R20 holds of
the NSYM, ROOT, NODE and CODE words while BUSY = 1, where R46 says "any value", is the model's reading (log 7, DEDUCED), and so it
is of table words not yet written, where R39 says so (log 5, DEDUCED). -/
def Obligations.ReservedAndReadOnly : Prop :=
  ∀ (s : State) (off : BitVec 16),
    (regAt off = .reserved ∨ wordOffset off = 0x008#16 → hostRegRead off s = reply (.word 0#32) s) ∧
    (wordOffset off ∉ [0x008#16, 0x010#16, 0x044#16, 0x048#16] → ∀ v, hostRegWrite off v s = s) ∧
    (wordOffset off ∈ [0x044#16, 0x048#16] → ∀ v v', v.extractLsb' 0 2 = v'.extractLsb' 0 2 →
      hostRegWrite off v s = hostRegWrite off v' s) ∧
    ∀ w : Word, (readReg s .status w).1.extractLsb' 24 8 = 0#8 ∧
      (∀ r ∈ [Reg.nsym, .root], (readReg s r w).1.extractLsb' 9 23 = 0#23) ∧
      (∀ r ∈ [Reg.irqEn, .irqStatus], (readReg s r w).1.extractLsb' 2 30 = 0#30) ∧
      (∀ i, (readReg s (.node1 i) w).1.extractLsb' 26 4 = 0#4) ∧ (∀ sym, (readReg s (.code sym 0#4) w).1.extractLsb' 8 24 = 0#24) ∧
      ∀ (sym : Byte) (k : BitVec 4), 1 ≤ k.toNat → k.toNat ≤ 7 → (readReg s (.code sym k) w).1 = 0#32

/-- R18, R25 to R35: what the readable registers return while BUSY = 0; a 64-bit register is HI and LO of one value, and
FREQ, NODE and CODE read as their entries once a command has written them. -/
def Obligations.ReadsWhileIdle : Prop :=
  ∀ (s : State) (off : BitVec 16), s.busy = false →
    (wordOffset off = 0x00C#16 → hostRegRead off s = reply (.word (statusWord s)) s) ∧
    (wordOffset off = 0x010#16 → hostRegRead off s = reply (.word s.inLen) s) ∧
    (wordOffset off = 0x014#16 → hostRegRead off s = reply (.word s.outLen) s) ∧
    (wordOffset off = 0x018#16 → hostRegRead off s = reply (.word (s.nsym.setWidth 32)) s) ∧
    (wordOffset off = 0x01C#16 → hostRegRead off s = reply (.word (s.root.setWidth 32)) s) ∧
    (wordOffset off = 0x038#16 → hostRegRead off s = reply (.word s.payloadOff) s) ∧
    (wordOffset off = 0x044#16 → hostRegRead off s = reply (.word (s.irqEn.setWidth 32)) s) ∧
    (wordOffset off = 0x048#16 → hostRegRead off s = reply (.word (s.irqStatus.setWidth 32)) s) ∧
    (∀ base r, (base, r) ∈ [(0x020#16, s.total), (0x028#16, s.origBits), (0x030#16, s.compBits), (0x03C#16, s.errInfo)] →
      ∃ lo hi : Word, hi ++ lo = r ∧ (wordOffset off = base → hostRegRead off s = reply (.word lo) s) ∧
        (wordOffset off = base + 4#16 → hostRegRead off s = reply (.word hi) s)) ∧
    (∀ sym, s.freqKnown = true → regAt off = .freq sym → hostRegRead off s = reply (.word (freqAt s.freq sym)) s) ∧
    (∀ i n, s.nodeKnown = true → nodeAt s.node i = some n →
      (regAt off = .node0 i → hostRegRead off s = reply (.word n.word0) s) ∧
      (regAt off = .node1 i → hostRegRead off s = reply (.word n.word1) s)) ∧
    ∀ sym w, s.codeKnown = true → regAt off = .code sym w → hostRegRead off s = reply (.word ((codeAt s.code sym).word w)) s

/-- R46, R22, R20: while BUSY = 1 the listed words read the values written out, STATUS shows BUSY, DONE, OVR and LAST_OP exactly whatever
word is in hand, and every field of every other word reads as that of the free word in hand (its reserved bits read 0: log 7). -/
def Obligations.ReadsWhileBusy : Prop :=
  ∀ (s : State) (w : Word), s.busy = true →
    (∀ p ∈ [(Reg.id, 0x48554646#32), (.version, 0x00010000#32), (.cmd, 0#32), (.inLen, s.inLen), (.irqEn, s.irqEn.setWidth 32),
      (.irqStatus, s.irqStatus.setWidth 32), (.capIbufSize, s.cfg.ibufSize), (.capObufSize, s.cfg.obufSize), (.reserved, 0#32)],
      readReg s p.1 w = (p.2, false)) ∧
    ((readReg s .status w).1.getLsbD 0 = true ∧ (readReg s .status w).1.getLsbD 1 = s.done ∧
      (readReg s .status w).1.getLsbD 3 = s.ovr ∧ (readReg s .status w).1.extractLsb' 16 8 = s.lastOp) ∧
    (∀ j ∈ [2, 4, 5, 6, 7, 8, 9, 10, 11, 12, 13, 14, 15], (readReg s .status w).1.getLsbD j = w.getLsbD j) ∧
    (∀ r ∈ [Reg.outLen, .totalLo, .totalHi, .origBitsLo, .origBitsHi, .compBitsLo, .compBitsHi, .payloadOff, .errInfoLo,
      .errInfoHi], readReg s r w = (w, true)) ∧
    (∀ r ∈ [Reg.nsym, .root], readReg s r w = (w &&& 0x000001FF#32, true)) ∧
    (∀ sym, readReg s (.freq sym) w = (w, true)) ∧
    (∀ i, readReg s (.node0 i) w = (w, true) ∧ readReg s (.node1 i) w = (w &&& 0xC3FFFFFF#32, true)) ∧
    ∀ (sym : Byte) (k : BitVec 4), (k = 0#4 → readReg s (.code sym k) w = (w &&& 0x000000FF#32, true)) ∧
      (8 ≤ k.toNat → readReg s (.code sym k) w = (w, true))

/-- R22, R36, R37, R107, R108: the places of the fields of STATUS, of a NODE entry and of a CODE entry, and the number that
STATUS.ERRCODE holds for each error, with the error's class. -/
def Obligations.FieldLayouts : Prop :=
  (∀ s : State, (statusWord s).getLsbD 0 = s.busy ∧ (statusWord s).getLsbD 1 = s.done ∧
    ((statusWord s).getLsbD 2 = true ↔ s.errCode.toBits ≠ 0#8) ∧ (statusWord s).getLsbD 3 = s.ovr ∧
    (statusWord s).getLsbD 4 = s.ftV ∧ (statusWord s).getLsbD 5 = s.ftSrc ∧ (statusWord s).getLsbD 6 = s.treeV ∧
    (statusWord s).getLsbD 7 = s.codesV ∧ (statusWord s).extractLsb' 8 8 = s.errCode.toBits ∧
    (statusWord s).extractLsb' 16 8 = s.lastOp ∧ (statusWord s).extractLsb' 24 8 = 0#8) ∧
  (∀ e : ErrCode, (e.toBits, e.errClass) =
    match e with
    | .noError => (0x00#8, none)
    | .ioErrorInput => (0x01#8, some .ioError)
    | .ioErrorOutput => (0x02#8, some .ioError)
    | .hdrShort => (0x03#8, some .corruptHeader)
    | .hdrCountRange => (0x04#8, some .corruptHeader)
    | .hdrTruncated => (0x05#8, some .corruptHeader)
    | .hdrZeroFreq => (0x06#8, some .corruptHeader)
    | .hdrDupSymbol => (0x07#8, some .corruptHeader)
    | .streamAbsentChild => (0x08#8, some .corruptStream)
    | .streamEos => (0x09#8, some .corruptStream)
    | .illegalCmd => (0x0A#8, some .illegalCommand)
    | .seqError => (0x0B#8, some .sequenceError)) ∧
  (∀ n : Node, (n.valid = false → n.word0 = 0#32 ∧ n.word1 = 0#32) ∧
    (n.valid = true → n.word0 = n.freq.extractLsb' 0 32 ∧ n.word1.extractLsb' 0 8 = n.freq.extractLsb' 32 8 ∧
      n.word1.extractLsb' 8 9 = n.left ∧ n.word1.extractLsb' 17 9 = n.right ∧ n.word1.extractLsb' 26 4 = 0#4 ∧
      n.word1.getLsbD 30 = n.leaf ∧ n.word1.getLsbD 31 = true)) ∧
  ∀ c : Code, c.word 0#4 = c.len.setWidth 32 ∧ (∀ w : BitVec 4, 1 ≤ w.toNat → w.toNat ≤ 7 → c.word w = 0#32) ∧
    ∀ (w : BitVec 4) (k : Nat), 8 ≤ w.toNat → k < 32 → (c.word w).getLsbD k = c.bits.getLsbD (32 * (w.toNat - 8) + k)

/-- R44, R39: the host's accesses to IBUF, in range and out of range, idle and busy; a byte nobody has written since reset reads
as a fresh free value (log 4). -/
def Obligations.IbufAccess : Prop :=
  ∀ (s : State) (i : Nat),
    (i < s.cfg.ibufSize.toNat →
      (∀ b, Memory.read s.ibuf i = some b → hostIbufRead i s = reply (.byte b) s) ∧
      (Memory.read s.ibuf i = none →
        hostIbufRead i s = reply (.byte (Config.freeByte s.draws)) { s with draws := s.draws + 1 }) ∧
      (∀ v, s.busy = false → ∃ m, hostIbufWrite i v s =
          { s with ibuf := m, ftV := false, ftSrc := false, treeV := false, codesV := false } ∧
        Memory.read m i = some v ∧ ∀ j, j ≠ i → Memory.read m j = Memory.read s.ibuf j) ∧
      ∀ v, s.busy = true → hostIbufWrite i v s = { s with ovr := true }) ∧
    (s.cfg.ibufSize.toNat ≤ i → hostIbufRead i s = reply (.byte 0#8) s ∧ ∀ v, hostIbufWrite i v s = s)

/-- R45: the host's accesses to OBUF: the byte last written while BUSY = 0; a free value while BUSY = 1 or where nothing has
been written since reset (log 4); 0 out of range; writes ignored. -/
def Obligations.ObufAccess : Prop :=
  ∀ (s : State) (i : Nat),
    (i < s.cfg.obufSize.toNat →
      (s.busy = false → ∀ b, Memory.read s.obuf i = some b → hostObufRead i s = reply (.byte b) s) ∧
      (s.busy = true ∨ Memory.read s.obuf i = none →
        hostObufRead i s = reply (.byte (Config.freeByte s.draws)) { s with draws := s.draws + 1 })) ∧
    (s.cfg.obufSize.toNat ≤ i → hostObufRead i s = reply (.byte 0#8) s) ∧ ∀ v, hostAct (.obufWrite i v) s = s

/-- R43, R53: a host read of any space changes nothing but what the host has read (log 2) and the model's count of free values
(log 3); a register read returns what `readReg` gives for the word its offset goes to, with the next free word in hand. -/
def Obligations.ReadsChangeNothing : Prop :=
  ∀ s : State,
    (∀ off, ∃ d, hostRegRead off s =
      { s with reads := .word (readReg s (regAt off) (Config.freeWord s.draws)).1 :: s.reads, draws := d }) ∧
    (∀ i, ∃ v d, hostIbufRead i s = { s with reads := .byte v :: s.reads, draws := d }) ∧
    ∀ i, ∃ v d, hostObufRead i s = { s with reads := .byte v :: s.reads, draws := d }

/-- R115, R114: the interrupt output, its pending bits, which only the host's write or reset clears, and its enables. -/
def Obligations.InterruptOutput : Prop :=
  (∀ s : State, irqLine s = true ↔ (s.irqStatus.getLsbD 0 = true ∧ s.irqEn.getLsbD 0 = true) ∨
    (s.irqStatus.getLsbD 1 = true ∧ s.irqEn.getLsbD 1 = true)) ∧
  (∀ (i : Instr) (s t : State), exec i s = .next t → t.irqEn = s.irqEn ∧ t.irqStatus.getLsbD 0 = true ∧
    t.irqStatus.getLsbD 1 = (s.irqStatus.getLsbD 1 || decide (t.errCode ≠ .noError))) ∧
  (∀ (s : State) (j : Nat), s.irqStatus.getLsbD j = true → (hostStep s).irqStatus.getLsbD j = true ∨
    (∃ off v, s.script.head? = some (.regWrite off v) ∧ wordOffset off = 0x048#16 ∧ v.getLsbD j = true) ∨
    s.script.head? = some .reset) ∧
  ∀ c : Config, irqLine (State.resetWith c) = false

/-! ### Reset -/

/-- R39: every register after reset, with any buffer sizes, ID, VERSION and the sizes as the host reads them; the fields of
FREQ, NODE and CODE words read as those of any word, and no byte of IBUF or OBUF has a value (logs 4, 5). `State.reset` takes
the sizes of log 1. -/
def Obligations.ResetValues : Prop :=
  State.reset = State.resetWith Config.default ∧
  ∀ c : Config,
    (∀ w, readReg (State.resetWith c) .id w = (0x48554646#32, false) ∧ readReg (State.resetWith c) .version w = (0x00010000#32, false) ∧
      readReg (State.resetWith c) .capIbufSize w = (c.ibufSize, false) ∧
      readReg (State.resetWith c) .capObufSize w = (c.obufSize, false) ∧ readReg (State.resetWith c) .status w = (0#32, false)) ∧
    statusWord (State.resetWith c) = 0#32 ∧ (State.resetWith c).cfg = c ∧ (State.resetWith c).inLen = 0#32 ∧
    (State.resetWith c).outLen = 0#32 ∧ (State.resetWith c).nsym = 0#9 ∧ (State.resetWith c).root = 0x1FF#9 ∧
    (State.resetWith c).total = 0#64 ∧ (State.resetWith c).origBits = 0#64 ∧ (State.resetWith c).compBits = 0#64 ∧
    (State.resetWith c).payloadOff = 0#32 ∧ (State.resetWith c).errInfo = 0#64 ∧ (State.resetWith c).irqEn = 0#2 ∧
    (State.resetWith c).irqStatus = 0#2 ∧
    (∀ w sym, readReg (State.resetWith c) (.freq sym) w = (w, true)) ∧
    (∀ w i, readReg (State.resetWith c) (.node0 i) w = (w, true) ∧
      readReg (State.resetWith c) (.node1 i) w = (w &&& 0xC3FFFFFF#32, true)) ∧
    (∀ (w : Word) (sym : Byte) (k : BitVec 4), (k = 0#4 → readReg (State.resetWith c) (.code sym k) w = (w &&& 0x000000FF#32, true)) ∧
      (8 ≤ k.toNat → readReg (State.resetWith c) (.code sym k) w = (w, true))) ∧
    ∀ i, Memory.read (State.resetWith c).ibuf i = none ∧ Memory.read (State.resetWith c).obuf i = none

/-- R123: the reset input, at any time: the block is as after reset, with the same buffer sizes and the host's own side kept
(log 10), idle, with IRQ = 0; and the next CMD write is accepted. That the hidden working state and CUR_CMD have their values after
reset is the model's choice (R38, log 9). -/
def Obligations.ResetInput : Prop :=
  ∀ s : State, ∃ t, hostAct .reset s = t ∧
    t = { State.resetWith s.cfg with script := s.script, reads := s.reads, draws := s.draws } ∧
    t.busy = false ∧ irqLine t = false ∧ statusWord t = 0#32 ∧
    ∀ off v, wordOffset off = 0x008#16 → (hostRegWrite off v t).busy = true ∧ (hostRegWrite off v t).curCmd = v

/-! ### Every command -/

/-- R70: completion of every command, successful or not, legal or not, and the ERR view. -/
def Obligations.CommandCompletion : Prop :=
  ∀ s t : State, commandStep s = .next t →
    t.busy = false ∧ t.done = true ∧
    t.irqStatus = (if t.errCode = .noError then s.irqStatus ||| 0b01#2 else s.irqStatus ||| 0b11#2) ∧
    ((statusWord t).getLsbD 2 = true ↔ t.errCode ≠ .noError)

/-- R69: a precondition that fails records the error of the table, changes no other state and completes. That completion leaves
the working state `Work.idle` is the model's choice (R38, log 9). -/
def Obligations.PreconditionErrors : Prop :=
  ∀ s : State,
    (s.cfg.ibufSize < s.inLen → ∀ i ∈ [Instr.count, .compress, .deserialize, .decompress],
      exec i s = .next (failed .ioErrorInput (s.inLen.setWidth 64) s)) ∧
    (s.ftV = false → ∀ i ∈ [Instr.serialize, .build], exec i s = .next (failed .seqError 0#64 s)) ∧
    (s.treeV = false → exec .gencodes s = .next (failed .seqError 0#64 s)) ∧
    (s.codesV = false ∨ s.ftSrc = true → exec .pack s = .next (failed .seqError 0#64 s)) ∧
    (s.treeV = false ∨ s.ftSrc = false → exec .decode s = .next (failed .seqError 0#64 s))

/-- R108, R69, R112: which errors each command can end with, their cause, and what ERR_INFO holds. Where the cause is what a byte
of the input says, it is stated of an input the host has written (log 4). -/
def Obligations.ErrorTable : Prop :=
  ∀ (i : Instr) (s t : State), Ready s → exec i s = .next t →
    match t.errCode with
    | .noError => t.errInfo = 0#64
    | .ioErrorInput => i ∈ [Instr.count, .compress, .deserialize, .decompress] ∧ s.cfg.ibufSize < s.inLen ∧
        t.errInfo.toNat = s.inLen.toNat
    | .ioErrorOutput => i ∈ [Instr.pack, .compress, .decode, .decompress] ∧ t.outLen = s.cfg.obufSize ∧
        t.errInfo.toNat = s.cfg.obufSize.toNat ∧ (i ∈ [Instr.decode, .decompress] → s.cfg.obufSize.toNat < t.total.toNat) ∧
        (InputWritten s → (i = .pack →
            s.cfg.obufSize.toNat < s.outLen.toNat + ((payloadBits s.code (inputOf s)).length + 7) / 8) ∧
          (i = .compress →
            s.cfg.obufSize.toNat < 8 + 5 * t.nsym.toNat + ((payloadBits t.code (inputOf s)).length + 7) / 8))
    | .hdrShort => i ∈ [Instr.deserialize, .decompress] ∧ s.inLen.toNat < 8 ∧ t.errInfo.toNat = s.inLen.toNat
    | .hdrCountRange => i ∈ [Instr.deserialize, .decompress] ∧ 8 ≤ s.inLen.toNat ∧ 256 < t.errInfo.toNat ∧
        (InputWritten s → t.errInfo.toNat = leValue ((inputOf s).take 8))
    | .hdrTruncated => i ∈ [Instr.deserialize, .decompress] ∧ 8 ≤ s.inLen.toNat ∧ t.errInfo.toNat ≤ 256 ∧
        s.inLen.toNat < 8 + 5 * t.errInfo.toNat ∧ (InputWritten s → t.errInfo.toNat = leValue ((inputOf s).take 8))
    | .hdrZeroFreq => i ∈ [Instr.deserialize, .decompress] ∧ ∃ j, t.errInfo.toNat = 8 + 5 * j ∧ 8 + 5 * j + 5 ≤ s.inLen.toNat ∧
        (InputWritten s → j < leValue ((inputOf s).take 8) ∧ leValue (((inputOf s).drop (8 + 5 * j + 1)).take 4) = 0)
    | .hdrDupSymbol => i ∈ [Instr.deserialize, .decompress] ∧ ∃ j, t.errInfo.toNat = 8 + 5 * j ∧ 8 + 5 * j + 5 ≤ s.inLen.toNat ∧
        (InputWritten s → j < leValue ((inputOf s).take 8) ∧ leValue (((inputOf s).drop (8 + 5 * j + 1)).take 4) ≠ 0 ∧
          ∃ j', j' < j ∧ (inputOf s)[8 + 5 * j']? = (inputOf s)[8 + 5 * j]?)
    | .streamAbsentChild => i ∈ [Instr.decode, .decompress] ∧ t.nsym = 1#9 ∧
        t.errInfo.toNat < 8 * (s.inLen.toNat - t.payloadOff.toNat) ∧
        (InputWritten s → (payloadOf t)[t.errInfo.toNat]? = some true)
    | .streamEos => i ∈ [Instr.decode, .decompress] ∧ t.errInfo.toNat = 8 * (s.inLen.toNat - t.payloadOff.toNat) ∧
        t.outLen.toNat < t.total.toNat
    | .illegalCmd => False
    | .seqError => t.errInfo = 0#64 ∧ ((i ∈ [Instr.serialize, .build] ∧ s.ftV = false) ∨ (i = .gencodes ∧ s.treeV = false) ∨
        (i = .pack ∧ (s.codesV = false ∨ s.ftSrc = true)) ∨ (i = .decode ∧ (s.treeV = false ∨ s.ftSrc = false)))

/-- R23: the flags after every command, and after every host step. -/
def Obligations.ValidityFlags : Prop :=
  (∀ (i : Instr) (s t : State), exec i s = .next t → s.cfg.wellFormed = true → s.errCode = .noError →
    flagsOf t =
      match i with
      | .nop => flagsOf s
      | .clear => (false, false, false, false)
      | .count => if s.inLen ≤ s.cfg.ibufSize then (true, false, false, false) else flagsOf s
      | .serialize => flagsOf s
      | .build => if s.ftV then (s.ftV, s.ftSrc, true, false) else flagsOf s
      | .gencodes => if s.treeV then (s.ftV, s.ftSrc, s.treeV, true) else flagsOf s
      | .pack => flagsOf s
      | .compress => if s.inLen ≤ s.cfg.ibufSize then (true, false, true, true) else flagsOf s
      | .deserialize =>
        if s.inLen ≤ s.cfg.ibufSize then
          if t.errCode = .noError then (true, true, false, false) else (false, false, false, false)
        else flagsOf s
      | .decode => flagsOf s
      | .decompress =>
        if s.inLen ≤ s.cfg.ibufSize then
          if t.errCode.errClass = some .corruptHeader then (false, false, false, false) else (true, true, true, false)
        else flagsOf s) ∧
  ∀ s : State, flagsOf (hostStep s) =
    match s.script.head? with
    | some (.regWrite off _) => if wordOffset off = 0x010#16 ∧ s.busy = false then (false, false, false, false) else flagsOf s
    | some (.ibufWrite i _) =>
      if i < s.cfg.ibufSize.toNat ∧ s.busy = false then (false, false, false, false) else flagsOf s
    | some .reset => (false, false, false, false)
    | _ => flagsOf s

/-! ### Frames -/

/-- What the commands that store no byte of OBUF leave as it was: every register and table but those named, IBUF and OBUF
byte for byte, in every case they come to (R77, R79, R83, R87, R94; R30; R127). -/
def Obligations.FramesWithoutOutput : Prop :=
  ∀ s t : State,
    (exec .nop s = .next t → t = ended t s) ∧
    (exec .clear s = .next t → t = { ended t s with
      freq := t.freq, freqKnown := t.freqKnown, node := t.node, nodeKnown := t.nodeKnown, code := t.code
      codeKnown := t.codeKnown, nsym := t.nsym, root := t.root, total := t.total, origBits := t.origBits
      compBits := t.compBits, payloadOff := t.payloadOff, outLen := t.outLen, ovr := t.ovr
      ftV := t.ftV, ftSrc := t.ftSrc, treeV := t.treeV, codesV := t.codesV }) ∧
    (exec .count s = .next t → t = { ended t s with
      freq := t.freq, freqKnown := t.freqKnown, nsym := t.nsym, root := t.root, total := t.total, origBits := t.origBits
      compBits := t.compBits, payloadOff := t.payloadOff, ftV := t.ftV, ftSrc := t.ftSrc, treeV := t.treeV
      codesV := t.codesV }) ∧
    (exec .deserialize s = .next t → t = { ended t s with
      freq := t.freq, freqKnown := t.freqKnown, nsym := t.nsym, root := t.root, total := t.total, origBits := t.origBits
      compBits := t.compBits, payloadOff := t.payloadOff, ftV := t.ftV, ftSrc := t.ftSrc, treeV := t.treeV
      codesV := t.codesV }) ∧
    (exec .build s = .next t → t = { ended t s with
      node := t.node, nodeKnown := t.nodeKnown, root := t.root, treeV := t.treeV, codesV := t.codesV }) ∧
    (exec .gencodes s = .next t → t = { ended t s with code := t.code, codeKnown := t.codeKnown, codesV := t.codesV }) ∧
    ∀ i ∈ [Instr.nop, .clear, .count, .deserialize, .build, .gencodes], exec i s = .next t →
      ∀ a, Memory.read t.ibuf a = Memory.read s.ibuf a ∧ Memory.read t.obuf a = Memory.read s.obuf a

/-- What the commands that store to OBUF leave as it was: every register and table but those named, IBUF, and every byte of
OBUF outside the bytes emitted, which run from the command's first index (0, or OUT_LEN for PACK) up to OUT_LEN (R51; R81,
R99, R100, R103, R104; R127). -/
def Obligations.FramesWithOutput : Prop :=
  ∀ s t : State,
    (exec .serialize s = .next t → t = { ended t s with obuf := t.obuf, outLen := t.outLen }) ∧
    (exec .pack s = .next t → t = { ended t s with obuf := t.obuf, outLen := t.outLen, compBits := t.compBits }) ∧
    (exec .decode s = .next t → t = { ended t s with
      obuf := t.obuf, outLen := t.outLen, origBits := t.origBits, compBits := t.compBits }) ∧
    (exec .compress s = .next t → t = { ended t s with
      obuf := t.obuf, outLen := t.outLen, freq := t.freq, freqKnown := t.freqKnown, nsym := t.nsym, root := t.root
      total := t.total, origBits := t.origBits, compBits := t.compBits, payloadOff := t.payloadOff, node := t.node
      nodeKnown := t.nodeKnown, code := t.code, codeKnown := t.codeKnown, ftV := t.ftV, ftSrc := t.ftSrc, treeV := t.treeV
      codesV := t.codesV }) ∧
    (exec .decompress s = .next t → t = { ended t s with
      obuf := t.obuf, outLen := t.outLen, freq := t.freq, freqKnown := t.freqKnown, nsym := t.nsym, root := t.root
      total := t.total, origBits := t.origBits, compBits := t.compBits, payloadOff := t.payloadOff, node := t.node
      nodeKnown := t.nodeKnown, ftV := t.ftV, ftSrc := t.ftSrc, treeV := t.treeV, codesV := t.codesV }) ∧
    ∀ i ∈ [Instr.serialize, .pack, .decode, .compress, .decompress], exec i s = .next t →
      ∀ a, Memory.read t.ibuf a = Memory.read s.ibuf a ∧
        (a < (if i = .pack then s.outLen.toNat else 0) ∨ t.outLen.toNat ≤ a → Memory.read t.obuf a = Memory.read s.obuf a)

/-! ### Housekeeping -/

/-- R76: NOP, accepted in any idle state, completes with nothing else changed. That the working state is `Work.idle` after it is
the model's choice (R38, log 9). -/
def Obligations.NopCompletes : Prop :=
  ∀ s : State, s.busy = false → exec .nop (accepted (encode .nop) s) = .next
    { s with
      busy := false, done := true, errCode := .noError, errInfo := 0#64, lastOp := 0x00#8, curCmd := 0#32
      irqStatus := s.irqStatus ||| 0b01#2, work := Work.idle }

/-- R77: CLEAR, accepted in any idle state, empties the engine's state; every table word reads 0 after it; and no other command,
nor an illegal word, changes OVR. That the working state is `Work.idle` after it is the model's choice (R38, log 9). -/
def Obligations.ClearEmpties : Prop :=
  (∀ s : State, s.busy = false → ∃ t, exec .clear (accepted (encode .clear) s) = .next t ∧
    t = { s with
      busy := false, done := true, ovr := false, ftV := false, ftSrc := false, treeV := false, codesV := false
      errCode := .noError, errInfo := 0#64, lastOp := 0x01#8, curCmd := 1#32, irqStatus := s.irqStatus ||| 0b01#2
      work := Work.idle, outLen := 0#32, nsym := 0#9, root := NONE, total := 0#64, origBits := 0#64, compBits := 0#64
      payloadOff := 0#32, freq := t.freq, freqKnown := true, node := t.node, nodeKnown := true, code := t.code
      codeKnown := true } ∧
    (∀ w sym, readReg t (.freq sym) w = (0#32, false)) ∧
    (∀ w i, readReg t (.node0 i) w = (0#32, false) ∧ readReg t (.node1 i) w = (0#32, false)) ∧
    ∀ w sym k, readReg t (.code sym k) w = (0#32, false)) ∧
  (∀ (i : Instr) (s t : State), i ≠ .clear → exec i s = .next t → t.ovr = s.ovr) ∧
  ∀ s : State, (illegalCommand s).ovr = s.ovr

/-! ### Frequency table and header -/

/-- R79, R80, R85: COUNT of any input that fits IBUF. FREQ is known byte for byte where the host has written the input. -/
def Obligations.CountResult : Prop :=
  ∀ s : State, s.errCode = .noError → s.inLen ≤ s.cfg.ibufSize →
    ∃ t, exec .count s = .next t ∧ t.errCode = .noError ∧
      (InputWritten s → ∀ sym, (freqAt t.freq sym).toNat = (inputOf s).count sym) ∧
      freqTotal t.freq = s.inLen.toNat ∧ (∀ sym, (freqAt t.freq sym).toNat ≤ s.inLen.toNat) ∧
      t.nsym.toNat = alphabetSize t.freq ∧ t.total.toNat = s.inLen.toNat ∧ t.origBits.toNat = 8 * s.inLen.toNat ∧
      t.compBits = 0#64 ∧ t.root = NONE ∧ t.payloadOff = 0#32 ∧ flagsOf t = (true, false, false, false) ∧ t.freqKnown = true

/-- R81, R82: SERIALIZE writes the header of the table from OBUF[0] on, in increasing symbol order, and always succeeds. -/
def Obligations.SerializeResult : Prop :=
  ∀ s : State, s.errCode = .noError → s.ftV = true → s.cfg.wellFormed = true → s.nsym.toNat = alphabetSize s.freq →
    ∃ t, exec .serialize s = .next t ∧ t.errCode = .noError ∧ t.outLen.toNat = 8 + 5 * s.nsym.toNat ∧
      t.outLen.toNat ≤ 1288 ∧
      outputOf t = headerOf ((symbols.filter fun b => freqAt s.freq b ≠ 0#32).map fun b => (b, freqAt s.freq b))

/-- R83: DESERIALIZE of an input that starts with a well-formed header of at most 256 entries, in any order, whatever follows. -/
def Obligations.DeserializeResult : Prop :=
  ∀ (s : State) (es : Entries) (rest : List Byte), s.errCode = .noError → s.inLen ≤ s.cfg.ibufSize → InputWritten s →
    inputOf s = headerOf es ++ rest → EntriesOk es →
    ∃ t, exec .deserialize s = .next t ∧ t.errCode = .noError ∧ TableOf es t.freq ∧ t.nsym.toNat = es.length ∧
      t.total.toNat = (es.map fun e => e.2.toNat).sum ∧ t.payloadOff.toNat = 8 + 5 * es.length ∧
      t.root = NONE ∧ t.origBits = 0#64 ∧ t.compBits = 0#64 ∧ flagsOf t = (true, true, false, false) ∧ t.freqKnown = true

/-- R83, R112: DESERIALIZE's five errors, in the order they are checked, each leaving an empty table and no flag. -/
def Obligations.DeserializeErrors : Prop :=
  ∀ s : State, s.inLen ≤ s.cfg.ibufSize → InputWritten s →
    ∀ (e : ErrCode) (info : Nat),
      (s.inLen.toNat < 8 ∧ e = .hdrShort ∧ info = s.inLen.toNat) ∨
      (8 ≤ s.inLen.toNat ∧ 256 < leValue ((inputOf s).take 8) ∧ e = .hdrCountRange ∧ info = leValue ((inputOf s).take 8)) ∨
      (8 ≤ s.inLen.toNat ∧ leValue ((inputOf s).take 8) ≤ 256 ∧ s.inLen.toNat < 8 + 5 * leValue ((inputOf s).take 8) ∧
        e = .hdrTruncated ∧ info = leValue ((inputOf s).take 8)) ∨
      (∃ (n : Nat) (es : Entries) (b : Byte) (c : Word) (rest : List Byte), n ≤ 256 ∧ es.length < n ∧
        8 + 5 * n ≤ s.inLen.toNat ∧ EntriesOk es ∧
        inputOf s = leBytes 8 n ++ (es.flatMap fun x => x.1 :: leBytes 4 x.2.toNat) ++ (b :: leBytes 4 c.toNat) ++ rest ∧
        info = 8 + 5 * es.length ∧
        ((c = 0#32 ∧ e = .hdrZeroFreq) ∨ (c ≠ 0#32 ∧ (∃ x ∈ es, x.1 = b) ∧ e = .hdrDupSymbol))) →
      ∃ t, exec .deserialize s = .next t ∧ t.errCode = e ∧ t.errInfo.toNat = info ∧ e.errClass = some .corruptHeader ∧
        flagsOf t = (false, false, false, false) ∧ t.nsym = 0#9 ∧ t.total = 0#64 ∧ t.payloadOff = 0#32 ∧ t.root = NONE ∧
        t.origBits = 0#64 ∧ t.compBits = 0#64 ∧ (∀ sym, freqAt t.freq sym = 0#32) ∧ t.freqKnown = true

/-- R84: SERIALIZE of a valid table, copied to the input, and DESERIALIZE give the same table back. -/
def Obligations.TableRoundTrip : Prop :=
  ∀ s : State, Ready s → s.ftV = true → ∃ t, exec .serialize s = .next t ∧ t.errCode = .noError ∧
    ∀ s' : State, s'.errCode = .noError → s'.inLen ≤ s'.cfg.ibufSize → Copied t s' →
      ∃ u, exec .deserialize s' = .next u ∧ u.errCode = .noError ∧ u.freq = s.freq ∧ u.nsym = s.nsym ∧ u.total = s.total ∧
        u.payloadOff.toNat = 8 + 5 * s.nsym.toNat ∧ u.ftV = true

/-! ### Tree and codes -/

/-- R86: popmin takes the one element of the queue that comes before every other, and only that one; keys are compared by
frequency, then by index. -/
def Obligations.PopMinTakesLeast : Prop :=
  ∀ s : State,
    (s.work.queue = [] → popMin s = none) ∧
    (s.work.queue ≠ [] → ∃ i, i ∈ s.work.queue ∧ popMin s = some (i, setWork { s.work with queue := s.work.queue.erase i } s) ∧
      ∀ j ∈ s.work.queue, j ≠ i → (nodeFreq s.node i).toNat < (nodeFreq s.node j).toNat ∨
        ((nodeFreq s.node i).toNat = (nodeFreq s.node j).toNat ∧ i.toNat < j.toNat))

/-- R87: BUILD on any valid table: the tree of FREQ, the flags, what completion writes, and nothing else. What that tree is, the
statements below say. That the working state is `Work.idle` after it is the model's choice (R38, log 9), and that NODE is marked
as written is log 5's. -/
def Obligations.BuildResult : Prop :=
  ∀ s : State, s.errCode = .noError → s.ftV = true →
    exec .build s = .next (succeeded
      { s with
        node := (builtTree s.freq).1, nodeKnown := true, root := (builtTree s.freq).2, treeV := true, codesV := false })

/-- R93: the result of BUILD depends on FREQ alone. -/
def Obligations.BuildDependsOnFreqAlone : Prop :=
  ∀ s s' : State, s.ftV = true → s'.ftV = true → s.freq = s'.freq →
    ∃ t t', exec .build s = .next t ∧ exec .build s' = .next t' ∧ t.node = t'.node ∧ t.root = t'.root

/-- R89, R90: BUILD of the empty table and of a table with one symbol. -/
def Obligations.DegenerateTrees : Prop :=
  ∀ s : State, s.ftV = true →
    ((∀ b, freqAt s.freq b = 0#32) → ∃ t, exec .build s = .next t ∧ t.root = NONE ∧ t.treeV = true ∧
      ∀ i n, nodeAt t.node i = some n → n.valid = false) ∧
    ∀ b : Byte, freqAt s.freq b ≠ 0#32 → (∀ c, c ≠ b → freqAt s.freq c = 0#32) →
      ∃ t, exec .build s = .next t ∧ t.root = 256#9 ∧ t.treeV = true ∧
        nodeAt t.node 256#9 = some
          { valid := true, leaf := false, freq := (freqAt s.freq b).setWidth 40, left := b.setWidth 9, right := NONE } ∧
        nodeAt t.node (b.setWidth 9) = some
          { valid := true, leaf := true, freq := (freqAt s.freq b).setWidth 40, left := NONE, right := NONE } ∧
        ∀ i n, i ≠ 256#9 → i ≠ b.setWidth 9 → nodeAt t.node i = some n → n.valid = false

/-- R92, R36: the tree of n >= 2 symbols: its valid entries, its root, its leaves, the children of its internal nodes, one
parent for every node but the root, and one path of 1 to n - 1 bits to every leaf. -/
def Obligations.TreeShape : Prop :=
  ∀ f : Vector Word 256, 2 ≤ alphabetSize f → ∃ t root, builtTree f = (t, root) ∧
    root.toNat = 256 + alphabetSize f - 2 ∧
    (∀ i n, nodeAt t i = some n → (n.valid = true ↔
      (i.toNat < 256 ∧ freqAt f (i.setWidth 8) ≠ 0#32) ∨ (256 ≤ i.toNat ∧ i.toNat ≤ root.toNat))) ∧
    (∀ b : Byte, freqAt f b ≠ 0#32 → nodeAt t (b.setWidth 9) = some
      { valid := true, leaf := true, freq := (freqAt f b).setWidth 40, left := NONE, right := NONE }) ∧
    (∀ i n, nodeAt t i = some n → 256 ≤ i.toNat → i.toNat ≤ root.toNat →
      n.leaf = false ∧ n.left ≠ n.right ∧ n.left.toNat < i.toNat ∧ n.right.toNat < i.toNat ∧
      (∃ l, nodeAt t n.left = some l ∧ l.valid = true) ∧ ∃ r, nodeAt t n.right = some r ∧ r.valid = true) ∧
    (∀ j n, nodeAt t j = some n → n.valid = true → j ≠ root →
      ∃ i, (∃ m, nodeAt t i = some m ∧ m.valid = true ∧ m.leaf = false ∧ (m.left = j ∨ m.right = j)) ∧
        ∀ i' m', nodeAt t i' = some m' → m'.valid = true → m'.leaf = false → (m'.left = j ∨ m'.right = j) → i' = i) ∧
    ∀ b : Byte, freqAt f b ≠ 0#32 → ∃ p, follow t root p = some (b.setWidth 9) ∧ 1 ≤ p.length ∧
      p.length ≤ alphabetSize f - 1 ∧ ∀ q, follow t root q = some (b.setWidth 9) → q = p

/-- R86, R87, R88: every internal node joins the two nodes that came first of those without a parent when it was made, the
first on the left; so the frequencies leave one tree only. -/
def Obligations.MergesTakeTheTwoLeast : Prop :=
  ∀ f : Vector Word 256, 2 ≤ alphabetSize f → ∀ i n, nodeAt (builtTree f).1 i = some n → n.valid = true → n.leaf = false →
    keyLt (builtTree f).1 n.left n.right = true ∧
    ∀ j m, nodeAt (builtTree f).1 j = some m → m.valid = true → j < i →
      (∀ i' n', nodeAt (builtTree f).1 i' = some n' → n'.valid = true → n'.leaf = false → i' ≤ i →
        n'.left ≠ j ∧ n'.right ≠ j) → keyLt (builtTree f).1 n.right j = true

/-- R91, R36: the frequency of a node with two children is the sum of theirs without overflow, the root's is TOTAL, and all
are at most TOTAL, which fits 40 bits. -/
def Obligations.NodeFrequencies : Prop :=
  ∀ f : Vector Word 256, freqTotal f < 2 ^ 40 ∧
    (∀ i n, nodeAt (builtTree f).1 i = some n → n.valid = true → n.freq.toNat ≤ freqTotal f) ∧
    (∀ i n, nodeAt (builtTree f).1 i = some n → n.valid = true → n.leaf = false → n.right ≠ NONE →
      n.freq.toNat = (nodeFreq (builtTree f).1 n.left).toNat + (nodeFreq (builtTree f).1 n.right).toNat) ∧
    ∀ n, nodeAt (builtTree f).1 (builtTree f).2 = some n → n.freq.toNat = freqTotal f

/-- R94: GENCODES of any valid tree: a present symbol's code is the path to its leaf, of 1 to 255 bits, with the bits of BITS
above LEN zero; an absent symbol has none; and nothing else changes but what completion writes. That the working state is
`Work.idle` after it is the model's choice (R38, log 9), and that CODE is marked as written is log 5's. -/
def Obligations.GencodesResult : Prop :=
  ∀ s : State, Ready s → s.treeV = true →
    ∃ c, exec .gencodes s = .next (succeeded { s with code := c, codeKnown := true, codesV := true }) ∧
      (∀ b, freqAt s.freq b ≠ 0#32 → IsPath s.node s.root (codeBits (codeAt c b)) b ∧
        1 ≤ (codeAt c b).len.toNat ∧ (codeAt c b).bits.toNat < 2 ^ (codeAt c b).len.toNat) ∧
      ∀ b, freqAt s.freq b = 0#32 → (codeAt c b).len = 0#8 ∧ (codeAt c b).bits = 0#256

/-- R94: the single symbol of a one-symbol tree has the one-bit code "0", and the empty tree gives no codes. -/
def Obligations.DegenerateCodes : Prop :=
  ∀ s : State, Ready s → s.treeV = true →
    (s.root = NONE → ∃ t, exec .gencodes s = .next t ∧ t.codesV = true ∧ ∀ b, (codeAt t.code b).len = 0#8) ∧
    ∀ b : Byte, freqAt s.freq b ≠ 0#32 → (∀ c, c ≠ b → freqAt s.freq c = 0#32) →
      ∃ t, exec .gencodes s = .next t ∧ (codeAt t.code b).len = 1#8 ∧ (codeAt t.code b).bits = 0#256

/-- R95: after GENCODES the codes are prefix-free. -/
def Obligations.CodesArePrefixFree : Prop :=
  ∀ s : State, Ready s → s.treeV = true → ∃ t, exec .gencodes s = .next t ∧
    ∀ a b : Byte, a ≠ b → 1 ≤ (codeAt t.code a).len.toNat → 1 ≤ (codeAt t.code b).len.toNat →
      ¬ codeBits (codeAt t.code a) <+: codeBits (codeAt t.code b)

/-! ### Bit stream -/

/-- R96, R97, R48: eight writeBits from an empty packer put one byte into OBUF, the first bit in bit 7; fewer put none, and
flushBits after them puts one byte with the bits in its high bits and zeros below, or nothing after no bit. -/
def Obligations.PackerIsMsbFirst : Prop :=
  ∀ (s : State) (bits : List Bool), s.work.acc = 0#8 → s.work.nb = 0 → s.outLen < s.cfg.obufSize → bits.length ≤ 8 →
    ∃ t, bits.foldl (fun (b : Body) x => b.bind (writeBit x)) (.ok s) = .ok t ∧
      (bits.length < 8 → t.obuf = s.obuf ∧ t.outLen = s.outLen ∧ t.work.nb = bits.length) ∧
      (bits.length = 8 → t.work.acc = 0#8 ∧ t.work.nb = 0 ∧ t.outLen = s.outLen + 1#32 ∧
        ∃ v, Memory.read t.obuf s.outLen.toNat = some v ∧ ∀ j, j < 8 → bits[j]? = some (v.getLsbD (7 - j))) ∧
      (bits = [] → flushBits t = .ok t) ∧
      (0 < bits.length → bits.length < 8 → ∃ u v, flushBits t = .ok u ∧ u.outLen = s.outLen + 1#32 ∧ u.work.acc = 0#8 ∧
        u.work.nb = 0 ∧ Memory.read u.obuf s.outLen.toNat = some v ∧ ∀ j, j < 8 → v.getLsbD (7 - j) = bits.getD j false)

/-- R98: readBit gives the bits of the input bytes in stream order, MSB first, and after the last of them EOS, again and
again. -/
def Obligations.ReadBitStream : Prop :=
  (∀ s : State, s.work.rem = 0 → s.inLen.toNat ≤ s.work.rp → readBit s = (none, s)) ∧
  ∀ (s : State) (x : Byte), s.work.rem = 0 → s.work.rp < s.inLen.toNat → Memory.read s.ibuf s.work.rp = some x →
    ∀ k, k < 8 → ∃ t, (fun r => (readBit r).2)^[k] s = t ∧ (readBit t).1 = some (x.getLsbD (7 - k)) ∧
      (k = 7 → (readBit t).2.work.rem = 0 ∧ (readBit t).2.work.rp = s.work.rp + 1)

/-- R99, R51, R69: PACK of any written input. Every input byte has a code. Where the payload fits, it is the codes of the input,
zero-padded to bytes, from OUT_LEN on; where it does not, OBUF is full of its first part and COMP_BITS = 0. -/
def Obligations.PackResult : Prop :=
  ∀ (s : State) (n : Nat), Ready s → s.codesV = true → s.ftSrc = false → InputWritten s →
    n = ((payloadBits s.code (inputOf s)).length + 7) / 8 →
    ∃ t, exec .pack s = .next t ∧ (∀ b ∈ inputOf s, 1 ≤ (codeAt s.code b).len.toNat) ∧
      (s.outLen.toNat + n ≤ s.cfg.obufSize.toNat →
        t.errCode = .noError ∧ t.outLen.toNat = s.outLen.toNat + n ∧
        t.compBits.toNat = (payloadBits s.code (inputOf s)).length ∧
        PaddedBits ((outputOf t).drop s.outLen.toNat) (payloadBits s.code (inputOf s))) ∧
      (s.cfg.obufSize.toNat < s.outLen.toNat + n →
        t.errCode = .ioErrorOutput ∧ t.errInfo.toNat = s.cfg.obufSize.toNat ∧ t.outLen = s.cfg.obufSize ∧
        t.compBits = 0#64 ∧ bitsOfBytes ((outputOf t).drop s.outLen.toNat) <+: payloadBits s.code (inputOf s))

/-- R100, R101: DECODE of a payload that starts with the paths of TOTAL symbols: it emits them and succeeds, whatever follows
those bits; TOTAL = 0 reads no bit. -/
def Obligations.DecodeResult : Prop :=
  ∀ (s : State) (code : Byte → List Bool) (bytes : List Byte) (rest : List Bool), Ready s → s.treeV = true → s.ftSrc = true →
    InputWritten s → bytes.length = s.total.toNat → bytes.length ≤ s.cfg.obufSize.toNat →
    (∀ b ∈ bytes, IsPath s.node s.root (code b) b) → payloadOf s = bytes.flatMap code ++ rest →
    ∃ t, exec .decode s = .next t ∧ t.errCode = .noError ∧ outputOf t = bytes ∧ t.outLen.toNat = s.total.toNat ∧
      t.origBits.toNat = 8 * s.total.toNat ∧ t.compBits.toNat = (bytes.flatMap code).length

/-- R100, R112: DECODE where the payload ends too early: after the paths of some symbols, fewer than TOTAL, there is only a
part of a path that ends at no leaf. The symbols before it stay in OBUF. -/
def Obligations.DecodeRunsOut : Prop :=
  ∀ (s : State) (code : Byte → List Bool) (bytes : List Byte) (rest : List Bool) (i : NodeIdx) (n : Node), Ready s →
    s.treeV = true → s.ftSrc = true → InputWritten s → bytes.length < s.total.toNat →
    bytes.length ≤ s.cfg.obufSize.toNat → (∀ b ∈ bytes, IsPath s.node s.root (code b) b) →
    payloadOf s = bytes.flatMap code ++ rest → follow s.node s.root rest = some i → nodeAt s.node i = some n →
    n.leaf = false →
    ∃ t, exec .decode s = .next t ∧ t.errCode = .streamEos ∧
      t.errInfo.toNat = 8 * (s.inLen.toNat - s.payloadOff.toNat) ∧ outputOf t = bytes ∧ t.origBits = 0#64 ∧ t.compBits = 0#64

/-- R90, R100: a 1 bit in the payload of a one-symbol table reaches the absent child. -/
def Obligations.DecodeAbsentChild : Prop :=
  ∀ (s : State) (b : Byte) (k : Nat) (rest : List Bool), Ready s → s.treeV = true → s.ftSrc = true → InputWritten s →
    freqAt s.freq b ≠ 0#32 → (∀ c, c ≠ b → freqAt s.freq c = 0#32) → k < s.total.toNat → k ≤ s.cfg.obufSize.toNat →
    payloadOf s = List.replicate k false ++ true :: rest →
    ∃ t, exec .decode s = .next t ∧ t.errCode = .streamAbsentChild ∧ t.errInfo.toNat = k ∧
      outputOf t = List.replicate k b ∧ t.origBits = 0#64 ∧ t.compBits = 0#64

/-- R100, R51: DECODE of more symbols than OBUF holds fills OBUF and ends with IO_ERROR_OUTPUT. -/
def Obligations.DecodeOverflow : Prop :=
  ∀ (s : State) (code : Byte → List Bool) (bytes : List Byte) (b : Byte) (rest : List Bool), Ready s → s.treeV = true →
    s.ftSrc = true → InputWritten s → bytes.length = s.cfg.obufSize.toNat → bytes.length < s.total.toNat →
    (∀ c ∈ bytes ++ [b], IsPath s.node s.root (code c) c) → payloadOf s = (bytes ++ [b]).flatMap code ++ rest →
    ∃ t, exec .decode s = .next t ∧ t.errCode = .ioErrorOutput ∧ t.errInfo.toNat = s.cfg.obufSize.toNat ∧
      t.outLen = s.cfg.obufSize ∧ outputOf t = bytes ∧ t.origBits = 0#64 ∧ t.compBits = 0#64

/-! ### Pipelines -/

/-- R103: COMPRESS is the five single-stage commands in order, each in the state the one before it left. That the hidden working
state is the same after both is the model's choice (R38, log 9). -/
def Obligations.CompressIsItsStages : Prop :=
  ∀ s : State, s.cfg.wellFormed = true → s.errCode = .noError → s.inLen ≤ s.cfg.ibufSize →
    exec .compress s =
      thenExec .pack (thenExec .gencodes (thenExec .build (thenExec .serialize (exec .count s))))

/-- R104, R75: DECOMPRESS is OUT_LEN <- 0 and the three single-stage commands in order, ending at the first error. That the hidden
working state is the same after both is the model's choice (R38, log 9). -/
def Obligations.DecompressIsItsStages : Prop :=
  ∀ s : State, s.errCode = .noError → s.inLen ≤ s.cfg.ibufSize →
    exec .decompress s = thenExec .decode (thenExec .build (exec .deserialize { s with outLen := 0#32 }))

/-- R103: COMPRESS of any written input, into an OBUF of at least 1288 + 32 x IN_LEN bytes, succeeds with the header of the
input's table and then the codes of its bytes. -/
def Obligations.CompressResult : Prop :=
  ∀ s : State, Ready s → s.inLen ≤ s.cfg.ibufSize → InputWritten s → 1288 + 32 * s.inLen.toNat ≤ s.cfg.obufSize.toNat →
    ∃ t, exec .compress s = .next t ∧ t.errCode = .noError ∧ flagsOf t = (true, false, true, true) ∧
      (∀ sym, (freqAt t.freq sym).toNat = (inputOf s).count sym) ∧ t.nsym.toNat = alphabetSize t.freq ∧
      t.total.toNat = s.inLen.toNat ∧ t.origBits.toNat = 8 * s.inLen.toNat ∧
      builtTree t.freq = (t.node, t.root) ∧ generatedCodes t.node t.root = some t.code ∧
      t.compBits.toNat = (payloadBits t.code (inputOf s)).length ∧
      t.outLen.toNat = 8 + 5 * t.nsym.toNat + (t.compBits.toNat + 7) / 8 ∧
      ∃ payload, PaddedBits payload (payloadBits t.code (inputOf s)) ∧ outputOf t =
        headerOf ((symbols.filter fun b => freqAt t.freq b ≠ 0#32).map fun b => (b, freqAt t.freq b)) ++ payload

/-- R104: DECOMPRESS of a written file: a header of entries in any order, and a payload that starts with the paths, in the tree
of its table, of as many symbols as the counts sum to. -/
def Obligations.DecompressResult : Prop :=
  ∀ (s : State) (es : Entries) (f : Vector Word 256) (payload : List Byte) (code : Byte → List Bool) (bytes : List Byte)
    (rest : List Bool), Ready s → s.inLen ≤ s.cfg.ibufSize → InputWritten s → inputOf s = headerOf es ++ payload →
    EntriesOk es → TableOf es f → bytes.length = freqTotal f → bytes.length ≤ s.cfg.obufSize.toNat →
    (∀ b ∈ bytes, IsPath (builtTree f).1 (builtTree f).2 (code b) b) → bitsOfBytes payload = bytes.flatMap code ++ rest →
    ∃ t, exec .decompress s = .next t ∧ t.errCode = .noError ∧ outputOf t = bytes ∧ t.freq = f ∧
      flagsOf t = (true, true, true, false) ∧ t.nsym.toNat = es.length ∧ t.total.toNat = bytes.length ∧
      t.payloadOff.toNat = 8 + 5 * es.length ∧ t.origBits.toNat = 8 * bytes.length ∧
      t.compBits.toNat = (bytes.flatMap code).length

/-- R105: what COMPRESS wrote, copied to the input, DECOMPRESS turns back into the bytes COMPRESS read. -/
def Obligations.CompressDecompressRoundTrip : Prop :=
  ∀ s t s' : State, Ready s → InputWritten s → exec .compress s = .next t → t.errCode = .noError →
    Ready s' → Copied t s' → t.outLen ≤ s'.cfg.ibufSize → s.inLen ≤ s'.cfg.obufSize →
    ∃ u, exec .decompress s' = .next u ∧ u.errCode = .noError ∧ outputOf u = inputOf s ∧ u.outLen = s.inLen

/-- R106: DECOMPRESS of the first L bytes of a file COMPRESS wrote: a header cut short, whatever the size of OBUF, or a payload
cut short. R106 says that the latter "always gives STREAM_EOS"; by R100 and R51 that is so where OBUF holds the original, and a
smaller OBUF can be full first (log 21). -/
def Obligations.TruncatedFiles : Prop :=
  ∀ s t s' : State, Ready s → InputWritten s → exec .compress s = .next t → t.errCode = .noError →
    Ready s' → s'.inLen < t.outLen → s'.inLen ≤ s'.cfg.ibufSize →
    (∀ i, i < s'.inLen.toNat → Memory.read s'.ibuf i = Memory.read t.obuf i) →
    ∃ u, exec .decompress s' = .next u ∧
      (s'.inLen.toNat < 8 → u.errCode = .hdrShort) ∧
      (8 ≤ s'.inLen.toNat → s'.inLen.toNat < 8 + 5 * t.nsym.toNat → u.errCode = .hdrTruncated) ∧
      (s'.inLen.toNat < 8 + 5 * t.nsym.toNat → u.errCode.errClass = some .corruptHeader) ∧
      (8 + 5 * t.nsym.toNat ≤ s'.inLen.toNat → s.inLen ≤ s'.cfg.obufSize → u.errCode = .streamEos ∧
        u.errInfo.toNat = 8 * (s'.inLen.toNat - 8 - 5 * t.nsym.toNat))

/-! ### The invariant -/

/-- R39, R24: the state after reset meets the invariant, with any buffer sizes R5 allows. That the hidden working state is
`Work.idle` after reset is the model's choice (R38, log 9), and so are the two sizes of `State.reset` (R5, log 1). -/
def Obligations.ResetMeetsInvariant : Prop :=
  Inv State.reset ∧ ∀ c : Config, c.wellFormed = true → Inv (State.resetWith c)

/-- R24, R26, R22: every step, of the engine or of the host, from any state of the invariant keeps it. That the working state is
`Work.idle` between steps is the model's choice (R38, log 9), and the known bits of the tables are log 5's. -/
def Obligations.StepKeepsInvariant : Prop := ∀ s t : State, Inv s → step s = .next t → Inv t

/-- R72, R110: no step from a state of the invariant stops: every command step ends, and none meets a fault. -/
def Obligations.EveryStepEnds : Prop := ∀ s : State, Inv s → ∃ t, step s = .next t
end

