-- ==== Sys2Proof/Laws/Memory.lean ====
section
/-! SUPPORT. The laws of IBUF and OBUF as lists of cells: read after write, the canonical form, and the bounds. -/

namespace Sys2Proof.Machine

theorem Memory.read_write (m : Memory) (i j : Nat) (v : Byte) :
    Memory.read (Memory.write m i v) j = if j = i then some v else Memory.read m j := by
  induction m with
  | nil => by_cases h : i = j <;> simp [Memory.write, Memory.read, h, eq_comm]
  | cons c m ih =>
    unfold Memory.write
    split
    · by_cases h : j = i
      · simp [Memory.read, h]
      · simp [Memory.read, h, Ne.symm h]
    · split
      · rename_i h1 h2
        by_cases h : j = i
        · simp [Memory.read, h]
        · have : c.1 ≠ j := fun hc => h (by omega)
          simp [Memory.read, h, Ne.symm h, this]
      · rename_i h1 h2
        by_cases h : j = i
        · subst h; simp [Memory.read, h2, ih]
        · simp [Memory.read, ih, h]

@[simp] theorem Memory.read_write_same (m : Memory) (i : Nat) (v : Byte) :
    Memory.read (Memory.write m i v) i = some v := by simp [Memory.read_write]

theorem Memory.read_write_other (m : Memory) {i j : Nat} (v : Byte) (h : j ≠ i) :
    Memory.read (Memory.write m i v) j = Memory.read m j := by simp [Memory.read_write, h]

theorem Memory.wf_cons {c : Host.Cell} {m : Memory} :
    Memory.wf (c :: m) = true ↔ (∀ d, m.head? = some d → c.1 < d.1) ∧ Memory.wf m = true := by
  cases m with
  | nil => simp [Memory.wf]
  | cons d m => simp [Memory.wf]

theorem Memory.head_write (m : Memory) (i : Nat) (v : Byte) (d : Host.Cell)
    (h : (Memory.write m i v).head? = some d) : d.1 = i ∨ m.head? = some d := by
  cases m with
  | nil => simp [Memory.write] at h; exact .inl (by rw [← h])
  | cons c m =>
    unfold Memory.write at h
    split at h
    · simp at h; exact .inl (by rw [← h])
    · split at h
      · simp at h; exact .inl (by rw [← h])
      · exact .inr (by simpa using h)

/-- A write keeps the canonical form. -/
theorem Memory.wf_write (m : Memory) (i : Nat) (v : Byte) (h : Memory.wf m = true) :
    Memory.wf (Memory.write m i v) = true := by
  induction m with
  | nil => rfl
  | cons c m ih =>
    obtain ⟨hc, hm⟩ := Memory.wf_cons.1 h
    unfold Memory.write
    split
    · rename_i hi
      exact Memory.wf_cons.2 ⟨fun d hd => by simp at hd; subst hd; exact hi, h⟩
    · split
      · rename_i h2
        refine Memory.wf_cons.2 ⟨fun d hd => ?_, hm⟩
        have := hc d hd
        simp only; omega
      · rename_i h1 h2
        refine Memory.wf_cons.2 ⟨fun d hd => ?_, ih hm⟩
        rcases Memory.head_write m i v d hd with hd | hd
        · omega
        · exact hc d hd

theorem Memory.within_iff {size : Nat} {m : Memory} :
    Memory.within size m = true ↔ ∀ c ∈ m, c.1 < size := by simp [Memory.within]

/-- A write inside the buffer keeps every listed index inside it. -/
theorem Memory.within_write {size : Nat} (m : Memory) {i : Nat} (v : Byte)
    (h : Memory.within size m = true) (hi : i < size) : Memory.within size (Memory.write m i v) = true := by
  induction m with
  | nil => simp [Memory.write, Memory.within, hi]
  | cons c m ih =>
    simp only [Memory.within_iff, List.mem_cons, forall_eq_or_imp] at h ih ⊢
    unfold Memory.write
    split
    · simpa [hi] using h
    · split
      · simpa [hi] using h.2
      · simpa [h.1] using ih h.2

/-- Two canonical buffers that read alike are equal: equal buffers are equal data. -/
theorem Memory.read_lt_head (c : Host.Cell) (m : Memory) (h : Memory.wf (c :: m) = true) {i : Nat} (hi : i ≤ c.1) :
    Memory.read m i = none := by
  induction m generalizing c with
  | nil => rfl
  | cons d m ih =>
    obtain ⟨hc, hm⟩ := Memory.wf_cons.1 h
    have hd := hc d rfl
    have : d.1 ≠ i := by omega
    simp only [Memory.read, this, if_false]
    exact ih d hm (by omega)

theorem Memory.ext_read {m m' : Memory} (h : Memory.wf m = true) (h' : Memory.wf m' = true)
    (hr : ∀ i, Memory.read m i = Memory.read m' i) : m = m' := by
  induction m generalizing m' with
  | nil =>
    cases m' with
    | nil => rfl
    | cons d m' => have := hr d.1; simp [Memory.read] at this
  | cons c m ih =>
    cases m' with
    | nil => have := hr c.1; simp [Memory.read] at this
    | cons d m' =>
      have hcd : c.1 = d.1 := by
        by_contra hne
        rcases Nat.lt_or_gt_of_ne hne with hlt | hlt
        · have h1 := hr c.1
          have h2 := Memory.read_lt_head d m' h' (i := c.1) (by omega)
          simp [Memory.read, Ne.symm hne, h2] at h1
        · have h1 := hr d.1
          have h2 := Memory.read_lt_head c m h (i := d.1) (by omega)
          simp [Memory.read, hne, h2] at h1
      have h1 := hr c.1
      simp [Memory.read, hcd] at h1
      have hce : c = d := Prod.ext hcd h1
      subst hce
      congr 1
      refine ih (Memory.wf_cons.1 h).2 (Memory.wf_cons.1 h').2 fun i => ?_
      by_cases hi : c.1 = i
      · rw [Memory.read_lt_head c m h (by omega), Memory.read_lt_head c m' h' (by omega)]
      · simpa [Memory.read, hi] using hr i

end Sys2Proof.Machine
end

