-- ==== Sys2Proof/Laws/State.lean ====
section
/-! SUPPORT. Every field of State after every named update, so that no proof unfolds one. -/

namespace Sys2Proof.Machine

variable (s : State)

/-! ### clearFlags (all four validity flags to 0 (R23)) -/

@[simp] theorem clearFlags_cfg : (clearFlags s).cfg = s.cfg := rfl
@[simp] theorem clearFlags_busy : (clearFlags s).busy = s.busy := rfl
@[simp] theorem clearFlags_done : (clearFlags s).done = s.done := rfl
@[simp] theorem clearFlags_ovr : (clearFlags s).ovr = s.ovr := rfl
@[simp] theorem clearFlags_ftV : (clearFlags s).ftV = false := rfl
@[simp] theorem clearFlags_ftSrc : (clearFlags s).ftSrc = false := rfl
@[simp] theorem clearFlags_treeV : (clearFlags s).treeV = false := rfl
@[simp] theorem clearFlags_codesV : (clearFlags s).codesV = false := rfl
@[simp] theorem clearFlags_errCode : (clearFlags s).errCode = s.errCode := rfl
@[simp] theorem clearFlags_lastOp : (clearFlags s).lastOp = s.lastOp := rfl
@[simp] theorem clearFlags_inLen : (clearFlags s).inLen = s.inLen := rfl
@[simp] theorem clearFlags_outLen : (clearFlags s).outLen = s.outLen := rfl
@[simp] theorem clearFlags_nsym : (clearFlags s).nsym = s.nsym := rfl
@[simp] theorem clearFlags_root : (clearFlags s).root = s.root := rfl
@[simp] theorem clearFlags_total : (clearFlags s).total = s.total := rfl
@[simp] theorem clearFlags_origBits : (clearFlags s).origBits = s.origBits := rfl
@[simp] theorem clearFlags_compBits : (clearFlags s).compBits = s.compBits := rfl
@[simp] theorem clearFlags_payloadOff : (clearFlags s).payloadOff = s.payloadOff := rfl
@[simp] theorem clearFlags_errInfo : (clearFlags s).errInfo = s.errInfo := rfl
@[simp] theorem clearFlags_irqEn : (clearFlags s).irqEn = s.irqEn := rfl
@[simp] theorem clearFlags_irqStatus : (clearFlags s).irqStatus = s.irqStatus := rfl
@[simp] theorem clearFlags_freq : (clearFlags s).freq = s.freq := rfl
@[simp] theorem clearFlags_node : (clearFlags s).node = s.node := rfl
@[simp] theorem clearFlags_code : (clearFlags s).code = s.code := rfl
@[simp] theorem clearFlags_ibuf : (clearFlags s).ibuf = s.ibuf := rfl
@[simp] theorem clearFlags_obuf : (clearFlags s).obuf = s.obuf := rfl
@[simp] theorem clearFlags_curCmd : (clearFlags s).curCmd = s.curCmd := rfl
@[simp] theorem clearFlags_work : (clearFlags s).work = s.work := rfl
@[simp] theorem clearFlags_freqKnown : (clearFlags s).freqKnown = s.freqKnown := rfl
@[simp] theorem clearFlags_nodeKnown : (clearFlags s).nodeKnown = s.nodeKnown := rfl
@[simp] theorem clearFlags_codeKnown : (clearFlags s).codeKnown = s.codeKnown := rfl
@[simp] theorem clearFlags_script : (clearFlags s).script = s.script := rfl
@[simp] theorem clearFlags_reads : (clearFlags s).reads = s.reads := rfl
@[simp] theorem clearFlags_delay : (clearFlags s).delay = s.delay := rfl
@[simp] theorem clearFlags_draws : (clearFlags s).draws = s.draws := rfl

/-! ### overrun (OVR <- 1 (R67)) -/

@[simp] theorem overrun_cfg : (overrun s).cfg = s.cfg := rfl
@[simp] theorem overrun_busy : (overrun s).busy = s.busy := rfl
@[simp] theorem overrun_done : (overrun s).done = s.done := rfl
@[simp] theorem overrun_ovr : (overrun s).ovr = true := rfl
@[simp] theorem overrun_ftV : (overrun s).ftV = s.ftV := rfl
@[simp] theorem overrun_ftSrc : (overrun s).ftSrc = s.ftSrc := rfl
@[simp] theorem overrun_treeV : (overrun s).treeV = s.treeV := rfl
@[simp] theorem overrun_codesV : (overrun s).codesV = s.codesV := rfl
@[simp] theorem overrun_errCode : (overrun s).errCode = s.errCode := rfl
@[simp] theorem overrun_lastOp : (overrun s).lastOp = s.lastOp := rfl
@[simp] theorem overrun_inLen : (overrun s).inLen = s.inLen := rfl
@[simp] theorem overrun_outLen : (overrun s).outLen = s.outLen := rfl
@[simp] theorem overrun_nsym : (overrun s).nsym = s.nsym := rfl
@[simp] theorem overrun_root : (overrun s).root = s.root := rfl
@[simp] theorem overrun_total : (overrun s).total = s.total := rfl
@[simp] theorem overrun_origBits : (overrun s).origBits = s.origBits := rfl
@[simp] theorem overrun_compBits : (overrun s).compBits = s.compBits := rfl
@[simp] theorem overrun_payloadOff : (overrun s).payloadOff = s.payloadOff := rfl
@[simp] theorem overrun_errInfo : (overrun s).errInfo = s.errInfo := rfl
@[simp] theorem overrun_irqEn : (overrun s).irqEn = s.irqEn := rfl
@[simp] theorem overrun_irqStatus : (overrun s).irqStatus = s.irqStatus := rfl
@[simp] theorem overrun_freq : (overrun s).freq = s.freq := rfl
@[simp] theorem overrun_node : (overrun s).node = s.node := rfl
@[simp] theorem overrun_code : (overrun s).code = s.code := rfl
@[simp] theorem overrun_ibuf : (overrun s).ibuf = s.ibuf := rfl
@[simp] theorem overrun_obuf : (overrun s).obuf = s.obuf := rfl
@[simp] theorem overrun_curCmd : (overrun s).curCmd = s.curCmd := rfl
@[simp] theorem overrun_work : (overrun s).work = s.work := rfl
@[simp] theorem overrun_freqKnown : (overrun s).freqKnown = s.freqKnown := rfl
@[simp] theorem overrun_nodeKnown : (overrun s).nodeKnown = s.nodeKnown := rfl
@[simp] theorem overrun_codeKnown : (overrun s).codeKnown = s.codeKnown := rfl
@[simp] theorem overrun_script : (overrun s).script = s.script := rfl
@[simp] theorem overrun_reads : (overrun s).reads = s.reads := rfl
@[simp] theorem overrun_delay : (overrun s).delay = s.delay := rfl
@[simp] theorem overrun_draws : (overrun s).draws = s.draws := rfl

/-! ### setFreq (FREQ[sym] <- c) -/

@[simp] theorem setFreq_cfg (sym : Byte) (c : Word) : (setFreq sym c s).cfg = s.cfg := rfl
@[simp] theorem setFreq_busy (sym : Byte) (c : Word) : (setFreq sym c s).busy = s.busy := rfl
@[simp] theorem setFreq_done (sym : Byte) (c : Word) : (setFreq sym c s).done = s.done := rfl
@[simp] theorem setFreq_ovr (sym : Byte) (c : Word) : (setFreq sym c s).ovr = s.ovr := rfl
@[simp] theorem setFreq_ftV (sym : Byte) (c : Word) : (setFreq sym c s).ftV = s.ftV := rfl
@[simp] theorem setFreq_ftSrc (sym : Byte) (c : Word) : (setFreq sym c s).ftSrc = s.ftSrc := rfl
@[simp] theorem setFreq_treeV (sym : Byte) (c : Word) : (setFreq sym c s).treeV = s.treeV := rfl
@[simp] theorem setFreq_codesV (sym : Byte) (c : Word) : (setFreq sym c s).codesV = s.codesV := rfl
@[simp] theorem setFreq_errCode (sym : Byte) (c : Word) : (setFreq sym c s).errCode = s.errCode := rfl
@[simp] theorem setFreq_lastOp (sym : Byte) (c : Word) : (setFreq sym c s).lastOp = s.lastOp := rfl
@[simp] theorem setFreq_inLen (sym : Byte) (c : Word) : (setFreq sym c s).inLen = s.inLen := rfl
@[simp] theorem setFreq_outLen (sym : Byte) (c : Word) : (setFreq sym c s).outLen = s.outLen := rfl
@[simp] theorem setFreq_nsym (sym : Byte) (c : Word) : (setFreq sym c s).nsym = s.nsym := rfl
@[simp] theorem setFreq_root (sym : Byte) (c : Word) : (setFreq sym c s).root = s.root := rfl
@[simp] theorem setFreq_total (sym : Byte) (c : Word) : (setFreq sym c s).total = s.total := rfl
@[simp] theorem setFreq_origBits (sym : Byte) (c : Word) : (setFreq sym c s).origBits = s.origBits := rfl
@[simp] theorem setFreq_compBits (sym : Byte) (c : Word) : (setFreq sym c s).compBits = s.compBits := rfl
@[simp] theorem setFreq_payloadOff (sym : Byte) (c : Word) : (setFreq sym c s).payloadOff = s.payloadOff := rfl
@[simp] theorem setFreq_errInfo (sym : Byte) (c : Word) : (setFreq sym c s).errInfo = s.errInfo := rfl
@[simp] theorem setFreq_irqEn (sym : Byte) (c : Word) : (setFreq sym c s).irqEn = s.irqEn := rfl
@[simp] theorem setFreq_irqStatus (sym : Byte) (c : Word) : (setFreq sym c s).irqStatus = s.irqStatus := rfl
@[simp] theorem setFreq_freq (sym : Byte) (c : Word) : (setFreq sym c s).freq = s.freq.set sym.toNat c sym.isLt := rfl
@[simp] theorem setFreq_node (sym : Byte) (c : Word) : (setFreq sym c s).node = s.node := rfl
@[simp] theorem setFreq_code (sym : Byte) (c : Word) : (setFreq sym c s).code = s.code := rfl
@[simp] theorem setFreq_ibuf (sym : Byte) (c : Word) : (setFreq sym c s).ibuf = s.ibuf := rfl
@[simp] theorem setFreq_obuf (sym : Byte) (c : Word) : (setFreq sym c s).obuf = s.obuf := rfl
@[simp] theorem setFreq_curCmd (sym : Byte) (c : Word) : (setFreq sym c s).curCmd = s.curCmd := rfl
@[simp] theorem setFreq_work (sym : Byte) (c : Word) : (setFreq sym c s).work = s.work := rfl
@[simp] theorem setFreq_freqKnown (sym : Byte) (c : Word) : (setFreq sym c s).freqKnown = s.freqKnown := rfl
@[simp] theorem setFreq_nodeKnown (sym : Byte) (c : Word) : (setFreq sym c s).nodeKnown = s.nodeKnown := rfl
@[simp] theorem setFreq_codeKnown (sym : Byte) (c : Word) : (setFreq sym c s).codeKnown = s.codeKnown := rfl
@[simp] theorem setFreq_script (sym : Byte) (c : Word) : (setFreq sym c s).script = s.script := rfl
@[simp] theorem setFreq_reads (sym : Byte) (c : Word) : (setFreq sym c s).reads = s.reads := rfl
@[simp] theorem setFreq_delay (sym : Byte) (c : Word) : (setFreq sym c s).delay = s.delay := rfl
@[simp] theorem setFreq_draws (sym : Byte) (c : Word) : (setFreq sym c s).draws = s.draws := rfl

/-! ### setNode (NODE[i] <- n) -/

@[simp] theorem setNode_cfg (i : NodeIdx) (n : Node) : (setNode i n s).cfg = s.cfg := rfl
@[simp] theorem setNode_busy (i : NodeIdx) (n : Node) : (setNode i n s).busy = s.busy := rfl
@[simp] theorem setNode_done (i : NodeIdx) (n : Node) : (setNode i n s).done = s.done := rfl
@[simp] theorem setNode_ovr (i : NodeIdx) (n : Node) : (setNode i n s).ovr = s.ovr := rfl
@[simp] theorem setNode_ftV (i : NodeIdx) (n : Node) : (setNode i n s).ftV = s.ftV := rfl
@[simp] theorem setNode_ftSrc (i : NodeIdx) (n : Node) : (setNode i n s).ftSrc = s.ftSrc := rfl
@[simp] theorem setNode_treeV (i : NodeIdx) (n : Node) : (setNode i n s).treeV = s.treeV := rfl
@[simp] theorem setNode_codesV (i : NodeIdx) (n : Node) : (setNode i n s).codesV = s.codesV := rfl
@[simp] theorem setNode_errCode (i : NodeIdx) (n : Node) : (setNode i n s).errCode = s.errCode := rfl
@[simp] theorem setNode_lastOp (i : NodeIdx) (n : Node) : (setNode i n s).lastOp = s.lastOp := rfl
@[simp] theorem setNode_inLen (i : NodeIdx) (n : Node) : (setNode i n s).inLen = s.inLen := rfl
@[simp] theorem setNode_outLen (i : NodeIdx) (n : Node) : (setNode i n s).outLen = s.outLen := rfl
@[simp] theorem setNode_nsym (i : NodeIdx) (n : Node) : (setNode i n s).nsym = s.nsym := rfl
@[simp] theorem setNode_root (i : NodeIdx) (n : Node) : (setNode i n s).root = s.root := rfl
@[simp] theorem setNode_total (i : NodeIdx) (n : Node) : (setNode i n s).total = s.total := rfl
@[simp] theorem setNode_origBits (i : NodeIdx) (n : Node) : (setNode i n s).origBits = s.origBits := rfl
@[simp] theorem setNode_compBits (i : NodeIdx) (n : Node) : (setNode i n s).compBits = s.compBits := rfl
@[simp] theorem setNode_payloadOff (i : NodeIdx) (n : Node) : (setNode i n s).payloadOff = s.payloadOff := rfl
@[simp] theorem setNode_errInfo (i : NodeIdx) (n : Node) : (setNode i n s).errInfo = s.errInfo := rfl
@[simp] theorem setNode_irqEn (i : NodeIdx) (n : Node) : (setNode i n s).irqEn = s.irqEn := rfl
@[simp] theorem setNode_irqStatus (i : NodeIdx) (n : Node) : (setNode i n s).irqStatus = s.irqStatus := rfl
@[simp] theorem setNode_freq (i : NodeIdx) (n : Node) : (setNode i n s).freq = s.freq := rfl
@[simp] theorem setNode_node (i : NodeIdx) (n : Node) : (setNode i n s).node = s.node.setIfInBounds i.toNat n := rfl
@[simp] theorem setNode_code (i : NodeIdx) (n : Node) : (setNode i n s).code = s.code := rfl
@[simp] theorem setNode_ibuf (i : NodeIdx) (n : Node) : (setNode i n s).ibuf = s.ibuf := rfl
@[simp] theorem setNode_obuf (i : NodeIdx) (n : Node) : (setNode i n s).obuf = s.obuf := rfl
@[simp] theorem setNode_curCmd (i : NodeIdx) (n : Node) : (setNode i n s).curCmd = s.curCmd := rfl
@[simp] theorem setNode_work (i : NodeIdx) (n : Node) : (setNode i n s).work = s.work := rfl
@[simp] theorem setNode_freqKnown (i : NodeIdx) (n : Node) : (setNode i n s).freqKnown = s.freqKnown := rfl
@[simp] theorem setNode_nodeKnown (i : NodeIdx) (n : Node) : (setNode i n s).nodeKnown = s.nodeKnown := rfl
@[simp] theorem setNode_codeKnown (i : NodeIdx) (n : Node) : (setNode i n s).codeKnown = s.codeKnown := rfl
@[simp] theorem setNode_script (i : NodeIdx) (n : Node) : (setNode i n s).script = s.script := rfl
@[simp] theorem setNode_reads (i : NodeIdx) (n : Node) : (setNode i n s).reads = s.reads := rfl
@[simp] theorem setNode_delay (i : NodeIdx) (n : Node) : (setNode i n s).delay = s.delay := rfl
@[simp] theorem setNode_draws (i : NodeIdx) (n : Node) : (setNode i n s).draws = s.draws := rfl

/-! ### setCode (CODE[sym] <- c) -/

@[simp] theorem setCode_cfg (sym : Byte) (c : Code) : (setCode sym c s).cfg = s.cfg := rfl
@[simp] theorem setCode_busy (sym : Byte) (c : Code) : (setCode sym c s).busy = s.busy := rfl
@[simp] theorem setCode_done (sym : Byte) (c : Code) : (setCode sym c s).done = s.done := rfl
@[simp] theorem setCode_ovr (sym : Byte) (c : Code) : (setCode sym c s).ovr = s.ovr := rfl
@[simp] theorem setCode_ftV (sym : Byte) (c : Code) : (setCode sym c s).ftV = s.ftV := rfl
@[simp] theorem setCode_ftSrc (sym : Byte) (c : Code) : (setCode sym c s).ftSrc = s.ftSrc := rfl
@[simp] theorem setCode_treeV (sym : Byte) (c : Code) : (setCode sym c s).treeV = s.treeV := rfl
@[simp] theorem setCode_codesV (sym : Byte) (c : Code) : (setCode sym c s).codesV = s.codesV := rfl
@[simp] theorem setCode_errCode (sym : Byte) (c : Code) : (setCode sym c s).errCode = s.errCode := rfl
@[simp] theorem setCode_lastOp (sym : Byte) (c : Code) : (setCode sym c s).lastOp = s.lastOp := rfl
@[simp] theorem setCode_inLen (sym : Byte) (c : Code) : (setCode sym c s).inLen = s.inLen := rfl
@[simp] theorem setCode_outLen (sym : Byte) (c : Code) : (setCode sym c s).outLen = s.outLen := rfl
@[simp] theorem setCode_nsym (sym : Byte) (c : Code) : (setCode sym c s).nsym = s.nsym := rfl
@[simp] theorem setCode_root (sym : Byte) (c : Code) : (setCode sym c s).root = s.root := rfl
@[simp] theorem setCode_total (sym : Byte) (c : Code) : (setCode sym c s).total = s.total := rfl
@[simp] theorem setCode_origBits (sym : Byte) (c : Code) : (setCode sym c s).origBits = s.origBits := rfl
@[simp] theorem setCode_compBits (sym : Byte) (c : Code) : (setCode sym c s).compBits = s.compBits := rfl
@[simp] theorem setCode_payloadOff (sym : Byte) (c : Code) : (setCode sym c s).payloadOff = s.payloadOff := rfl
@[simp] theorem setCode_errInfo (sym : Byte) (c : Code) : (setCode sym c s).errInfo = s.errInfo := rfl
@[simp] theorem setCode_irqEn (sym : Byte) (c : Code) : (setCode sym c s).irqEn = s.irqEn := rfl
@[simp] theorem setCode_irqStatus (sym : Byte) (c : Code) : (setCode sym c s).irqStatus = s.irqStatus := rfl
@[simp] theorem setCode_freq (sym : Byte) (c : Code) : (setCode sym c s).freq = s.freq := rfl
@[simp] theorem setCode_node (sym : Byte) (c : Code) : (setCode sym c s).node = s.node := rfl
@[simp] theorem setCode_code (sym : Byte) (c : Code) : (setCode sym c s).code = s.code.set sym.toNat c sym.isLt := rfl
@[simp] theorem setCode_ibuf (sym : Byte) (c : Code) : (setCode sym c s).ibuf = s.ibuf := rfl
@[simp] theorem setCode_obuf (sym : Byte) (c : Code) : (setCode sym c s).obuf = s.obuf := rfl
@[simp] theorem setCode_curCmd (sym : Byte) (c : Code) : (setCode sym c s).curCmd = s.curCmd := rfl
@[simp] theorem setCode_work (sym : Byte) (c : Code) : (setCode sym c s).work = s.work := rfl
@[simp] theorem setCode_freqKnown (sym : Byte) (c : Code) : (setCode sym c s).freqKnown = s.freqKnown := rfl
@[simp] theorem setCode_nodeKnown (sym : Byte) (c : Code) : (setCode sym c s).nodeKnown = s.nodeKnown := rfl
@[simp] theorem setCode_codeKnown (sym : Byte) (c : Code) : (setCode sym c s).codeKnown = s.codeKnown := rfl
@[simp] theorem setCode_script (sym : Byte) (c : Code) : (setCode sym c s).script = s.script := rfl
@[simp] theorem setCode_reads (sym : Byte) (c : Code) : (setCode sym c s).reads = s.reads := rfl
@[simp] theorem setCode_delay (sym : Byte) (c : Code) : (setCode sym c s).delay = s.delay := rfl
@[simp] theorem setCode_draws (sym : Byte) (c : Code) : (setCode sym c s).draws = s.draws := rfl

/-! ### recordError (R109) -/

@[simp] theorem recordError_cfg (e : ErrCode) (info : DWord) : (recordError e info s).cfg = s.cfg := rfl
@[simp] theorem recordError_busy (e : ErrCode) (info : DWord) : (recordError e info s).busy = s.busy := rfl
@[simp] theorem recordError_done (e : ErrCode) (info : DWord) : (recordError e info s).done = s.done := rfl
@[simp] theorem recordError_ovr (e : ErrCode) (info : DWord) : (recordError e info s).ovr = s.ovr := rfl
@[simp] theorem recordError_ftV (e : ErrCode) (info : DWord) : (recordError e info s).ftV = s.ftV := rfl
@[simp] theorem recordError_ftSrc (e : ErrCode) (info : DWord) : (recordError e info s).ftSrc = s.ftSrc := rfl
@[simp] theorem recordError_treeV (e : ErrCode) (info : DWord) : (recordError e info s).treeV = s.treeV := rfl
@[simp] theorem recordError_codesV (e : ErrCode) (info : DWord) : (recordError e info s).codesV = s.codesV := rfl
@[simp] theorem recordError_errCode (e : ErrCode) (info : DWord) : (recordError e info s).errCode = e := rfl
@[simp] theorem recordError_lastOp (e : ErrCode) (info : DWord) : (recordError e info s).lastOp = s.lastOp := rfl
@[simp] theorem recordError_inLen (e : ErrCode) (info : DWord) : (recordError e info s).inLen = s.inLen := rfl
@[simp] theorem recordError_outLen (e : ErrCode) (info : DWord) : (recordError e info s).outLen = s.outLen := rfl
@[simp] theorem recordError_nsym (e : ErrCode) (info : DWord) : (recordError e info s).nsym = s.nsym := rfl
@[simp] theorem recordError_root (e : ErrCode) (info : DWord) : (recordError e info s).root = s.root := rfl
@[simp] theorem recordError_total (e : ErrCode) (info : DWord) : (recordError e info s).total = s.total := rfl
@[simp] theorem recordError_origBits (e : ErrCode) (info : DWord) : (recordError e info s).origBits = s.origBits := rfl
@[simp] theorem recordError_compBits (e : ErrCode) (info : DWord) : (recordError e info s).compBits = s.compBits := rfl
@[simp] theorem recordError_payloadOff (e : ErrCode) (info : DWord) :
    (recordError e info s).payloadOff = s.payloadOff := rfl
@[simp] theorem recordError_errInfo (e : ErrCode) (info : DWord) : (recordError e info s).errInfo = info := rfl
@[simp] theorem recordError_irqEn (e : ErrCode) (info : DWord) : (recordError e info s).irqEn = s.irqEn := rfl
@[simp] theorem recordError_irqStatus (e : ErrCode) (info : DWord) :
    (recordError e info s).irqStatus = s.irqStatus := rfl
@[simp] theorem recordError_freq (e : ErrCode) (info : DWord) : (recordError e info s).freq = s.freq := rfl
@[simp] theorem recordError_node (e : ErrCode) (info : DWord) : (recordError e info s).node = s.node := rfl
@[simp] theorem recordError_code (e : ErrCode) (info : DWord) : (recordError e info s).code = s.code := rfl
@[simp] theorem recordError_ibuf (e : ErrCode) (info : DWord) : (recordError e info s).ibuf = s.ibuf := rfl
@[simp] theorem recordError_obuf (e : ErrCode) (info : DWord) : (recordError e info s).obuf = s.obuf := rfl
@[simp] theorem recordError_curCmd (e : ErrCode) (info : DWord) : (recordError e info s).curCmd = s.curCmd := rfl
@[simp] theorem recordError_work (e : ErrCode) (info : DWord) : (recordError e info s).work = s.work := rfl
@[simp] theorem recordError_freqKnown (e : ErrCode) (info : DWord) :
    (recordError e info s).freqKnown = s.freqKnown := rfl
@[simp] theorem recordError_nodeKnown (e : ErrCode) (info : DWord) :
    (recordError e info s).nodeKnown = s.nodeKnown := rfl
@[simp] theorem recordError_codeKnown (e : ErrCode) (info : DWord) :
    (recordError e info s).codeKnown = s.codeKnown := rfl
@[simp] theorem recordError_script (e : ErrCode) (info : DWord) : (recordError e info s).script = s.script := rfl
@[simp] theorem recordError_reads (e : ErrCode) (info : DWord) : (recordError e info s).reads = s.reads := rfl
@[simp] theorem recordError_delay (e : ErrCode) (info : DWord) : (recordError e info s).delay = s.delay := rfl
@[simp] theorem recordError_draws (e : ErrCode) (info : DWord) : (recordError e info s).draws = s.draws := rfl

/-! ### complete (R70) -/

@[simp] theorem complete_cfg : (complete s).cfg = s.cfg := rfl
@[simp] theorem complete_busy : (complete s).busy = false := rfl
@[simp] theorem complete_done : (complete s).done = true := rfl
@[simp] theorem complete_ovr : (complete s).ovr = s.ovr := rfl
@[simp] theorem complete_ftV : (complete s).ftV = s.ftV := rfl
@[simp] theorem complete_ftSrc : (complete s).ftSrc = s.ftSrc := rfl
@[simp] theorem complete_treeV : (complete s).treeV = s.treeV := rfl
@[simp] theorem complete_codesV : (complete s).codesV = s.codesV := rfl
@[simp] theorem complete_errCode : (complete s).errCode = s.errCode := rfl
@[simp] theorem complete_lastOp : (complete s).lastOp = s.lastOp := rfl
@[simp] theorem complete_inLen : (complete s).inLen = s.inLen := rfl
@[simp] theorem complete_outLen : (complete s).outLen = s.outLen := rfl
@[simp] theorem complete_nsym : (complete s).nsym = s.nsym := rfl
@[simp] theorem complete_root : (complete s).root = s.root := rfl
@[simp] theorem complete_total : (complete s).total = s.total := rfl
@[simp] theorem complete_origBits : (complete s).origBits = s.origBits := rfl
@[simp] theorem complete_compBits : (complete s).compBits = s.compBits := rfl
@[simp] theorem complete_payloadOff : (complete s).payloadOff = s.payloadOff := rfl
@[simp] theorem complete_errInfo : (complete s).errInfo = s.errInfo := rfl
@[simp] theorem complete_irqEn : (complete s).irqEn = s.irqEn := rfl
@[simp] theorem complete_irqStatus :
    (complete s).irqStatus = if s.errCode ≠ .noError then s.irqStatus ||| irqDone ||| irqError else s.irqStatus ||| irqDone := rfl
@[simp] theorem complete_freq : (complete s).freq = s.freq := rfl
@[simp] theorem complete_node : (complete s).node = s.node := rfl
@[simp] theorem complete_code : (complete s).code = s.code := rfl
@[simp] theorem complete_ibuf : (complete s).ibuf = s.ibuf := rfl
@[simp] theorem complete_obuf : (complete s).obuf = s.obuf := rfl
@[simp] theorem complete_curCmd : (complete s).curCmd = s.curCmd := rfl
@[simp] theorem complete_work : (complete s).work = Work.idle := rfl
@[simp] theorem complete_freqKnown : (complete s).freqKnown = s.freqKnown := rfl
@[simp] theorem complete_nodeKnown : (complete s).nodeKnown = s.nodeKnown := rfl
@[simp] theorem complete_codeKnown : (complete s).codeKnown = s.codeKnown := rfl
@[simp] theorem complete_script : (complete s).script = s.script := rfl
@[simp] theorem complete_reads : (complete s).reads = s.reads := rfl
@[simp] theorem complete_delay : (complete s).delay = s.delay := rfl
@[simp] theorem complete_draws : (complete s).draws = s.draws := rfl

/-! ### accepted (R66) -/

@[simp] theorem accepted_cfg (v : Word) : (accepted v s).cfg = s.cfg := rfl
@[simp] theorem accepted_busy (v : Word) : (accepted v s).busy = true := rfl
@[simp] theorem accepted_done (v : Word) : (accepted v s).done = false := rfl
@[simp] theorem accepted_ovr (v : Word) : (accepted v s).ovr = s.ovr := rfl
@[simp] theorem accepted_ftV (v : Word) : (accepted v s).ftV = s.ftV := rfl
@[simp] theorem accepted_ftSrc (v : Word) : (accepted v s).ftSrc = s.ftSrc := rfl
@[simp] theorem accepted_treeV (v : Word) : (accepted v s).treeV = s.treeV := rfl
@[simp] theorem accepted_codesV (v : Word) : (accepted v s).codesV = s.codesV := rfl
@[simp] theorem accepted_errCode (v : Word) : (accepted v s).errCode = .noError := rfl
@[simp] theorem accepted_lastOp (v : Word) : (accepted v s).lastOp = v.extractLsb' 0 8 := rfl
@[simp] theorem accepted_inLen (v : Word) : (accepted v s).inLen = s.inLen := rfl
@[simp] theorem accepted_outLen (v : Word) : (accepted v s).outLen = s.outLen := rfl
@[simp] theorem accepted_nsym (v : Word) : (accepted v s).nsym = s.nsym := rfl
@[simp] theorem accepted_root (v : Word) : (accepted v s).root = s.root := rfl
@[simp] theorem accepted_total (v : Word) : (accepted v s).total = s.total := rfl
@[simp] theorem accepted_origBits (v : Word) : (accepted v s).origBits = s.origBits := rfl
@[simp] theorem accepted_compBits (v : Word) : (accepted v s).compBits = s.compBits := rfl
@[simp] theorem accepted_payloadOff (v : Word) : (accepted v s).payloadOff = s.payloadOff := rfl
@[simp] theorem accepted_errInfo (v : Word) : (accepted v s).errInfo = 0#64 := rfl
@[simp] theorem accepted_irqEn (v : Word) : (accepted v s).irqEn = s.irqEn := rfl
@[simp] theorem accepted_irqStatus (v : Word) : (accepted v s).irqStatus = s.irqStatus := rfl
@[simp] theorem accepted_freq (v : Word) : (accepted v s).freq = s.freq := rfl
@[simp] theorem accepted_node (v : Word) : (accepted v s).node = s.node := rfl
@[simp] theorem accepted_code (v : Word) : (accepted v s).code = s.code := rfl
@[simp] theorem accepted_ibuf (v : Word) : (accepted v s).ibuf = s.ibuf := rfl
@[simp] theorem accepted_obuf (v : Word) : (accepted v s).obuf = s.obuf := rfl
@[simp] theorem accepted_curCmd (v : Word) : (accepted v s).curCmd = v := rfl
@[simp] theorem accepted_work (v : Word) : (accepted v s).work = s.work := rfl
@[simp] theorem accepted_freqKnown (v : Word) : (accepted v s).freqKnown = s.freqKnown := rfl
@[simp] theorem accepted_nodeKnown (v : Word) : (accepted v s).nodeKnown = s.nodeKnown := rfl
@[simp] theorem accepted_codeKnown (v : Word) : (accepted v s).codeKnown = s.codeKnown := rfl
@[simp] theorem accepted_script (v : Word) : (accepted v s).script = s.script := rfl
@[simp] theorem accepted_reads (v : Word) : (accepted v s).reads = s.reads := rfl
@[simp] theorem accepted_delay (v : Word) : (accepted v s).delay = s.delay := rfl
@[simp] theorem accepted_draws (v : Word) : (accepted v s).draws = s.draws := rfl

/-! ### reply (a host read returns) -/

@[simp] theorem reply_cfg (r : Reply) : (reply r s).cfg = s.cfg := rfl
@[simp] theorem reply_busy (r : Reply) : (reply r s).busy = s.busy := rfl
@[simp] theorem reply_done (r : Reply) : (reply r s).done = s.done := rfl
@[simp] theorem reply_ovr (r : Reply) : (reply r s).ovr = s.ovr := rfl
@[simp] theorem reply_ftV (r : Reply) : (reply r s).ftV = s.ftV := rfl
@[simp] theorem reply_ftSrc (r : Reply) : (reply r s).ftSrc = s.ftSrc := rfl
@[simp] theorem reply_treeV (r : Reply) : (reply r s).treeV = s.treeV := rfl
@[simp] theorem reply_codesV (r : Reply) : (reply r s).codesV = s.codesV := rfl
@[simp] theorem reply_errCode (r : Reply) : (reply r s).errCode = s.errCode := rfl
@[simp] theorem reply_lastOp (r : Reply) : (reply r s).lastOp = s.lastOp := rfl
@[simp] theorem reply_inLen (r : Reply) : (reply r s).inLen = s.inLen := rfl
@[simp] theorem reply_outLen (r : Reply) : (reply r s).outLen = s.outLen := rfl
@[simp] theorem reply_nsym (r : Reply) : (reply r s).nsym = s.nsym := rfl
@[simp] theorem reply_root (r : Reply) : (reply r s).root = s.root := rfl
@[simp] theorem reply_total (r : Reply) : (reply r s).total = s.total := rfl
@[simp] theorem reply_origBits (r : Reply) : (reply r s).origBits = s.origBits := rfl
@[simp] theorem reply_compBits (r : Reply) : (reply r s).compBits = s.compBits := rfl
@[simp] theorem reply_payloadOff (r : Reply) : (reply r s).payloadOff = s.payloadOff := rfl
@[simp] theorem reply_errInfo (r : Reply) : (reply r s).errInfo = s.errInfo := rfl
@[simp] theorem reply_irqEn (r : Reply) : (reply r s).irqEn = s.irqEn := rfl
@[simp] theorem reply_irqStatus (r : Reply) : (reply r s).irqStatus = s.irqStatus := rfl
@[simp] theorem reply_freq (r : Reply) : (reply r s).freq = s.freq := rfl
@[simp] theorem reply_node (r : Reply) : (reply r s).node = s.node := rfl
@[simp] theorem reply_code (r : Reply) : (reply r s).code = s.code := rfl
@[simp] theorem reply_ibuf (r : Reply) : (reply r s).ibuf = s.ibuf := rfl
@[simp] theorem reply_obuf (r : Reply) : (reply r s).obuf = s.obuf := rfl
@[simp] theorem reply_curCmd (r : Reply) : (reply r s).curCmd = s.curCmd := rfl
@[simp] theorem reply_work (r : Reply) : (reply r s).work = s.work := rfl
@[simp] theorem reply_freqKnown (r : Reply) : (reply r s).freqKnown = s.freqKnown := rfl
@[simp] theorem reply_nodeKnown (r : Reply) : (reply r s).nodeKnown = s.nodeKnown := rfl
@[simp] theorem reply_codeKnown (r : Reply) : (reply r s).codeKnown = s.codeKnown := rfl
@[simp] theorem reply_script (r : Reply) : (reply r s).script = s.script := rfl
@[simp] theorem reply_reads (r : Reply) : (reply r s).reads = r :: s.reads := rfl
@[simp] theorem reply_delay (r : Reply) : (reply r s).delay = s.delay := rfl
@[simp] theorem reply_draws (r : Reply) : (reply r s).draws = s.draws := rfl

/-! ### drawn (a free value is used) -/

@[simp] theorem drawn_cfg : (drawn s).cfg = s.cfg := rfl
@[simp] theorem drawn_busy : (drawn s).busy = s.busy := rfl
@[simp] theorem drawn_done : (drawn s).done = s.done := rfl
@[simp] theorem drawn_ovr : (drawn s).ovr = s.ovr := rfl
@[simp] theorem drawn_ftV : (drawn s).ftV = s.ftV := rfl
@[simp] theorem drawn_ftSrc : (drawn s).ftSrc = s.ftSrc := rfl
@[simp] theorem drawn_treeV : (drawn s).treeV = s.treeV := rfl
@[simp] theorem drawn_codesV : (drawn s).codesV = s.codesV := rfl
@[simp] theorem drawn_errCode : (drawn s).errCode = s.errCode := rfl
@[simp] theorem drawn_lastOp : (drawn s).lastOp = s.lastOp := rfl
@[simp] theorem drawn_inLen : (drawn s).inLen = s.inLen := rfl
@[simp] theorem drawn_outLen : (drawn s).outLen = s.outLen := rfl
@[simp] theorem drawn_nsym : (drawn s).nsym = s.nsym := rfl
@[simp] theorem drawn_root : (drawn s).root = s.root := rfl
@[simp] theorem drawn_total : (drawn s).total = s.total := rfl
@[simp] theorem drawn_origBits : (drawn s).origBits = s.origBits := rfl
@[simp] theorem drawn_compBits : (drawn s).compBits = s.compBits := rfl
@[simp] theorem drawn_payloadOff : (drawn s).payloadOff = s.payloadOff := rfl
@[simp] theorem drawn_errInfo : (drawn s).errInfo = s.errInfo := rfl
@[simp] theorem drawn_irqEn : (drawn s).irqEn = s.irqEn := rfl
@[simp] theorem drawn_irqStatus : (drawn s).irqStatus = s.irqStatus := rfl
@[simp] theorem drawn_freq : (drawn s).freq = s.freq := rfl
@[simp] theorem drawn_node : (drawn s).node = s.node := rfl
@[simp] theorem drawn_code : (drawn s).code = s.code := rfl
@[simp] theorem drawn_ibuf : (drawn s).ibuf = s.ibuf := rfl
@[simp] theorem drawn_obuf : (drawn s).obuf = s.obuf := rfl
@[simp] theorem drawn_curCmd : (drawn s).curCmd = s.curCmd := rfl
@[simp] theorem drawn_work : (drawn s).work = s.work := rfl
@[simp] theorem drawn_freqKnown : (drawn s).freqKnown = s.freqKnown := rfl
@[simp] theorem drawn_nodeKnown : (drawn s).nodeKnown = s.nodeKnown := rfl
@[simp] theorem drawn_codeKnown : (drawn s).codeKnown = s.codeKnown := rfl
@[simp] theorem drawn_script : (drawn s).script = s.script := rfl
@[simp] theorem drawn_reads : (drawn s).reads = s.reads := rfl
@[simp] theorem drawn_delay : (drawn s).delay = s.delay := rfl
@[simp] theorem drawn_draws : (drawn s).draws = s.draws + 1 := rfl

/-! ### setDraws (the count of free values) -/

@[simp] theorem setDraws_cfg (d : Nat) : (setDraws d s).cfg = s.cfg := rfl
@[simp] theorem setDraws_busy (d : Nat) : (setDraws d s).busy = s.busy := rfl
@[simp] theorem setDraws_done (d : Nat) : (setDraws d s).done = s.done := rfl
@[simp] theorem setDraws_ovr (d : Nat) : (setDraws d s).ovr = s.ovr := rfl
@[simp] theorem setDraws_ftV (d : Nat) : (setDraws d s).ftV = s.ftV := rfl
@[simp] theorem setDraws_ftSrc (d : Nat) : (setDraws d s).ftSrc = s.ftSrc := rfl
@[simp] theorem setDraws_treeV (d : Nat) : (setDraws d s).treeV = s.treeV := rfl
@[simp] theorem setDraws_codesV (d : Nat) : (setDraws d s).codesV = s.codesV := rfl
@[simp] theorem setDraws_errCode (d : Nat) : (setDraws d s).errCode = s.errCode := rfl
@[simp] theorem setDraws_lastOp (d : Nat) : (setDraws d s).lastOp = s.lastOp := rfl
@[simp] theorem setDraws_inLen (d : Nat) : (setDraws d s).inLen = s.inLen := rfl
@[simp] theorem setDraws_outLen (d : Nat) : (setDraws d s).outLen = s.outLen := rfl
@[simp] theorem setDraws_nsym (d : Nat) : (setDraws d s).nsym = s.nsym := rfl
@[simp] theorem setDraws_root (d : Nat) : (setDraws d s).root = s.root := rfl
@[simp] theorem setDraws_total (d : Nat) : (setDraws d s).total = s.total := rfl
@[simp] theorem setDraws_origBits (d : Nat) : (setDraws d s).origBits = s.origBits := rfl
@[simp] theorem setDraws_compBits (d : Nat) : (setDraws d s).compBits = s.compBits := rfl
@[simp] theorem setDraws_payloadOff (d : Nat) : (setDraws d s).payloadOff = s.payloadOff := rfl
@[simp] theorem setDraws_errInfo (d : Nat) : (setDraws d s).errInfo = s.errInfo := rfl
@[simp] theorem setDraws_irqEn (d : Nat) : (setDraws d s).irqEn = s.irqEn := rfl
@[simp] theorem setDraws_irqStatus (d : Nat) : (setDraws d s).irqStatus = s.irqStatus := rfl
@[simp] theorem setDraws_freq (d : Nat) : (setDraws d s).freq = s.freq := rfl
@[simp] theorem setDraws_node (d : Nat) : (setDraws d s).node = s.node := rfl
@[simp] theorem setDraws_code (d : Nat) : (setDraws d s).code = s.code := rfl
@[simp] theorem setDraws_ibuf (d : Nat) : (setDraws d s).ibuf = s.ibuf := rfl
@[simp] theorem setDraws_obuf (d : Nat) : (setDraws d s).obuf = s.obuf := rfl
@[simp] theorem setDraws_curCmd (d : Nat) : (setDraws d s).curCmd = s.curCmd := rfl
@[simp] theorem setDraws_work (d : Nat) : (setDraws d s).work = s.work := rfl
@[simp] theorem setDraws_freqKnown (d : Nat) : (setDraws d s).freqKnown = s.freqKnown := rfl
@[simp] theorem setDraws_nodeKnown (d : Nat) : (setDraws d s).nodeKnown = s.nodeKnown := rfl
@[simp] theorem setDraws_codeKnown (d : Nat) : (setDraws d s).codeKnown = s.codeKnown := rfl
@[simp] theorem setDraws_script (d : Nat) : (setDraws d s).script = s.script := rfl
@[simp] theorem setDraws_reads (d : Nat) : (setDraws d s).reads = s.reads := rfl
@[simp] theorem setDraws_delay (d : Nat) : (setDraws d s).delay = s.delay := rfl
@[simp] theorem setDraws_draws (d : Nat) : (setDraws d s).draws = d := rfl

/-! ### setTable (FREQ) -/

@[simp] theorem setTable_cfg (f : Vector Word 256) : (setTable f s).cfg = s.cfg := rfl
@[simp] theorem setTable_busy (f : Vector Word 256) : (setTable f s).busy = s.busy := rfl
@[simp] theorem setTable_done (f : Vector Word 256) : (setTable f s).done = s.done := rfl
@[simp] theorem setTable_ovr (f : Vector Word 256) : (setTable f s).ovr = s.ovr := rfl
@[simp] theorem setTable_ftV (f : Vector Word 256) : (setTable f s).ftV = s.ftV := rfl
@[simp] theorem setTable_ftSrc (f : Vector Word 256) : (setTable f s).ftSrc = s.ftSrc := rfl
@[simp] theorem setTable_treeV (f : Vector Word 256) : (setTable f s).treeV = s.treeV := rfl
@[simp] theorem setTable_codesV (f : Vector Word 256) : (setTable f s).codesV = s.codesV := rfl
@[simp] theorem setTable_errCode (f : Vector Word 256) : (setTable f s).errCode = s.errCode := rfl
@[simp] theorem setTable_lastOp (f : Vector Word 256) : (setTable f s).lastOp = s.lastOp := rfl
@[simp] theorem setTable_inLen (f : Vector Word 256) : (setTable f s).inLen = s.inLen := rfl
@[simp] theorem setTable_outLen (f : Vector Word 256) : (setTable f s).outLen = s.outLen := rfl
@[simp] theorem setTable_nsym (f : Vector Word 256) : (setTable f s).nsym = s.nsym := rfl
@[simp] theorem setTable_root (f : Vector Word 256) : (setTable f s).root = s.root := rfl
@[simp] theorem setTable_total (f : Vector Word 256) : (setTable f s).total = s.total := rfl
@[simp] theorem setTable_origBits (f : Vector Word 256) : (setTable f s).origBits = s.origBits := rfl
@[simp] theorem setTable_compBits (f : Vector Word 256) : (setTable f s).compBits = s.compBits := rfl
@[simp] theorem setTable_payloadOff (f : Vector Word 256) : (setTable f s).payloadOff = s.payloadOff := rfl
@[simp] theorem setTable_errInfo (f : Vector Word 256) : (setTable f s).errInfo = s.errInfo := rfl
@[simp] theorem setTable_irqEn (f : Vector Word 256) : (setTable f s).irqEn = s.irqEn := rfl
@[simp] theorem setTable_irqStatus (f : Vector Word 256) : (setTable f s).irqStatus = s.irqStatus := rfl
@[simp] theorem setTable_freq (f : Vector Word 256) : (setTable f s).freq = f := rfl
@[simp] theorem setTable_node (f : Vector Word 256) : (setTable f s).node = s.node := rfl
@[simp] theorem setTable_code (f : Vector Word 256) : (setTable f s).code = s.code := rfl
@[simp] theorem setTable_ibuf (f : Vector Word 256) : (setTable f s).ibuf = s.ibuf := rfl
@[simp] theorem setTable_obuf (f : Vector Word 256) : (setTable f s).obuf = s.obuf := rfl
@[simp] theorem setTable_curCmd (f : Vector Word 256) : (setTable f s).curCmd = s.curCmd := rfl
@[simp] theorem setTable_work (f : Vector Word 256) : (setTable f s).work = s.work := rfl
@[simp] theorem setTable_freqKnown (f : Vector Word 256) : (setTable f s).freqKnown = s.freqKnown := rfl
@[simp] theorem setTable_nodeKnown (f : Vector Word 256) : (setTable f s).nodeKnown = s.nodeKnown := rfl
@[simp] theorem setTable_codeKnown (f : Vector Word 256) : (setTable f s).codeKnown = s.codeKnown := rfl
@[simp] theorem setTable_script (f : Vector Word 256) : (setTable f s).script = s.script := rfl
@[simp] theorem setTable_reads (f : Vector Word 256) : (setTable f s).reads = s.reads := rfl
@[simp] theorem setTable_delay (f : Vector Word 256) : (setTable f s).delay = s.delay := rfl
@[simp] theorem setTable_draws (f : Vector Word 256) : (setTable f s).draws = s.draws := rfl

/-! ### setArena (NODE) -/

@[simp] theorem setArena_cfg (t : Vector Node 511) : (setArena t s).cfg = s.cfg := rfl
@[simp] theorem setArena_busy (t : Vector Node 511) : (setArena t s).busy = s.busy := rfl
@[simp] theorem setArena_done (t : Vector Node 511) : (setArena t s).done = s.done := rfl
@[simp] theorem setArena_ovr (t : Vector Node 511) : (setArena t s).ovr = s.ovr := rfl
@[simp] theorem setArena_ftV (t : Vector Node 511) : (setArena t s).ftV = s.ftV := rfl
@[simp] theorem setArena_ftSrc (t : Vector Node 511) : (setArena t s).ftSrc = s.ftSrc := rfl
@[simp] theorem setArena_treeV (t : Vector Node 511) : (setArena t s).treeV = s.treeV := rfl
@[simp] theorem setArena_codesV (t : Vector Node 511) : (setArena t s).codesV = s.codesV := rfl
@[simp] theorem setArena_errCode (t : Vector Node 511) : (setArena t s).errCode = s.errCode := rfl
@[simp] theorem setArena_lastOp (t : Vector Node 511) : (setArena t s).lastOp = s.lastOp := rfl
@[simp] theorem setArena_inLen (t : Vector Node 511) : (setArena t s).inLen = s.inLen := rfl
@[simp] theorem setArena_outLen (t : Vector Node 511) : (setArena t s).outLen = s.outLen := rfl
@[simp] theorem setArena_nsym (t : Vector Node 511) : (setArena t s).nsym = s.nsym := rfl
@[simp] theorem setArena_root (t : Vector Node 511) : (setArena t s).root = s.root := rfl
@[simp] theorem setArena_total (t : Vector Node 511) : (setArena t s).total = s.total := rfl
@[simp] theorem setArena_origBits (t : Vector Node 511) : (setArena t s).origBits = s.origBits := rfl
@[simp] theorem setArena_compBits (t : Vector Node 511) : (setArena t s).compBits = s.compBits := rfl
@[simp] theorem setArena_payloadOff (t : Vector Node 511) : (setArena t s).payloadOff = s.payloadOff := rfl
@[simp] theorem setArena_errInfo (t : Vector Node 511) : (setArena t s).errInfo = s.errInfo := rfl
@[simp] theorem setArena_irqEn (t : Vector Node 511) : (setArena t s).irqEn = s.irqEn := rfl
@[simp] theorem setArena_irqStatus (t : Vector Node 511) : (setArena t s).irqStatus = s.irqStatus := rfl
@[simp] theorem setArena_freq (t : Vector Node 511) : (setArena t s).freq = s.freq := rfl
@[simp] theorem setArena_node (t : Vector Node 511) : (setArena t s).node = t := rfl
@[simp] theorem setArena_code (t : Vector Node 511) : (setArena t s).code = s.code := rfl
@[simp] theorem setArena_ibuf (t : Vector Node 511) : (setArena t s).ibuf = s.ibuf := rfl
@[simp] theorem setArena_obuf (t : Vector Node 511) : (setArena t s).obuf = s.obuf := rfl
@[simp] theorem setArena_curCmd (t : Vector Node 511) : (setArena t s).curCmd = s.curCmd := rfl
@[simp] theorem setArena_work (t : Vector Node 511) : (setArena t s).work = s.work := rfl
@[simp] theorem setArena_freqKnown (t : Vector Node 511) : (setArena t s).freqKnown = s.freqKnown := rfl
@[simp] theorem setArena_nodeKnown (t : Vector Node 511) : (setArena t s).nodeKnown = s.nodeKnown := rfl
@[simp] theorem setArena_codeKnown (t : Vector Node 511) : (setArena t s).codeKnown = s.codeKnown := rfl
@[simp] theorem setArena_script (t : Vector Node 511) : (setArena t s).script = s.script := rfl
@[simp] theorem setArena_reads (t : Vector Node 511) : (setArena t s).reads = s.reads := rfl
@[simp] theorem setArena_delay (t : Vector Node 511) : (setArena t s).delay = s.delay := rfl
@[simp] theorem setArena_draws (t : Vector Node 511) : (setArena t s).draws = s.draws := rfl

/-! ### setCodes (CODE) -/

@[simp] theorem setCodes_cfg (c : Vector Code 256) : (setCodes c s).cfg = s.cfg := rfl
@[simp] theorem setCodes_busy (c : Vector Code 256) : (setCodes c s).busy = s.busy := rfl
@[simp] theorem setCodes_done (c : Vector Code 256) : (setCodes c s).done = s.done := rfl
@[simp] theorem setCodes_ovr (c : Vector Code 256) : (setCodes c s).ovr = s.ovr := rfl
@[simp] theorem setCodes_ftV (c : Vector Code 256) : (setCodes c s).ftV = s.ftV := rfl
@[simp] theorem setCodes_ftSrc (c : Vector Code 256) : (setCodes c s).ftSrc = s.ftSrc := rfl
@[simp] theorem setCodes_treeV (c : Vector Code 256) : (setCodes c s).treeV = s.treeV := rfl
@[simp] theorem setCodes_codesV (c : Vector Code 256) : (setCodes c s).codesV = s.codesV := rfl
@[simp] theorem setCodes_errCode (c : Vector Code 256) : (setCodes c s).errCode = s.errCode := rfl
@[simp] theorem setCodes_lastOp (c : Vector Code 256) : (setCodes c s).lastOp = s.lastOp := rfl
@[simp] theorem setCodes_inLen (c : Vector Code 256) : (setCodes c s).inLen = s.inLen := rfl
@[simp] theorem setCodes_outLen (c : Vector Code 256) : (setCodes c s).outLen = s.outLen := rfl
@[simp] theorem setCodes_nsym (c : Vector Code 256) : (setCodes c s).nsym = s.nsym := rfl
@[simp] theorem setCodes_root (c : Vector Code 256) : (setCodes c s).root = s.root := rfl
@[simp] theorem setCodes_total (c : Vector Code 256) : (setCodes c s).total = s.total := rfl
@[simp] theorem setCodes_origBits (c : Vector Code 256) : (setCodes c s).origBits = s.origBits := rfl
@[simp] theorem setCodes_compBits (c : Vector Code 256) : (setCodes c s).compBits = s.compBits := rfl
@[simp] theorem setCodes_payloadOff (c : Vector Code 256) : (setCodes c s).payloadOff = s.payloadOff := rfl
@[simp] theorem setCodes_errInfo (c : Vector Code 256) : (setCodes c s).errInfo = s.errInfo := rfl
@[simp] theorem setCodes_irqEn (c : Vector Code 256) : (setCodes c s).irqEn = s.irqEn := rfl
@[simp] theorem setCodes_irqStatus (c : Vector Code 256) : (setCodes c s).irqStatus = s.irqStatus := rfl
@[simp] theorem setCodes_freq (c : Vector Code 256) : (setCodes c s).freq = s.freq := rfl
@[simp] theorem setCodes_node (c : Vector Code 256) : (setCodes c s).node = s.node := rfl
@[simp] theorem setCodes_code (c : Vector Code 256) : (setCodes c s).code = c := rfl
@[simp] theorem setCodes_ibuf (c : Vector Code 256) : (setCodes c s).ibuf = s.ibuf := rfl
@[simp] theorem setCodes_obuf (c : Vector Code 256) : (setCodes c s).obuf = s.obuf := rfl
@[simp] theorem setCodes_curCmd (c : Vector Code 256) : (setCodes c s).curCmd = s.curCmd := rfl
@[simp] theorem setCodes_work (c : Vector Code 256) : (setCodes c s).work = s.work := rfl
@[simp] theorem setCodes_freqKnown (c : Vector Code 256) : (setCodes c s).freqKnown = s.freqKnown := rfl
@[simp] theorem setCodes_nodeKnown (c : Vector Code 256) : (setCodes c s).nodeKnown = s.nodeKnown := rfl
@[simp] theorem setCodes_codeKnown (c : Vector Code 256) : (setCodes c s).codeKnown = s.codeKnown := rfl
@[simp] theorem setCodes_script (c : Vector Code 256) : (setCodes c s).script = s.script := rfl
@[simp] theorem setCodes_reads (c : Vector Code 256) : (setCodes c s).reads = s.reads := rfl
@[simp] theorem setCodes_delay (c : Vector Code 256) : (setCodes c s).delay = s.delay := rfl
@[simp] theorem setCodes_draws (c : Vector Code 256) : (setCodes c s).draws = s.draws := rfl

/-! ### setRoot (ROOT) -/

@[simp] theorem setRoot_cfg (i : NodeIdx) : (setRoot i s).cfg = s.cfg := rfl
@[simp] theorem setRoot_busy (i : NodeIdx) : (setRoot i s).busy = s.busy := rfl
@[simp] theorem setRoot_done (i : NodeIdx) : (setRoot i s).done = s.done := rfl
@[simp] theorem setRoot_ovr (i : NodeIdx) : (setRoot i s).ovr = s.ovr := rfl
@[simp] theorem setRoot_ftV (i : NodeIdx) : (setRoot i s).ftV = s.ftV := rfl
@[simp] theorem setRoot_ftSrc (i : NodeIdx) : (setRoot i s).ftSrc = s.ftSrc := rfl
@[simp] theorem setRoot_treeV (i : NodeIdx) : (setRoot i s).treeV = s.treeV := rfl
@[simp] theorem setRoot_codesV (i : NodeIdx) : (setRoot i s).codesV = s.codesV := rfl
@[simp] theorem setRoot_errCode (i : NodeIdx) : (setRoot i s).errCode = s.errCode := rfl
@[simp] theorem setRoot_lastOp (i : NodeIdx) : (setRoot i s).lastOp = s.lastOp := rfl
@[simp] theorem setRoot_inLen (i : NodeIdx) : (setRoot i s).inLen = s.inLen := rfl
@[simp] theorem setRoot_outLen (i : NodeIdx) : (setRoot i s).outLen = s.outLen := rfl
@[simp] theorem setRoot_nsym (i : NodeIdx) : (setRoot i s).nsym = s.nsym := rfl
@[simp] theorem setRoot_root (i : NodeIdx) : (setRoot i s).root = i := rfl
@[simp] theorem setRoot_total (i : NodeIdx) : (setRoot i s).total = s.total := rfl
@[simp] theorem setRoot_origBits (i : NodeIdx) : (setRoot i s).origBits = s.origBits := rfl
@[simp] theorem setRoot_compBits (i : NodeIdx) : (setRoot i s).compBits = s.compBits := rfl
@[simp] theorem setRoot_payloadOff (i : NodeIdx) : (setRoot i s).payloadOff = s.payloadOff := rfl
@[simp] theorem setRoot_errInfo (i : NodeIdx) : (setRoot i s).errInfo = s.errInfo := rfl
@[simp] theorem setRoot_irqEn (i : NodeIdx) : (setRoot i s).irqEn = s.irqEn := rfl
@[simp] theorem setRoot_irqStatus (i : NodeIdx) : (setRoot i s).irqStatus = s.irqStatus := rfl
@[simp] theorem setRoot_freq (i : NodeIdx) : (setRoot i s).freq = s.freq := rfl
@[simp] theorem setRoot_node (i : NodeIdx) : (setRoot i s).node = s.node := rfl
@[simp] theorem setRoot_code (i : NodeIdx) : (setRoot i s).code = s.code := rfl
@[simp] theorem setRoot_ibuf (i : NodeIdx) : (setRoot i s).ibuf = s.ibuf := rfl
@[simp] theorem setRoot_obuf (i : NodeIdx) : (setRoot i s).obuf = s.obuf := rfl
@[simp] theorem setRoot_curCmd (i : NodeIdx) : (setRoot i s).curCmd = s.curCmd := rfl
@[simp] theorem setRoot_work (i : NodeIdx) : (setRoot i s).work = s.work := rfl
@[simp] theorem setRoot_freqKnown (i : NodeIdx) : (setRoot i s).freqKnown = s.freqKnown := rfl
@[simp] theorem setRoot_nodeKnown (i : NodeIdx) : (setRoot i s).nodeKnown = s.nodeKnown := rfl
@[simp] theorem setRoot_codeKnown (i : NodeIdx) : (setRoot i s).codeKnown = s.codeKnown := rfl
@[simp] theorem setRoot_script (i : NodeIdx) : (setRoot i s).script = s.script := rfl
@[simp] theorem setRoot_reads (i : NodeIdx) : (setRoot i s).reads = s.reads := rfl
@[simp] theorem setRoot_delay (i : NodeIdx) : (setRoot i s).delay = s.delay := rfl
@[simp] theorem setRoot_draws (i : NodeIdx) : (setRoot i s).draws = s.draws := rfl

/-! ### setOutput (OBUF and OUT_LEN) -/

@[simp] theorem setOutput_cfg (m : Memory) (n : Word) : (setOutput m n s).cfg = s.cfg := rfl
@[simp] theorem setOutput_busy (m : Memory) (n : Word) : (setOutput m n s).busy = s.busy := rfl
@[simp] theorem setOutput_done (m : Memory) (n : Word) : (setOutput m n s).done = s.done := rfl
@[simp] theorem setOutput_ovr (m : Memory) (n : Word) : (setOutput m n s).ovr = s.ovr := rfl
@[simp] theorem setOutput_ftV (m : Memory) (n : Word) : (setOutput m n s).ftV = s.ftV := rfl
@[simp] theorem setOutput_ftSrc (m : Memory) (n : Word) : (setOutput m n s).ftSrc = s.ftSrc := rfl
@[simp] theorem setOutput_treeV (m : Memory) (n : Word) : (setOutput m n s).treeV = s.treeV := rfl
@[simp] theorem setOutput_codesV (m : Memory) (n : Word) : (setOutput m n s).codesV = s.codesV := rfl
@[simp] theorem setOutput_errCode (m : Memory) (n : Word) : (setOutput m n s).errCode = s.errCode := rfl
@[simp] theorem setOutput_lastOp (m : Memory) (n : Word) : (setOutput m n s).lastOp = s.lastOp := rfl
@[simp] theorem setOutput_inLen (m : Memory) (n : Word) : (setOutput m n s).inLen = s.inLen := rfl
@[simp] theorem setOutput_outLen (m : Memory) (n : Word) : (setOutput m n s).outLen = n := rfl
@[simp] theorem setOutput_nsym (m : Memory) (n : Word) : (setOutput m n s).nsym = s.nsym := rfl
@[simp] theorem setOutput_root (m : Memory) (n : Word) : (setOutput m n s).root = s.root := rfl
@[simp] theorem setOutput_total (m : Memory) (n : Word) : (setOutput m n s).total = s.total := rfl
@[simp] theorem setOutput_origBits (m : Memory) (n : Word) : (setOutput m n s).origBits = s.origBits := rfl
@[simp] theorem setOutput_compBits (m : Memory) (n : Word) : (setOutput m n s).compBits = s.compBits := rfl
@[simp] theorem setOutput_payloadOff (m : Memory) (n : Word) : (setOutput m n s).payloadOff = s.payloadOff := rfl
@[simp] theorem setOutput_errInfo (m : Memory) (n : Word) : (setOutput m n s).errInfo = s.errInfo := rfl
@[simp] theorem setOutput_irqEn (m : Memory) (n : Word) : (setOutput m n s).irqEn = s.irqEn := rfl
@[simp] theorem setOutput_irqStatus (m : Memory) (n : Word) : (setOutput m n s).irqStatus = s.irqStatus := rfl
@[simp] theorem setOutput_freq (m : Memory) (n : Word) : (setOutput m n s).freq = s.freq := rfl
@[simp] theorem setOutput_node (m : Memory) (n : Word) : (setOutput m n s).node = s.node := rfl
@[simp] theorem setOutput_code (m : Memory) (n : Word) : (setOutput m n s).code = s.code := rfl
@[simp] theorem setOutput_ibuf (m : Memory) (n : Word) : (setOutput m n s).ibuf = s.ibuf := rfl
@[simp] theorem setOutput_obuf (m : Memory) (n : Word) : (setOutput m n s).obuf = m := rfl
@[simp] theorem setOutput_curCmd (m : Memory) (n : Word) : (setOutput m n s).curCmd = s.curCmd := rfl
@[simp] theorem setOutput_work (m : Memory) (n : Word) : (setOutput m n s).work = s.work := rfl
@[simp] theorem setOutput_freqKnown (m : Memory) (n : Word) : (setOutput m n s).freqKnown = s.freqKnown := rfl
@[simp] theorem setOutput_nodeKnown (m : Memory) (n : Word) : (setOutput m n s).nodeKnown = s.nodeKnown := rfl
@[simp] theorem setOutput_codeKnown (m : Memory) (n : Word) : (setOutput m n s).codeKnown = s.codeKnown := rfl
@[simp] theorem setOutput_script (m : Memory) (n : Word) : (setOutput m n s).script = s.script := rfl
@[simp] theorem setOutput_reads (m : Memory) (n : Word) : (setOutput m n s).reads = s.reads := rfl
@[simp] theorem setOutput_delay (m : Memory) (n : Word) : (setOutput m n s).delay = s.delay := rfl
@[simp] theorem setOutput_draws (m : Memory) (n : Word) : (setOutput m n s).draws = s.draws := rfl

/-! ### setWork (the working state) -/

@[simp] theorem setWork_cfg (w : Work) : (setWork w s).cfg = s.cfg := rfl
@[simp] theorem setWork_busy (w : Work) : (setWork w s).busy = s.busy := rfl
@[simp] theorem setWork_done (w : Work) : (setWork w s).done = s.done := rfl
@[simp] theorem setWork_ovr (w : Work) : (setWork w s).ovr = s.ovr := rfl
@[simp] theorem setWork_ftV (w : Work) : (setWork w s).ftV = s.ftV := rfl
@[simp] theorem setWork_ftSrc (w : Work) : (setWork w s).ftSrc = s.ftSrc := rfl
@[simp] theorem setWork_treeV (w : Work) : (setWork w s).treeV = s.treeV := rfl
@[simp] theorem setWork_codesV (w : Work) : (setWork w s).codesV = s.codesV := rfl
@[simp] theorem setWork_errCode (w : Work) : (setWork w s).errCode = s.errCode := rfl
@[simp] theorem setWork_lastOp (w : Work) : (setWork w s).lastOp = s.lastOp := rfl
@[simp] theorem setWork_inLen (w : Work) : (setWork w s).inLen = s.inLen := rfl
@[simp] theorem setWork_outLen (w : Work) : (setWork w s).outLen = s.outLen := rfl
@[simp] theorem setWork_nsym (w : Work) : (setWork w s).nsym = s.nsym := rfl
@[simp] theorem setWork_root (w : Work) : (setWork w s).root = s.root := rfl
@[simp] theorem setWork_total (w : Work) : (setWork w s).total = s.total := rfl
@[simp] theorem setWork_origBits (w : Work) : (setWork w s).origBits = s.origBits := rfl
@[simp] theorem setWork_compBits (w : Work) : (setWork w s).compBits = s.compBits := rfl
@[simp] theorem setWork_payloadOff (w : Work) : (setWork w s).payloadOff = s.payloadOff := rfl
@[simp] theorem setWork_errInfo (w : Work) : (setWork w s).errInfo = s.errInfo := rfl
@[simp] theorem setWork_irqEn (w : Work) : (setWork w s).irqEn = s.irqEn := rfl
@[simp] theorem setWork_irqStatus (w : Work) : (setWork w s).irqStatus = s.irqStatus := rfl
@[simp] theorem setWork_freq (w : Work) : (setWork w s).freq = s.freq := rfl
@[simp] theorem setWork_node (w : Work) : (setWork w s).node = s.node := rfl
@[simp] theorem setWork_code (w : Work) : (setWork w s).code = s.code := rfl
@[simp] theorem setWork_ibuf (w : Work) : (setWork w s).ibuf = s.ibuf := rfl
@[simp] theorem setWork_obuf (w : Work) : (setWork w s).obuf = s.obuf := rfl
@[simp] theorem setWork_curCmd (w : Work) : (setWork w s).curCmd = s.curCmd := rfl
@[simp] theorem setWork_work (w : Work) : (setWork w s).work = w := rfl
@[simp] theorem setWork_freqKnown (w : Work) : (setWork w s).freqKnown = s.freqKnown := rfl
@[simp] theorem setWork_nodeKnown (w : Work) : (setWork w s).nodeKnown = s.nodeKnown := rfl
@[simp] theorem setWork_codeKnown (w : Work) : (setWork w s).codeKnown = s.codeKnown := rfl
@[simp] theorem setWork_script (w : Work) : (setWork w s).script = s.script := rfl
@[simp] theorem setWork_reads (w : Work) : (setWork w s).reads = s.reads := rfl
@[simp] theorem setWork_delay (w : Work) : (setWork w s).delay = s.delay := rfl
@[simp] theorem setWork_draws (w : Work) : (setWork w s).draws = s.draws := rfl

/-! ### zeroHeader (R83) -/

@[simp] theorem zeroHeader_cfg : (zeroHeader s).cfg = s.cfg := rfl
@[simp] theorem zeroHeader_busy : (zeroHeader s).busy = s.busy := rfl
@[simp] theorem zeroHeader_done : (zeroHeader s).done = s.done := rfl
@[simp] theorem zeroHeader_ovr : (zeroHeader s).ovr = s.ovr := rfl
@[simp] theorem zeroHeader_ftV : (zeroHeader s).ftV = s.ftV := rfl
@[simp] theorem zeroHeader_ftSrc : (zeroHeader s).ftSrc = s.ftSrc := rfl
@[simp] theorem zeroHeader_treeV : (zeroHeader s).treeV = s.treeV := rfl
@[simp] theorem zeroHeader_codesV : (zeroHeader s).codesV = s.codesV := rfl
@[simp] theorem zeroHeader_errCode : (zeroHeader s).errCode = s.errCode := rfl
@[simp] theorem zeroHeader_lastOp : (zeroHeader s).lastOp = s.lastOp := rfl
@[simp] theorem zeroHeader_inLen : (zeroHeader s).inLen = s.inLen := rfl
@[simp] theorem zeroHeader_outLen : (zeroHeader s).outLen = s.outLen := rfl
@[simp] theorem zeroHeader_nsym : (zeroHeader s).nsym = 0#9 := rfl
@[simp] theorem zeroHeader_root : (zeroHeader s).root = s.root := rfl
@[simp] theorem zeroHeader_total : (zeroHeader s).total = 0#64 := rfl
@[simp] theorem zeroHeader_origBits : (zeroHeader s).origBits = s.origBits := rfl
@[simp] theorem zeroHeader_compBits : (zeroHeader s).compBits = s.compBits := rfl
@[simp] theorem zeroHeader_payloadOff : (zeroHeader s).payloadOff = 0#32 := rfl
@[simp] theorem zeroHeader_errInfo : (zeroHeader s).errInfo = s.errInfo := rfl
@[simp] theorem zeroHeader_irqEn : (zeroHeader s).irqEn = s.irqEn := rfl
@[simp] theorem zeroHeader_irqStatus : (zeroHeader s).irqStatus = s.irqStatus := rfl
@[simp] theorem zeroHeader_freq : (zeroHeader s).freq = Vector.replicate 256 0#32 := rfl
@[simp] theorem zeroHeader_node : (zeroHeader s).node = s.node := rfl
@[simp] theorem zeroHeader_code : (zeroHeader s).code = s.code := rfl
@[simp] theorem zeroHeader_ibuf : (zeroHeader s).ibuf = s.ibuf := rfl
@[simp] theorem zeroHeader_obuf : (zeroHeader s).obuf = s.obuf := rfl
@[simp] theorem zeroHeader_curCmd : (zeroHeader s).curCmd = s.curCmd := rfl
@[simp] theorem zeroHeader_work : (zeroHeader s).work = s.work := rfl
@[simp] theorem zeroHeader_freqKnown : (zeroHeader s).freqKnown = s.freqKnown := rfl
@[simp] theorem zeroHeader_nodeKnown : (zeroHeader s).nodeKnown = s.nodeKnown := rfl
@[simp] theorem zeroHeader_codeKnown : (zeroHeader s).codeKnown = s.codeKnown := rfl
@[simp] theorem zeroHeader_script : (zeroHeader s).script = s.script := rfl
@[simp] theorem zeroHeader_reads : (zeroHeader s).reads = s.reads := rfl
@[simp] theorem zeroHeader_delay : (zeroHeader s).delay = s.delay := rfl
@[simp] theorem zeroHeader_draws : (zeroHeader s).draws = s.draws := rfl

/-! ### treeDone (R87) -/

@[simp] theorem treeDone_cfg : (treeDone s).cfg = s.cfg := rfl
@[simp] theorem treeDone_busy : (treeDone s).busy = s.busy := rfl
@[simp] theorem treeDone_done : (treeDone s).done = s.done := rfl
@[simp] theorem treeDone_ovr : (treeDone s).ovr = s.ovr := rfl
@[simp] theorem treeDone_ftV : (treeDone s).ftV = s.ftV := rfl
@[simp] theorem treeDone_ftSrc : (treeDone s).ftSrc = s.ftSrc := rfl
@[simp] theorem treeDone_treeV : (treeDone s).treeV = true := rfl
@[simp] theorem treeDone_codesV : (treeDone s).codesV = s.codesV := rfl
@[simp] theorem treeDone_errCode : (treeDone s).errCode = s.errCode := rfl
@[simp] theorem treeDone_lastOp : (treeDone s).lastOp = s.lastOp := rfl
@[simp] theorem treeDone_inLen : (treeDone s).inLen = s.inLen := rfl
@[simp] theorem treeDone_outLen : (treeDone s).outLen = s.outLen := rfl
@[simp] theorem treeDone_nsym : (treeDone s).nsym = s.nsym := rfl
@[simp] theorem treeDone_root : (treeDone s).root = s.root := rfl
@[simp] theorem treeDone_total : (treeDone s).total = s.total := rfl
@[simp] theorem treeDone_origBits : (treeDone s).origBits = s.origBits := rfl
@[simp] theorem treeDone_compBits : (treeDone s).compBits = s.compBits := rfl
@[simp] theorem treeDone_payloadOff : (treeDone s).payloadOff = s.payloadOff := rfl
@[simp] theorem treeDone_errInfo : (treeDone s).errInfo = s.errInfo := rfl
@[simp] theorem treeDone_irqEn : (treeDone s).irqEn = s.irqEn := rfl
@[simp] theorem treeDone_irqStatus : (treeDone s).irqStatus = s.irqStatus := rfl
@[simp] theorem treeDone_freq : (treeDone s).freq = s.freq := rfl
@[simp] theorem treeDone_node : (treeDone s).node = s.node := rfl
@[simp] theorem treeDone_code : (treeDone s).code = s.code := rfl
@[simp] theorem treeDone_ibuf : (treeDone s).ibuf = s.ibuf := rfl
@[simp] theorem treeDone_obuf : (treeDone s).obuf = s.obuf := rfl
@[simp] theorem treeDone_curCmd : (treeDone s).curCmd = s.curCmd := rfl
@[simp] theorem treeDone_work : (treeDone s).work = s.work := rfl
@[simp] theorem treeDone_freqKnown : (treeDone s).freqKnown = s.freqKnown := rfl
@[simp] theorem treeDone_nodeKnown : (treeDone s).nodeKnown = s.nodeKnown := rfl
@[simp] theorem treeDone_codeKnown : (treeDone s).codeKnown = s.codeKnown := rfl
@[simp] theorem treeDone_script : (treeDone s).script = s.script := rfl
@[simp] theorem treeDone_reads : (treeDone s).reads = s.reads := rfl
@[simp] theorem treeDone_delay : (treeDone s).delay = s.delay := rfl
@[simp] theorem treeDone_draws : (treeDone s).draws = s.draws := rfl

/-! ### codesDone (R94) -/

@[simp] theorem codesDone_cfg : (codesDone s).cfg = s.cfg := rfl
@[simp] theorem codesDone_busy : (codesDone s).busy = s.busy := rfl
@[simp] theorem codesDone_done : (codesDone s).done = s.done := rfl
@[simp] theorem codesDone_ovr : (codesDone s).ovr = s.ovr := rfl
@[simp] theorem codesDone_ftV : (codesDone s).ftV = s.ftV := rfl
@[simp] theorem codesDone_ftSrc : (codesDone s).ftSrc = s.ftSrc := rfl
@[simp] theorem codesDone_treeV : (codesDone s).treeV = s.treeV := rfl
@[simp] theorem codesDone_codesV : (codesDone s).codesV = true := rfl
@[simp] theorem codesDone_errCode : (codesDone s).errCode = s.errCode := rfl
@[simp] theorem codesDone_lastOp : (codesDone s).lastOp = s.lastOp := rfl
@[simp] theorem codesDone_inLen : (codesDone s).inLen = s.inLen := rfl
@[simp] theorem codesDone_outLen : (codesDone s).outLen = s.outLen := rfl
@[simp] theorem codesDone_nsym : (codesDone s).nsym = s.nsym := rfl
@[simp] theorem codesDone_root : (codesDone s).root = s.root := rfl
@[simp] theorem codesDone_total : (codesDone s).total = s.total := rfl
@[simp] theorem codesDone_origBits : (codesDone s).origBits = s.origBits := rfl
@[simp] theorem codesDone_compBits : (codesDone s).compBits = s.compBits := rfl
@[simp] theorem codesDone_payloadOff : (codesDone s).payloadOff = s.payloadOff := rfl
@[simp] theorem codesDone_errInfo : (codesDone s).errInfo = s.errInfo := rfl
@[simp] theorem codesDone_irqEn : (codesDone s).irqEn = s.irqEn := rfl
@[simp] theorem codesDone_irqStatus : (codesDone s).irqStatus = s.irqStatus := rfl
@[simp] theorem codesDone_freq : (codesDone s).freq = s.freq := rfl
@[simp] theorem codesDone_node : (codesDone s).node = s.node := rfl
@[simp] theorem codesDone_code : (codesDone s).code = s.code := rfl
@[simp] theorem codesDone_ibuf : (codesDone s).ibuf = s.ibuf := rfl
@[simp] theorem codesDone_obuf : (codesDone s).obuf = s.obuf := rfl
@[simp] theorem codesDone_curCmd : (codesDone s).curCmd = s.curCmd := rfl
@[simp] theorem codesDone_work : (codesDone s).work = s.work := rfl
@[simp] theorem codesDone_freqKnown : (codesDone s).freqKnown = s.freqKnown := rfl
@[simp] theorem codesDone_nodeKnown : (codesDone s).nodeKnown = s.nodeKnown := rfl
@[simp] theorem codesDone_codeKnown : (codesDone s).codeKnown = s.codeKnown := rfl
@[simp] theorem codesDone_script : (codesDone s).script = s.script := rfl
@[simp] theorem codesDone_reads : (codesDone s).reads = s.reads := rfl
@[simp] theorem codesDone_delay : (codesDone s).delay = s.delay := rfl
@[simp] theorem codesDone_draws : (codesDone s).draws = s.draws := rfl

/-! ### packEnd (R99) -/

@[simp] theorem packEnd_cfg : (packEnd s).cfg = s.cfg := rfl
@[simp] theorem packEnd_busy : (packEnd s).busy = s.busy := rfl
@[simp] theorem packEnd_done : (packEnd s).done = s.done := rfl
@[simp] theorem packEnd_ovr : (packEnd s).ovr = s.ovr := rfl
@[simp] theorem packEnd_ftV : (packEnd s).ftV = s.ftV := rfl
@[simp] theorem packEnd_ftSrc : (packEnd s).ftSrc = s.ftSrc := rfl
@[simp] theorem packEnd_treeV : (packEnd s).treeV = s.treeV := rfl
@[simp] theorem packEnd_codesV : (packEnd s).codesV = s.codesV := rfl
@[simp] theorem packEnd_errCode : (packEnd s).errCode = s.errCode := rfl
@[simp] theorem packEnd_lastOp : (packEnd s).lastOp = s.lastOp := rfl
@[simp] theorem packEnd_inLen : (packEnd s).inLen = s.inLen := rfl
@[simp] theorem packEnd_outLen : (packEnd s).outLen = s.outLen := rfl
@[simp] theorem packEnd_nsym : (packEnd s).nsym = s.nsym := rfl
@[simp] theorem packEnd_root : (packEnd s).root = s.root := rfl
@[simp] theorem packEnd_total : (packEnd s).total = s.total := rfl
@[simp] theorem packEnd_origBits : (packEnd s).origBits = s.origBits := rfl
@[simp] theorem packEnd_compBits : (packEnd s).compBits = BitVec.ofNat 64 s.work.nbits := rfl
@[simp] theorem packEnd_payloadOff : (packEnd s).payloadOff = s.payloadOff := rfl
@[simp] theorem packEnd_errInfo : (packEnd s).errInfo = s.errInfo := rfl
@[simp] theorem packEnd_irqEn : (packEnd s).irqEn = s.irqEn := rfl
@[simp] theorem packEnd_irqStatus : (packEnd s).irqStatus = s.irqStatus := rfl
@[simp] theorem packEnd_freq : (packEnd s).freq = s.freq := rfl
@[simp] theorem packEnd_node : (packEnd s).node = s.node := rfl
@[simp] theorem packEnd_code : (packEnd s).code = s.code := rfl
@[simp] theorem packEnd_ibuf : (packEnd s).ibuf = s.ibuf := rfl
@[simp] theorem packEnd_obuf : (packEnd s).obuf = s.obuf := rfl
@[simp] theorem packEnd_curCmd : (packEnd s).curCmd = s.curCmd := rfl
@[simp] theorem packEnd_work : (packEnd s).work = s.work := rfl
@[simp] theorem packEnd_freqKnown : (packEnd s).freqKnown = s.freqKnown := rfl
@[simp] theorem packEnd_nodeKnown : (packEnd s).nodeKnown = s.nodeKnown := rfl
@[simp] theorem packEnd_codeKnown : (packEnd s).codeKnown = s.codeKnown := rfl
@[simp] theorem packEnd_script : (packEnd s).script = s.script := rfl
@[simp] theorem packEnd_reads : (packEnd s).reads = s.reads := rfl
@[simp] theorem packEnd_delay : (packEnd s).delay = s.delay := rfl
@[simp] theorem packEnd_draws : (packEnd s).draws = s.draws := rfl

/-! ### emptyPacker (R96) -/

@[simp] theorem emptyPacker_cfg : (emptyPacker s).cfg = s.cfg := rfl
@[simp] theorem emptyPacker_busy : (emptyPacker s).busy = s.busy := rfl
@[simp] theorem emptyPacker_done : (emptyPacker s).done = s.done := rfl
@[simp] theorem emptyPacker_ovr : (emptyPacker s).ovr = s.ovr := rfl
@[simp] theorem emptyPacker_ftV : (emptyPacker s).ftV = s.ftV := rfl
@[simp] theorem emptyPacker_ftSrc : (emptyPacker s).ftSrc = s.ftSrc := rfl
@[simp] theorem emptyPacker_treeV : (emptyPacker s).treeV = s.treeV := rfl
@[simp] theorem emptyPacker_codesV : (emptyPacker s).codesV = s.codesV := rfl
@[simp] theorem emptyPacker_errCode : (emptyPacker s).errCode = s.errCode := rfl
@[simp] theorem emptyPacker_lastOp : (emptyPacker s).lastOp = s.lastOp := rfl
@[simp] theorem emptyPacker_inLen : (emptyPacker s).inLen = s.inLen := rfl
@[simp] theorem emptyPacker_outLen : (emptyPacker s).outLen = s.outLen := rfl
@[simp] theorem emptyPacker_nsym : (emptyPacker s).nsym = s.nsym := rfl
@[simp] theorem emptyPacker_root : (emptyPacker s).root = s.root := rfl
@[simp] theorem emptyPacker_total : (emptyPacker s).total = s.total := rfl
@[simp] theorem emptyPacker_origBits : (emptyPacker s).origBits = s.origBits := rfl
@[simp] theorem emptyPacker_compBits : (emptyPacker s).compBits = s.compBits := rfl
@[simp] theorem emptyPacker_payloadOff : (emptyPacker s).payloadOff = s.payloadOff := rfl
@[simp] theorem emptyPacker_errInfo : (emptyPacker s).errInfo = s.errInfo := rfl
@[simp] theorem emptyPacker_irqEn : (emptyPacker s).irqEn = s.irqEn := rfl
@[simp] theorem emptyPacker_irqStatus : (emptyPacker s).irqStatus = s.irqStatus := rfl
@[simp] theorem emptyPacker_freq : (emptyPacker s).freq = s.freq := rfl
@[simp] theorem emptyPacker_node : (emptyPacker s).node = s.node := rfl
@[simp] theorem emptyPacker_code : (emptyPacker s).code = s.code := rfl
@[simp] theorem emptyPacker_ibuf : (emptyPacker s).ibuf = s.ibuf := rfl
@[simp] theorem emptyPacker_obuf : (emptyPacker s).obuf = s.obuf := rfl
@[simp] theorem emptyPacker_curCmd : (emptyPacker s).curCmd = s.curCmd := rfl
@[simp] theorem emptyPacker_work : (emptyPacker s).work = { s.work with acc := 0#8, nb := 0 } := rfl
@[simp] theorem emptyPacker_freqKnown : (emptyPacker s).freqKnown = s.freqKnown := rfl
@[simp] theorem emptyPacker_nodeKnown : (emptyPacker s).nodeKnown = s.nodeKnown := rfl
@[simp] theorem emptyPacker_codeKnown : (emptyPacker s).codeKnown = s.codeKnown := rfl
@[simp] theorem emptyPacker_script : (emptyPacker s).script = s.script := rfl
@[simp] theorem emptyPacker_reads : (emptyPacker s).reads = s.reads := rfl
@[simp] theorem emptyPacker_delay : (emptyPacker s).delay = s.delay := rfl
@[simp] theorem emptyPacker_draws : (emptyPacker s).draws = s.draws := rfl

/-! ### bitWritten (R99) -/

@[simp] theorem bitWritten_cfg : (bitWritten s).cfg = s.cfg := rfl
@[simp] theorem bitWritten_busy : (bitWritten s).busy = s.busy := rfl
@[simp] theorem bitWritten_done : (bitWritten s).done = s.done := rfl
@[simp] theorem bitWritten_ovr : (bitWritten s).ovr = s.ovr := rfl
@[simp] theorem bitWritten_ftV : (bitWritten s).ftV = s.ftV := rfl
@[simp] theorem bitWritten_ftSrc : (bitWritten s).ftSrc = s.ftSrc := rfl
@[simp] theorem bitWritten_treeV : (bitWritten s).treeV = s.treeV := rfl
@[simp] theorem bitWritten_codesV : (bitWritten s).codesV = s.codesV := rfl
@[simp] theorem bitWritten_errCode : (bitWritten s).errCode = s.errCode := rfl
@[simp] theorem bitWritten_lastOp : (bitWritten s).lastOp = s.lastOp := rfl
@[simp] theorem bitWritten_inLen : (bitWritten s).inLen = s.inLen := rfl
@[simp] theorem bitWritten_outLen : (bitWritten s).outLen = s.outLen := rfl
@[simp] theorem bitWritten_nsym : (bitWritten s).nsym = s.nsym := rfl
@[simp] theorem bitWritten_root : (bitWritten s).root = s.root := rfl
@[simp] theorem bitWritten_total : (bitWritten s).total = s.total := rfl
@[simp] theorem bitWritten_origBits : (bitWritten s).origBits = s.origBits := rfl
@[simp] theorem bitWritten_compBits : (bitWritten s).compBits = s.compBits := rfl
@[simp] theorem bitWritten_payloadOff : (bitWritten s).payloadOff = s.payloadOff := rfl
@[simp] theorem bitWritten_errInfo : (bitWritten s).errInfo = s.errInfo := rfl
@[simp] theorem bitWritten_irqEn : (bitWritten s).irqEn = s.irqEn := rfl
@[simp] theorem bitWritten_irqStatus : (bitWritten s).irqStatus = s.irqStatus := rfl
@[simp] theorem bitWritten_freq : (bitWritten s).freq = s.freq := rfl
@[simp] theorem bitWritten_node : (bitWritten s).node = s.node := rfl
@[simp] theorem bitWritten_code : (bitWritten s).code = s.code := rfl
@[simp] theorem bitWritten_ibuf : (bitWritten s).ibuf = s.ibuf := rfl
@[simp] theorem bitWritten_obuf : (bitWritten s).obuf = s.obuf := rfl
@[simp] theorem bitWritten_curCmd : (bitWritten s).curCmd = s.curCmd := rfl
@[simp] theorem bitWritten_work : (bitWritten s).work = { s.work with nbits := s.work.nbits + 1 } := rfl
@[simp] theorem bitWritten_freqKnown : (bitWritten s).freqKnown = s.freqKnown := rfl
@[simp] theorem bitWritten_nodeKnown : (bitWritten s).nodeKnown = s.nodeKnown := rfl
@[simp] theorem bitWritten_codeKnown : (bitWritten s).codeKnown = s.codeKnown := rfl
@[simp] theorem bitWritten_script : (bitWritten s).script = s.script := rfl
@[simp] theorem bitWritten_reads : (bitWritten s).reads = s.reads := rfl
@[simp] theorem bitWritten_delay : (bitWritten s).delay = s.delay := rfl
@[simp] theorem bitWritten_draws : (bitWritten s).draws = s.draws := rfl

/-! ### resetInput (R123) -/

@[simp] theorem resetInput_cfg : (resetInput s).cfg = s.cfg := rfl
@[simp] theorem resetInput_busy : (resetInput s).busy = (State.resetWith s.cfg).busy := rfl
@[simp] theorem resetInput_done : (resetInput s).done = (State.resetWith s.cfg).done := rfl
@[simp] theorem resetInput_ovr : (resetInput s).ovr = (State.resetWith s.cfg).ovr := rfl
@[simp] theorem resetInput_ftV : (resetInput s).ftV = (State.resetWith s.cfg).ftV := rfl
@[simp] theorem resetInput_ftSrc : (resetInput s).ftSrc = (State.resetWith s.cfg).ftSrc := rfl
@[simp] theorem resetInput_treeV : (resetInput s).treeV = (State.resetWith s.cfg).treeV := rfl
@[simp] theorem resetInput_codesV : (resetInput s).codesV = (State.resetWith s.cfg).codesV := rfl
@[simp] theorem resetInput_errCode : (resetInput s).errCode = (State.resetWith s.cfg).errCode := rfl
@[simp] theorem resetInput_lastOp : (resetInput s).lastOp = (State.resetWith s.cfg).lastOp := rfl
@[simp] theorem resetInput_inLen : (resetInput s).inLen = (State.resetWith s.cfg).inLen := rfl
@[simp] theorem resetInput_outLen : (resetInput s).outLen = (State.resetWith s.cfg).outLen := rfl
@[simp] theorem resetInput_nsym : (resetInput s).nsym = (State.resetWith s.cfg).nsym := rfl
@[simp] theorem resetInput_root : (resetInput s).root = (State.resetWith s.cfg).root := rfl
@[simp] theorem resetInput_total : (resetInput s).total = (State.resetWith s.cfg).total := rfl
@[simp] theorem resetInput_origBits : (resetInput s).origBits = (State.resetWith s.cfg).origBits := rfl
@[simp] theorem resetInput_compBits : (resetInput s).compBits = (State.resetWith s.cfg).compBits := rfl
@[simp] theorem resetInput_payloadOff : (resetInput s).payloadOff = (State.resetWith s.cfg).payloadOff := rfl
@[simp] theorem resetInput_errInfo : (resetInput s).errInfo = (State.resetWith s.cfg).errInfo := rfl
@[simp] theorem resetInput_irqEn : (resetInput s).irqEn = (State.resetWith s.cfg).irqEn := rfl
@[simp] theorem resetInput_irqStatus : (resetInput s).irqStatus = (State.resetWith s.cfg).irqStatus := rfl
@[simp] theorem resetInput_freq : (resetInput s).freq = (State.resetWith s.cfg).freq := rfl
@[simp] theorem resetInput_node : (resetInput s).node = (State.resetWith s.cfg).node := rfl
@[simp] theorem resetInput_code : (resetInput s).code = (State.resetWith s.cfg).code := rfl
@[simp] theorem resetInput_ibuf : (resetInput s).ibuf = (State.resetWith s.cfg).ibuf := rfl
@[simp] theorem resetInput_obuf : (resetInput s).obuf = (State.resetWith s.cfg).obuf := rfl
@[simp] theorem resetInput_curCmd : (resetInput s).curCmd = (State.resetWith s.cfg).curCmd := rfl
@[simp] theorem resetInput_work : (resetInput s).work = (State.resetWith s.cfg).work := rfl
@[simp] theorem resetInput_freqKnown : (resetInput s).freqKnown = (State.resetWith s.cfg).freqKnown := rfl
@[simp] theorem resetInput_nodeKnown : (resetInput s).nodeKnown = (State.resetWith s.cfg).nodeKnown := rfl
@[simp] theorem resetInput_codeKnown : (resetInput s).codeKnown = (State.resetWith s.cfg).codeKnown := rfl
@[simp] theorem resetInput_script : (resetInput s).script = s.script := rfl
@[simp] theorem resetInput_reads : (resetInput s).reads = s.reads := rfl
@[simp] theorem resetInput_delay : (resetInput s).delay = (State.resetWith s.cfg).delay := rfl
@[simp] theorem resetInput_draws : (resetInput s).draws = s.draws := rfl

/-! ### clearState (R77) -/

@[simp] theorem clearState_cfg : (clearState s).cfg = s.cfg := rfl
@[simp] theorem clearState_busy : (clearState s).busy = s.busy := rfl
@[simp] theorem clearState_done : (clearState s).done = s.done := rfl
@[simp] theorem clearState_ovr : (clearState s).ovr = false := rfl
@[simp] theorem clearState_ftV : (clearState s).ftV = false := rfl
@[simp] theorem clearState_ftSrc : (clearState s).ftSrc = false := rfl
@[simp] theorem clearState_treeV : (clearState s).treeV = false := rfl
@[simp] theorem clearState_codesV : (clearState s).codesV = false := rfl
@[simp] theorem clearState_errCode : (clearState s).errCode = s.errCode := rfl
@[simp] theorem clearState_lastOp : (clearState s).lastOp = s.lastOp := rfl
@[simp] theorem clearState_inLen : (clearState s).inLen = s.inLen := rfl
@[simp] theorem clearState_outLen : (clearState s).outLen = 0#32 := rfl
@[simp] theorem clearState_nsym : (clearState s).nsym = 0#9 := rfl
@[simp] theorem clearState_root : (clearState s).root = NONE := rfl
@[simp] theorem clearState_total : (clearState s).total = 0#64 := rfl
@[simp] theorem clearState_origBits : (clearState s).origBits = 0#64 := rfl
@[simp] theorem clearState_compBits : (clearState s).compBits = 0#64 := rfl
@[simp] theorem clearState_payloadOff : (clearState s).payloadOff = 0#32 := rfl
@[simp] theorem clearState_errInfo : (clearState s).errInfo = 0#64 := rfl
@[simp] theorem clearState_irqEn : (clearState s).irqEn = s.irqEn := rfl
@[simp] theorem clearState_irqStatus : (clearState s).irqStatus = s.irqStatus := rfl
@[simp] theorem clearState_freq : (clearState s).freq = Vector.replicate 256 0#32 := rfl
@[simp] theorem clearState_node : (clearState s).node = Vector.replicate 511 Node.empty := rfl
@[simp] theorem clearState_code : (clearState s).code = Vector.replicate 256 Code.empty := rfl
@[simp] theorem clearState_ibuf : (clearState s).ibuf = s.ibuf := rfl
@[simp] theorem clearState_obuf : (clearState s).obuf = s.obuf := rfl
@[simp] theorem clearState_curCmd : (clearState s).curCmd = s.curCmd := rfl
@[simp] theorem clearState_work : (clearState s).work = s.work := rfl
@[simp] theorem clearState_freqKnown : (clearState s).freqKnown = true := rfl
@[simp] theorem clearState_nodeKnown : (clearState s).nodeKnown = true := rfl
@[simp] theorem clearState_codeKnown : (clearState s).codeKnown = true := rfl
@[simp] theorem clearState_script : (clearState s).script = s.script := rfl
@[simp] theorem clearState_reads : (clearState s).reads = s.reads := rfl
@[simp] theorem clearState_delay : (clearState s).delay = s.delay := rfl
@[simp] theorem clearState_draws : (clearState s).draws = s.draws := rfl

/-! ### countStart (R79) -/

@[simp] theorem countStart_cfg : (countStart s).cfg = s.cfg := rfl
@[simp] theorem countStart_busy : (countStart s).busy = s.busy := rfl
@[simp] theorem countStart_done : (countStart s).done = s.done := rfl
@[simp] theorem countStart_ovr : (countStart s).ovr = s.ovr := rfl
@[simp] theorem countStart_ftV : (countStart s).ftV = false := rfl
@[simp] theorem countStart_ftSrc : (countStart s).ftSrc = false := rfl
@[simp] theorem countStart_treeV : (countStart s).treeV = false := rfl
@[simp] theorem countStart_codesV : (countStart s).codesV = false := rfl
@[simp] theorem countStart_errCode : (countStart s).errCode = s.errCode := rfl
@[simp] theorem countStart_lastOp : (countStart s).lastOp = s.lastOp := rfl
@[simp] theorem countStart_inLen : (countStart s).inLen = s.inLen := rfl
@[simp] theorem countStart_outLen : (countStart s).outLen = s.outLen := rfl
@[simp] theorem countStart_nsym : (countStart s).nsym = s.nsym := rfl
@[simp] theorem countStart_root : (countStart s).root = NONE := rfl
@[simp] theorem countStart_total : (countStart s).total = s.total := rfl
@[simp] theorem countStart_origBits : (countStart s).origBits = s.origBits := rfl
@[simp] theorem countStart_compBits : (countStart s).compBits = s.compBits := rfl
@[simp] theorem countStart_payloadOff : (countStart s).payloadOff = 0#32 := rfl
@[simp] theorem countStart_errInfo : (countStart s).errInfo = s.errInfo := rfl
@[simp] theorem countStart_irqEn : (countStart s).irqEn = s.irqEn := rfl
@[simp] theorem countStart_irqStatus : (countStart s).irqStatus = s.irqStatus := rfl
@[simp] theorem countStart_freq : (countStart s).freq = Vector.replicate 256 0#32 := rfl
@[simp] theorem countStart_node : (countStart s).node = s.node := rfl
@[simp] theorem countStart_code : (countStart s).code = s.code := rfl
@[simp] theorem countStart_ibuf : (countStart s).ibuf = s.ibuf := rfl
@[simp] theorem countStart_obuf : (countStart s).obuf = s.obuf := rfl
@[simp] theorem countStart_curCmd : (countStart s).curCmd = s.curCmd := rfl
@[simp] theorem countStart_work : (countStart s).work = s.work := rfl
@[simp] theorem countStart_freqKnown : (countStart s).freqKnown = true := rfl
@[simp] theorem countStart_nodeKnown : (countStart s).nodeKnown = s.nodeKnown := rfl
@[simp] theorem countStart_codeKnown : (countStart s).codeKnown = s.codeKnown := rfl
@[simp] theorem countStart_script : (countStart s).script = s.script := rfl
@[simp] theorem countStart_reads : (countStart s).reads = s.reads := rfl
@[simp] theorem countStart_delay : (countStart s).delay = s.delay := rfl
@[simp] theorem countStart_draws : (countStart s).draws = s.draws := rfl

/-! ### countEnd (R79) -/

@[simp] theorem countEnd_cfg : (countEnd s).cfg = s.cfg := rfl
@[simp] theorem countEnd_busy : (countEnd s).busy = s.busy := rfl
@[simp] theorem countEnd_done : (countEnd s).done = s.done := rfl
@[simp] theorem countEnd_ovr : (countEnd s).ovr = s.ovr := rfl
@[simp] theorem countEnd_ftV : (countEnd s).ftV = true := rfl
@[simp] theorem countEnd_ftSrc : (countEnd s).ftSrc = false := rfl
@[simp] theorem countEnd_treeV : (countEnd s).treeV = s.treeV := rfl
@[simp] theorem countEnd_codesV : (countEnd s).codesV = s.codesV := rfl
@[simp] theorem countEnd_errCode : (countEnd s).errCode = s.errCode := rfl
@[simp] theorem countEnd_lastOp : (countEnd s).lastOp = s.lastOp := rfl
@[simp] theorem countEnd_inLen : (countEnd s).inLen = s.inLen := rfl
@[simp] theorem countEnd_outLen : (countEnd s).outLen = s.outLen := rfl
@[simp] theorem countEnd_nsym : (countEnd s).nsym = BitVec.ofNat 9 (alphabetSize s.freq) := rfl
@[simp] theorem countEnd_root : (countEnd s).root = s.root := rfl
@[simp] theorem countEnd_total : (countEnd s).total = BitVec.ofNat 64 s.inLen.toNat := rfl
@[simp] theorem countEnd_origBits : (countEnd s).origBits = BitVec.ofNat 64 (8 * s.inLen.toNat) := rfl
@[simp] theorem countEnd_compBits : (countEnd s).compBits = 0#64 := rfl
@[simp] theorem countEnd_payloadOff : (countEnd s).payloadOff = s.payloadOff := rfl
@[simp] theorem countEnd_errInfo : (countEnd s).errInfo = s.errInfo := rfl
@[simp] theorem countEnd_irqEn : (countEnd s).irqEn = s.irqEn := rfl
@[simp] theorem countEnd_irqStatus : (countEnd s).irqStatus = s.irqStatus := rfl
@[simp] theorem countEnd_freq : (countEnd s).freq = s.freq := rfl
@[simp] theorem countEnd_node : (countEnd s).node = s.node := rfl
@[simp] theorem countEnd_code : (countEnd s).code = s.code := rfl
@[simp] theorem countEnd_ibuf : (countEnd s).ibuf = s.ibuf := rfl
@[simp] theorem countEnd_obuf : (countEnd s).obuf = s.obuf := rfl
@[simp] theorem countEnd_curCmd : (countEnd s).curCmd = s.curCmd := rfl
@[simp] theorem countEnd_work : (countEnd s).work = s.work := rfl
@[simp] theorem countEnd_freqKnown : (countEnd s).freqKnown = s.freqKnown := rfl
@[simp] theorem countEnd_nodeKnown : (countEnd s).nodeKnown = s.nodeKnown := rfl
@[simp] theorem countEnd_codeKnown : (countEnd s).codeKnown = s.codeKnown := rfl
@[simp] theorem countEnd_script : (countEnd s).script = s.script := rfl
@[simp] theorem countEnd_reads : (countEnd s).reads = s.reads := rfl
@[simp] theorem countEnd_delay : (countEnd s).delay = s.delay := rfl
@[simp] theorem countEnd_draws : (countEnd s).draws = s.draws := rfl

/-! ### deserializeStart (R83) -/

@[simp] theorem deserializeStart_cfg : (deserializeStart s).cfg = s.cfg := rfl
@[simp] theorem deserializeStart_busy : (deserializeStart s).busy = s.busy := rfl
@[simp] theorem deserializeStart_done : (deserializeStart s).done = s.done := rfl
@[simp] theorem deserializeStart_ovr : (deserializeStart s).ovr = s.ovr := rfl
@[simp] theorem deserializeStart_ftV : (deserializeStart s).ftV = false := rfl
@[simp] theorem deserializeStart_ftSrc : (deserializeStart s).ftSrc = false := rfl
@[simp] theorem deserializeStart_treeV : (deserializeStart s).treeV = false := rfl
@[simp] theorem deserializeStart_codesV : (deserializeStart s).codesV = false := rfl
@[simp] theorem deserializeStart_errCode : (deserializeStart s).errCode = s.errCode := rfl
@[simp] theorem deserializeStart_lastOp : (deserializeStart s).lastOp = s.lastOp := rfl
@[simp] theorem deserializeStart_inLen : (deserializeStart s).inLen = s.inLen := rfl
@[simp] theorem deserializeStart_outLen : (deserializeStart s).outLen = s.outLen := rfl
@[simp] theorem deserializeStart_nsym : (deserializeStart s).nsym = 0#9 := rfl
@[simp] theorem deserializeStart_root : (deserializeStart s).root = NONE := rfl
@[simp] theorem deserializeStart_total : (deserializeStart s).total = 0#64 := rfl
@[simp] theorem deserializeStart_origBits : (deserializeStart s).origBits = 0#64 := rfl
@[simp] theorem deserializeStart_compBits : (deserializeStart s).compBits = 0#64 := rfl
@[simp] theorem deserializeStart_payloadOff : (deserializeStart s).payloadOff = 0#32 := rfl
@[simp] theorem deserializeStart_errInfo : (deserializeStart s).errInfo = s.errInfo := rfl
@[simp] theorem deserializeStart_irqEn : (deserializeStart s).irqEn = s.irqEn := rfl
@[simp] theorem deserializeStart_irqStatus : (deserializeStart s).irqStatus = s.irqStatus := rfl
@[simp] theorem deserializeStart_freq : (deserializeStart s).freq = Vector.replicate 256 0#32 := rfl
@[simp] theorem deserializeStart_node : (deserializeStart s).node = s.node := rfl
@[simp] theorem deserializeStart_code : (deserializeStart s).code = s.code := rfl
@[simp] theorem deserializeStart_ibuf : (deserializeStart s).ibuf = s.ibuf := rfl
@[simp] theorem deserializeStart_obuf : (deserializeStart s).obuf = s.obuf := rfl
@[simp] theorem deserializeStart_curCmd : (deserializeStart s).curCmd = s.curCmd := rfl
@[simp] theorem deserializeStart_work : (deserializeStart s).work = s.work := rfl
@[simp] theorem deserializeStart_freqKnown : (deserializeStart s).freqKnown = true := rfl
@[simp] theorem deserializeStart_nodeKnown : (deserializeStart s).nodeKnown = s.nodeKnown := rfl
@[simp] theorem deserializeStart_codeKnown : (deserializeStart s).codeKnown = s.codeKnown := rfl
@[simp] theorem deserializeStart_script : (deserializeStart s).script = s.script := rfl
@[simp] theorem deserializeStart_reads : (deserializeStart s).reads = s.reads := rfl
@[simp] theorem deserializeStart_delay : (deserializeStart s).delay = s.delay := rfl
@[simp] theorem deserializeStart_draws : (deserializeStart s).draws = s.draws := rfl

/-! ### deserializeEnd (R83) -/

@[simp] theorem deserializeEnd_cfg (e : Nat) : (deserializeEnd e s).cfg = s.cfg := rfl
@[simp] theorem deserializeEnd_busy (e : Nat) : (deserializeEnd e s).busy = s.busy := rfl
@[simp] theorem deserializeEnd_done (e : Nat) : (deserializeEnd e s).done = s.done := rfl
@[simp] theorem deserializeEnd_ovr (e : Nat) : (deserializeEnd e s).ovr = s.ovr := rfl
@[simp] theorem deserializeEnd_ftV (e : Nat) : (deserializeEnd e s).ftV = true := rfl
@[simp] theorem deserializeEnd_ftSrc (e : Nat) : (deserializeEnd e s).ftSrc = true := rfl
@[simp] theorem deserializeEnd_treeV (e : Nat) : (deserializeEnd e s).treeV = s.treeV := rfl
@[simp] theorem deserializeEnd_codesV (e : Nat) : (deserializeEnd e s).codesV = s.codesV := rfl
@[simp] theorem deserializeEnd_errCode (e : Nat) : (deserializeEnd e s).errCode = s.errCode := rfl
@[simp] theorem deserializeEnd_lastOp (e : Nat) : (deserializeEnd e s).lastOp = s.lastOp := rfl
@[simp] theorem deserializeEnd_inLen (e : Nat) : (deserializeEnd e s).inLen = s.inLen := rfl
@[simp] theorem deserializeEnd_outLen (e : Nat) : (deserializeEnd e s).outLen = s.outLen := rfl
@[simp] theorem deserializeEnd_nsym (e : Nat) : (deserializeEnd e s).nsym = BitVec.ofNat 9 e := rfl
@[simp] theorem deserializeEnd_root (e : Nat) : (deserializeEnd e s).root = s.root := rfl
@[simp] theorem deserializeEnd_total (e : Nat) : (deserializeEnd e s).total = BitVec.ofNat 64 (freqTotal s.freq) := rfl
@[simp] theorem deserializeEnd_origBits (e : Nat) : (deserializeEnd e s).origBits = s.origBits := rfl
@[simp] theorem deserializeEnd_compBits (e : Nat) : (deserializeEnd e s).compBits = s.compBits := rfl
@[simp] theorem deserializeEnd_payloadOff (e : Nat) :
    (deserializeEnd e s).payloadOff = BitVec.ofNat 32 (8 + 5 * e) := rfl
@[simp] theorem deserializeEnd_errInfo (e : Nat) : (deserializeEnd e s).errInfo = s.errInfo := rfl
@[simp] theorem deserializeEnd_irqEn (e : Nat) : (deserializeEnd e s).irqEn = s.irqEn := rfl
@[simp] theorem deserializeEnd_irqStatus (e : Nat) : (deserializeEnd e s).irqStatus = s.irqStatus := rfl
@[simp] theorem deserializeEnd_freq (e : Nat) : (deserializeEnd e s).freq = s.freq := rfl
@[simp] theorem deserializeEnd_node (e : Nat) : (deserializeEnd e s).node = s.node := rfl
@[simp] theorem deserializeEnd_code (e : Nat) : (deserializeEnd e s).code = s.code := rfl
@[simp] theorem deserializeEnd_ibuf (e : Nat) : (deserializeEnd e s).ibuf = s.ibuf := rfl
@[simp] theorem deserializeEnd_obuf (e : Nat) : (deserializeEnd e s).obuf = s.obuf := rfl
@[simp] theorem deserializeEnd_curCmd (e : Nat) : (deserializeEnd e s).curCmd = s.curCmd := rfl
@[simp] theorem deserializeEnd_work (e : Nat) : (deserializeEnd e s).work = s.work := rfl
@[simp] theorem deserializeEnd_freqKnown (e : Nat) : (deserializeEnd e s).freqKnown = s.freqKnown := rfl
@[simp] theorem deserializeEnd_nodeKnown (e : Nat) : (deserializeEnd e s).nodeKnown = s.nodeKnown := rfl
@[simp] theorem deserializeEnd_codeKnown (e : Nat) : (deserializeEnd e s).codeKnown = s.codeKnown := rfl
@[simp] theorem deserializeEnd_script (e : Nat) : (deserializeEnd e s).script = s.script := rfl
@[simp] theorem deserializeEnd_reads (e : Nat) : (deserializeEnd e s).reads = s.reads := rfl
@[simp] theorem deserializeEnd_delay (e : Nat) : (deserializeEnd e s).delay = s.delay := rfl
@[simp] theorem deserializeEnd_draws (e : Nat) : (deserializeEnd e s).draws = s.draws := rfl

/-! ### buildStart (R87) -/

@[simp] theorem buildStart_cfg : (buildStart s).cfg = s.cfg := rfl
@[simp] theorem buildStart_busy : (buildStart s).busy = s.busy := rfl
@[simp] theorem buildStart_done : (buildStart s).done = s.done := rfl
@[simp] theorem buildStart_ovr : (buildStart s).ovr = s.ovr := rfl
@[simp] theorem buildStart_ftV : (buildStart s).ftV = s.ftV := rfl
@[simp] theorem buildStart_ftSrc : (buildStart s).ftSrc = s.ftSrc := rfl
@[simp] theorem buildStart_treeV : (buildStart s).treeV = false := rfl
@[simp] theorem buildStart_codesV : (buildStart s).codesV = false := rfl
@[simp] theorem buildStart_errCode : (buildStart s).errCode = s.errCode := rfl
@[simp] theorem buildStart_lastOp : (buildStart s).lastOp = s.lastOp := rfl
@[simp] theorem buildStart_inLen : (buildStart s).inLen = s.inLen := rfl
@[simp] theorem buildStart_outLen : (buildStart s).outLen = s.outLen := rfl
@[simp] theorem buildStart_nsym : (buildStart s).nsym = s.nsym := rfl
@[simp] theorem buildStart_root : (buildStart s).root = NONE := rfl
@[simp] theorem buildStart_total : (buildStart s).total = s.total := rfl
@[simp] theorem buildStart_origBits : (buildStart s).origBits = s.origBits := rfl
@[simp] theorem buildStart_compBits : (buildStart s).compBits = s.compBits := rfl
@[simp] theorem buildStart_payloadOff : (buildStart s).payloadOff = s.payloadOff := rfl
@[simp] theorem buildStart_errInfo : (buildStart s).errInfo = s.errInfo := rfl
@[simp] theorem buildStart_irqEn : (buildStart s).irqEn = s.irqEn := rfl
@[simp] theorem buildStart_irqStatus : (buildStart s).irqStatus = s.irqStatus := rfl
@[simp] theorem buildStart_freq : (buildStart s).freq = s.freq := rfl
@[simp] theorem buildStart_node : (buildStart s).node = Vector.replicate 511 Node.empty := rfl
@[simp] theorem buildStart_code : (buildStart s).code = s.code := rfl
@[simp] theorem buildStart_ibuf : (buildStart s).ibuf = s.ibuf := rfl
@[simp] theorem buildStart_obuf : (buildStart s).obuf = s.obuf := rfl
@[simp] theorem buildStart_curCmd : (buildStart s).curCmd = s.curCmd := rfl
@[simp] theorem buildStart_work : (buildStart s).work = { s.work with queue := [], m := 256 } := rfl
@[simp] theorem buildStart_freqKnown : (buildStart s).freqKnown = s.freqKnown := rfl
@[simp] theorem buildStart_nodeKnown : (buildStart s).nodeKnown = true := rfl
@[simp] theorem buildStart_codeKnown : (buildStart s).codeKnown = s.codeKnown := rfl
@[simp] theorem buildStart_script : (buildStart s).script = s.script := rfl
@[simp] theorem buildStart_reads : (buildStart s).reads = s.reads := rfl
@[simp] theorem buildStart_delay : (buildStart s).delay = s.delay := rfl
@[simp] theorem buildStart_draws : (buildStart s).draws = s.draws := rfl

/-! ### gencodesStart (R94) -/

@[simp] theorem gencodesStart_cfg : (gencodesStart s).cfg = s.cfg := rfl
@[simp] theorem gencodesStart_busy : (gencodesStart s).busy = s.busy := rfl
@[simp] theorem gencodesStart_done : (gencodesStart s).done = s.done := rfl
@[simp] theorem gencodesStart_ovr : (gencodesStart s).ovr = s.ovr := rfl
@[simp] theorem gencodesStart_ftV : (gencodesStart s).ftV = s.ftV := rfl
@[simp] theorem gencodesStart_ftSrc : (gencodesStart s).ftSrc = s.ftSrc := rfl
@[simp] theorem gencodesStart_treeV : (gencodesStart s).treeV = s.treeV := rfl
@[simp] theorem gencodesStart_codesV : (gencodesStart s).codesV = false := rfl
@[simp] theorem gencodesStart_errCode : (gencodesStart s).errCode = s.errCode := rfl
@[simp] theorem gencodesStart_lastOp : (gencodesStart s).lastOp = s.lastOp := rfl
@[simp] theorem gencodesStart_inLen : (gencodesStart s).inLen = s.inLen := rfl
@[simp] theorem gencodesStart_outLen : (gencodesStart s).outLen = s.outLen := rfl
@[simp] theorem gencodesStart_nsym : (gencodesStart s).nsym = s.nsym := rfl
@[simp] theorem gencodesStart_root : (gencodesStart s).root = s.root := rfl
@[simp] theorem gencodesStart_total : (gencodesStart s).total = s.total := rfl
@[simp] theorem gencodesStart_origBits : (gencodesStart s).origBits = s.origBits := rfl
@[simp] theorem gencodesStart_compBits : (gencodesStart s).compBits = s.compBits := rfl
@[simp] theorem gencodesStart_payloadOff : (gencodesStart s).payloadOff = s.payloadOff := rfl
@[simp] theorem gencodesStart_errInfo : (gencodesStart s).errInfo = s.errInfo := rfl
@[simp] theorem gencodesStart_irqEn : (gencodesStart s).irqEn = s.irqEn := rfl
@[simp] theorem gencodesStart_irqStatus : (gencodesStart s).irqStatus = s.irqStatus := rfl
@[simp] theorem gencodesStart_freq : (gencodesStart s).freq = s.freq := rfl
@[simp] theorem gencodesStart_node : (gencodesStart s).node = s.node := rfl
@[simp] theorem gencodesStart_code : (gencodesStart s).code = Vector.replicate 256 Code.empty := rfl
@[simp] theorem gencodesStart_ibuf : (gencodesStart s).ibuf = s.ibuf := rfl
@[simp] theorem gencodesStart_obuf : (gencodesStart s).obuf = s.obuf := rfl
@[simp] theorem gencodesStart_curCmd : (gencodesStart s).curCmd = s.curCmd := rfl
@[simp] theorem gencodesStart_work : (gencodesStart s).work = s.work := rfl
@[simp] theorem gencodesStart_freqKnown : (gencodesStart s).freqKnown = s.freqKnown := rfl
@[simp] theorem gencodesStart_nodeKnown : (gencodesStart s).nodeKnown = s.nodeKnown := rfl
@[simp] theorem gencodesStart_codeKnown : (gencodesStart s).codeKnown = true := rfl
@[simp] theorem gencodesStart_script : (gencodesStart s).script = s.script := rfl
@[simp] theorem gencodesStart_reads : (gencodesStart s).reads = s.reads := rfl
@[simp] theorem gencodesStart_delay : (gencodesStart s).delay = s.delay := rfl
@[simp] theorem gencodesStart_draws : (gencodesStart s).draws = s.draws := rfl

/-! ### packStart (R99) -/

@[simp] theorem packStart_cfg : (packStart s).cfg = s.cfg := rfl
@[simp] theorem packStart_busy : (packStart s).busy = s.busy := rfl
@[simp] theorem packStart_done : (packStart s).done = s.done := rfl
@[simp] theorem packStart_ovr : (packStart s).ovr = s.ovr := rfl
@[simp] theorem packStart_ftV : (packStart s).ftV = s.ftV := rfl
@[simp] theorem packStart_ftSrc : (packStart s).ftSrc = s.ftSrc := rfl
@[simp] theorem packStart_treeV : (packStart s).treeV = s.treeV := rfl
@[simp] theorem packStart_codesV : (packStart s).codesV = s.codesV := rfl
@[simp] theorem packStart_errCode : (packStart s).errCode = s.errCode := rfl
@[simp] theorem packStart_lastOp : (packStart s).lastOp = s.lastOp := rfl
@[simp] theorem packStart_inLen : (packStart s).inLen = s.inLen := rfl
@[simp] theorem packStart_outLen : (packStart s).outLen = s.outLen := rfl
@[simp] theorem packStart_nsym : (packStart s).nsym = s.nsym := rfl
@[simp] theorem packStart_root : (packStart s).root = s.root := rfl
@[simp] theorem packStart_total : (packStart s).total = s.total := rfl
@[simp] theorem packStart_origBits : (packStart s).origBits = s.origBits := rfl
@[simp] theorem packStart_compBits : (packStart s).compBits = 0#64 := rfl
@[simp] theorem packStart_payloadOff : (packStart s).payloadOff = s.payloadOff := rfl
@[simp] theorem packStart_errInfo : (packStart s).errInfo = s.errInfo := rfl
@[simp] theorem packStart_irqEn : (packStart s).irqEn = s.irqEn := rfl
@[simp] theorem packStart_irqStatus : (packStart s).irqStatus = s.irqStatus := rfl
@[simp] theorem packStart_freq : (packStart s).freq = s.freq := rfl
@[simp] theorem packStart_node : (packStart s).node = s.node := rfl
@[simp] theorem packStart_code : (packStart s).code = s.code := rfl
@[simp] theorem packStart_ibuf : (packStart s).ibuf = s.ibuf := rfl
@[simp] theorem packStart_obuf : (packStart s).obuf = s.obuf := rfl
@[simp] theorem packStart_curCmd : (packStart s).curCmd = s.curCmd := rfl
@[simp] theorem packStart_work : (packStart s).work = { s.work with acc := 0#8, nb := 0, nbits := 0 } := rfl
@[simp] theorem packStart_freqKnown : (packStart s).freqKnown = s.freqKnown := rfl
@[simp] theorem packStart_nodeKnown : (packStart s).nodeKnown = s.nodeKnown := rfl
@[simp] theorem packStart_codeKnown : (packStart s).codeKnown = s.codeKnown := rfl
@[simp] theorem packStart_script : (packStart s).script = s.script := rfl
@[simp] theorem packStart_reads : (packStart s).reads = s.reads := rfl
@[simp] theorem packStart_delay : (packStart s).delay = s.delay := rfl
@[simp] theorem packStart_draws : (packStart s).draws = s.draws := rfl

/-! ### decodeStart (R100) -/

@[simp] theorem decodeStart_cfg : (decodeStart s).cfg = s.cfg := rfl
@[simp] theorem decodeStart_busy : (decodeStart s).busy = s.busy := rfl
@[simp] theorem decodeStart_done : (decodeStart s).done = s.done := rfl
@[simp] theorem decodeStart_ovr : (decodeStart s).ovr = s.ovr := rfl
@[simp] theorem decodeStart_ftV : (decodeStart s).ftV = s.ftV := rfl
@[simp] theorem decodeStart_ftSrc : (decodeStart s).ftSrc = s.ftSrc := rfl
@[simp] theorem decodeStart_treeV : (decodeStart s).treeV = s.treeV := rfl
@[simp] theorem decodeStart_codesV : (decodeStart s).codesV = s.codesV := rfl
@[simp] theorem decodeStart_errCode : (decodeStart s).errCode = s.errCode := rfl
@[simp] theorem decodeStart_lastOp : (decodeStart s).lastOp = s.lastOp := rfl
@[simp] theorem decodeStart_inLen : (decodeStart s).inLen = s.inLen := rfl
@[simp] theorem decodeStart_outLen : (decodeStart s).outLen = 0#32 := rfl
@[simp] theorem decodeStart_nsym : (decodeStart s).nsym = s.nsym := rfl
@[simp] theorem decodeStart_root : (decodeStart s).root = s.root := rfl
@[simp] theorem decodeStart_total : (decodeStart s).total = s.total := rfl
@[simp] theorem decodeStart_origBits : (decodeStart s).origBits = 0#64 := rfl
@[simp] theorem decodeStart_compBits : (decodeStart s).compBits = 0#64 := rfl
@[simp] theorem decodeStart_payloadOff : (decodeStart s).payloadOff = s.payloadOff := rfl
@[simp] theorem decodeStart_errInfo : (decodeStart s).errInfo = s.errInfo := rfl
@[simp] theorem decodeStart_irqEn : (decodeStart s).irqEn = s.irqEn := rfl
@[simp] theorem decodeStart_irqStatus : (decodeStart s).irqStatus = s.irqStatus := rfl
@[simp] theorem decodeStart_freq : (decodeStart s).freq = s.freq := rfl
@[simp] theorem decodeStart_node : (decodeStart s).node = s.node := rfl
@[simp] theorem decodeStart_code : (decodeStart s).code = s.code := rfl
@[simp] theorem decodeStart_ibuf : (decodeStart s).ibuf = s.ibuf := rfl
@[simp] theorem decodeStart_obuf : (decodeStart s).obuf = s.obuf := rfl
@[simp] theorem decodeStart_curCmd : (decodeStart s).curCmd = s.curCmd := rfl
@[simp] theorem decodeStart_work :
    (decodeStart s).work = { s.work with rp := s.payloadOff.toNat, rbuf := 0#8, rem := 0, k := 0, cnt := 0, cur := s.root } := rfl
@[simp] theorem decodeStart_freqKnown : (decodeStart s).freqKnown = s.freqKnown := rfl
@[simp] theorem decodeStart_nodeKnown : (decodeStart s).nodeKnown = s.nodeKnown := rfl
@[simp] theorem decodeStart_codeKnown : (decodeStart s).codeKnown = s.codeKnown := rfl
@[simp] theorem decodeStart_script : (decodeStart s).script = s.script := rfl
@[simp] theorem decodeStart_reads : (decodeStart s).reads = s.reads := rfl
@[simp] theorem decodeStart_delay : (decodeStart s).delay = s.delay := rfl
@[simp] theorem decodeStart_draws : (decodeStart s).draws = s.draws := rfl

/-! ### decodeEnd (R100) -/

@[simp] theorem decodeEnd_cfg : (decodeEnd s).cfg = s.cfg := rfl
@[simp] theorem decodeEnd_busy : (decodeEnd s).busy = s.busy := rfl
@[simp] theorem decodeEnd_done : (decodeEnd s).done = s.done := rfl
@[simp] theorem decodeEnd_ovr : (decodeEnd s).ovr = s.ovr := rfl
@[simp] theorem decodeEnd_ftV : (decodeEnd s).ftV = s.ftV := rfl
@[simp] theorem decodeEnd_ftSrc : (decodeEnd s).ftSrc = s.ftSrc := rfl
@[simp] theorem decodeEnd_treeV : (decodeEnd s).treeV = s.treeV := rfl
@[simp] theorem decodeEnd_codesV : (decodeEnd s).codesV = s.codesV := rfl
@[simp] theorem decodeEnd_errCode : (decodeEnd s).errCode = s.errCode := rfl
@[simp] theorem decodeEnd_lastOp : (decodeEnd s).lastOp = s.lastOp := rfl
@[simp] theorem decodeEnd_inLen : (decodeEnd s).inLen = s.inLen := rfl
@[simp] theorem decodeEnd_outLen : (decodeEnd s).outLen = s.outLen := rfl
@[simp] theorem decodeEnd_nsym : (decodeEnd s).nsym = s.nsym := rfl
@[simp] theorem decodeEnd_root : (decodeEnd s).root = s.root := rfl
@[simp] theorem decodeEnd_total : (decodeEnd s).total = s.total := rfl
@[simp] theorem decodeEnd_origBits : (decodeEnd s).origBits = BitVec.ofNat 64 (8 * s.total.toNat) := rfl
@[simp] theorem decodeEnd_compBits : (decodeEnd s).compBits = BitVec.ofNat 64 s.work.k := rfl
@[simp] theorem decodeEnd_payloadOff : (decodeEnd s).payloadOff = s.payloadOff := rfl
@[simp] theorem decodeEnd_errInfo : (decodeEnd s).errInfo = s.errInfo := rfl
@[simp] theorem decodeEnd_irqEn : (decodeEnd s).irqEn = s.irqEn := rfl
@[simp] theorem decodeEnd_irqStatus : (decodeEnd s).irqStatus = s.irqStatus := rfl
@[simp] theorem decodeEnd_freq : (decodeEnd s).freq = s.freq := rfl
@[simp] theorem decodeEnd_node : (decodeEnd s).node = s.node := rfl
@[simp] theorem decodeEnd_code : (decodeEnd s).code = s.code := rfl
@[simp] theorem decodeEnd_ibuf : (decodeEnd s).ibuf = s.ibuf := rfl
@[simp] theorem decodeEnd_obuf : (decodeEnd s).obuf = s.obuf := rfl
@[simp] theorem decodeEnd_curCmd : (decodeEnd s).curCmd = s.curCmd := rfl
@[simp] theorem decodeEnd_work : (decodeEnd s).work = s.work := rfl
@[simp] theorem decodeEnd_freqKnown : (decodeEnd s).freqKnown = s.freqKnown := rfl
@[simp] theorem decodeEnd_nodeKnown : (decodeEnd s).nodeKnown = s.nodeKnown := rfl
@[simp] theorem decodeEnd_codeKnown : (decodeEnd s).codeKnown = s.codeKnown := rfl
@[simp] theorem decodeEnd_script : (decodeEnd s).script = s.script := rfl
@[simp] theorem decodeEnd_reads : (decodeEnd s).reads = s.reads := rfl
@[simp] theorem decodeEnd_delay : (decodeEnd s).delay = s.delay := rfl
@[simp] theorem decodeEnd_draws : (decodeEnd s).draws = s.draws := rfl

/-! ### enterStage (R38) -/

@[simp] theorem enterStage_cfg (n : Nat) : (enterStage n s).cfg = s.cfg := rfl
@[simp] theorem enterStage_busy (n : Nat) : (enterStage n s).busy = s.busy := rfl
@[simp] theorem enterStage_done (n : Nat) : (enterStage n s).done = s.done := rfl
@[simp] theorem enterStage_ovr (n : Nat) : (enterStage n s).ovr = s.ovr := rfl
@[simp] theorem enterStage_ftV (n : Nat) : (enterStage n s).ftV = s.ftV := rfl
@[simp] theorem enterStage_ftSrc (n : Nat) : (enterStage n s).ftSrc = s.ftSrc := rfl
@[simp] theorem enterStage_treeV (n : Nat) : (enterStage n s).treeV = s.treeV := rfl
@[simp] theorem enterStage_codesV (n : Nat) : (enterStage n s).codesV = s.codesV := rfl
@[simp] theorem enterStage_errCode (n : Nat) : (enterStage n s).errCode = s.errCode := rfl
@[simp] theorem enterStage_lastOp (n : Nat) : (enterStage n s).lastOp = s.lastOp := rfl
@[simp] theorem enterStage_inLen (n : Nat) : (enterStage n s).inLen = s.inLen := rfl
@[simp] theorem enterStage_outLen (n : Nat) : (enterStage n s).outLen = s.outLen := rfl
@[simp] theorem enterStage_nsym (n : Nat) : (enterStage n s).nsym = s.nsym := rfl
@[simp] theorem enterStage_root (n : Nat) : (enterStage n s).root = s.root := rfl
@[simp] theorem enterStage_total (n : Nat) : (enterStage n s).total = s.total := rfl
@[simp] theorem enterStage_origBits (n : Nat) : (enterStage n s).origBits = s.origBits := rfl
@[simp] theorem enterStage_compBits (n : Nat) : (enterStage n s).compBits = s.compBits := rfl
@[simp] theorem enterStage_payloadOff (n : Nat) : (enterStage n s).payloadOff = s.payloadOff := rfl
@[simp] theorem enterStage_errInfo (n : Nat) : (enterStage n s).errInfo = s.errInfo := rfl
@[simp] theorem enterStage_irqEn (n : Nat) : (enterStage n s).irqEn = s.irqEn := rfl
@[simp] theorem enterStage_irqStatus (n : Nat) : (enterStage n s).irqStatus = s.irqStatus := rfl
@[simp] theorem enterStage_freq (n : Nat) : (enterStage n s).freq = s.freq := rfl
@[simp] theorem enterStage_node (n : Nat) : (enterStage n s).node = s.node := rfl
@[simp] theorem enterStage_code (n : Nat) : (enterStage n s).code = s.code := rfl
@[simp] theorem enterStage_ibuf (n : Nat) : (enterStage n s).ibuf = s.ibuf := rfl
@[simp] theorem enterStage_obuf (n : Nat) : (enterStage n s).obuf = s.obuf := rfl
@[simp] theorem enterStage_curCmd (n : Nat) : (enterStage n s).curCmd = s.curCmd := rfl
@[simp] theorem enterStage_work (n : Nat) : (enterStage n s).work = { s.work with stage := n } := rfl
@[simp] theorem enterStage_freqKnown (n : Nat) : (enterStage n s).freqKnown = s.freqKnown := rfl
@[simp] theorem enterStage_nodeKnown (n : Nat) : (enterStage n s).nodeKnown = s.nodeKnown := rfl
@[simp] theorem enterStage_codeKnown (n : Nat) : (enterStage n s).codeKnown = s.codeKnown := rfl
@[simp] theorem enterStage_script (n : Nat) : (enterStage n s).script = s.script := rfl
@[simp] theorem enterStage_reads (n : Nat) : (enterStage n s).reads = s.reads := rfl
@[simp] theorem enterStage_delay (n : Nat) : (enterStage n s).delay = s.delay := rfl
@[simp] theorem enterStage_draws (n : Nat) : (enterStage n s).draws = s.draws := rfl

end Sys2Proof.Machine
end

