-- ==== Sys2Proof/Laws/Ops.lean ====
section
/-! SUPPORT. One lemma per shared operation that says what it can do: bodies, command steps, the engine's reads and writes,
byte order, and the symbol-indexed tables. -/

namespace Sys2Proof.Machine

/-! ### Named updates: absorbing, undoing, commuting -/

@[simp] theorem setDraws_setDraws (d d' : Nat) (s : State) : setDraws d (setDraws d' s) = setDraws d s := rfl
@[simp] theorem setDraws_self (s : State) : setDraws s.draws s = s := rfl
@[simp] theorem setTable_setTable (f g : Vector Word 256) (s : State) : setTable f (setTable g s) = setTable f s := rfl
@[simp] theorem setTable_self (s : State) : setTable s.freq s = s := rfl
@[simp] theorem setArena_setArena (f g : Vector Node 511) (s : State) : setArena f (setArena g s) = setArena f s := rfl
@[simp] theorem setArena_self (s : State) : setArena s.node s = s := rfl
@[simp] theorem setCodes_setCodes (f g : Vector Code 256) (s : State) : setCodes f (setCodes g s) = setCodes f s := rfl
@[simp] theorem setCodes_self (s : State) : setCodes s.code s = s := rfl
@[simp] theorem setOutput_setOutput (m m' : Memory) (n n' : Word) (s : State) :
    setOutput m n (setOutput m' n' s) = setOutput m n s := rfl
@[simp] theorem setOutput_self (s : State) : setOutput s.obuf s.outLen s = s := rfl
@[simp] theorem setWork_setWork (w w' : Work) (s : State) : setWork w (setWork w' s) = setWork w s := rfl
@[simp] theorem setWork_self (s : State) : setWork s.work s = s := rfl
theorem setTable_setDraws (f : Vector Word 256) (d : Nat) (s : State) :
    setTable f (setDraws d s) = setDraws d (setTable f s) := rfl
theorem setWork_setDraws (w : Work) (d : Nat) (s : State) : setWork w (setDraws d s) = setDraws d (setWork w s) := rfl
theorem setWork_setArena (w : Work) (t : Vector Node 511) (s : State) :
    setWork w (setArena t s) = setArena t (setWork w s) := rfl
theorem setWork_setOutput (w : Work) (m : Memory) (n : Word) (s : State) :
    setWork w (setOutput m n s) = setOutput m n (setWork w s) := rfl
theorem setOutput_setDraws (m : Memory) (n : Word) (d : Nat) (s : State) :
    setOutput m n (setDraws d s) = setDraws d (setOutput m n s) := rfl

/-! ### Bodies and command steps -/

@[simp] theorem Body.bind_ok (s : State) (f : State → Body) : (Body.ok s).bind f = f s := rfl

@[simp] theorem Body.bind_raised (e : ErrCode) (info : DWord) (s : State) (f : State → Body) :
    (Body.raised e info s).bind f = .raised e info s := rfl

@[simp] theorem Body.bind_stuck (r : Fault) (f : State → Body) : (Body.stuck r).bind f = .stuck r := rfl

@[simp] theorem raise_bind (e : ErrCode) (info : Nat) (s : State) (f : State → Body) :
    (raise e info s).bind f = raise e info s := rfl

theorem Body.bind_assoc (b : Body) (f g : State → Body) : (b.bind f).bind g = b.bind fun s => (f s).bind g := by
  cases b <;> rfl

theorem Body.bind_ok_iff {b : Body} {f : State → Body} {t : State} :
    b.bind f = .ok t ↔ ∃ u, b = .ok u ∧ f u = .ok t := by
  cases b <;> simp

theorem Body.bind_raised_iff {b : Body} {f : State → Body} {e : ErrCode} {info : DWord} {t : State} :
    b.bind f = .raised e info t ↔ b = .raised e info t ∨ ∃ u, b = .ok u ∧ f u = .raised e info t := by
  cases b <;> simp

theorem Body.bind_stuck_iff {b : Body} {f : State → Body} {r : Fault} :
    b.bind f = .stuck r ↔ b = .stuck r ∨ ∃ u, b = .ok u ∧ f u = .stuck r := by
  cases b <;> simp

/-- A command step answers a next state in three ways: the body ended, the body raised, or the precondition failed. -/
theorem runCommand_next {pre : Bool} {e : ErrCode} {info : Nat} {body : State → Body} {s t : State}
    (h : runCommand pre e info body s = .next t) :
    (pre = true ∧ ∃ u, body s = .ok u ∧ t = complete u) ∨
    (pre = true ∧ ∃ e' i' u, body s = .raised e' i' u ∧ t = errorEntry e' i' u) ∨
    (pre = false ∧ t = errorEntry e (BitVec.ofNat 64 info) s) := by
  unfold runCommand at h
  cases hp : pre with
  | false => simp [hp] at h; exact .inr (.inr ⟨rfl, h.symm⟩)
  | true =>
    simp only [hp, if_true] at h
    cases hb : body s with
    | ok u => simp [hb, finish] at h; exact .inl ⟨rfl, u, rfl, h.symm⟩
    | raised e' i' u => simp [hb, finish] at h; exact .inr (.inl ⟨rfl, e', i', u, rfl, h.symm⟩)
    | stuck f => simp [hb, finish] at h

theorem runCommand_ok {e : ErrCode} {info : Nat} {body : State → Body} {s u : State} (h : body s = .ok u) :
    runCommand true e info body s = .next (complete u) := by simp [runCommand, h, finish]

theorem runCommand_raised {e e' : ErrCode} {info : Nat} {i' : DWord} {body : State → Body} {s u : State}
    (h : body s = .raised e' i' u) : runCommand true e info body s = .next (errorEntry e' i' u) := by
  simp [runCommand, h, finish]

theorem runCommand_refused (e : ErrCode) (info : Nat) (body : State → Body) (s : State) :
    runCommand false e info body s = .next (errorEntry e (BitVec.ofNat 64 info) s) := rfl

theorem irqDone_or_irqError : irqDone ||| irqError = 3#2 := rfl

/-! ### Reading IBUF -/

theorem readIbuf_written {i : Nat} {s : State} {b : Byte} (h : Memory.read s.ibuf i = some b) : readIbuf i s = (b, s) := by
  simp [readIbuf, h]

/-- An engine or host read of IBUF changes nothing but the count of free values. -/
theorem readIbuf_frame (i : Nat) (s : State) : ∃ d, (readIbuf i s).2 = setDraws d s := by
  unfold readIbuf
  split
  · exact ⟨s.draws, rfl⟩
  · exact ⟨s.draws + 1, rfl⟩

theorem readBytes_frame (n a : Nat) (s : State) : ∃ d, (readBytes n a s).2 = setDraws d s := by
  induction n generalizing a s with
  | zero => exact ⟨s.draws, rfl⟩
  | succ n ih =>
    obtain ⟨d, hd⟩ := readIbuf_frame a s
    obtain ⟨d', hd'⟩ := ih (a + 1) (readIbuf a s).2
    exact ⟨d', by rw [readBytes, hd', hd, setDraws_setDraws]⟩

theorem readBytes_length (n a : Nat) (s : State) : (readBytes n a s).1.length = n := by
  induction n generalizing a s with
  | zero => rfl
  | succ n ih => simp [readBytes, ih]

theorem readBytes_written {n a : Nat} {s : State} (h : ∀ i, a ≤ i → i < a + n → (Memory.read s.ibuf i).isSome = true) :
    readBytes n a s = ((List.range n).map fun j => (Memory.read s.ibuf (a + j)).getD 0#8, s) := by
  induction n generalizing a with
  | zero => rfl
  | succ n ih =>
    obtain ⟨b, hb⟩ := Option.isSome_iff_exists.1 (h a (by omega) (by omega))
    have := ih (a := a + 1) fun i h1 h2 => h i (by omega) (by omega)
    simp [readBytes, readIbuf_written hb, this, List.range_succ_eq_map, hb, Function.comp_def, Nat.add_assoc,
      Nat.add_comm 1]

theorem memRead_frame (a n : Nat) (s : State) : ∃ d, (memRead a n s).2 = setDraws d s :=
  readBytes_frame n a s

/-! ### Byte order -/

theorem leBytes_length (n v : Nat) : (leBytes n v).length = n := by
  induction n generalizing v with
  | zero => rfl
  | succ n ih => simp [leBytes, ih]

theorem leValue_lt (bs : List Byte) : leValue bs < 256 ^ bs.length := by
  induction bs with
  | nil => simp [leValue]
  | cons b bs ih =>
    have := b.isLt
    simp only [leValue, List.length_cons, Nat.pow_succ]
    omega

/-- The byte order of MemRead undoes the byte order of SERIALIZE (R47, R49, R81). -/
theorem leValue_leBytes {n v : Nat} (h : v < 256 ^ n) : leValue (leBytes n v) = v := by
  induction n generalizing v with
  | zero => simp [leBytes, leValue] at *; omega
  | succ n ih =>
    rw [Nat.pow_succ] at h
    simp only [leBytes, leValue, BitVec.toNat_ofNat, ih (Nat.div_lt_of_lt_mul (by omega : v < 256 * 256 ^ n))]
    omega

theorem memRead_lt (a n : Nat) (s : State) : (memRead a n s).1 < 256 ^ n := by
  have := leValue_lt (readBytes n a s).1
  rwa [readBytes_length] at this

/-! ### Emitting bytes -/

theorem emitByte_fits {v : Byte} {s : State} (h : s.outLen < s.cfg.obufSize) :
    emitByte v s = .ok (setOutput (Memory.write s.obuf s.outLen.toNat v) (s.outLen + 1#32) s) := by
  have : ¬ s.cfg.obufSize ≤ s.outLen := by simpa using h
  simp [emitByte, this]

theorem emitByte_full {v : Byte} {s : State} (h : s.cfg.obufSize ≤ s.outLen) :
    emitByte v s = raise .ioErrorOutput s.outLen.toNat s := by simp [emitByte, h]

/-- emitByte puts the byte at OUT_LEN and advances OUT_LEN, or raises IO_ERROR_OUTPUT and changes nothing (R51). -/
theorem emitByte_cases (v : Byte) (s : State) :
    (s.outLen < s.cfg.obufSize ∧
      emitByte v s = .ok (setOutput (Memory.write s.obuf s.outLen.toNat v) (s.outLen + 1#32) s)) ∨
    (s.cfg.obufSize ≤ s.outLen ∧ emitByte v s = raise .ioErrorOutput s.outLen.toNat s) := by
  by_cases h : s.cfg.obufSize ≤ s.outLen
  · exact .inr ⟨h, emitByte_full h⟩
  · have h : s.outLen < s.cfg.obufSize := by simpa using h
    exact .inl ⟨h, emitByte_fits h⟩

/-- The bytes of a list written at i, i+1, ... -/
def Memory.writeAll : Memory → Nat → List Byte → Memory
  | m, _, [] => m
  | m, i, b :: bs => Memory.writeAll (Memory.write m i b) (i + 1) bs

theorem Memory.read_writeAll (m : Memory) (i : Nat) (bs : List Byte) (j : Nat) :
    Memory.read (Memory.writeAll m i bs) j = if i ≤ j ∧ j < i + bs.length then bs[j - i]? else Memory.read m j := by
  induction bs generalizing m i with
  | nil => simp only [Memory.writeAll, List.length_nil]; rw [if_neg (by omega)]
  | cons b bs ih =>
    simp only [Memory.writeAll, ih, Memory.read_write, List.length_cons]
    by_cases h : j = i
    · subst h; simp
    · by_cases h2 : i + 1 ≤ j ∧ j < i + 1 + bs.length
      · have : i ≤ j ∧ j < i + (bs.length + 1) := by omega
        rw [if_pos h2, if_pos this]
        obtain ⟨k, hk⟩ : ∃ k, j - i = k + 1 := ⟨j - i - 1, by omega⟩
        have : j - (i + 1) = k := by omega
        simp [hk, this]
      · have : ¬(i ≤ j ∧ j < i + (bs.length + 1)) := by omega
        rw [if_neg h2, if_neg this, if_neg h]

theorem Memory.wf_writeAll {m : Memory} (i : Nat) (bs : List Byte) (h : Memory.wf m = true) :
    Memory.wf (Memory.writeAll m i bs) = true := by
  induction bs generalizing m i with
  | nil => exact h
  | cons b bs ih => exact ih (i + 1) (Memory.wf_write m i b h)

theorem Memory.within_writeAll {size : Nat} {m : Memory} {i : Nat} (bs : List Byte)
    (h : Memory.within size m = true) (hi : i + bs.length ≤ size) :
    Memory.within size (Memory.writeAll m i bs) = true := by
  induction bs generalizing m i with
  | nil => exact h
  | cons b bs ih =>
    simp only [List.length_cons] at hi
    exact ih (Memory.within_write m b h (by omega)) (by omega)

theorem Memory.writeAll_append (m : Memory) (i : Nat) (bs cs : List Byte) :
    Memory.writeAll m i (bs ++ cs) = Memory.writeAll (Memory.writeAll m i bs) (i + bs.length) cs := by
  induction bs generalizing m i with
  | nil => rfl
  | cons b bs ih => simp [Memory.writeAll, ih, Nat.add_assoc, Nat.add_comm 1]

/-- emitBytes of a list that fits. -/
theorem emitBytes_fits {bs : List Byte} {s : State} (h : s.outLen.toNat + bs.length ≤ s.cfg.obufSize.toNat) :
    emitBytes bs s = .ok (setOutput
      (Memory.writeAll s.obuf s.outLen.toNat bs) (BitVec.ofNat 32 (s.outLen.toNat + bs.length)) s) := by
  induction bs generalizing s with
  | nil => simp [emitBytes, Memory.writeAll, setOutput_self]
  | cons b bs ih =>
    simp only [List.length_cons] at h
    have hlt := s.cfg.obufSize.isLt
    have h1 : s.outLen < s.cfg.obufSize := by rw [BitVec.lt_def]; omega
    have h2 : (s.outLen + 1#32).toNat = s.outLen.toNat + 1 := by
      rw [BitVec.toNat_add]; simp; omega
    rw [emitBytes, emitByte_fits h1, Body.bind_ok, ih (by simp only [setOutput_outLen, setOutput_cfg, h2]; omega)]
    simp [h2, Memory.writeAll, Nat.add_assoc, Nat.add_comm 1]

/-! ### Symbols and the tables they index -/

theorem mem_symbols (b : Byte) : b ∈ symbols := by
  simp only [symbols, List.mem_map, List.mem_range]
  exact ⟨b.toNat, b.isLt, by simp⟩

theorem symbols_nodup : symbols.Nodup := by
  refine List.Nodup.map_on ?_ List.nodup_range
  intro a ha b hb h
  simp only [List.mem_range] at ha hb
  have := congrArg BitVec.toNat h
  simp only [BitVec.toNat_ofNat] at this
  omega

theorem symbols_length : symbols.length = 256 := by simp [symbols]

theorem freqAt_set (f : Vector Word 256) (a b : Byte) (c : Word) :
    freqAt (f.set a.toNat c a.isLt) b = if b = a then c else freqAt f b := by
  unfold freqAt
  rw [Vector.getElem_set]
  by_cases h : b = a
  · subst h; simp
  · have : a.toNat ≠ b.toNat := fun hc => h (BitVec.eq_of_toNat_eq hc.symm)
    simp [h, this]

@[simp] theorem freqAt_zero (b : Byte) : freqAt (Vector.replicate 256 0#32) b = 0#32 := by simp [freqAt]

theorem freq_ext {f g : Vector Word 256} (h : ∀ b, freqAt f b = freqAt g b) : f = g := by
  ext i hi : 1
  have := h (BitVec.ofNat 8 i)
  simpa [freqAt, Nat.mod_eq_of_lt hi] using this

theorem codeAt_set (f : Vector Code 256) (a b : Byte) (c : Code) :
    codeAt (f.set a.toNat c a.isLt) b = if b = a then c else codeAt f b := by
  unfold codeAt
  rw [Vector.getElem_set]
  by_cases h : b = a
  · subst h; simp
  · have : a.toNat ≠ b.toNat := fun hc => h (BitVec.eq_of_toNat_eq hc.symm)
    simp [h, this]

@[simp] theorem codeAt_empty (b : Byte) : codeAt (Vector.replicate 256 Code.empty) b = Code.empty := by simp [codeAt]

theorem code_ext {f g : Vector Code 256} (h : ∀ b, codeAt f b = codeAt g b) : f = g := by
  ext i hi : 1
  have := h (BitVec.ofNat 8 i)
  simpa [codeAt, Nat.mod_eq_of_lt hi] using this

theorem nodeAt_set (t : Vector Node 511) (i j : NodeIdx) (n : Node) :
    nodeAt (t.setIfInBounds i.toNat n) j = if j = i ∧ i ≠ NONE then some n else nodeAt t j := by
  unfold nodeAt
  rw [Vector.getElem?_setIfInBounds]
  have hi := i.isLt
  have hN : i = NONE ↔ i.toNat = 511 := ⟨fun h => by subst h; rfl, fun h => BitVec.eq_of_toNat_eq h⟩
  by_cases h : j = i
  · subst h
    simp only [if_true, true_and, ne_eq, hN]
    by_cases h5 : j.toNat = 511
    · simp [h5]
    · have : j.toNat < 511 := by omega
      simp [h5, this]
  · have : i.toNat ≠ j.toNat := fun hc => h (BitVec.eq_of_toNat_eq hc.symm)
    simp [h, this]

theorem nodeAt_none_iff {t : Vector Node 511} {i : NodeIdx} : nodeAt t i = none ↔ i = NONE := by
  have hi := i.isLt
  have hN : i = NONE ↔ i.toNat = 511 := ⟨fun h => by subst h; rfl, fun h => BitVec.eq_of_toNat_eq h⟩
  simp [nodeAt, hN]
  omega

@[simp] theorem nodeAt_empty (i : NodeIdx) (h : i ≠ NONE) :
    nodeAt (Vector.replicate 511 Node.empty) i = some Node.empty := by
  have hi := i.isLt
  have : i.toNat ≠ 511 := fun hc => h (BitVec.eq_of_toNat_eq hc)
  have : i.toNat < 511 := by omega
  simp [nodeAt, this]

/-- A sum over the symbols of a function changed at one symbol. -/
theorem sum_symbols_update (f g : Byte → Nat) (a : Byte) (h : ∀ b, b ≠ a → g b = f b) :
    (symbols.map g).sum + f a = (symbols.map f).sum + g a := by
  have key : ∀ l : List Byte, l.Nodup → a ∈ l → (l.map g).sum + f a = (l.map f).sum + g a := by
    intro l
    induction l with
    | nil => intro _ h; simp at h
    | cons b l ih =>
      intro hn hm
      obtain ⟨hb, hn⟩ := List.nodup_cons.1 hn
      by_cases hab : b = a
      · subst hab
        have : l.map g = l.map f := List.map_congr_left fun c hc => h c fun hcb => hb (hcb ▸ hc)
        simp [this]; omega
      · have hm : a ∈ l := by simpa [Ne.symm hab] using hm
        have := ih hn hm
        simp [h b hab]; omega
  exact key symbols symbols_nodup (mem_symbols a)

theorem freqTotal_set (f : Vector Word 256) (a : Byte) (c : Word) :
    freqTotal (f.set a.toNat c a.isLt) + (freqAt f a).toNat = freqTotal f + c.toNat := by
  have := sum_symbols_update (fun b => (freqAt f b).toNat) (fun b => (freqAt (f.set a.toNat c a.isLt) b).toNat) a
    (fun b hb => by simp [freqAt_set, hb])
  simpa [freqTotal, freqAt_set] using this

theorem alphabetSize_eq_sum (f : Vector Word 256) :
    alphabetSize f = (symbols.map fun b => if freqAt f b = 0#32 then 0 else 1).sum := by
  unfold alphabetSize
  generalize symbols = l
  induction l with
  | nil => rfl
  | cons b l ih =>
    rw [List.countP_cons, ih]
    by_cases h : freqAt f b = 0#32 <;> simp [h, Nat.add_comm]

theorem alphabetSize_set (f : Vector Word 256) (a : Byte) (c : Word) :
    alphabetSize (f.set a.toNat c a.isLt) + (if freqAt f a = 0#32 then 0 else 1) =
      alphabetSize f + (if c = 0#32 then 0 else 1) := by
  have := sum_symbols_update (fun b => if freqAt f b = 0#32 then 0 else 1)
    (fun b => if freqAt (f.set a.toNat c a.isLt) b = 0#32 then 0 else 1) a (fun b hb => by simp [freqAt_set, hb])
  simpa [alphabetSize_eq_sum, freqAt_set] using this

theorem alphabetSize_le (f : Vector Word 256) : alphabetSize f ≤ 256 := by
  have := List.countP_le_length (p := fun sym => decide (freqAt f sym ≠ 0#32)) (l := symbols)
  simpa [alphabetSize, symbols_length] using this

@[simp] theorem alphabetSize_zero : alphabetSize (Vector.replicate 256 0#32) = 0 := by
  simp [alphabetSize]

@[simp] theorem freqTotal_zero : freqTotal (Vector.replicate 256 0#32) = 0 := by
  simp [freqTotal]

theorem freqAt_le_total (f : Vector Word 256) (b : Byte) : (freqAt f b).toNat ≤ freqTotal f :=
  List.single_le_sum (by simp) _ (List.mem_map.2 ⟨b, mem_symbols b, rfl⟩)

/-- TOTAL is below 2^40 (R29). -/
theorem freqTotal_lt (f : Vector Word 256) : freqTotal f ≤ 256 * (2 ^ 32 - 1) := by
  have h : ∀ l : List Byte, (l.map fun b => (freqAt f b).toNat).sum ≤ l.length * (2 ^ 32 - 1) := by
    intro l
    induction l with
    | nil => simp
    | cons b l ih =>
      have := (freqAt f b).isLt
      simp only [List.map_cons, List.sum_cons, List.length_cons]
      omega
  simpa [freqTotal, symbols_length] using h symbols

end Sys2Proof.Machine
end

