-- ==== Sys2Proof/Laws/Tree.lean ====
section
/-! SUPPORT. What BUILD can do: the priority queue, the growing forest and the tree it ends in, and that the result depends
on FREQ alone (spec/42_tree.md R86 to R93). -/

namespace Sys2Proof.Machine

/-! ### Node indices -/

theorem NodeIdx.ne_none_iff {i : NodeIdx} : i ≠ NONE ↔ i.toNat < 511 := by
  have := i.isLt
  constructor
  · intro h
    have : i.toNat ≠ 511 := fun hc => h (BitVec.eq_of_toNat_eq hc)
    omega
  · intro h hc; subst hc; exact absurd h (by decide)

theorem symIdx_toNat (b : Byte) : (b.setWidth 9).toNat = b.toNat := by
  have := b.isLt
  simp; omega

theorem symIdx_inj {a b : Byte} : a.setWidth 9 = b.setWidth 9 ↔ a = b := by
  refine ⟨fun h => BitVec.eq_of_toNat_eq ?_, fun h => h ▸ rfl⟩
  rw [← symIdx_toNat a, ← symIdx_toNat b, h]

theorem symIdx_lt (b : Byte) : b.setWidth 9 < 256#9 := by
  have := b.isLt
  rw [BitVec.lt_def, symIdx_toNat]; simpa using this

theorem symIdx_ne_none (b : Byte) : b.setWidth 9 ≠ NONE := by
  have := b.isLt
  rw [NodeIdx.ne_none_iff, symIdx_toNat]; omega

theorem symIdx_of_lt {i : NodeIdx} (h : i < 256#9) : (i.setWidth 8).setWidth 9 = i := by
  rw [BitVec.lt_def] at h
  apply BitVec.eq_of_toNat_eq
  have : i.toNat < 256 := by simpa using h
  simp; omega

theorem nodeAt_some_of_ne {t : Vector Node 511} {i : NodeIdx} (h : i ≠ NONE) : ∃ n, nodeAt t i = some n := by
  cases hn : nodeAt t i with
  | none => exact absurd (nodeAt_none_iff.1 hn) h
  | some n => exact ⟨n, rfl⟩

theorem nodeAt_some_ne {t : Vector Node 511} {i : NodeIdx} {n : Node} (h : nodeAt t i = some n) : i ≠ NONE := by
  intro hc; rw [nodeAt_none_iff.2 hc] at h; cases h

theorem arena_ext {t u : Vector Node 511} (h : ∀ i, nodeAt t i = nodeAt u i) : t = u := by
  ext i hi : 1
  have := h (BitVec.ofNat 9 i)
  have h9 : i % 512 = i := Nat.mod_eq_of_lt (by omega)
  simpa [nodeAt, h9, hi] using this

/-! ### The priority order and popmin (R86) -/

theorem keyLt_iff (t : Vector Node 511) (i j : NodeIdx) :
    keyLt t i j = true ↔ (nodeFreq t i).toNat < (nodeFreq t j).toNat ∨
      ((nodeFreq t i).toNat = (nodeFreq t j).toNat ∧ i.toNat < j.toNat) := by
  simp [keyLt, BitVec.lt_def, ← BitVec.toNat_inj]

theorem keyLt_total (t : Vector Node 511) {i j : NodeIdx} (h : i ≠ j) : keyLt t i j = true ∨ keyLt t j i = true := by
  rw [keyLt_iff, keyLt_iff]
  have : i.toNat ≠ j.toNat := fun hc => h (BitVec.eq_of_toNat_eq hc)
  omega

theorem keyLt_trans (t : Vector Node 511) {i j k : NodeIdx} (h : keyLt t i j = true) (h' : keyLt t j k = true) :
    keyLt t i k = true := by
  rw [keyLt_iff] at *
  omega

theorem keyLt_irrefl (t : Vector Node 511) (i : NodeIdx) : keyLt t i i = false := by simp [keyLt]

theorem least_mem (t : Vector Node 511) (i : NodeIdx) (q : List NodeIdx) : least t i q ∈ i :: q := by
  induction q generalizing i with
  | nil => simp [least]
  | cons j q ih =>
    rw [least]
    by_cases h : keyLt t j i = true
    · simpa [h] using Or.inr (ih j)
    · have := ih i
      simp only [List.mem_cons] at this ⊢
      simp only [h, Bool.false_eq_true, if_false]
      tauto

/-- No element of the queue comes before the one popmin takes (R86, R87). -/
theorem least_le (t : Vector Node 511) (i : NodeIdx) (q : List NodeIdx) :
    ∀ j ∈ i :: q, j ≠ least t i q → keyLt t (least t i q) j = true := by
  induction q generalizing i with
  | nil => simp [least]
  | cons k q ih =>
    intro j hj hne
    rw [least] at hne ⊢
    by_cases hk : keyLt t k i = true
    · simp only [hk, if_true] at hne ⊢
      rcases List.mem_cons.1 hj with rfl | hj
      · by_cases hkl : k = least t k q
        · rw [← hkl]; exact hk
        · exact keyLt_trans t (ih k k (by simp) hkl) hk
      · exact ih k j hj hne
    · simp only [hk, Bool.false_eq_true, if_false] at hne ⊢
      rcases List.mem_cons.1 hj with rfl | hj
      · exact ih j j (by simp) hne
      · rcases List.mem_cons.1 hj with rfl | hj
        · by_cases hil : i = least t i q
          · by_cases hji : j = i
            · exact absurd (hji.trans hil) hne
            · have := (keyLt_total t hji).resolve_left hk
              rwa [← hil]
          · have h1 := ih i i (by simp) hil
            by_cases hji : j = i
            · rw [hji]; exact h1
            · exact keyLt_trans t h1 ((keyLt_total t hji).resolve_left hk)
        · exact ih i j (by simp [hj]) hne

/-- Everything popmin can do: nothing on the empty queue, else it takes the element with the least key out (R87). -/
theorem popMin_cases (s : State) :
    (s.work.queue = [] ∧ popMin s = none) ∨
    (∃ i, i ∈ s.work.queue ∧ (∀ j ∈ s.work.queue, j ≠ i → keyLt s.node i j = true) ∧
      popMin s = some (i, setWork { s.work with queue := s.work.queue.erase i } s)) := by
  unfold popMin
  cases hq : s.work.queue with
  | nil => exact .inl ⟨rfl, rfl⟩
  | cons i q => exact .inr ⟨_, least_mem _ _ _, fun j hj hne => least_le _ _ _ j hj hne, rfl⟩

/-! ### Paths in an arena -/

theorem follow_append (t : Vector Node 511) (i j : NodeIdx) (p q : List Bool) (h : follow t i p = some j) :
    follow t i (p ++ q) = follow t j q := by
  induction p generalizing i with
  | nil => simp [follow] at h; simp [h]
  | cons b p ih =>
    simp only [follow, List.cons_append] at h ⊢
    split at h
    · cases h
    · split at h
      · cases h
      · split at h
        · cases h
        · rename_i hl hc
          simp only [hl, hc, if_false, Bool.false_eq_true]
          exact ih _ h

theorem follow_leaf {t : Vector Node 511} {i j : NodeIdx} {n : Node} {b : Bool} {p : List Bool}
    (hn : nodeAt t i = some n) (hl : n.leaf = true) : follow t i (b :: p) ≠ some j := by
  simp [follow, hn, hl]

/-- One step of a path. -/
theorem follow_cons {t : Vector Node 511} {i : NodeIdx} {n : Node} {b : Bool} {p : List Bool}
    (hn : nodeAt t i = some n) (hl : n.leaf = false) (hc : n.child b ≠ NONE) :
    follow t i (b :: p) = follow t (n.child b) p := by
  simp [follow, hn, hl, hc]

theorem follow_cons_some {t : Vector Node 511} {i j : NodeIdx} {b : Bool} {p : List Bool}
    (h : follow t i (b :: p) = some j) :
    ∃ n, nodeAt t i = some n ∧ n.leaf = false ∧ n.child b ≠ NONE ∧ follow t (n.child b) p = some j := by
  simp only [follow] at h
  split at h
  · cases h
  · rename_i n hn
    split at h
    · cases h
    · split at h
      · cases h
      · exact ⟨n, hn, by simpa using ‹¬n.leaf = true›, ‹_›, h⟩

/-- A valid entry of a well-formed arena: its children, by bit. -/
theorem ArenaOk.child {t : Vector Node 511} (ha : ArenaOk t) {i : NodeIdx} {n : Node} (hn : nodeAt t i = some n)
    (hv : n.valid = true) (hl : n.leaf = false) (b : Bool) (hc : n.child b ≠ NONE) : ChildOk t i (n.child b) := by
  obtain ⟨h1, h2⟩ := ha i n hn hv
  have h256 : 256#9 ≤ i := by
    by_contra hlt
    have := (h1 (by simpa using hlt)).1
    simp [hl] at this
  obtain ⟨-, h3, h4⟩ := h2 h256
  cases b with
  | false => exact h3
  | true => exact h4.resolve_left hc

/-- A path from a valid entry stays at or below it and ends in a valid entry. -/
theorem follow_valid {t : Vector Node 511} (ha : ArenaOk t) {i j : NodeIdx} {p : List Bool}
    (hi : ∃ n, nodeAt t i = some n ∧ n.valid = true) (h : follow t i p = some j) :
    j.toNat ≤ i.toNat ∧ ∃ n, nodeAt t j = some n ∧ n.valid = true := by
  induction p generalizing i with
  | nil => simp [follow] at h; subst h; exact ⟨le_refl _, hi⟩
  | cons b p ih =>
    obtain ⟨n, hn, hl, hc, h⟩ := follow_cons_some h
    obtain ⟨n', hn', hv⟩ := hi
    rw [hn] at hn'; cases hn'
    obtain ⟨hlt, hch⟩ := ha.child hn hv hl b hc
    obtain ⟨h1, h2⟩ := ih hch h
    rw [BitVec.lt_def] at hlt
    exact ⟨by omega, h2⟩

/-- A path in a well-formed arena has at most as many bits as there are internal nodes from its start down. -/
theorem follow_length {t : Vector Node 511} (ha : ArenaOk t) {i j : NodeIdx} {p : List Bool}
    (hi : ∃ n, nodeAt t i = some n ∧ n.valid = true) (h : follow t i p = some j) :
    p.length ≤ i.toNat + 1 - 256 := by
  induction p generalizing i with
  | nil => simp
  | cons b p ih =>
    obtain ⟨n, hn, hl, hc, h⟩ := follow_cons_some h
    obtain ⟨n', hn', hv⟩ := hi
    rw [hn] at hn'; cases hn'
    obtain ⟨hlt, hch⟩ := ha.child hn hv hl b hc
    have h256 : 256 ≤ i.toNat := by
      by_contra hcon
      have := ((ha i n hn hv).1 (by rw [BitVec.lt_def]; simpa using hcon)).1
      simp [hl] at this
    have := ih hch h
    rw [BitVec.lt_def] at hlt
    simp only [List.length_cons]
    omega

/-- A path does not see an entry above it being written. -/
theorem follow_set {t : Vector Node 511} (ha : ArenaOk t) {i j m : NodeIdx} {p : List Bool} (x : Node)
    (hi : ∃ n, nodeAt t i = some n ∧ n.valid = true) (him : i.toNat < m.toNat) (h : follow t i p = some j) :
    follow (t.setIfInBounds m.toNat x) i p = some j := by
  induction p generalizing i with
  | nil => simpa [follow] using h
  | cons b p ih =>
    obtain ⟨n, hn, hl, hc, h⟩ := follow_cons_some h
    obtain ⟨n', hn', hv⟩ := hi
    rw [hn] at hn'; cases hn'
    obtain ⟨hlt, hch⟩ := ha.child hn hv hl b hc
    have hne : i ≠ m := fun hc => by subst hc; omega
    rw [follow_cons (by rw [nodeAt_set]; simp [hne, hn]) hl hc]
    rw [BitVec.lt_def] at hlt
    exact ih hch (by omega) h

/-! ### Planting the leaves -/

/-- The leaf slot of a symbol after planting. -/
def leafSlot (f : Vector Word 256) (b : Byte) : Node :=
  if freqAt f b = 0#32 then Node.empty else leafNode (freqAt f b)

theorem plantLeaf_eq (s : State) (b : Byte) : plantLeaf s b =
    if freqAt s.freq b = 0#32 then s
    else setWork { s.work with queue := s.work.queue ++ [b.setWidth 9] }
      (setNode (b.setWidth 9) (leafNode (freqAt s.freq b)) s) := rfl

/-- Planting changes NODE and the queue only. -/
theorem plant_frame (l : List Byte) (s : State) : ∃ t q, l.foldl plantLeaf s =
    setWork { s.work with queue := q } (setArena t s) := by
  induction l generalizing s with
  | nil => exact ⟨s.node, s.work.queue, rfl⟩
  | cons b l ih =>
    obtain ⟨t, q, h⟩ := ih (plantLeaf s b)
    refine ⟨t, q, ?_⟩
    rw [List.foldl_cons, h, plantLeaf_eq]
    split <;> rfl

/-- Planting a list of symbols fills their leaf slots and queues the present ones in order. -/
theorem plant_spec (l : List Byte) (s : State) :
    (l.foldl plantLeaf s).work.queue =
      s.work.queue ++ (l.filter fun b => freqAt s.freq b ≠ 0#32).map (fun b => b.setWidth 9) ∧
    ∀ i, nodeAt (l.foldl plantLeaf s).node i =
      if ∃ b ∈ l, b.setWidth 9 = i ∧ freqAt s.freq b ≠ 0#32 then some (leafNode (freqAt s.freq (i.setWidth 8)))
      else nodeAt s.node i := by
  induction l generalizing s with
  | nil => simp
  | cons b l ih =>
    have hf : (plantLeaf s b).freq = s.freq := by rw [plantLeaf_eq]; split <;> rfl
    obtain ⟨hq, hn⟩ := ih (plantLeaf s b)
    rw [List.foldl_cons, hq, hf]
    simp only [hf] at hn
    by_cases hb : freqAt s.freq b = 0#32
    · have hp : plantLeaf s b = s := by rw [plantLeaf_eq, if_pos hb]
      refine ⟨by simp [hp, hb], fun i => ?_⟩
      rw [hn i, hp]
      have : (∃ c ∈ b :: l, c.setWidth 9 = i ∧ freqAt s.freq c ≠ 0#32) ↔
          ∃ c ∈ l, c.setWidth 9 = i ∧ freqAt s.freq c ≠ 0#32 := by
        constructor
        · rintro ⟨c, hc, h1, h2⟩
          rcases List.mem_cons.1 hc with rfl | hc
          · exact absurd hb h2
          · exact ⟨c, hc, h1, h2⟩
        · rintro ⟨c, hc, h1, h2⟩
          exact ⟨c, by simp [hc], h1, h2⟩
      simp only [this]
    · have hp : plantLeaf s b = setWork { s.work with queue := s.work.queue ++ [b.setWidth 9] }
          (setNode (b.setWidth 9) (leafNode (freqAt s.freq b)) s) := by rw [plantLeaf_eq, if_neg hb]
      refine ⟨by simp [hp, hb], fun i => ?_⟩
      rw [hn i, hp, setWork_node, setNode_node, nodeAt_set]
      by_cases hi : i = b.setWidth 9
      · subst hi
        have hb8 : (b.setWidth 9).setWidth 8 = b := by
          apply BitVec.eq_of_toNat_eq
          simp
        have hex : ∃ c ∈ b :: l, c.setWidth 9 = b.setWidth 9 ∧ freqAt s.freq c ≠ 0#32 := ⟨b, by simp, rfl, hb⟩
        rw [if_pos hex, hb8]
        simp [symIdx_ne_none]
      · have : (∃ c ∈ b :: l, c.setWidth 9 = i ∧ freqAt s.freq c ≠ 0#32) ↔
            ∃ c ∈ l, c.setWidth 9 = i ∧ freqAt s.freq c ≠ 0#32 := by
          constructor
          · rintro ⟨c, hc, h1, h2⟩
            rcases List.mem_cons.1 hc with rfl | hc
            · exact absurd h1.symm hi
            · exact ⟨c, hc, h1, h2⟩
          · rintro ⟨c, hc, h1, h2⟩
            exact ⟨c, by simp [hc], h1, h2⟩
        simp only [this, hi, false_and, if_false]

/-! ### The growing forest -/

/-- Entry i is a valid internal node with child j. -/
def HasChild (t : Vector Node 511) (i j : NodeIdx) : Prop :=
  ∃ n, nodeAt t i = some n ∧ n.valid = true ∧ n.leaf = false ∧ (n.left = j ∨ n.right = j)

/-- What the merge loop of BUILD keeps: the entries below m are made, the rest are empty, and the queue holds the roots of
a forest whose leaves are the present symbols. -/
structure Growing (f : Vector Word 256) (t : Vector Node 511) (q : List NodeIdx) (m : Nat) : Prop where
  low      : 256 ≤ m
  room     : m + q.length ≤ 512
  nodup    : q.Nodup
  queued   : ∀ i ∈ q, i.toNat < m ∧ ∃ n, nodeAt t i = some n ∧ n.valid = true
  arena    : ArenaOk t
  fresh    : ∀ i : NodeIdx, m ≤ i.toNat → i ≠ NONE → nodeAt t i = some Node.empty
  leaves   : ∀ b : Byte, nodeAt t (b.setWidth 9) = some (leafSlot f b)
  internal : ∀ i : NodeIdx, 256 ≤ i.toNat → i.toNat < m → ∃ n, nodeAt t i = some n ∧ n.valid = true ∧ n.right ≠ NONE ∧
               n.left ≠ n.right ∧ n.freq.toNat = (nodeFreq t n.left).toNat + (nodeFreq t n.right).toNat
  total    : (q.map fun i => (nodeFreq t i).toNat).sum = freqTotal f
  covers   : ∀ b : Byte, freqAt f b ≠ 0#32 → ∃ i ∈ q, ∃ p, follow t i p = some (b.setWidth 9)
  roots    : ∀ j n, nodeAt t j = some n → n.valid = true → (j ∈ q ↔ ∀ i, ¬ HasChild t i j)
  unique   : ∀ i i' j, HasChild t i j → HasChild t i' j → i = i'
  least    : ∀ i n, nodeAt t i = some n → n.valid = true → n.leaf = false → keyLt t n.left n.right = true ∧
               ∀ j n', nodeAt t j = some n' → n'.valid = true → j < i → (∀ i', i' ≤ i → ¬ HasChild t i' j) →
                 keyLt t n.right j = true

theorem nodeFreq_set {t : Vector Node 511} {i j : NodeIdx} (x : Node) (h : i ≠ j) :
    nodeFreq (t.setIfInBounds j.toNat x) i = nodeFreq t i := by
  simp [nodeFreq, nodeAt_set, h]

/-- One merge keeps the forest (R87, R91). -/
theorem Growing.merge {f : Vector Word 256} {t : Vector Node 511} {q : List NodeIdx} {m : Nat} (h : Growing f t q m)
    {a b : NodeIdx} (ha : a ∈ q) (hb : b ∈ q.erase a) (hla : ∀ j ∈ q, j ≠ a → keyLt t a j = true)
    (hlb : ∀ j ∈ q.erase a, j ≠ b → keyLt t b j = true) :
    Growing f (t.setIfInBounds (BitVec.ofNat 9 m).toNat (mergedNode t a b))
      ((q.erase a).erase b ++ [BitVec.ofNat 9 m]) (m + 1) := by
  have hbq : b ∈ q := List.mem_of_mem_erase hb
  have hab : a ≠ b := fun hc => by
    subst hc
    exact (h.nodup.mem_erase_iff.1 hb).1 rfl
  have hlen : ((q.erase a).erase b).length + 2 = q.length := by
    have h1 := List.length_erase_of_mem ha
    have h2 := List.length_erase_of_mem hb
    have h3 := List.length_pos_of_mem ha
    have h4 := List.length_pos_of_mem hb
    omega
  have hroom := h.room
  have hlow := h.low
  have hm : (BitVec.ofNat 9 m).toNat = m := by simp; omega
  have hmN : BitVec.ofNat 9 m ≠ NONE := by rw [NodeIdx.ne_none_iff, hm]; omega
  generalize hM : BitVec.ofNat 9 m = M at hm hmN ⊢
  obtain ⟨ham, hav⟩ := h.queued a ha
  obtain ⟨hbm, hbv⟩ := h.queued b hbq
  have hne : ∀ {i : NodeIdx}, i.toNat < m → i ≠ M := fun hi hc => by subst hc; omega
  have hnode : ∀ {i : NodeIdx}, i.toNat < m →
      nodeAt (t.setIfInBounds M.toNat (mergedNode t a b)) i = nodeAt t i := fun hi => by
    rw [nodeAt_set]; simp [hne hi]
  have hnodeM : nodeAt (t.setIfInBounds M.toNat (mergedNode t a b)) M = some (mergedNode t a b) := by
    rw [nodeAt_set]; simp [hmN]
  have hperm : q.Perm (a :: b :: (q.erase a).erase b) :=
    (List.perm_cons_erase ha).trans (List.Perm.cons a (List.perm_cons_erase hb))
  have hsum : (nodeFreq t a).toNat + (nodeFreq t b).toNat +
      (((q.erase a).erase b).map fun i => (nodeFreq t i).toNat).sum = freqTotal f := by
    have := (hperm.map fun i => (nodeFreq t i).toNat).sum_eq
    simp only [List.map_cons, List.sum_cons] at this
    rw [← h.total, this]; omega
  have hft := freqTotal_lt f
  have hfM : (nodeFreq t a + nodeFreq t b).toNat = (nodeFreq t a).toNat + (nodeFreq t b).toNat := by
    rw [BitVec.toNat_add]; omega
  have haN := nodeAt_some_ne hav.choose_spec.1
  have hbN := nodeAt_some_ne hbv.choose_spec.1
  have hold : ∀ {i n}, nodeAt t i = some n → n.valid = true → i.toNat < m := fun {i n} hn hv => by
    by_contra hcon
    rw [h.fresh i (by omega) (nodeAt_some_ne hn)] at hn
    cases hn; simp [Node.empty] at hv
  have hchild : ∀ i j, HasChild (t.setIfInBounds M.toNat (mergedNode t a b)) i j ↔
      HasChild t i j ∨ (i = M ∧ (a = j ∨ b = j)) := by
    intro i j
    by_cases hiM : i = M
    · subst hiM
      constructor
      · rintro ⟨n, hn, -, -, hc⟩
        rw [hnodeM] at hn; cases hn
        exact .inr ⟨rfl, hc⟩
      · rintro (⟨n, hn, hv, -, -⟩ | ⟨-, hc⟩)
        · exact absurd (hold hn hv) (by omega)
        · exact ⟨_, hnodeM, rfl, rfl, hc⟩
    · have : nodeAt (t.setIfInBounds M.toNat (mergedNode t a b)) i = nodeAt t i := by rw [nodeAt_set]; simp [hiM]
      simp [HasChild, this, hiM]
  have hkey : ∀ {i j : NodeIdx}, i.toNat < m → j.toNat < m →
      keyLt (t.setIfInBounds M.toNat (mergedNode t a b)) i j = keyLt t i j := fun {i j} hi hj => by
    unfold keyLt
    rw [nodeFreq_set _ (hne hi), nodeFreq_set _ (hne hj)]
  have haq : ∀ i, ¬ HasChild t i a := (h.roots a _ hav.choose_spec.1 hav.choose_spec.2).1 ha
  have hbq' : ∀ i, ¬ HasChild t i b := (h.roots b _ hbv.choose_spec.1 hbv.choose_spec.2).1 hbq
  refine ⟨by omega, by simp; omega, ?_, ?_, ?_, ?_, ?_, ?_, ?_, ?_, ?_, ?_, ?_⟩
  · refine List.Nodup.append ((h.nodup.erase a).erase b) (by simp) ?_
    intro i hi hiM
    simp only [List.mem_singleton] at hiM
    subst hiM
    exact absurd (h.queued i (List.mem_of_mem_erase (List.mem_of_mem_erase hi))).1 (by omega)
  · intro i hi
    rcases List.mem_append.1 hi with hi | hi
    · obtain ⟨h1, h2⟩ := h.queued i (List.mem_of_mem_erase (List.mem_of_mem_erase hi))
      exact ⟨by omega, by rwa [hnode h1]⟩
    · simp only [List.mem_singleton] at hi
      subst hi
      exact ⟨by omega, _, hnodeM, rfl⟩
  · intro i n hn hv
    by_cases hiM : i = M
    · subst hiM
      rw [hnodeM] at hn
      cases hn
      refine ⟨fun hlt => absurd hlt ?_, fun _ => ⟨rfl, ?_, .inr ?_⟩⟩
      · rw [BitVec.lt_def]; simp; omega
      · exact ⟨by rw [BitVec.lt_def]; simpa [mergedNode, hm] using ham, by rwa [hnode (by simpa [mergedNode] using ham)]⟩
      · exact ⟨by rw [BitVec.lt_def]; simpa [mergedNode, hm] using hbm, by rwa [hnode (by simpa [mergedNode] using hbm)]⟩
    · have hn' : nodeAt t i = some n := by rw [nodeAt_set] at hn; simpa [hiM] using hn
      have him : i.toNat < m := by
        by_contra hcon
        rw [h.fresh i (by omega) (nodeAt_some_ne hn')] at hn'
        cases hn'; simp [Node.empty] at hv
      obtain ⟨h1, h2⟩ := h.arena i n hn' hv
      have lift : ∀ {j}, ChildOk t i j → ChildOk (t.setIfInBounds M.toNat (mergedNode t a b)) i j := by
        rintro j ⟨hlt, hjv⟩
        refine ⟨hlt, ?_⟩
        rw [BitVec.lt_def] at hlt
        rwa [hnode (by omega)]
      exact ⟨h1, fun h256 => ⟨(h2 h256).1, lift (h2 h256).2.1, (h2 h256).2.2.imp id lift⟩⟩
  · intro i hi hN
    have : i ≠ M := fun hc => by subst hc; omega
    rw [nodeAt_set]
    simpa [this] using h.fresh i (by omega) hN
  · intro c
    have := c.isLt
    rw [hnode (by rw [symIdx_toNat]; omega)]
    exact h.leaves c
  · intro i h256 him
    by_cases hiM : i = M
    · subst hiM
      refine ⟨_, hnodeM, rfl, hbN, hab, ?_⟩
      rw [nodeFreq_set _ (hne (by simpa [mergedNode] using ham)), nodeFreq_set _ (hne (by simpa [mergedNode] using hbm))]
      exact hfM
    · have him : i.toNat < m := by
        have : i.toNat ≠ m := fun hc => hiM (BitVec.eq_of_toNat_eq (by omega))
        omega
      obtain ⟨n, hn, hv, hr, hlr, hf⟩ := h.internal i h256 him
      obtain ⟨-, hl, hrt⟩ := (h.arena i n hn hv).2 (by rw [BitVec.le_def]; simpa using h256)
      have hrt := hrt.resolve_left hr
      have h1 := hl.1; have h2 := hrt.1
      rw [BitVec.lt_def] at h1 h2
      refine ⟨n, by rwa [hnode him], hv, hr, hlr, ?_⟩
      rw [nodeFreq_set _ (hne (by omega)), nodeFreq_set _ (hne (by omega))]
      exact hf
  · have hmap : ((q.erase a).erase b).map (fun i => (nodeFreq (t.setIfInBounds M.toNat (mergedNode t a b)) i).toNat) =
        ((q.erase a).erase b).map fun i => (nodeFreq t i).toNat := by
      refine List.map_congr_left fun i hi => ?_
      rw [nodeFreq_set _ (hne (h.queued i (List.mem_of_mem_erase (List.mem_of_mem_erase hi))).1)]
    have hMf : nodeFreq (t.setIfInBounds M.toNat (mergedNode t a b)) M = nodeFreq t a + nodeFreq t b := by
      unfold nodeFreq
      rw [hnodeM]
      rfl
    rw [List.map_append, List.sum_append, hmap]
    simp only [List.map_cons, List.map_nil, List.sum_cons, List.sum_nil, hMf, hfM]
    omega
  · intro c hc
    obtain ⟨i, hi, p, hp⟩ := h.covers c hc
    obtain ⟨him, hiv⟩ := h.queued i hi
    have hp' := follow_set h.arena (mergedNode t a b) hiv (by omega : i.toNat < M.toNat) hp
    by_cases hia : i = a
    · subst hia
      exact ⟨M, by simp, false :: p, by rw [follow_cons hnodeM rfl (b := false) haN]; exact hp'⟩
    · by_cases hib : i = b
      · subst hib
        exact ⟨M, by simp, true :: p, by rw [follow_cons hnodeM rfl (b := true) hbN]; exact hp'⟩
      · refine ⟨i, ?_, p, hp'⟩
        simp [List.mem_erase_of_ne, hia, hib, hi]
  · intro j n hn hv
    by_cases hjM : j = M
    · subst hjM
      refine ⟨fun _ i hc => ?_, fun _ => by simp⟩
      rcases (hchild _ _).1 hc with ⟨n', hn', hv', hl', hc⟩ | ⟨-, hc⟩
      · have hi := hold hn' hv'
        have h256 : 256#9 ≤ i := by
          by_contra hlt
          have := ((h.arena i n' hn' hv').1 (by simpa using hlt)).1
          simp [hl'] at this
        obtain ⟨-, hL, hR⟩ := (h.arena i n' hn' hv').2 h256
        have : j < i := by
          rcases hc with rfl | rfl
          · exact hL.1
          · exact (hR.resolve_left hmN).1
        rw [BitVec.lt_def] at this
        omega
      · rcases hc with rfl | rfl <;> omega
    · have hn' : nodeAt t j = some n := by rw [nodeAt_set] at hn; simpa [hjM] using hn
      have hr := h.roots j n hn' hv
      constructor
      · intro hj i hc
        have hj : j ∈ (q.erase a).erase b := by simpa [hjM] using hj
        have hjb : j ≠ b := fun hc => by subst hc; exact ((h.nodup.erase a).mem_erase_iff.1 hj).1 rfl
        have hja : j ≠ a := fun hc => by
          subst hc; exact (h.nodup.mem_erase_iff.1 (List.mem_of_mem_erase hj)).1 rfl
        rcases (hchild _ _).1 hc with hc | ⟨-, rfl | rfl⟩
        · exact hr.1 (List.mem_of_mem_erase (List.mem_of_mem_erase hj)) i hc
        · exact hja rfl
        · exact hjb rfl
      · intro hno
        have hjq := hr.2 fun i hc => hno i ((hchild _ _).2 (.inl hc))
        have hja : j ≠ a := fun hc => hno M ((hchild _ _).2 (.inr ⟨rfl, .inl hc.symm⟩))
        have hjb : j ≠ b := fun hc => hno M ((hchild _ _).2 (.inr ⟨rfl, .inr hc.symm⟩))
        simp [List.mem_erase_of_ne, hja, hjb, hjq]
  · intro i i' j hc hc'
    rcases (hchild _ _).1 hc with h1 | ⟨rfl, h1⟩ <;> rcases (hchild _ _).1 hc' with h2 | ⟨rfl, h2⟩
    · exact h.unique i i' j h1 h2
    · rcases h2 with h2 | h2 <;> rw [← h2] at h1
      · exact absurd h1 (haq i)
      · exact absurd h1 (hbq' i)
    · rcases h1 with h1 | h1 <;> rw [← h1] at h2
      · exact absurd h2 (haq i')
      · exact absurd h2 (hbq' i')
    · rfl
  · intro i n hn hv hl
    by_cases hiM : i = M
    · subst hiM
      rw [hnodeM] at hn; cases hn
      refine ⟨?_, ?_⟩
      · show keyLt _ a b = true
        rw [hkey ham hbm]
        exact hla b hbq (Ne.symm hab)
      · intro j n' hn' hv' hlt hno
        rw [BitVec.lt_def] at hlt
        have hjm : j.toNat < m := by omega
        rw [hnode hjm] at hn'
        show keyLt _ b j = true
        rw [hkey hbm hjm]
        have hja : j ≠ a := fun hc => hno i (by simp) ((hchild _ _).2 (.inr ⟨rfl, .inl hc.symm⟩))
        have hjb : j ≠ b := fun hc => hno i (by simp) ((hchild _ _).2 (.inr ⟨rfl, .inr hc.symm⟩))
        have hjq : j ∈ q := (h.roots j n' hn' hv').2 fun i' hc => hno i' (by
          obtain ⟨x, hx, hxv, -⟩ := hc
          have := hold hx hxv
          rw [BitVec.le_def]; omega) ((hchild _ _).2 (.inl hc))
        exact hlb j (by simp [List.mem_erase_of_ne, hja, hjq]) hjb
    · have hn' : nodeAt t i = some n := by rw [nodeAt_set] at hn; simpa [hiM] using hn
      have him := hold hn' hv
      obtain ⟨h1, h2⟩ := h.least i n hn' hv hl
      have h256 : 256 ≤ i.toNat := by
        by_contra hlt
        have := ((h.arena i n hn' hv).1 (by rw [BitVec.lt_def]; simpa using hlt)).1
        simp [hl] at this
      obtain ⟨n2, hn2, -, hr2, -⟩ := h.internal i h256 him
      rw [hn'] at hn2; cases hn2
      obtain ⟨-, hL, hR⟩ := (h.arena i n hn' hv).2 (by rw [BitVec.le_def]; simpa using h256)
      have hR := hR.resolve_left hr2
      have hlL := hL.1; have hlR := hR.1
      rw [BitVec.lt_def] at hlL hlR
      refine ⟨by rw [hkey (by omega) (by omega)]; exact h1, fun j n' hn2 hv2 hlt hno => ?_⟩
      have hlt' := hlt
      rw [BitVec.lt_def] at hlt'
      rw [hkey (by omega) (by omega)]
      rw [hnode (by omega)] at hn2
      exact h2 j n' hn2 hv2 hlt fun i' hi' hc => hno i' hi' ((hchild _ _).2 (.inl hc))

/-- The merge loop leaves a queue of one element alone (R87). -/
theorem mergeLoop_single (n : Nat) {u : State} {i : NodeIdx} (h : u.work.queue = [i]) : mergeLoop n u = u := by
  cases n with
  | zero => rfl
  | succ n =>
    rcases popMin_cases u with ⟨h0, hp⟩ | ⟨a, ha, -, hp⟩
    · rw [mergeLoop, hp]
    · rw [h, List.mem_singleton] at ha
      subst ha
      rcases popMin_cases (setWork { u.work with queue := u.work.queue.erase a } u) with ⟨h0, hp'⟩ | ⟨j, hj, -, hp'⟩
      · rw [mergeLoop, hp]; simp only [hp']
      · simp [h] at hj

/-- One round of the merge loop (R87). -/
theorem mergeLoop_round (n : Nat) {s : State} {a b : NodeIdx}
    (ha : popMin s = some (a, setWork { s.work with queue := s.work.queue.erase a } s))
    (hb : popMin (setWork { s.work with queue := s.work.queue.erase a } s) = some (b,
      setWork { (setWork { s.work with queue := s.work.queue.erase a } s).work with
        queue := (setWork { s.work with queue := s.work.queue.erase a } s).work.queue.erase b }
        (setWork { s.work with queue := s.work.queue.erase a } s))) :
    mergeLoop (n + 1) s =
      mergeLoop n (merge a b (setWork { s.work with queue := (s.work.queue.erase a).erase b } s)) := by
  rw [mergeLoop, ha]
  simp only [hb]
  rfl

/-- A merge writes NODE and the working state only. -/
theorem merge_setArena (a b : NodeIdx) (w : Work) (t : Vector Node 511) (s : State) :
    setWork w (setArena t (merge a b s)) = setWork w (setArena t s) := rfl

/-- An update of the working state is lost under a later one. -/
theorem setWork_under_setArena (w w' : Work) (t : Vector Node 511) (s : State) :
    setWork w (setArena t (setWork w' s)) = setWork w (setArena t s) := rfl

/-- The merge loop ends with one root, having made one internal node per merge (R87). -/
theorem mergeLoop_spec {f : Vector Word 256} (n : Nat) (s : State) (h : Growing f s.node s.work.queue s.work.m)
    (hn : s.work.queue.length ≤ n) (hq : s.work.queue ≠ []) :
    ∃ t r, mergeLoop n s = setWork { s.work with queue := [r], m := s.work.m + s.work.queue.length - 1 } (setArena t s) ∧
      Growing f t [r] (s.work.m + s.work.queue.length - 1) ∧
      (2 ≤ s.work.queue.length → r = BitVec.ofNat 9 (s.work.m + s.work.queue.length - 2)) := by
  induction n generalizing s with
  | zero =>
    have : s.work.queue = [] := List.length_eq_zero_iff.1 (by omega)
    exact absurd this hq
  | succ n ih =>
    rcases popMin_cases s with ⟨h0, -⟩ | ⟨a, ha, hla, hpa⟩
    · exact absurd h0 hq
    rcases popMin_cases (setWork { s.work with queue := s.work.queue.erase a } s) with ⟨h0, hpb⟩ | ⟨b, hb, hlb, hpb⟩
    · have hlen : s.work.queue.length = 1 := by
        have h1 := List.length_erase_of_mem ha
        have h2 := List.length_pos_of_mem ha
        have h3 : s.work.queue.erase a = [] := h0
        rw [h3, List.length_nil] at h1
        omega
      obtain ⟨r, hr⟩ := List.length_eq_one_iff.1 hlen
      have h1 : s.work.m + s.work.queue.length - 1 = s.work.m := by omega
      refine ⟨s.node, r, ?_, by rw [h1, ← hr]; exact h, fun h2 => by omega⟩
      rw [mergeLoop_single _ hr, h1, ← hr]
      rfl
    · have hb : b ∈ s.work.queue.erase a := hb
      have hlb : ∀ j ∈ s.work.queue.erase a, j ≠ b → keyLt s.node b j = true := hlb
      have hg := h.merge ha hb hla hlb
      have hlen : ((s.work.queue.erase a).erase b).length + 2 = s.work.queue.length := by
        have h1 := List.length_erase_of_mem ha
        have h2 := List.length_erase_of_mem hb
        have h3 := List.length_pos_of_mem ha
        have h4 := List.length_pos_of_mem hb
        omega
      have hloop := mergeLoop_round n hpa hpb
      generalize hu : Sys2Proof.Machine.merge a b (setWork { s.work with queue := (s.work.queue.erase a).erase b } s) = u
        at hloop
      have hu1 : u.node = s.node.setIfInBounds (BitVec.ofNat 9 s.work.m).toNat (mergedNode s.node a b) := by subst hu; rfl
      have hu2 : u.work = { s.work with
          queue := (s.work.queue.erase a).erase b ++ [BitVec.ofNat 9 s.work.m], m := s.work.m + 1 } := by subst hu; rfl
      have hu3 : ∀ w t, setWork w (setArena t u) = setWork w (setArena t s) := fun w t => by
        rw [← hu, merge_setArena, setWork_under_setArena]
      have hul : u.work.queue.length = s.work.queue.length - 1 := by
        rw [hu2, List.length_append, List.length_singleton]; omega
      have hum : u.work.m = s.work.m + 1 := by rw [hu2]
      obtain ⟨t, r, h1, h2, h3⟩ := ih u (by rw [hu1, hu2]; exact hg) (by omega)
        (fun hc => by rw [hc, List.length_nil] at hul; omega)
      have hidx : u.work.m + u.work.queue.length - 1 = s.work.m + s.work.queue.length - 1 := by omega
      rw [hidx] at h1 h2
      refine ⟨t, r, by rw [hloop, h1, hu3, hu2], h2, fun _ => ?_⟩
      by_cases h2u : 2 ≤ u.work.queue.length
      · rw [h3 h2u]; congr 1; omega
      · -- one root is left: the node just made
        have hnil : (s.work.queue.erase a).erase b = [] := List.length_eq_zero_iff.1 (by omega)
        have hq1 : u.work.queue = [BitVec.ofNat 9 s.work.m] := by rw [hu2, hnil]; rfl
        have : u.work.queue = [r] := by rw [← mergeLoop_single n hq1, h1, setWork_work]
        rw [hq1, List.cons.injEq] at this
        rw [← this.1]; congr 1; omega

end Sys2Proof.Machine
end

