-- ==== Sys2Proof/Laws/Build.lean ====
section
/-! SUPPORT. The result of BUILD: a function of FREQ alone, and a tree over the present symbols (spec/42_tree.md R87, R89,
R90, R92, R93). -/

namespace Sys2Proof.Machine

/-! ### BUILD depends on FREQ alone (R93) -/

/-- Two states that agree on what BUILD reads and writes while it runs. -/
structure SameForest (s s' : State) : Prop where
  freq  : s.freq = s'.freq
  node  : s.node = s'.node
  queue : s.work.queue = s'.work.queue
  m     : s.work.m = s'.work.m
  root  : s.root = s'.root

theorem SameForest.plantLeaf {s s' : State} (h : SameForest s s') (b : Byte) :
    SameForest (plantLeaf s b) (plantLeaf s' b) := by
  rw [plantLeaf_eq, plantLeaf_eq, h.freq]
  split
  · exact h
  · exact ⟨h.freq, by simp [h.node], by simp [h.queue], h.m, h.root⟩

theorem SameForest.plantLeaves {s s' : State} (h : SameForest s s') : SameForest (plantLeaves s) (plantLeaves s') := by
  unfold Sys2Proof.Machine.plantLeaves
  generalize symbols = l
  induction l generalizing s s' with
  | nil => exact h
  | cons b l ih => exact ih (h.plantLeaf b)

theorem SameForest.popMin {s s' : State} (h : SameForest s s') :
    (popMin s = none ∧ popMin s' = none) ∨
    ∃ i t t', popMin s = some (i, t) ∧ popMin s' = some (i, t') ∧ SameForest t t' := by
  cases hq : s.work.queue with
  | nil => exact .inl ⟨by simp only [Sys2Proof.Machine.popMin, hq], by simp only [Sys2Proof.Machine.popMin, ← h.queue, hq]⟩
  | cons i q =>
    have hq' : s'.work.queue = i :: q := by rw [← h.queue, hq]
    refine .inr ⟨least s.node i q, setWork { s.work with queue := (i :: q).erase (least s.node i q) } s,
      setWork { s'.work with queue := (i :: q).erase (least s.node i q) } s', ?_, ?_, h.freq, h.node, rfl, h.m, h.root⟩
    · simp only [Sys2Proof.Machine.popMin, hq]
    · simp only [Sys2Proof.Machine.popMin, hq', h.node]

theorem SameForest.merge {s s' : State} (h : SameForest s s') (a b : NodeIdx) :
    SameForest (merge a b s) (merge a b s') :=
  ⟨h.freq, by simp [Sys2Proof.Machine.merge, h.node, h.m], by simp [Sys2Proof.Machine.merge, h.queue, h.m],
    by simp [Sys2Proof.Machine.merge, h.m], h.root⟩

theorem SameForest.mergeLoop {s s' : State} (n : Nat) (h : SameForest s s') :
    SameForest (mergeLoop n s) (mergeLoop n s') := by
  induction n generalizing s s' with
  | zero => exact h
  | succ n ih =>
    rcases h.popMin with ⟨h1, h2⟩ | ⟨a, t, t', h1, h2, ht⟩
    · simpa [Sys2Proof.Machine.mergeLoop, h1, h2] using h
    · rcases ht.popMin with ⟨h3, h4⟩ | ⟨b, u, u', h3, h4, hu⟩
      · simpa [Sys2Proof.Machine.mergeLoop, h1, h2, h3, h4] using h
      · simpa [Sys2Proof.Machine.mergeLoop, h1, h2, h3, h4] using ih (hu.merge a b)

theorem growTree_nil {s : State} (h : s.work.queue = []) : growTree s = s := by simp only [growTree, h]

theorem growTree_one {s : State} {i : NodeIdx} (h : s.work.queue = [i]) :
    growTree s = setRoot 256#9 (setNode 256#9 (loneRoot s.node i) s) := by simp only [growTree, h]

theorem growTree_many {s : State} (h : 2 ≤ s.work.queue.length) : growTree s =
    setRoot (BitVec.ofNat 9 ((mergeLoop s.work.queue.length s).work.m - 1)) (mergeLoop s.work.queue.length s) := by
  unfold growTree
  split
  · simp_all
  · simp_all
  · rfl

theorem SameForest.growTree {s s' : State} (h : SameForest s s') : SameForest (growTree s) (growTree s') := by
  match hq : s.work.queue with
  | [] => rw [growTree_nil hq, growTree_nil (h.queue ▸ hq)]; exact h
  | [i] =>
    rw [growTree_one hq, growTree_one (h.queue ▸ hq)]
    exact ⟨h.freq, by simp only [setRoot_node, setNode_node, h.node], h.queue, h.m, rfl⟩
  | i :: j :: q =>
    have h2 : 2 ≤ s.work.queue.length := by rw [hq]; simp
    rw [growTree_many h2, growTree_many (h.queue ▸ h2), ← h.queue]
    have := h.mergeLoop s.work.queue.length
    exact ⟨this.freq, this.node, this.queue, this.m, by simp only [setRoot_root, this.m]⟩

theorem sameForest_buildState {s s' : State} (h : s.freq = s'.freq) : SameForest (buildState s) (buildState s') := by
  have h0 : SameForest (buildStart s) (buildStart s') := ⟨h, rfl, rfl, rfl, rfl⟩
  have h1 := h0.plantLeaves.growTree
  unfold buildState
  generalize growTree (plantLeaves (buildStart s)) = u at h1
  generalize growTree (plantLeaves (buildStart s')) = u' at h1
  exact ⟨h1.freq, h1.node, h1.queue, h1.m, h1.root⟩

/-- What BUILD leaves in NODE and ROOT is a function of FREQ alone (R93). -/
theorem buildState_builtTree (s : State) : ((buildState s).node, (buildState s).root) = builtTree s.freq := by
  unfold builtTree
  generalize hr : ({ State.reset with freq := s.freq } : State) = r
  have h := sameForest_buildState (s := s) (s' := r) (by rw [← hr])
  simp only [h.node, h.root]

/-! ### The frame of BUILD -/

theorem popMin_frame {s t : State} {i : NodeIdx} (h : popMin s = some (i, t)) : ∃ w, t = setWork w s := by
  rcases popMin_cases s with ⟨-, h'⟩ | ⟨j, -, -, h'⟩
  · rw [h'] at h; cases h
  · rw [h'] at h
    simp only [Option.some.injEq, Prod.mk.injEq] at h
    exact ⟨_, h.2.symm⟩

theorem merge_frame (a b : NodeIdx) (s : State) : ∃ t w, merge a b s = setWork w (setArena t s) := ⟨_, _, rfl⟩

theorem forest_collapse (w w' w2 w1 : Work) (t t' : Vector Node 511) (s : State) :
    setWork w (setArena t (setWork w' (setArena t' (setWork w2 (setWork w1 s))))) = setWork w (setArena t s) := by
  simp only [setWork_setArena, setWork_setWork, setArena_setArena]

theorem mergeLoop_frame (n : Nat) (s : State) : ∃ t w, mergeLoop n s = setWork w (setArena t s) := by
  induction n generalizing s with
  | zero => exact ⟨s.node, s.work, rfl⟩
  | succ n ih =>
    rw [mergeLoop]
    cases h1 : popMin s with
    | none => exact ⟨s.node, s.work, rfl⟩
    | some p =>
      obtain ⟨a, t⟩ := p
      obtain ⟨w1, rfl⟩ := popMin_frame h1
      simp only
      cases h2 : popMin (setWork w1 s) with
      | none => exact ⟨s.node, s.work, rfl⟩
      | some p =>
        obtain ⟨b, u⟩ := p
        obtain ⟨w2, rfl⟩ := popMin_frame h2
        obtain ⟨t, w, h⟩ := ih (merge a b (setWork w2 (setWork w1 s)))
        obtain ⟨t', w', h'⟩ := merge_frame a b (setWork w2 (setWork w1 s))
        exact ⟨t, w, h.trans (by rw [h']; exact forest_collapse _ _ _ _ _ _ _)⟩

theorem growTree_frame (s : State) : ∃ t r w, growTree s = setRoot r (setArena t (setWork w s)) := by
  match hq : s.work.queue with
  | [] => exact ⟨s.node, s.root, s.work, growTree_nil hq⟩
  | [i] => exact ⟨_, _, s.work, growTree_one hq⟩
  | i :: j :: q =>
    obtain ⟨t, w, h⟩ := mergeLoop_frame s.work.queue.length s
    have hg := growTree_many (s := s) (by rw [hq]; simp)
    generalize mergeLoop s.work.queue.length s = u at h hg
    subst h
    exact ⟨t, _, w, hg⟩

/-- BUILD changes the tree, its flags and the working state only, and NODE and ROOT as `builtTree` says (R87). -/
theorem buildState_frame (s : State) : ∃ w, buildState s =
    treeDone (setRoot (builtTree s.freq).2 (setArena (builtTree s.freq).1 (setWork w (buildStart s)))) := by
  obtain ⟨t, q, h1⟩ := plant_frame symbols (buildStart s)
  obtain ⟨t', r, w, h2⟩ := growTree_frame (plantLeaves (buildStart s))
  have h : buildState s = treeDone (setRoot r (setArena t' (setWork w (buildStart s)))) := by
    rw [buildState, h2, plantLeaves, h1]; rfl
  have hb := buildState_builtTree s
  rw [h] at hb
  have ht : t' = (builtTree s.freq).1 := by rw [← hb]; rfl
  have hr : r = (builtTree s.freq).2 := by rw [← hb]; rfl
  exact ⟨w, by rw [h, ht, hr]⟩

/-! ### The tree BUILD makes -/

/-- The queue after planting: the present symbols in increasing order. -/
def presentIdx (f : Vector Word 256) : List NodeIdx :=
  (symbols.filter fun b => freqAt f b ≠ 0#32).map fun b => b.setWidth 9

theorem presentIdx_length (f : Vector Word 256) : (presentIdx f).length = alphabetSize f := by
  simp [presentIdx, alphabetSize, List.countP_eq_length_filter]

theorem mem_presentIdx {f : Vector Word 256} {i : NodeIdx} :
    i ∈ presentIdx f ↔ ∃ b, freqAt f b ≠ 0#32 ∧ b.setWidth 9 = i := by
  simp [presentIdx, mem_symbols]

theorem plantLeaves_queue (s : State) : (plantLeaves (buildStart s)).work.queue = presentIdx s.freq := by
  rw [plantLeaves, (plant_spec symbols (buildStart s)).1]
  rfl

theorem plantLeaves_node (s : State) (i : NodeIdx) (hi : i ≠ NONE) :
    nodeAt (plantLeaves (buildStart s)).node i =
      some (if i < 256#9 then leafSlot s.freq (i.setWidth 8) else Node.empty) := by
  have h := (plant_spec symbols (buildStart s)).2 i
  simp only [buildStart_node, buildStart_freq, nodeAt_empty i hi] at h
  rw [plantLeaves, h]
  by_cases hlt : i < 256#9
  · by_cases hz : freqAt s.freq (i.setWidth 8) = 0#32
    · have : ¬∃ b ∈ symbols, b.setWidth 9 = i ∧ freqAt s.freq b ≠ 0#32 := by
        rintro ⟨b, -, rfl, hb⟩
        exact hb (by rwa [symIdx_inj.1 (symIdx_of_lt hlt)] at hz)
      rw [if_neg this, if_pos hlt, leafSlot, if_pos hz]
    · have : ∃ b ∈ symbols, b.setWidth 9 = i ∧ freqAt s.freq b ≠ 0#32 :=
        ⟨i.setWidth 8, mem_symbols _, symIdx_of_lt hlt, hz⟩
      rw [if_pos this, if_pos hlt, leafSlot, if_neg hz]
  · have : ¬∃ b ∈ symbols, b.setWidth 9 = i ∧ freqAt s.freq b ≠ 0#32 := by
      rintro ⟨b, -, rfl, -⟩
      exact hlt (symIdx_lt b)
    rw [if_neg this, if_neg hlt]

theorem plantLeaves_leaf (s : State) (b : Byte) :
    nodeAt (plantLeaves (buildStart s)).node (b.setWidth 9) = some (leafSlot s.freq b) := by
  rw [plantLeaves_node s _ (symIdx_ne_none b), if_pos (symIdx_lt b), symIdx_inj.1 (symIdx_of_lt (symIdx_lt b))]

theorem leafNode_freq (c : Word) : (leafNode c).freq.toNat = c.toNat := by
  have := c.isLt
  simp [leafNode]; omega

theorem plantLeaves_childless (s : State) {i j : NodeIdx} : ¬ HasChild (plantLeaves (buildStart s)).node i j := by
  rintro ⟨n, hn, hv, hl, -⟩
  rw [plantLeaves_node s i (nodeAt_some_ne hn)] at hn
  cases hn
  by_cases hlt : i < 256#9
  · rw [if_pos hlt] at hv hl
    by_cases hz : freqAt s.freq (i.setWidth 8) = 0#32
    · simp [leafSlot, hz, Node.empty] at hv
    · simp [leafSlot, hz, leafNode] at hl
  · simp [hlt, Node.empty] at hv

/-- The planted leaves are a forest to grow from (R87). -/
theorem plantLeaves_growing (s : State) :
    Growing s.freq (plantLeaves (buildStart s)).node (presentIdx s.freq) 256 where
  low := le_refl _
  room := by have := alphabetSize_le s.freq; rw [presentIdx_length]; omega
  nodup := by
    refine List.Nodup.map_on (fun a _ b _ h => symIdx_inj.1 h) (symbols_nodup.filter _)
  queued := by
    intro i hi
    obtain ⟨b, hb, rfl⟩ := mem_presentIdx.1 hi
    have := b.isLt
    refine ⟨by rw [symIdx_toNat]; omega, _, plantLeaves_leaf s b, ?_⟩
    rw [leafSlot, if_neg hb]; rfl
  arena := by
    intro i n hn hv
    rw [plantLeaves_node s i (nodeAt_some_ne hn)] at hn
    cases hn
    by_cases hlt : i < 256#9
    · rw [if_pos hlt] at hv ⊢
      by_cases hz : freqAt s.freq (i.setWidth 8) = 0#32
      · simp [leafSlot, hz, Node.empty] at hv
      · rw [leafSlot, if_neg hz]
        refine ⟨fun _ => ⟨rfl, rfl, rfl⟩, fun h => ?_⟩
        rw [BitVec.lt_def] at hlt
        rw [BitVec.le_def] at h
        omega
    · simp [hlt, Node.empty] at hv
  fresh := by
    intro i h256 hi
    have : ¬ i < 256#9 := by rw [BitVec.lt_def]; simpa using h256
    rw [plantLeaves_node s i hi, if_neg this]
  leaves := plantLeaves_leaf s
  internal := fun i h1 h2 => absurd h1 (by omega)
  total := by
    have h : ∀ b : Byte, freqAt s.freq b ≠ 0#32 →
        (nodeFreq (plantLeaves (buildStart s)).node (b.setWidth 9)).toNat = (freqAt s.freq b).toNat := by
      intro b hb
      simp only [nodeFreq, plantLeaves_leaf, leafSlot, if_neg hb, leafNode_freq]
    unfold presentIdx freqTotal
    generalize symbols = l
    induction l with
    | nil => rfl
    | cons b l ih =>
      by_cases hb : freqAt s.freq b = 0#32
      · simpa [hb] using ih
      · simp only [ne_eq, hb, not_false_eq_true, decide_true, List.filter_cons_of_pos, List.map_cons, List.sum_cons,
          h b hb] at ih ⊢
        rw [ih]
  covers := fun b hb => ⟨b.setWidth 9, mem_presentIdx.2 ⟨b, hb, rfl⟩, [], rfl⟩
  roots := fun j n hn hv => by
    refine ⟨fun _ i hc => plantLeaves_childless s hc, fun _ => ?_⟩
    rw [plantLeaves_node s j (nodeAt_some_ne hn)] at hn
    cases hn
    by_cases hlt : j < 256#9
    · rw [if_pos hlt] at hv
      refine mem_presentIdx.2 ⟨_, fun hz => ?_, symIdx_of_lt hlt⟩
      simp [leafSlot, hz, Node.empty] at hv
    · simp [hlt, Node.empty] at hv
  unique := fun i i' j hc => absurd hc (plantLeaves_childless s)
  least := fun i n hn hv hl => absurd ⟨n, hn, hv, hl, .inl rfl⟩ (plantLeaves_childless s (j := n.left))

/-- The single-symbol tree (R90). -/
theorem buildState_lone {s : State} {b : Byte} (h : presentIdx s.freq = [b.setWidth 9]) :
    (builtTree s.freq).2 = 256#9 ∧
    (builtTree s.freq).1 = (plantLeaves (buildStart s)).node.setIfInBounds 256
      (loneRoot (plantLeaves (buildStart s)).node (b.setWidth 9)) := by
  have hb := buildState_builtTree s
  have hq := plantLeaves_queue s
  rw [h] at hq
  have : growTree (plantLeaves (buildStart s)) = setRoot 256#9 (setNode 256#9
      (loneRoot (plantLeaves (buildStart s)).node (b.setWidth 9)) (plantLeaves (buildStart s))) := by
    rw [growTree_one hq]
  rw [buildState, this] at hb
  rw [← hb]
  exact ⟨rfl, rfl⟩

/-- The empty tree (R89). -/
theorem buildState_empty {s : State} (h : presentIdx s.freq = []) :
    (builtTree s.freq).2 = NONE ∧ (builtTree s.freq).1 = Vector.replicate 511 Node.empty := by
  have hb := buildState_builtTree s
  have hq := plantLeaves_queue s
  rw [h] at hq
  have hg := growTree_nil hq
  obtain ⟨t, q, hf⟩ := plant_frame symbols (buildStart s)
  have hroot : (plantLeaves (buildStart s)).root = NONE := by rw [plantLeaves, hf]; rfl
  have hn := plantLeaves_node s
  rw [buildState, hg] at hb
  rw [← hb]
  generalize plantLeaves (buildStart s) = u at hn hroot
  refine ⟨hroot, arena_ext fun i => ?_⟩
  by_cases hi : i = NONE
  · rw [nodeAt_none_iff.2 hi, nodeAt_none_iff.2 hi]
  · rw [treeDone_node]
    refine (hn i hi).trans (Eq.trans ?_ (nodeAt_empty i hi).symm)
    split
    · rename_i hlt
      refine congrArg some (if_pos ?_)
      by_contra hz
      have : i ∈ presentIdx s.freq := mem_presentIdx.2 ⟨_, hz, symIdx_of_lt hlt⟩
      rw [h] at this
      simp at this
    · rfl

/-- The tree over two or more symbols (R87, R92). -/
theorem buildState_many {s : State} (h : 2 ≤ alphabetSize s.freq) :
    (builtTree s.freq).2 = BitVec.ofNat 9 (256 + alphabetSize s.freq - 2) ∧
    Growing s.freq (builtTree s.freq).1 [(builtTree s.freq).2] (256 + alphabetSize s.freq - 1) := by
  have hb := buildState_builtTree s
  have hq := plantLeaves_queue s
  have hlen := presentIdx_length s.freq
  have hm : (plantLeaves (buildStart s)).work.m = 256 := by
    obtain ⟨t, q, hf⟩ := plant_frame symbols (buildStart s)
    rw [plantLeaves, hf]; rfl
  have hg := plantLeaves_growing s
  rw [← hq, ← hm] at hg
  have hne : (plantLeaves (buildStart s)).work.queue ≠ [] := by
    rw [hq]; intro hc; rw [hc] at hlen; simp at hlen; omega
  obtain ⟨t, r, h1, h2, h3⟩ := mergeLoop_spec _ _ hg (le_refl _) hne
  rw [hq, hlen, hm] at h1 h2 h3
  have hG := growTree_many (s := plantLeaves (buildStart s)) (by rw [hq, hlen]; exact h)
  rw [hq, hlen, h1] at hG
  rw [buildState, hG] at hb
  have hr : (builtTree s.freq).2 = BitVec.ofNat 9 (256 + alphabetSize s.freq - 2) := by
    rw [← hb]
    show BitVec.ofNat 9 (256 + alphabetSize s.freq - 1 - 1) = _
    congr 1
  have ht : (builtTree s.freq).1 = t := by rw [← hb]; rfl
  exact ⟨hr, by rw [hr, ht, ← h3 h]; exact h2⟩

/-! ### What every built tree satisfies -/

/-- The tree of a frequency table, whatever its size: the arena and root are well formed, the leaf slots hold the present
symbols, and every present symbol has a path of at least one bit from the root. -/
structure TreeFor (f : Vector Word 256) (t : Vector Node 511) (root : NodeIdx) : Prop where
  arena  : ArenaOk t
  rootOk : RootOk t root
  leaves : ∀ b : Byte, nodeAt t (b.setWidth 9) = some (leafSlot f b)
  covers : ∀ b : Byte, freqAt f b ≠ 0#32 → root ≠ NONE ∧ ∃ p, p ≠ [] ∧ follow t root p = some (b.setWidth 9)
  absent : root = NONE → ∀ b, freqAt f b = 0#32

theorem treeFor_builtTree (f : Vector Word 256) : TreeFor f (builtTree f).1 (builtTree f).2 := by
  obtain ⟨s, rfl⟩ : ∃ s : State, f = s.freq := ⟨setTable f State.reset, by rw [setTable_freq]⟩
  have hlen := presentIdx_length s.freq
  by_cases h2 : 2 ≤ alphabetSize s.freq
  · obtain ⟨hr, hg⟩ := buildState_many h2
    have hle := alphabetSize_le s.freq
    have hrn : (builtTree s.freq).2.toNat = 256 + alphabetSize s.freq - 2 := by rw [hr]; simp; omega
    have hrN : (builtTree s.freq).2 ≠ NONE := by rw [NodeIdx.ne_none_iff]; omega
    refine ⟨hg.arena, .inr ⟨?_, (hg.queued _ (by simp)).2⟩, hg.leaves, fun b hb => ⟨hrN, ?_⟩, fun h => absurd h hrN⟩
    · rw [BitVec.le_def, hrn]; simp; omega
    · obtain ⟨i, hi, p, hp⟩ := hg.covers b hb
      rw [List.mem_singleton.1 hi] at hp
      refine ⟨p, fun hc => ?_, hp⟩
      subst hc
      simp only [follow, Option.some.injEq] at hp
      have := congrArg BitVec.toNat hp
      rw [symIdx_toNat, hrn] at this
      have := b.isLt
      omega
  · match hp : presentIdx s.freq with
    | [] =>
      obtain ⟨hr, ht⟩ := buildState_empty hp
      have habs : ∀ b, freqAt s.freq b = 0#32 := fun b => by
        by_contra hb
        have := mem_presentIdx.2 ⟨b, hb, rfl⟩
        rw [hp] at this
        simp at this
      refine ⟨?_, .inl hr, fun b => ?_, fun b hb => absurd (habs b) hb, fun _ => habs⟩
      · intro i n hn hv
        rw [ht, nodeAt_empty i (nodeAt_some_ne hn)] at hn
        cases hn; simp [Node.empty] at hv
      · rw [ht, nodeAt_empty _ (symIdx_ne_none b), leafSlot, if_pos (habs b)]
    | [i] =>
      obtain ⟨b, hb, rfl⟩ := mem_presentIdx.1 (by rw [hp]; simp : i ∈ presentIdx s.freq)
      obtain ⟨hr, ht⟩ := buildState_lone hp
      have hg := plantLeaves_growing s
      generalize hP : (plantLeaves (buildStart s)).node = P at ht hg
      have hroot : nodeAt (builtTree s.freq).1 256#9 = some (loneRoot P (b.setWidth 9)) := by
        rw [ht, show (256 : Nat) = (256#9).toNat from rfl, nodeAt_set, if_pos ⟨rfl, by decide⟩]
      have hlow : ∀ {i : NodeIdx}, i ≠ 256#9 → nodeAt (builtTree s.freq).1 i = nodeAt P i := fun {i} hi => by
        rw [ht, show (256 : Nat) = (256#9).toNat from rfl, nodeAt_set]; simp [hi]
      have hsym : ∀ c : Byte, c.setWidth 9 ≠ 256#9 := fun c hc => by
        have := congrArg BitVec.toNat hc
        rw [symIdx_toNat] at this
        have := c.isLt
        simp at *; omega
      rw [hr]
      refine ⟨?_, .inr ⟨by decide, _, hroot, rfl⟩, fun c => by rw [hlow (hsym c)]; exact hg.leaves c,
        fun c hc => ⟨by decide, [false], by simp, ?_⟩, fun h => absurd h (by decide)⟩
      · intro i n hn hv
        by_cases hi : i = 256#9
        · subst hi
          rw [hroot] at hn
          cases hn
          refine ⟨fun h => absurd h (by decide), fun _ => ⟨rfl, ⟨symIdx_lt b, ?_⟩, .inl rfl⟩⟩
          show ∃ n, nodeAt _ (b.setWidth 9) = some n ∧ _
          rw [hlow (hsym b)]
          exact (hg.queued _ (by rw [hp]; simp)).2
        · rw [hlow hi] at hn
          have hlt : i < 256#9 := by
            by_contra hge
            have h256 : 256 ≤ i.toNat := by rw [BitVec.lt_def] at hge; simpa using hge
            rw [hg.fresh i h256 (nodeAt_some_ne hn)] at hn
            cases hn; simp [Node.empty] at hv
          have h1 := (hg.arena i n hn hv).1 hlt
          refine ⟨fun _ => h1, fun hge => ?_⟩
          rw [BitVec.le_def] at hge
          rw [BitVec.lt_def] at hlt
          omega
      · have hcb : c = b := by
          have := mem_presentIdx.2 ⟨c, hc, rfl⟩
          rw [hp] at this
          exact symIdx_inj.1 (by simpa using this)
        rw [hcb, follow_cons hroot rfl (b := false) (symIdx_ne_none b)]
        rfl
    | i :: j :: q => rw [hp] at hlen; simp at hlen; omega

end Sys2Proof.Machine
end

