-- ==== Sys2Proof/Laws/Codes.lean ====
section
/-! SUPPORT. The walk of GENCODES: it ends on every well-formed tree, and the code of a symbol is a path to its leaf
(spec/42_tree.md R94, R95). -/

namespace Sys2Proof.Machine

/-! ### Bit strings as numbers -/

/-- The path so far as an integer: `2*c` on a 0 bit, `2*c + 1` on a 1 bit (R94). -/
def pathValue : Nat → List Bool → Nat
  | c, [] => c
  | c, b :: p => pathValue (2 * c + b.toNat) p

theorem pathValue_append (c : Nat) (p q : List Bool) : pathValue c (p ++ q) = pathValue (pathValue c p) q := by
  induction p generalizing c with
  | nil => rfl
  | cons b p ih => exact ih _

theorem pathValue_snoc (c : Nat) (p : List Bool) (b : Bool) : pathValue c (p ++ [b]) = 2 * pathValue c p + b.toNat := by
  rw [pathValue_append]; rfl

theorem pathValue_zeros (c k : Nat) : pathValue c (List.replicate k false) = c * 2 ^ k := by
  induction k generalizing c with
  | zero => simp [pathValue]
  | succ k ih => rw [List.replicate_succ, pathValue, ih, Nat.pow_succ]; simp; ring

theorem pathValue_lt (p : List Bool) : pathValue 0 p < 2 ^ p.length := by
  induction p using List.reverseRecOn with
  | nil => simp [pathValue]
  | append_singleton p b ih =>
    have := b.toNat_lt
    rw [pathValue_snoc, List.length_append, List.length_singleton, Nat.pow_succ]
    omega

/-- The n low bits of a number, highest first. -/
def lowBits (n v : Nat) : List Bool := ((List.range n).map v.testBit).reverse

theorem lowBits_length (n v : Nat) : (lowBits n v).length = n := by simp [lowBits]

theorem lowBits_succ (n v : Nat) : lowBits (n + 1) v = lowBits n (v / 2) ++ [v.testBit 0] := by
  simp [lowBits, List.range_succ_eq_map, Function.comp_def, Nat.testBit_succ]

theorem lowBits_pathValue (p : List Bool) : lowBits p.length (pathValue 0 p) = p := by
  induction p using List.reverseRecOn with
  | nil => rfl
  | append_singleton p b ih =>
    rw [pathValue_snoc, List.length_append, List.length_singleton, lowBits_succ]
    have h : (2 * pathValue 0 p + b.toNat) / 2 = pathValue 0 p := by have := b.toNat_lt; omega
    rw [h, ih]
    cases b <;> simp [Nat.testBit_zero]

theorem lowBits_mod (n v w : Nat) (h : n ≤ w) : lowBits n (v % 2 ^ w) = lowBits n v := by
  unfold lowBits
  congr 1
  refine List.map_congr_left fun j hj => ?_
  have : j < w := by have := List.mem_range.1 hj; omega
  simp [Nat.testBit_mod_two_pow, this]

theorem codeBits_eq (c : Code) : codeBits c = lowBits c.len.toNat c.bits.toNat := rfl

theorem bitsOfByte_eq (b : Byte) : bitsOfByte b = lowBits 8 b.toNat := rfl

/-- A path of at most 255 bits, stored as a code, reads back as the path (R11, R37). -/
theorem codeBits_path {p : List Bool} (h : p.length ≤ 255) :
    codeBits { len := BitVec.ofNat 8 p.length, bits := BitVec.ofNat 256 (pathValue 0 p) } = p := by
  have h1 : p.length % 2 ^ 8 = p.length := Nat.mod_eq_of_lt (by omega)
  rw [codeBits_eq, BitVec.toNat_ofNat, BitVec.toNat_ofNat, h1, lowBits_mod _ _ _ (by omega), lowBits_pathValue]

/-- BITS has no bit at or above LEN (R37). -/
def Code.Tight (c : Code) : Prop := c.bits.toNat < 2 ^ c.len.toNat

theorem tight_empty : Code.empty.Tight := by simp [Code.Tight, Code.empty]

theorem tight_path {p : List Bool} (h : p.length ≤ 255) :
    Code.Tight { len := BitVec.ofNat 8 p.length, bits := BitVec.ofNat 256 (pathValue 0 p) } := by
  have h1 := pathValue_lt p
  have h2 : 2 ^ p.length ≤ 2 ^ 255 := Nat.pow_le_pow_right (by omega) h
  simp only [Code.Tight, BitVec.toNat_ofNat]
  rw [Nat.mod_eq_of_lt (show p.length < 2 ^ 8 by omega),
    Nat.mod_eq_of_lt (lt_of_lt_of_le h1 (le_trans h2 (Nat.pow_le_pow_right (by omega) (by omega))))]
  exact h1

@[simp] theorem codeBits_empty : codeBits Code.empty = [] := by simp [codeBits, Code.empty]

theorem codeBits_length (c : Code) : (codeBits c).length = c.len.toNat := by simp [codeBits]

/-! ### The walk -/

/-- The entry of a symbol after the walk from node i: the code of a path from i to its leaf, or untouched where there is no
path. -/
def WalkEntry (t : Vector Node 511) (i : NodeIdx) (c l : Nat) (old new : Vector Code 256) (b : Byte) : Prop :=
  (∃ p, follow t i p = some (b.setWidth 9) ∧
    codeAt new b = { len := BitVec.ofNat 8 (l + p.length), bits := BitVec.ofNat 256 (pathValue c p) }) ∨
  ((∀ p, follow t i p ≠ some (b.setWidth 9)) ∧ codeAt new b = codeAt old b)

theorem byte_of_symIdx (b : Byte) : (b.setWidth 9).setWidth 8 = b := symIdx_inj.1 (symIdx_of_lt (symIdx_lt b))

theorem symIdx_not_internal (b : Byte) (h : 256#9 ≤ b.setWidth 9) : False := by
  have h1 : 256 ≤ (b.setWidth 9).toNat := h
  have := b.isLt
  rw [symIdx_toNat] at h1
  omega

theorem follow_of_leaf {t : Vector Node 511} {i j : NodeIdx} {n : Node} {p : List Bool} (hn : nodeAt t i = some n)
    (hl : n.leaf = true) (h : follow t i p = some j) : p = [] ∧ i = j := by
  cases p with
  | nil => simpa [follow] using h
  | cons b p => exact absurd h (follow_leaf hn hl)

theorem walk_fuel {i j : NodeIdx} {fuel : Nat} (h : 256#9 ≤ i) (hj : j < i) (hf : i.toNat < fuel + 1 + 255) :
    0 < fuel ∧ j.toNat < fuel + 255 := by
  have h1 : 256 ≤ i.toNat := h
  have h2 : j.toNat < i.toNat := hj
  omega

/-- The walk from a valid node of a well-formed arena ends, changes CODE only, and gives every symbol below the node a path
to its leaf; what it leaves in CODE depends on NODE and CODE alone (R94). -/
theorem walk_spec {t : Vector Node 511} (ha : ArenaOk t) (fuel : Nat) (i : NodeIdx) (c l : Nat) (old : Vector Code 256)
    (hi : ∃ n, nodeAt t i = some n ∧ n.valid = true) (h0 : 0 < fuel) (hf : i.toNat < fuel + 255) :
    ∃ new, (∀ s : State, s.node = t → s.code = old → walk fuel i c l s = .ok (setCodes new s)) ∧
      ∀ b, WalkEntry t i c l old new b := by
  induction fuel generalizing i c l old with
  | zero => omega
  | succ fuel ih =>
    obtain ⟨n, hn, hv⟩ := hi
    by_cases hl : n.leaf = true
    · have hlt : i < 256#9 := by
        by_contra hge
        have := ((ha i n hn hv).2 (by simpa using hge)).1
        simp [hl] at this
      refine ⟨old.set (i.setWidth 8).toNat { len := BitVec.ofNat 8 l, bits := BitVec.ofNat 256 c }
        (i.setWidth 8).isLt, ?_, fun b => ?_⟩
      · rintro s rfl rfl
        simp only [walk, hn, hl, hlt, if_true]
        rfl
      · by_cases hb : b = i.setWidth 8
        · refine .inl ⟨[], ?_, ?_⟩
          · rw [hb, symIdx_of_lt hlt]; rfl
          · rw [codeAt_set, if_pos hb]; rfl
        · refine .inr ⟨fun p hp => hb ?_, by rw [codeAt_set, if_neg hb]⟩
          obtain ⟨-, rfl⟩ := follow_of_leaf hn hl hp
          exact (byte_of_symIdx b).symm
    · have hl : n.leaf = false := by simpa using hl
      have h256 : 256#9 ≤ i := by
        by_contra hlt
        have := ((ha i n hn hv).1 (by simpa using hlt)).1
        simp [hl] at this
      obtain ⟨-, hL, hR⟩ := (ha i n hn hv).2 h256
      have hstep : ∀ j : NodeIdx, j < i → 0 < fuel ∧ j.toNat < fuel + 255 := fun j hj => walk_fuel h256 hj hf
      have hLN : n.left ≠ NONE := nodeAt_some_ne hL.2.choose_spec.1
      obtain ⟨mid, hmid, hme⟩ := ih n.left (2 * c) (l + 1) old hL.2 (hstep _ hL.1).1 (hstep _ hL.1).2
      by_cases hRN : n.right = NONE
      · refine ⟨mid, ?_, fun b => ?_⟩
        · intro s hs ho
          simp only [walk, hs, hn, hl, Bool.false_eq_true, if_false, hmid s hs ho, Body.bind_ok, hRN, if_true]
        · rcases hme b with ⟨p, hp, hc⟩ | ⟨hp, hc⟩
          · refine .inl ⟨false :: p, by rw [follow_cons hn hl (b := false) hLN]; exact hp, ?_⟩
            rw [hc]; simp [pathValue, Nat.add_assoc, Nat.add_comm 1]
          · refine .inr ⟨fun q hq => ?_, hc⟩
            cases q with
            | nil =>
              simp only [follow, Option.some.injEq] at hq
              subst hq
              exact symIdx_not_internal b h256
            | cons x q =>
              obtain ⟨n', hn', -, hx, hq⟩ := follow_cons_some hq
              rw [hn] at hn'; cases hn'
              cases x with
              | false => exact hp q hq
              | true => exact hx hRN
      · have hRc := hR.resolve_left hRN
        obtain ⟨new, hnew, hne⟩ := ih n.right (2 * c + 1) (l + 1) mid hRc.2 (hstep _ hRc.1).1 (hstep _ hRc.1).2
        refine ⟨new, ?_, fun b => ?_⟩
        · intro s hs ho
          simp only [walk, hs, hn, hl, Bool.false_eq_true, if_false, hmid s hs ho, Body.bind_ok, hRN]
          rw [hnew (setCodes mid s) hs rfl, setCodes_setCodes]
        · rcases hne b with ⟨p, hp, hc⟩ | ⟨hp, hc⟩
          · refine .inl ⟨true :: p, by rw [follow_cons hn hl (b := true) hRN]; exact hp, ?_⟩
            rw [hc]; simp [pathValue, Nat.add_assoc, Nat.add_comm 1]
          · rcases hme b with ⟨p', hp', hc'⟩ | ⟨hp', hc'⟩
            · refine .inl ⟨false :: p', by rw [follow_cons hn hl (b := false) hLN]; exact hp', ?_⟩
              rw [hc, hc']; simp [pathValue, Nat.add_assoc, Nat.add_comm 1]
            · refine .inr ⟨fun q hq => ?_, hc.trans hc'⟩
              cases q with
              | nil =>
                simp only [follow, Option.some.injEq] at hq
                subst hq
                exact symIdx_not_internal b h256
              | cons x q =>
                obtain ⟨n', hn', -, hx, hq⟩ := follow_cons_some hq
                rw [hn] at hn'; cases hn'
                cases x with
                | false => exact hp' q hq
                | true => exact hp q hq

/-! ### GENCODES -/

/-- What a code table says of a tree: a symbol with a path has one of its paths as its code, of at most 255 bits; the others
have no code (R94). -/
structure CodesFor (t : Vector Node 511) (root : NodeIdx) (codes : Vector Code 256) : Prop where
  coded   : ∀ b : Byte, root ≠ NONE → ∀ p, follow t root p = some (b.setWidth 9) →
              follow t root (codeBits (codeAt codes b)) = some (b.setWidth 9) ∧ (codeBits (codeAt codes b)).length ≤ 255
  uncoded : ∀ b : Byte, (root = NONE ∨ ∀ p, follow t root p ≠ some (b.setWidth 9)) → codeAt codes b = Code.empty
  tight   : ∀ b : Byte, (codeAt codes b).Tight

/-- GENCODES ends on every well-formed tree, and its codes are a function of NODE and ROOT alone (R94). -/
theorem gencodes_spec {t : Vector Node 511} {root : NodeIdx} (ha : ArenaOk t) (hr : RootOk t root) :
    ∃ codes, (∀ s : State, s.node = t → s.root = root →
        gencodesBody s = .ok (codesDone (setCodes codes (gencodesStart s)))) ∧
      generatedCodes t root = some codes ∧ CodesFor t root codes := by
  have hgen : ∀ {codes : Vector Code 256},
      (∀ s : State, s.node = t → s.root = root → gencodesBody s = .ok (codesDone (setCodes codes (gencodesStart s)))) →
      generatedCodes t root = some codes := fun {codes} h => by
    rw [generatedCodes, h _ rfl rfl]
    rfl
  by_cases hN : root = NONE
  · have h : ∀ s : State, s.node = t → s.root = root → gencodesBody s =
        .ok (codesDone (setCodes (Vector.replicate 256 Code.empty) (gencodesStart s))) := by
      intro s _ hs
      simp only [gencodesBody, gencodesStart_root, hs, hN, if_true, Body.bind_ok]
      rfl
    exact ⟨_, h, hgen h, fun b h => absurd hN h, fun b _ => codeAt_empty b, fun b => by rw [codeAt_empty]; exact tight_empty⟩
  · obtain ⟨h256, hv⟩ := hr.resolve_left hN
    have hlt := NodeIdx.ne_none_iff.1 hN
    obtain ⟨codes, hw, hc⟩ := walk_spec ha 511 root 0 0 (Vector.replicate 256 Code.empty) hv (by omega) (by omega)
    have h : ∀ s : State, s.node = t → s.root = root → gencodesBody s =
        .ok (codesDone (setCodes codes (gencodesStart s))) := by
      intro s hs hs'
      simp only [gencodesBody, gencodesStart_root, hs', hN, if_false]
      rw [hw (gencodesStart s) hs rfl]
      rfl
    refine ⟨codes, h, hgen h, fun b _ p hp => ?_, fun b hb => ?_, fun b => ?_⟩
    · rcases hc b with ⟨q, hq, hcode⟩ | ⟨hno, -⟩
      · have hl := follow_length ha hv hq
        rw [hcode, Nat.zero_add, codeBits_path (by omega)]
        exact ⟨hq, by omega⟩
      · exact absurd hp (hno p)
    · rcases hc b with ⟨q, hq, -⟩ | ⟨-, hcode⟩
      · exact absurd hq (hb.resolve_left hN q)
      · rw [hcode, codeAt_empty]
    · rcases hc b with ⟨q, hq, hcode⟩ | ⟨-, hcode⟩
      · have hl := follow_length ha hv hq
        rw [hcode, Nat.zero_add]
        exact tight_path (by omega)
      · rw [hcode, codeAt_empty]; exact tight_empty

/-- Two codes of which one begins the other belong to the same symbol (R95). -/
theorem follow_prefix {t : Vector Node 511} {i : NodeIdx} {a b : Byte} {p q : List Bool} {n : Node}
    (hn : nodeAt t (a.setWidth 9) = some n) (hl : n.leaf = true) (hp : follow t i p = some (a.setWidth 9))
    (hq : follow t i (p ++ q) = some (b.setWidth 9)) : q = [] ∧ a = b := by
  rw [follow_append t i _ p q hp] at hq
  obtain ⟨h1, h2⟩ := follow_of_leaf hn hl hq
  exact ⟨h1, symIdx_inj.1 h2⟩

/-- The codes BUILD and GENCODES give a frequency table: the tables, and for every present symbol its code's path
(R87, R94). -/
theorem builtCodes_spec (f : Vector Word 256) : ∃ codes,
    (∀ s : State, s.node = (builtTree f).1 → s.root = (builtTree f).2 →
      gencodesBody s = .ok (codesDone (setCodes codes (gencodesStart s)))) ∧
    generatedCodes (builtTree f).1 (builtTree f).2 = some codes ∧
    (∀ b, freqAt f b ≠ 0#32 → follow (builtTree f).1 (builtTree f).2 (codeBits (codeAt codes b)) = some (b.setWidth 9) ∧
      codeBits (codeAt codes b) ≠ [] ∧ (codeBits (codeAt codes b)).length ≤ 255) ∧
    (∀ b, freqAt f b = 0#32 → codeAt codes b = Code.empty) ∧ ∀ b, (codeAt codes b).Tight := by
  have ht := treeFor_builtTree f
  obtain ⟨codes, h1, h2, h3⟩ := gencodes_spec ht.arena ht.rootOk
  have hroot : ∀ b : Byte, (builtTree f).2 ≠ b.setWidth 9 := by
    intro b hc
    rcases ht.rootOk with h | ⟨h, -⟩
    · rw [hc] at h; exact symIdx_ne_none b h
    · rw [hc] at h; exact symIdx_not_internal b h
  refine ⟨codes, h1, h2, fun b hb => ?_, fun b hb => h3.uncoded b ?_, h3.tight⟩
  · obtain ⟨hN, p, hp, hf⟩ := ht.covers b hb
    obtain ⟨h4, h5⟩ := h3.coded b hN p hf
    refine ⟨h4, fun hnil => ?_, h5⟩
    rw [hnil] at h4
    exact hroot b (by simpa [follow] using h4)
  · by_cases hN : (builtTree f).2 = NONE
    · exact .inl hN
    · refine .inr fun p hp => ?_
      obtain ⟨-, n, hn, hv⟩ := follow_valid ht.arena (ht.rootOk.resolve_left hN).2 hp
      rw [ht.leaves b, leafSlot, if_pos hb] at hn
      cases hn
      simp [Node.empty] at hv

end Sys2Proof.Machine
end

