-- ==== Sys2Proof/Laws/Pack.lean ====
section
/-! SUPPORT. The bit packer and PACK: what is in OBUF after any number of bits (spec/43_bitstream.md R96, R97, R99). -/

namespace Sys2Proof.Machine

/-! ### Bytes as bits -/

theorem bitsOfByte_length (b : Byte) : (bitsOfByte b).length = 8 := by rw [bitsOfByte_eq, lowBits_length]

theorem bitsOfBytes_append (x y : List Byte) : bitsOfBytes (x ++ y) = bitsOfBytes x ++ bitsOfBytes y := by
  simp [bitsOfBytes]

theorem bitsOfBytes_cons (b : Byte) (bs : List Byte) : bitsOfBytes (b :: bs) = bitsOfByte b ++ bitsOfBytes bs := by
  simp [bitsOfBytes]

theorem bitsOfBytes_length (bs : List Byte) : (bitsOfBytes bs).length = 8 * bs.length := by
  induction bs with
  | nil => rfl
  | cons b bs ih => rw [bitsOfBytes_cons, List.length_append, bitsOfByte_length, ih, List.length_cons]; omega

theorem bitsOfByte_path {p : List Bool} (h : p.length = 8) : bitsOfByte (BitVec.ofNat 8 (pathValue 0 p)) = p := by
  rw [bitsOfByte_eq, BitVec.toNat_ofNat, lowBits_mod _ _ _ (le_refl _), ← h, lowBits_pathValue]

/-- Shifting a bit into the accumulator (R96). -/
theorem acc_shift (p : List Bool) (b : Bool) :
    ((BitVec.ofNat 8 (pathValue 0 p) : Byte) <<< 1) ||| (BitVec.ofBool b).setWidth 8 =
      BitVec.ofNat 8 (pathValue 0 (p ++ [b])) := by
  rw [pathValue_snoc]
  generalize pathValue 0 p = v
  apply BitVec.eq_of_getLsbD_eq
  intro i hi
  have h1 : (2 * v + b.toNat) / 2 = v := by have := b.toNat_lt; omega
  simp only [BitVec.getLsbD_or, BitVec.getLsbD_shiftLeft, BitVec.getLsbD_ofNat, BitVec.getLsbD_setWidth,
    BitVec.getLsbD_ofBool]
  cases i with
  | zero => cases b <;> simp [Nat.testBit_zero]
  | succ i =>
    have : i < 8 := by omega
    simp [Nat.testBit_succ, h1, hi, this]

/-- Left-shifting the remaining bits into the high bits of the final byte (R97). -/
theorem acc_flush (p : List Bool) : (BitVec.ofNat 8 (pathValue 0 p) : Byte) <<< (8 - p.length) =
    BitVec.ofNat 8 (pathValue 0 (p ++ List.replicate (8 - p.length) false)) := by
  rw [pathValue_append, pathValue_zeros]
  apply BitVec.eq_of_toNat_eq
  simp [Nat.shiftLeft_eq]

/-! ### The packer's state -/

/-- The packer has taken the bits, n of them counted, after the state s: the whole bytes are in OBUF from OUT_LEN on, the
rest in ACC, and NB counts the rest (R96, R99). -/
def Packed (s : State) (bits : List Bool) (n : Nat) (t : State) : Prop :=
  ∃ bytes rest w d, bits = bitsOfBytes bytes ++ rest ∧ rest.length < 8 ∧
    s.outLen.toNat + bytes.length ≤ s.cfg.obufSize.toNat ∧
    t = setDraws d (setWork w (setOutput (Memory.writeAll s.obuf s.outLen.toNat bytes)
      (BitVec.ofNat 32 (s.outLen.toNat + bytes.length)) s)) ∧
    w.acc = BitVec.ofNat 8 (pathValue 0 rest) ∧ w.nb = rest.length ∧ w.nbits = n

/-- OBUF is full, with a first part of the bits in it and at least one more byte of bits to come (R51, R99). -/
def PackFull (s : State) (bits : List Bool) (t : State) : Prop :=
  ∃ bytes w d, s.outLen.toNat + bytes.length = s.cfg.obufSize.toNat ∧
    (∃ more, bits = bitsOfBytes bytes ++ more ∧ more ≠ []) ∧
    t = setDraws d (setWork w (setOutput (Memory.writeAll s.obuf s.outLen.toNat bytes) s.cfg.obufSize s))

theorem PackFull.more {s t : State} {bits : List Bool} (h : PackFull s bits t) (l : List Bool) :
    PackFull s (bits ++ l) t := by
  obtain ⟨bytes, w, d, h1, ⟨more, h2, h3⟩, h4⟩ := h
  exact ⟨bytes, w, d, h1, ⟨more ++ l, by rw [h2, List.append_assoc], by simp [h3]⟩, h4⟩

theorem Packed.setDraws {s t : State} {bits : List Bool} {n : Nat} (h : Packed s bits n t) (d : Nat) :
    Packed s bits n (setDraws d t) := by
  obtain ⟨bytes, rest, w, e, h1, h2, h3, rfl, h4⟩ := h
  exact ⟨bytes, rest, w, d, h1, h2, h3, by rw [setDraws_setDraws], h4⟩

theorem Packed.cfg {s t : State} {bits : List Bool} {n : Nat} (h : Packed s bits n t) : t.cfg = s.cfg := by
  obtain ⟨bytes, rest, w, e, -, -, -, rfl, -⟩ := h; rfl

theorem Packed.code {s t : State} {bits : List Bool} {n : Nat} (h : Packed s bits n t) : t.code = s.code := by
  obtain ⟨bytes, rest, w, e, -, -, -, rfl, -⟩ := h; rfl

theorem Packed.ibuf {s t : State} {bits : List Bool} {n : Nat} (h : Packed s bits n t) : t.ibuf = s.ibuf := by
  obtain ⟨bytes, rest, w, e, -, -, -, rfl, -⟩ := h; rfl

theorem Packed.start {s : State} {w : Work} (ho : s.outLen ≤ s.cfg.obufSize) (h1 : w.acc = 0#8) (h2 : w.nb = 0)
    (h3 : w.nbits = 0) : Packed s [] 0 (setWork w s) :=
  ⟨[], [], w, s.draws, rfl, by simp, by simpa [BitVec.le_def] using ho, by simp [Memory.writeAll]; rfl, h1, h2, h3⟩

theorem Packed.count {s t : State} {bits : List Bool} {n : Nat} (h : Packed s bits n t) :
    Packed s bits (n + 1) (bitWritten t) := by
  obtain ⟨bytes, rest, w, e, h1, h2, h3, rfl, h4, h5, h6⟩ := h
  refine ⟨bytes, rest, { w with nbits := w.nbits + 1 }, e, h1, h2, h3, ?_, h4, h5, by simp [h6]⟩
  rw [bitWritten]
  simp only [setDraws_work, setWork_work, setWork_setDraws, setWork_setWork]

/-- The byte the packer sends when it has room. -/
theorem emit_packed {s : State} {bytes : List Byte} {w : Work} {d : Nat} (v : Byte)
    (h : s.outLen.toNat + bytes.length < s.cfg.obufSize.toNat) :
    emitByte v (setDraws d (setWork w (setOutput (Memory.writeAll s.obuf s.outLen.toNat bytes)
      (BitVec.ofNat 32 (s.outLen.toNat + bytes.length)) s))) =
    .ok (setDraws d (setWork w (setOutput (Memory.writeAll s.obuf s.outLen.toNat (bytes ++ [v]))
      (BitVec.ofNat 32 (s.outLen.toNat + (bytes ++ [v]).length)) s))) := by
  have hs := s.cfg.obufSize.isLt
  have h1 : (BitVec.ofNat 32 (s.outLen.toNat + bytes.length)).toNat = s.outLen.toNat + bytes.length := by
    rw [BitVec.toNat_ofNat]; exact Nat.mod_eq_of_lt (by omega)
  rw [emitByte_fits (by
    simp only [setDraws_outLen, setWork_outLen, setOutput_outLen, setDraws_cfg, setWork_cfg, setOutput_cfg]
    rw [BitVec.lt_def, h1]; exact h)]
  simp only [setDraws_outLen, setWork_outLen, setOutput_outLen, setDraws_obuf, setWork_obuf, setOutput_obuf, h1,
    setOutput_setDraws, ← setWork_setOutput, setOutput_setOutput, Memory.writeAll_append, Memory.writeAll,
    List.length_append, List.length_singleton, ← Nat.add_assoc]
  congr 4
  apply BitVec.eq_of_toNat_eq
  simp

theorem emit_packed_full {s : State} {bytes : List Byte} {w : Work} {d : Nat} (v : Byte)
    (h : s.outLen.toNat + bytes.length = s.cfg.obufSize.toNat) :
    emitByte v (setDraws d (setWork w (setOutput (Memory.writeAll s.obuf s.outLen.toNat bytes)
      (BitVec.ofNat 32 (s.outLen.toNat + bytes.length)) s))) =
    raise .ioErrorOutput s.cfg.obufSize.toNat
      (setDraws d (setWork w (setOutput (Memory.writeAll s.obuf s.outLen.toNat bytes) s.cfg.obufSize s))) := by
  have hs := s.cfg.obufSize.isLt
  have h1 : BitVec.ofNat 32 (s.outLen.toNat + bytes.length) = s.cfg.obufSize := by rw [h, BitVec.ofNat_toNat]; simp
  rw [h1, emitByte_full (by simp)]
  rfl

/-- One bit: taken, or the eighth bit of a byte finds OBUF full (R96). -/
theorem writeBit_spec {s t : State} {bits : List Bool} {n : Nat} (b : Bool) (h : Packed s bits n t) :
    (∃ t', writeBit b t = .ok t' ∧ Packed s (bits ++ [b]) n t') ∨
    (∃ t', writeBit b t = raise .ioErrorOutput s.cfg.obufSize.toNat t' ∧ PackFull s (bits ++ [b]) t') := by
  obtain ⟨bytes, rest, w, d, h1, h2, h3, rfl, h4, h5, h6⟩ := h
  unfold writeBit
  simp only [setDraws_work, setWork_work, h4, h5, acc_shift, setWork_setDraws, setWork_setWork]
  by_cases h8 : rest.length + 1 = 8
  · rw [if_pos h8]
    rcases Nat.lt_or_eq_of_le h3 with hlt | heq
    · rw [emit_packed _ hlt, Body.bind_ok]
      refine .inl ⟨_, rfl, bytes ++ [BitVec.ofNat 8 (pathValue 0 (rest ++ [b]))], [], ?_, d, ?_, by simp, ?_, ?_, ?_⟩
      · exact { w with acc := 0#8, nb := 0 }
      · rw [h1, bitsOfBytes_append, bitsOfBytes_cons, bitsOfByte_path (by simp; omega)]
        simp [bitsOfBytes]
      · simp; omega
      · simp only [emptyPacker, setDraws_work, setWork_work, setWork_setDraws, setWork_setWork]
      · exact ⟨rfl, rfl, h6⟩
    · rw [emit_packed_full _ heq, raise_bind]
      exact .inr ⟨_, rfl, bytes, _, d, heq, ⟨rest ++ [b], by rw [h1, List.append_assoc], by simp⟩, rfl⟩
  · rw [if_neg h8]
    refine .inl ⟨_, rfl, bytes, rest ++ [b], _, d, by rw [h1, List.append_assoc], by simp; omega, h3, rfl, rfl, ?_, h6⟩
    simp

/-- A code's bits: all taken and counted, or OBUF is full (R99). -/
theorem writeBits_spec {s t : State} {bits : List Bool} {n : Nat} (len : Nat) (code : BitVec 256)
    (h : Packed s bits n t) :
    (∃ t', writeBits len code t = .ok t' ∧ Packed s (bits ++ lowBits len code.toNat) (n + len) t') ∨
    (∃ t', writeBits len code t = raise .ioErrorOutput s.cfg.obufSize.toNat t' ∧
      PackFull s (bits ++ lowBits len code.toNat) t') := by
  induction len generalizing t bits n with
  | zero => exact .inl ⟨t, rfl, by simpa [lowBits] using h⟩
  | succ len ih =>
    have hl : lowBits (len + 1) code.toNat = code.getLsbD len :: lowBits len code.toNat := by
      simp [lowBits, List.range_succ, BitVec.getLsbD]
    rcases writeBit_spec (code.getLsbD len) h with ⟨u, hu, hp⟩ | ⟨u, hu, hp⟩
    · rcases ih hp.count with ⟨t', h1, h2⟩ | ⟨t', h1, h2⟩
      · refine .inl ⟨t', by rw [writeBits, hu, Body.bind_ok, h1], ?_⟩
        rw [hl, List.append_cons, show n + (len + 1) = n + 1 + len by omega]; exact h2
      · refine .inr ⟨t', by rw [writeBits, hu, Body.bind_ok, h1], ?_⟩
        rw [hl, List.append_cons]; exact h2
    · refine .inr ⟨u, by rw [writeBits, hu, raise_bind], ?_⟩
      rw [hl, List.append_cons]; exact hp.more _

/-- The bits of the input from index i on, under the state's own free values for unwritten bytes. -/
theorem packLoop_spec {s t : State} {bits : List Bool} {k : Nat} (n i : Nat) (h : Packed s bits k t)
    (hw : ∀ j, i ≤ j → j < i + n → (Memory.read s.ibuf j).isSome = true) :
    (∃ t', packLoop n i t = .ok t' ∧
      Packed s (bits ++ payloadBits s.code ((List.range n).map fun j => (Memory.read s.ibuf (i + j)).getD 0#8))
        (k + (payloadBits s.code ((List.range n).map fun j => (Memory.read s.ibuf (i + j)).getD 0#8)).length) t') ∨
    (∃ t', packLoop n i t = raise .ioErrorOutput s.cfg.obufSize.toNat t' ∧
      PackFull s (bits ++ payloadBits s.code ((List.range n).map fun j => (Memory.read s.ibuf (i + j)).getD 0#8)) t') := by
  induction n generalizing t bits k i with
  | zero => exact .inl ⟨t, rfl, by simpa [payloadBits] using h⟩
  | succ n ih =>
    obtain ⟨x, hx⟩ := Option.isSome_iff_exists.1 (hw i (by omega) (by omega))
    have hp : packByte i t = writeBits (codeAt s.code x).len.toNat (codeAt s.code x).bits t := by
      simp only [packByte, readIbuf_written (h.ibuf ▸ hx), h.code]
    have hl : (List.range (n + 1)).map (fun j => (Memory.read s.ibuf (i + j)).getD 0#8) =
        x :: (List.range n).map fun j => (Memory.read s.ibuf (i + 1 + j)).getD 0#8 := by
      simp [List.range_succ_eq_map, hx, Function.comp_def, Nat.add_assoc, Nat.add_comm 1]
    have hb : ∀ l, payloadBits s.code (x :: l) =
        lowBits (codeAt s.code x).len.toNat (codeAt s.code x).bits.toNat ++ payloadBits s.code l := fun l => by
      simp [payloadBits, codeBits_eq]
    rw [hl, hb]
    rcases writeBits_spec (codeAt s.code x).len.toNat (codeAt s.code x).bits h with ⟨u, hu, hq⟩ | ⟨u, hu, hq⟩
    · rcases ih (i + 1) hq (fun j h1 h2 => hw j (by omega) (by omega)) with ⟨t', h1, h2⟩ | ⟨t', h1, h2⟩
      · refine .inl ⟨t', by rw [packLoop, hp, hu, Body.bind_ok, h1], ?_⟩
        rw [List.length_append, lowBits_length, ← List.append_assoc, ← Nat.add_assoc]; exact h2
      · refine .inr ⟨t', by rw [packLoop, hp, hu, Body.bind_ok, h1], ?_⟩
        rw [← List.append_assoc]; exact h2
    · refine .inr ⟨u, by rw [packLoop, hp, hu, raise_bind], ?_⟩
      rw [← List.append_assoc]; exact hq.more _

/-- flushBits completes the last byte with zero bits, or finds OBUF full (R97). -/
theorem flushBits_spec {s t : State} {bits : List Bool} {n : Nat} (h : Packed s bits n t) :
    (∃ bytes w d, flushBits t = .ok (setDraws d (setWork w (setOutput (Memory.writeAll s.obuf s.outLen.toNat bytes)
        (BitVec.ofNat 32 (s.outLen.toNat + bytes.length)) s))) ∧ w.nbits = n ∧
      s.outLen.toNat + bytes.length ≤ s.cfg.obufSize.toNat ∧
      ∃ pad, pad < 8 ∧ bitsOfBytes bytes = bits ++ List.replicate pad false) ∨
    (∃ t', flushBits t = raise .ioErrorOutput s.cfg.obufSize.toNat t' ∧ PackFull s bits t') := by
  obtain ⟨bytes, rest, w, d, h1, h2, h3, rfl, h4, h5, h6⟩ := h
  unfold flushBits
  simp only [setDraws_work, setWork_work, h4, h5]
  by_cases h0 : 0 < rest.length
  · rw [if_pos h0, acc_flush]
    rcases Nat.lt_or_eq_of_le h3 with hlt | heq
    · rw [emit_packed _ hlt, Body.bind_ok]
      refine .inl ⟨bytes ++ [BitVec.ofNat 8 (pathValue 0 (rest ++ List.replicate (8 - rest.length) false))],
        { w with acc := 0#8, nb := 0 }, d, ?_, h6, ?_, 8 - rest.length, by omega, ?_⟩
      · simp only [emptyPacker, setDraws_work, setWork_work, setWork_setDraws, setWork_setWork]
      · simp; omega
      · rw [h1, bitsOfBytes_append, bitsOfBytes_cons, bitsOfByte_path (by simp; omega)]
        simp [bitsOfBytes]
    · rw [emit_packed_full _ heq, raise_bind]
      exact .inr ⟨_, rfl, bytes, _, d, heq, ⟨rest, h1, fun hc => by simp [hc] at h0⟩, rfl⟩
  · rw [if_neg h0]
    have : rest = [] := List.length_eq_zero_iff.1 (by omega)
    refine .inl ⟨bytes, w, d, rfl, h6, h3, 0, by omega, ?_⟩
    rw [h1, this]; simp

/-- Everything PACK's body can do over written input (R99): the payload of the input's codes, zero-padded to bytes, at
OUT_LEN, with COMP_BITS its bits; or OBUF is full. -/
theorem packBody_spec {s : State} (hw : InputWritten s) (ho : s.outLen ≤ s.cfg.obufSize) :
    (∃ bytes w d, packBody s = .ok (packEnd (setDraws d (setWork w (setOutput
        (Memory.writeAll s.obuf s.outLen.toNat bytes) (BitVec.ofNat 32 (s.outLen.toNat + bytes.length)) (packStart s))))) ∧
      w.nbits = (payloadBits s.code (inputOf s)).length ∧
      s.outLen.toNat + bytes.length ≤ s.cfg.obufSize.toNat ∧
      ∃ pad, pad < 8 ∧ bitsOfBytes bytes = payloadBits s.code (inputOf s) ++ List.replicate pad false) ∨
    (∃ t', packBody s = raise .ioErrorOutput s.cfg.obufSize.toNat t' ∧
      PackFull (packStart s) (payloadBits s.code (inputOf s)) t') := by
  have h0 : Packed (packStart s) [] 0 (packStart s) := by
    have := Packed.start (s := packStart s) (w := (packStart s).work) ho rfl rfl rfl
    rwa [setWork_self] at this
  have hin : inputOf s = (List.range s.inLen.toNat).map fun j => (Memory.read (packStart s).ibuf (0 + j)).getD 0#8 := by
    simp [inputOf]
  unfold packBody
  rcases packLoop_spec s.inLen.toNat 0 h0 (fun j _ h => hw j (by simpa using h)) with ⟨t, h1, h2⟩ | ⟨t, h1, h2⟩
  · rw [← hin, List.nil_append, Nat.zero_add] at h2
    rw [h1, Body.bind_ok]
    rcases flushBits_spec h2 with ⟨bytes, w, d, h3, h4, h5, h6⟩ | ⟨t', h3, h4⟩
    · refine .inl ⟨bytes, w, d, by rw [h3]; rfl, h4, h5, h6⟩
    · exact .inr ⟨t', by rw [h3]; rfl, h4⟩
  · rw [← hin, List.nil_append] at h2
    exact .inr ⟨t, by rw [h1]; rfl, h2⟩

/-- Where PACK raises, the payload of the written input does not fit from OUT_LEN on; NSYM and CODE are as before (R99, R51). -/
theorem packBody_raised {s t : State} {e : ErrCode} {info : DWord} (hw : InputWritten s) (ho : s.outLen ≤ s.cfg.obufSize)
    (h : packBody s = .raised e info t) :
    s.cfg.obufSize.toNat < s.outLen.toNat + ((payloadBits s.code (inputOf s)).length + 7) / 8 ∧ t.nsym = s.nsym ∧
      t.code = s.code := by
  rcases packBody_spec hw ho with ⟨x, w, d, h1, -⟩ | ⟨u, h1, bytes, w, d, h2, ⟨more, h3, h4⟩, h5⟩
  · rw [h1] at h; cases h
  · rw [h1] at h; unfold raise at h
    have ht := (Body.raised.inj h).2.2
    have hl := congrArg List.length h3
    rw [List.length_append, bitsOfBytes_length] at hl
    have := List.length_pos_iff.2 h4
    have hfull : s.outLen.toNat + bytes.length = s.cfg.obufSize.toNat := h2
    refine ⟨by omega, ?_, ?_⟩ <;> rw [← ht, h5] <;> rfl

end Sys2Proof.Machine
end

