-- ==== Sys2Proof/Laws/Decode.lean ====
section
/-! SUPPORT. The bit unpacker and DECODE: reading bits in stream order, and decoding along the paths of a tree
(spec/43_bitstream.md R98, R100, R102). -/

namespace Sys2Proof.Machine

/-! ### The unpacker as a list of bits -/

/-- The bytes of IBUF from RP up to IN_LEN. -/
def unreadBytes (s : State) : List Byte :=
  (List.range (s.inLen.toNat - s.work.rp)).map fun j => (Memory.read s.ibuf (s.work.rp + j)).getD 0#8

/-- The bits readBit has still to give: REM bits of RBUF, then the bytes from RP on (R48, R98). -/
def unreadBits (s : State) : List Bool := (bitsOfByte s.work.rbuf).take s.work.rem ++ bitsOfBytes (unreadBytes s)

/-- The unpacker is in order: REM is at most 8, and the host has written every byte still to be read. -/
def Unpacking (s : State) : Prop :=
  s.work.rem ≤ 8 ∧ ∀ j, s.work.rp ≤ j → j < s.inLen.toNat → (Memory.read s.ibuf j).isSome = true

theorem bitsOfByte_list (b : Byte) : bitsOfByte b = [b.getLsbD 7, b.getLsbD 6, b.getLsbD 5, b.getLsbD 4, b.getLsbD 3,
    b.getLsbD 2, b.getLsbD 1, b.getLsbD 0] := rfl

theorem take_shift (b : Byte) {r : Nat} (h0 : r ≠ 0) (h8 : r ≤ 8) :
    (bitsOfByte b).take r = b.getLsbD 7 :: (bitsOfByte (b <<< 1)).take (r - 1) := by
  obtain ⟨r, rfl⟩ : ∃ k, r = k + 1 := ⟨r - 1, by omega⟩
  rw [bitsOfByte_list, bitsOfByte_list]
  simp only [List.take_succ_cons, Nat.add_sub_cancel, BitVec.getLsbD_shiftLeft]
  simp
  have : r ≤ 7 := by omega
  interval_cases r <;> rfl

theorem unreadBytes_cons {s : State} (h : s.work.rp < s.inLen.toNat) : unreadBytes s =
    (Memory.read s.ibuf s.work.rp).getD 0#8 ::
      (List.range (s.inLen.toNat - (s.work.rp + 1))).map fun j => (Memory.read s.ibuf (s.work.rp + 1 + j)).getD 0#8 := by
  obtain ⟨k, hk⟩ : ∃ k, s.inLen.toNat - s.work.rp = k + 1 := ⟨s.inLen.toNat - s.work.rp - 1, by omega⟩
  have : s.inLen.toNat - (s.work.rp + 1) = k := by omega
  simp [unreadBytes, hk, this, List.range_succ_eq_map, Function.comp_def, Nat.add_assoc, Nat.add_comm 1]

/-- readBit takes the next bit of the stream, or answers EOS at its end (R98). -/
theorem readBit_spec {s : State} (h : Unpacking s) :
    (unreadBits s = [] ∧ readBit s = (none, s)) ∨
    (∃ b rbuf rem rp, readBit s = (some b, setWork { s.work with rbuf := rbuf, rem := rem, rp := rp } s) ∧
      unreadBits s = b :: unreadBits (setWork { s.work with rbuf := rbuf, rem := rem, rp := rp } s) ∧
      Unpacking (setWork { s.work with rbuf := rbuf, rem := rem, rp := rp } s)) := by
  obtain ⟨h8, hw⟩ := h
  unfold readBit
  by_cases h0 : s.work.rem = 0
  · rw [if_pos h0]
    by_cases he : s.inLen.toNat ≤ s.work.rp
    · refine .inl ⟨?_, by rw [if_pos he]⟩
      have : s.inLen.toNat - s.work.rp = 0 := by omega
      simp [unreadBits, unreadBytes, h0, this, bitsOfBytes]
    · obtain ⟨x, hx⟩ := Option.isSome_iff_exists.1 (hw s.work.rp (le_refl _) (by omega))
      have hr : refill s = setWork { s.work with rbuf := x, rp := s.work.rp + 1, rem := 8 } s := by
        simp only [refill, readIbuf_written hx]
      refine .inr ⟨x.getLsbD 7, x <<< 1, 7, s.work.rp + 1, by rw [if_neg he, hr]; rfl, ?_, by simp, ?_⟩
      · have h1 := take_shift x (r := 8) (by omega) (by omega)
        rw [List.take_of_length_le (by rw [bitsOfByte_length])] at h1
        simp only [unreadBits, h0, List.take_zero, List.nil_append]
        rw [unreadBytes_cons (by omega), hx, bitsOfBytes_cons]
        simp only [Option.getD_some]
        rw [h1]
        rfl
      · intro j h1 h2
        exact hw j (by simp at h1; omega) h2
  · rw [if_neg h0]
    refine .inr ⟨s.work.rbuf.getLsbD 7, s.work.rbuf <<< 1, s.work.rem - 1, s.work.rp, rfl, ?_, by simp; omega, hw⟩
    simp only [unreadBits]
    rw [take_shift s.work.rbuf h0 h8]
    rfl

/-- What is still to be read depends on the unpacker, IN_LEN and IBUF only. -/
theorem unreadBits_congr {s t : State} (h1 : t.work.rbuf = s.work.rbuf) (h2 : t.work.rem = s.work.rem)
    (h3 : t.work.rp = s.work.rp) (h4 : t.inLen = s.inLen) (h5 : t.ibuf = s.ibuf) : unreadBits t = unreadBits s := by
  simp only [unreadBits, unreadBytes, h1, h2, h3, h4, h5]

theorem Unpacking.congr {s t : State} (h : Unpacking s) (h2 : t.work.rem = s.work.rem)
    (h3 : t.work.rp = s.work.rp) (h4 : t.inLen = s.inLen) (h5 : t.ibuf = s.ibuf) : Unpacking t := by
  unfold Unpacking
  rw [h2, h3, h4, h5]
  exact h

/-! ### One code -/

/-- The state after the engine takes a leaf's symbol (R100). -/
def symbolDone (s : State) : State := setWork { s.work with cnt := s.work.cnt + 1, cur := s.root } s

theorem arrive_leaf {s : State} {b : Byte} {n : Node} (hn : nodeAt s.node (b.setWidth 9) = some n) (hl : n.leaf = true) :
    arrive (b.setWidth 9) s = (emitByte b s).bind fun t => .ok (symbolDone t) := by
  simp only [arrive, hn, hl, symIdx_lt, if_true, byte_of_symIdx, symbolDone]

theorem arrive_internal {s : State} {i : NodeIdx} {n : Node} (hn : nodeAt s.node i = some n) (hl : n.leaf = false) :
    arrive i s = .ok (setWork { s.work with cur := i } s) := by
  simp only [arrive, hn, hl, Bool.false_eq_true, if_false]

/-- Decoding along the path of a code reads its bits, counts them, and emits the symbol (R100). -/
theorem decode_code {s : State} {b : Byte} {m : Node} {p rest : List Bool} (fuel : Nat)
    (hm : nodeAt s.node (b.setWidth 9) = some m) (hml : m.leaf = true)
    (hp : follow s.node s.work.cur p = some (b.setWidth 9)) (hne : p ≠ []) (hu : Unpacking s)
    (hbits : unreadBits s = p ++ rest) (hc : s.work.cnt < s.total.toNat) :
    ∃ w, decodeLoop (fuel + p.length) s = ((emitByte b (setWork w s)).bind fun t => .ok (symbolDone t)).bind (decodeLoop fuel) ∧
      w.cnt = s.work.cnt ∧ w.k = s.work.k + p.length ∧ Unpacking (setWork w s) ∧ unreadBits (setWork w s) = rest := by
  induction p generalizing s with
  | nil => exact absurd rfl hne
  | cons x p ih =>
    obtain ⟨n, hn, hl, hx, hp'⟩ := follow_cons_some hp
    rcases readBit_spec hu with ⟨h0, -⟩ | ⟨y, rbuf, rem, rp, hr, hub, hun⟩
    · rw [h0] at hbits; simp at hbits
    · rw [hbits, List.cons_append] at hub
      obtain ⟨rfl, hrest⟩ := List.cons.inj hub
      generalize hu1 : setWork { s.work with rbuf := rbuf, rem := rem, rp := rp } s = u at hr hrest hun
      have hround : decodeRound s = arrive (n.child x) (setWork { u.work with k := u.work.k + 1 } u) := by
        rw [decodeRound, hr]
        simp only [descend]
        have h1 : nodeAt u.node u.work.cur = some n := by rw [← hu1]; exact hn
        simp only [h1, hx, if_false]
      have hloop : decodeLoop (fuel + (x :: p).length) s =
          (arrive (n.child x) (setWork { u.work with k := u.work.k + 1 } u)).bind (decodeLoop (fuel + p.length)) := by
        rw [List.length_cons, ← Nat.add_assoc, decodeLoop, if_pos hc, hround]
      cases p with
      | nil =>
        simp only [follow, Option.some.injEq] at hp'
        rw [hp', arrive_leaf (s := setWork { u.work with k := u.work.k + 1 } u) (by rw [← hu1]; exact hm) hml] at hloop
        refine ⟨{ s.work with rbuf := rbuf, rem := rem, rp := rp, k := s.work.k + 1 }, ?_, rfl, rfl, ?_, ?_⟩
        · rw [hloop, ← hu1]; rfl
        · rw [← hu1] at hun; exact hun
        · rw [← hu1] at hrest; exact hrest.symm
      | cons z p =>
        obtain ⟨n', hn', hl', -, -⟩ := follow_cons_some hp'
        rw [arrive_internal (s := setWork { u.work with k := u.work.k + 1 } u) (by rw [← hu1]; exact hn') hl',
          Body.bind_ok] at hloop
        generalize hv : setWork { (setWork { u.work with k := u.work.k + 1 } u).work with cur := n.child x }
          (setWork { u.work with k := u.work.k + 1 } u) = v at hloop
        have hvs : v = setWork { s.work with rbuf := rbuf, rem := rem, rp := rp, k := s.work.k + 1, cur := n.child x } s := by
          rw [← hv, ← hu1]; rfl
        have hnode : v.node = s.node := by rw [hvs]; rfl
        obtain ⟨w, h1, h2, h3, h4, h5⟩ := ih (s := v) (by rw [hnode]; exact hm) (by rw [hvs]; exact hp') (by simp)
          (by rw [hvs]; rw [← hu1] at hun; exact hun) (by rw [hvs]; rw [← hu1] at hrest; exact hrest.symm)
          (by rw [hvs]; exact hc)
        have hset : setWork w v = setWork w s := by rw [hvs]; rfl
        rw [hset] at h1 h4 h5
        refine ⟨w, by rw [hloop]; exact h1, by rw [h2, hvs]; rfl, ?_, h4, h5⟩
        rw [h3, hvs]
        simp only [setWork_work, List.length_cons]
        omega

/-! ### A whole payload -/

/-- Decoding the codes of some bytes emits them and consumes exactly their bits, with the cursor at the root again (R100). -/
theorem decode_prefix {s : State} {code : Byte → List Bool} {bytes : List Byte} {rest : List Bool} (fuel : Nat)
    (hroot : s.work.cur = s.root)
    (hcode : ∀ b ∈ bytes, code b ≠ [] ∧ follow s.node s.root (code b) = some (b.setWidth 9) ∧
      ∃ n, nodeAt s.node (b.setWidth 9) = some n ∧ n.leaf = true)
    (hu : Unpacking s) (hbits : unreadBits s = bytes.flatMap code ++ rest)
    (hcnt : s.work.cnt + bytes.length ≤ s.total.toNat) (hroom : s.outLen.toNat + bytes.length ≤ s.cfg.obufSize.toNat) :
    ∃ w, decodeLoop (fuel + (bytes.flatMap code).length) s =
        decodeLoop fuel (setWork w (setOutput (Memory.writeAll s.obuf s.outLen.toNat bytes)
          (BitVec.ofNat 32 (s.outLen.toNat + bytes.length)) s)) ∧
      w.cur = s.root ∧ w.cnt = s.work.cnt + bytes.length ∧ w.k = s.work.k + (bytes.flatMap code).length ∧
      Unpacking (setWork w s) ∧ unreadBits (setWork w s) = rest := by
  induction bytes generalizing s with
  | nil => exact ⟨s.work, by simp [Memory.writeAll], hroot, by simp, by simp, by simpa using hu, by simpa using hbits⟩
  | cons b bytes ih =>
    obtain ⟨hne, hf, n, hn, hl⟩ := hcode b (by simp)
    simp only [List.length_cons] at hcnt hroom
    obtain ⟨w, h1, h2, h3, h4, h5⟩ := decode_code (rest := bytes.flatMap code ++ rest) (fuel + (bytes.flatMap code).length)
      hn hl (hroot ▸ hf) hne hu (by rw [hbits]; simp) (by omega)
    have hs := s.cfg.obufSize.isLt
    have hfit : (setWork w s).outLen < (setWork w s).cfg.obufSize := by
      rw [BitVec.lt_def, setWork_outLen, setWork_cfg]; omega
    rw [emitByte_fits hfit, Body.bind_ok, Body.bind_ok] at h1
    have hlen : (s.outLen + 1#32).toNat = s.outLen.toNat + 1 := by rw [BitVec.toNat_add]; simp; omega
    generalize hv : symbolDone (setOutput (Memory.write (setWork w s).obuf (setWork w s).outLen.toNat b)
      ((setWork w s).outLen + 1#32) (setWork w s)) = v at h1
    have hvs : v = setWork { w with cnt := w.cnt + 1, cur := s.root }
        (setOutput (Memory.write s.obuf s.outLen.toNat b) (s.outLen + 1#32) s) := by rw [← hv]; rfl
    obtain ⟨w', h6, h7, h8, h9, h10, h11⟩ := ih (s := v) (by rw [hvs]; rfl)
      (by rw [hvs]; exact fun c hc => hcode c (by simp [hc])) (by rw [hvs]; exact h4) (by rw [hvs]; exact h5)
      (by rw [hvs]; simp [h2]; omega) (by rw [hvs]; simp [hlen]; omega)
    refine ⟨w', ?_, by rw [h7, hvs]; rfl, by rw [h8, hvs]; simp [h2]; omega, by rw [h9, hvs]; simp [h3]; omega, ?_, ?_⟩
    · rw [List.flatMap_cons, List.length_append, show fuel + ((code b).length + (bytes.flatMap code).length) =
        fuel + (bytes.flatMap code).length + (code b).length by omega, h1, h6, hvs]
      simp only [setWork_obuf, setOutput_obuf, setWork_outLen, setOutput_outLen, hlen, ← setWork_setOutput,
        setWork_setWork, setOutput_setOutput, Memory.writeAll, List.length_cons, Nat.add_assoc, Nat.add_comm 1]
    · rw [hvs] at h10; exact h10
    · rw [hvs] at h11; exact h11

/-- Decoding the codes of a list of bytes emits the bytes and consumes exactly their bits, whatever follows (R100, R101,
R102). -/
theorem decode_bytes {s : State} {code : Byte → List Bool} {bytes : List Byte} {rest : List Bool} (fuel : Nat)
    (hroot : s.work.cur = s.root)
    (hcode : ∀ b ∈ bytes, code b ≠ [] ∧ follow s.node s.root (code b) = some (b.setWidth 9) ∧
      ∃ n, nodeAt s.node (b.setWidth 9) = some n ∧ n.leaf = true)
    (hu : Unpacking s) (hbits : unreadBits s = bytes.flatMap code ++ rest)
    (hcnt : s.work.cnt + bytes.length = s.total.toNat) (hroom : s.outLen.toNat + bytes.length ≤ s.cfg.obufSize.toNat)
    (hfuel : (bytes.flatMap code).length < fuel) :
    ∃ w, decodeLoop fuel s = .ok (setWork w (setOutput (Memory.writeAll s.obuf s.outLen.toNat bytes)
        (BitVec.ofNat 32 (s.outLen.toNat + bytes.length)) s)) ∧
      w.k = s.work.k + (bytes.flatMap code).length := by
  obtain ⟨k, rfl⟩ : ∃ k, fuel = (k + 1) + (bytes.flatMap code).length := ⟨fuel - 1 - (bytes.flatMap code).length, by omega⟩
  obtain ⟨w, h1, -, h3, h4, -⟩ := decode_prefix (k + 1) hroot hcode hu hbits (by omega) hroom
  refine ⟨w, ?_, h4⟩
  rw [h1, decodeLoop, if_neg (by simp [h3]; omega)]

/-! ### A payload that ends, goes wrong, or is too long -/

/-- Decoding along a path that ends at an internal node reads its bits and counts them (R100). -/
theorem decode_partial {s : State} {i : NodeIdx} {m : Node} {p rest : List Bool} (fuel : Nat)
    (hp : follow s.node s.work.cur p = some i) (hm : nodeAt s.node i = some m) (hml : m.leaf = false) (hu : Unpacking s)
    (hbits : unreadBits s = p ++ rest) (hc : s.work.cnt < s.total.toNat) :
    ∃ w, decodeLoop (fuel + p.length) s = decodeLoop fuel (setWork w s) ∧ w.cur = i ∧
      w.cnt = s.work.cnt ∧ w.k = s.work.k + p.length ∧ Unpacking (setWork w s) ∧ unreadBits (setWork w s) = rest := by
  induction p generalizing s with
  | nil => exact ⟨s.work, by simp, by simpa [follow] using hp, rfl, by simp, by simpa using hu, by simpa using hbits⟩
  | cons x p ih =>
    obtain ⟨n, hn, hl, hx, hp'⟩ := follow_cons_some hp
    rcases readBit_spec hu with ⟨h0, -⟩ | ⟨y, rbuf, rem, rp, hr, hub, hun⟩
    · rw [h0] at hbits; simp at hbits
    · rw [hbits, List.cons_append] at hub
      obtain ⟨rfl, hrest⟩ := List.cons.inj hub
      generalize hu1 : setWork { s.work with rbuf := rbuf, rem := rem, rp := rp } s = u at hr hrest hun
      have hround : decodeRound s = arrive (n.child x) (setWork { u.work with k := u.work.k + 1 } u) := by
        rw [decodeRound, hr]
        simp only [descend]
        have h1 : nodeAt u.node u.work.cur = some n := by rw [← hu1]; exact hn
        simp only [h1, hx, if_false]
      obtain ⟨n', hn', hl'⟩ : ∃ n', nodeAt s.node (n.child x) = some n' ∧ n'.leaf = false := by
        cases p with
        | nil =>
          simp only [follow, Option.some.injEq] at hp'
          exact ⟨m, by rw [hp']; exact hm, hml⟩
        | cons z p =>
          obtain ⟨n', hn', hl', -⟩ := follow_cons_some hp'
          exact ⟨n', hn', hl'⟩
      have hloop : decodeLoop (fuel + (x :: p).length) s =
          (arrive (n.child x) (setWork { u.work with k := u.work.k + 1 } u)).bind (decodeLoop (fuel + p.length)) := by
        rw [List.length_cons, ← Nat.add_assoc, decodeLoop, if_pos hc, hround]
      rw [arrive_internal (s := setWork { u.work with k := u.work.k + 1 } u) (by rw [← hu1]; exact hn') hl',
        Body.bind_ok] at hloop
      generalize hv : setWork { (setWork { u.work with k := u.work.k + 1 } u).work with cur := n.child x }
        (setWork { u.work with k := u.work.k + 1 } u) = v at hloop
      have hvs : v = setWork { s.work with rbuf := rbuf, rem := rem, rp := rp, k := s.work.k + 1, cur := n.child x } s := by
        rw [← hv, ← hu1]; rfl
      have hnode : v.node = s.node := by rw [hvs]; rfl
      obtain ⟨w, h1, h2, h3, h4, h5, h6⟩ := ih (s := v) (by rw [hvs]; exact hp') (by rw [hnode]; exact hm)
        (by rw [hvs]; rw [← hu1] at hun; exact hun) (by rw [hvs]; rw [← hu1] at hrest; exact hrest.symm) (by rw [hvs]; exact hc)
      have hset : setWork w v = setWork w s := by rw [hvs]; rfl
      rw [hset] at h1 h5 h6
      refine ⟨w, by rw [hloop]; exact h1, h2, by rw [h3, hvs]; rfl, ?_, h5, h6⟩
      rw [h4, hvs]
      simp only [setWork_work, List.length_cons]
      omega

/-- No bit left while symbols are still to come (R100). -/
theorem decode_eos {s : State} (fuel : Nat) (hu : Unpacking s) (hbits : unreadBits s = []) (hc : s.work.cnt < s.total.toNat) :
    decodeLoop (fuel + 1) s = raise .streamEos s.work.k s := by
  rcases readBit_spec hu with ⟨-, hr⟩ | ⟨y, rbuf, rem, rp, -, hub, -⟩
  · rw [decodeLoop, if_pos hc, decodeRound, hr, raise_bind]
  · rw [hbits] at hub; cases hub

/-- A bit whose child is absent (R100). -/
theorem decode_absent {s : State} {n : Node} {b : Bool} {rest : List Bool} (fuel : Nat) (hu : Unpacking s)
    (hbits : unreadBits s = b :: rest) (hn : nodeAt s.node s.work.cur = some n) (hb : n.child b = NONE)
    (hc : s.work.cnt < s.total.toNat) : ∃ w, decodeLoop (fuel + 1) s = raise .streamAbsentChild s.work.k (setWork w s) := by
  rcases readBit_spec hu with ⟨h0, -⟩ | ⟨y, rbuf, rem, rp, hr, hub, -⟩
  · rw [h0] at hbits; cases hbits
  · rw [hbits] at hub
    obtain ⟨rfl, -⟩ := List.cons.inj hub
    refine ⟨{ s.work with rbuf := rbuf, rem := rem, rp := rp }, ?_⟩
    rw [decodeLoop, if_pos hc, decodeRound, hr]
    simp only [descend, setWork_node, setWork_work, hn, hb, if_true, raise_bind]

/-- A symbol for which OBUF has no room (R100, R51). -/
theorem decode_full {s : State} {b : Byte} {m : Node} {p rest : List Bool} (fuel : Nat)
    (hm : nodeAt s.node (b.setWidth 9) = some m) (hml : m.leaf = true)
    (hp : follow s.node s.work.cur p = some (b.setWidth 9)) (hne : p ≠ []) (hu : Unpacking s)
    (hbits : unreadBits s = p ++ rest) (hc : s.work.cnt < s.total.toNat) (hfull : s.cfg.obufSize ≤ s.outLen) :
    ∃ w, decodeLoop (fuel + p.length) s = raise .ioErrorOutput s.outLen.toNat (setWork w s) := by
  obtain ⟨w, h1, -⟩ := decode_code fuel hm hml hp hne hu hbits hc
  refine ⟨w, ?_⟩
  rw [h1, emitByte_full (by exact hfull), raise_bind, raise_bind]
  rfl

end Sys2Proof.Machine
end

