-- ==== Sys2Proof/Laws/Frames.lean ====
section
/-! SUPPORT. What the output stages can do on any state, written input or not: bytes are appended at OUT_LEN, OBUF may be found
full, a payload may run out or meet an absent child, and nothing gets stuck (spec/20_memory.md R51; spec/43_bitstream.md R99,
R100). -/

namespace Sys2Proof.Machine

/-! ### Appending to OBUF -/

/-- Bytes have been appended at OUT_LEN; else only the working state and the count of free values differ. -/
def Appends (s : State) (bytes : List Byte) (t : State) : Prop :=
  (bytes = [] ∨ s.outLen.toNat + bytes.length ≤ s.cfg.obufSize.toNat) ∧
  ∃ w d, t = setDraws d (setWork w (setOutput (Memory.writeAll s.obuf s.outLen.toNat bytes)
    (BitVec.ofNat 32 (s.outLen.toNat + bytes.length)) s))

theorem Appends.nil (s : State) (w : Work) (d : Nat) : Appends s [] (setDraws d (setWork w s)) :=
  ⟨.inl rfl, w, d, by simp [Memory.writeAll]⟩

theorem Appends.refl (s : State) : Appends s [] s := Appends.nil s s.work s.draws

theorem Appends.outLen {s t : State} {bytes : List Byte} (h : Appends s bytes t) :
    t.outLen.toNat = s.outLen.toNat + bytes.length := by
  obtain ⟨h1, w, d, rfl⟩ := h
  have h2 := s.cfg.obufSize.isLt
  have h3 := s.outLen.isLt
  simp only [setDraws_outLen, setWork_outLen, setOutput_outLen, BitVec.toNat_ofNat]
  rcases h1 with rfl | h1
  · simpa using h3
  · exact Nat.mod_eq_of_lt (by omega)

theorem Appends.trans {s t u : State} {x y : List Byte} (h : Appends s x t) (h' : Appends t y u) :
    Appends s (x ++ y) u := by
  have hl := h.outLen
  obtain ⟨h1, w, d, ht⟩ := h
  obtain ⟨h2, w', d', rfl⟩ := h'
  have hcfg : t.cfg = s.cfg := by rw [ht]; rfl
  rw [hl, hcfg] at h2
  refine ⟨?_, w', d', ?_⟩
  · rcases h2 with rfl | h2
    · simpa using h1
    · right; rw [List.length_append, ← Nat.add_assoc]; exact h2
  · have ho : t.obuf = Memory.writeAll s.obuf s.outLen.toNat x := by rw [ht]; rfl
    rw [hl, ho, ← Memory.writeAll_append, List.length_append, ← Nat.add_assoc, ht]
    simp only [setOutput_setDraws, ← setWork_setOutput, setWork_setDraws, setDraws_setDraws, setWork_setWork,
      setOutput_setOutput]

theorem Appends.of_work {s t : State} {x : List Byte} (h : Appends s x t) (w : Work) : Appends s x (setWork w t) := by
  have := h.trans (Appends.nil t w t.draws)
  rw [List.append_nil] at this
  exact this

theorem Appends.of_draws {s t : State} {x : List Byte} (h : Appends s x t) (d : Nat) : Appends s x (setDraws d t) := by
  have := h.trans (Appends.nil t t.work d)
  rw [List.append_nil, setWork_self] at this
  exact this

theorem Appends.frame {s t : State} {x : List Byte} (h : Appends s x t) : ∃ m n w d,
    t = setDraws d (setWork w (setOutput m n s)) := by
  obtain ⟨-, w, d, rfl⟩ := h
  exact ⟨_, _, w, d, rfl⟩

/-- The bytes of OBUF after bytes have been appended. -/
theorem Appends.read {s t : State} {x : List Byte} (h : Appends s x t) (j : Nat) : Memory.read t.obuf j =
    if s.outLen.toNat ≤ j ∧ j < s.outLen.toNat + x.length then x[j - s.outLen.toNat]? else Memory.read s.obuf j := by
  obtain ⟨-, w, d, rfl⟩ := h
  exact Memory.read_writeAll _ _ _ _

theorem Appends.wf {s t : State} {x : List Byte} (h : Appends s x t) (hs : Memory.wf s.obuf = true) :
    Memory.wf t.obuf = true := by
  obtain ⟨-, w, d, rfl⟩ := h
  exact Memory.wf_writeAll _ _ hs

theorem Appends.within {s t : State} {x : List Byte} (h : Appends s x t)
    (hs : Memory.within s.cfg.obufSize.toNat s.obuf = true) : Memory.within t.cfg.obufSize.toNat t.obuf = true := by
  obtain ⟨h1, w, d, rfl⟩ := h
  rcases h1 with rfl | h1
  · exact hs
  · exact Memory.within_writeAll _ hs h1

theorem Appends.outLen_le {s t : State} {x : List Byte} (h : Appends s x t) (hs : s.outLen ≤ s.cfg.obufSize) :
    t.outLen ≤ t.cfg.obufSize := by
  have hl := h.outLen
  obtain ⟨h1, w, d, ht⟩ := h
  have hcfg : t.cfg = s.cfg := by rw [ht]; rfl
  rw [BitVec.le_def] at hs ⊢
  rw [hcfg, hl]
  rcases h1 with rfl | h1
  · simpa using hs
  · exact h1

theorem Appends.written {s t : State} {x : List Byte} (h : Appends s x t)
    (hs : ∀ i, i < s.outLen.toNat → (Memory.read s.obuf i).isSome = true) :
    ∀ i, i < t.outLen.toNat → (Memory.read t.obuf i).isSome = true := by
  intro i hi
  rw [h.outLen] at hi
  rw [h.read]
  split
  · simp; omega
  · exact hs i (by omega)

/-! ### Bodies that append -/

/-- A body that ends having appended bytes, or finds OBUF full having appended bytes (R51). -/
def AppendsOrFull (s : State) (b : Body) : Prop :=
  (∃ x t, b = .ok t ∧ Appends s x t) ∨
  (∃ x t, b = raise .ioErrorOutput t.outLen.toNat t ∧ Appends s x t ∧ s.cfg.obufSize ≤ t.outLen)

theorem AppendsOrFull.bind {s : State} {b : Body} {f : State → Body} (h : AppendsOrFull s b)
    (hf : ∀ t, AppendsOrFull t (f t)) : AppendsOrFull s (b.bind f) := by
  rcases h with ⟨x, t, rfl, h⟩ | ⟨x, t, rfl, h, hfull⟩
  · have hcfg : t.cfg = s.cfg := by obtain ⟨-, w, d, rfl⟩ := h; rfl
    rcases hf t with ⟨y, u, h1, h2⟩ | ⟨y, u, h1, h2, h3⟩
    · exact .inl ⟨x ++ y, u, h1, h.trans h2⟩
    · exact .inr ⟨x ++ y, u, h1, h.trans h2, hcfg ▸ h3⟩
  · exact .inr ⟨x, t, rfl, h, hfull⟩

theorem AppendsOrFull.of_ok {s t : State} {x : List Byte} (h : Appends s x t) : AppendsOrFull s (.ok t) :=
  .inl ⟨x, t, rfl, h⟩

theorem AppendsOrFull.after {s t : State} {x : List Byte} {b : Body} (h : Appends s x t) (hb : AppendsOrFull t b) :
    AppendsOrFull s b := by
  have hcfg : t.cfg = s.cfg := by obtain ⟨-, w, d, rfl⟩ := h; rfl
  rcases hb with ⟨y, u, h1, h2⟩ | ⟨y, u, h1, h2, h3⟩
  · exact .inl ⟨x ++ y, u, h1, h.trans h2⟩
  · exact .inr ⟨x ++ y, u, h1, h.trans h2, hcfg ▸ h3⟩

theorem emitByte_appends (v : Byte) (s : State) :
    (∃ t, emitByte v s = .ok t ∧ Appends s [v] t ∧ t.work = s.work ∧ s.outLen < s.cfg.obufSize) ∨
    (emitByte v s = raise .ioErrorOutput s.outLen.toNat s ∧ s.cfg.obufSize ≤ s.outLen) := by
  rcases emitByte_cases v s with ⟨h1, h2⟩ | ⟨h1, h2⟩
  · refine .inl ⟨_, h2, ⟨.inr ?_, s.work, s.draws, ?_⟩, rfl, h1⟩
    · rw [BitVec.lt_def] at h1; simp; omega
    · have : s.outLen + 1#32 = BitVec.ofNat 32 (s.outLen.toNat + 1) := by
        apply BitVec.eq_of_toNat_eq; simp
      rw [this]; rfl
  · exact .inr ⟨h2, h1⟩

theorem emitByte_appendsOrFull (v : Byte) (s : State) : AppendsOrFull s (emitByte v s) := by
  rcases emitByte_appends v s with ⟨t, h1, h2, -⟩ | ⟨h1, h2⟩
  · exact .inl ⟨[v], t, h1, h2⟩
  · exact .inr ⟨[], s, h1, Appends.refl s, h2⟩

theorem writeBit_appends (b : Bool) (s : State) : AppendsOrFull s (writeBit b s) := by
  unfold writeBit
  simp only
  split
  · refine AppendsOrFull.bind (AppendsOrFull.after ((Appends.refl s).of_work _) (emitByte_appendsOrFull _ _)) fun t => ?_
    exact AppendsOrFull.of_ok ((Appends.refl t).of_work _)
  · exact AppendsOrFull.of_ok ((Appends.refl s).of_work _)

theorem writeBits_appends (n : Nat) (bits : BitVec 256) (s : State) : AppendsOrFull s (writeBits n bits s) := by
  induction n generalizing s with
  | zero => exact AppendsOrFull.of_ok (Appends.refl s)
  | succ n ih =>
    refine AppendsOrFull.bind (writeBit_appends _ s) fun t => ?_
    exact AppendsOrFull.after ((Appends.refl t).of_work _) (ih (bitWritten t))

theorem packByte_appends (i : Nat) (s : State) : AppendsOrFull s (packByte i s) := by
  obtain ⟨d, hd⟩ := readIbuf_frame i s
  unfold packByte
  simp only [hd]
  exact AppendsOrFull.after ((Appends.refl s).of_draws d) (writeBits_appends _ _ _)

theorem packLoop_appends (n i : Nat) (s : State) : AppendsOrFull s (packLoop n i s) := by
  induction n generalizing i s with
  | zero => exact AppendsOrFull.of_ok (Appends.refl s)
  | succ n ih => exact AppendsOrFull.bind (packByte_appends i s) (ih (i + 1))

theorem flushBits_appends (s : State) : AppendsOrFull s (flushBits s) := by
  unfold flushBits
  split
  · refine AppendsOrFull.bind (emitByte_appendsOrFull _ _) fun t => ?_
    exact AppendsOrFull.of_ok ((Appends.refl t).of_work _)
  · exact AppendsOrFull.of_ok (Appends.refl s)

/-- PACK never gets stuck: it appends a payload, or finds OBUF full (R99). -/
theorem packBody_cases (s : State) :
    (∃ x t, packBody s = .ok (packEnd t) ∧ Appends (packStart s) x t) ∨
    (∃ x t, packBody s = raise .ioErrorOutput t.outLen.toNat t ∧ Appends (packStart s) x t ∧ s.cfg.obufSize ≤ t.outLen) := by
  have h : AppendsOrFull (packStart s) ((packLoop s.inLen.toNat 0 (packStart s)).bind flushBits) :=
    (packLoop_appends _ _ _).bind flushBits_appends
  unfold packBody
  rcases h with ⟨x, t, h1, h2⟩ | ⟨x, t, h1, h2, h3⟩
  · exact .inl ⟨x, t, by rw [h1]; rfl, h2⟩
  · exact .inr ⟨x, t, by rw [h1]; rfl, h2, h3⟩

/-! ### DECODE -/

/-- The payload bits the unpacker has still to give. -/
def bitsLeft (s : State) : Nat := s.work.rem + 8 * (s.inLen.toNat - s.work.rp)

/-- One bit, on any state: taken, with one bit less to come, or none is left (R98). -/
theorem readBit_cases (s : State) :
    (readBit s = (none, s) ∧ bitsLeft s = 0) ∨
    (∃ b rbuf rem rp d, readBit s = (some b, setDraws d (setWork { s.work with rbuf := rbuf, rem := rem, rp := rp } s)) ∧
      rem + 8 * (s.inLen.toNat - rp) + 1 = bitsLeft s) := by
  unfold readBit
  by_cases h0 : s.work.rem = 0
  · rw [if_pos h0]
    by_cases he : s.inLen.toNat ≤ s.work.rp
    · exact .inl ⟨by rw [if_pos he], by simp [bitsLeft, h0]; omega⟩
    · obtain ⟨d, hd⟩ := readIbuf_frame s.work.rp s
      have hr : refill s = setDraws d (setWork { s.work with rbuf := (readIbuf s.work.rp s).1, rp := s.work.rp + 1, rem := 8 } s) := by
        simp only [refill, hd, setWork_setDraws]
      refine .inr ⟨(readIbuf s.work.rp s).1.getLsbD 7, (readIbuf s.work.rp s).1 <<< 1, 7, s.work.rp + 1, d, ?_, ?_⟩
      · rw [if_neg he, hr]; rfl
      · simp only [bitsLeft, h0]; omega
  · rw [if_neg h0]
    refine .inr ⟨s.work.rbuf.getLsbD 7, s.work.rbuf <<< 1, s.work.rem - 1, s.work.rp, s.draws, rfl, ?_⟩
    simp only [bitsLeft]; omega

/-- A valid internal node: where the cursor stands between rounds. -/
def AtInternal (t : Vector Node 511) (i : NodeIdx) : Prop := 256#9 ≤ i ∧ ∃ n, nodeAt t i = some n ∧ n.valid = true

/-- What rounds of DECODE's loop keep and count: bytes have been appended, one per symbol, and every bit taken is counted. -/
def Decodes (s : State) (x : List Byte) (t : State) : Prop :=
  Appends s x t ∧ t.work.cnt = s.work.cnt + x.length ∧ t.work.k + bitsLeft t = s.work.k + bitsLeft s

theorem Decodes.trans {s t u : State} {x y : List Byte} (h : Decodes s x t) (h' : Decodes t y u) : Decodes s (x ++ y) u :=
  ⟨h.1.trans h'.1, by rw [h'.2.1, h.2.1, List.length_append, Nat.add_assoc], by rw [h'.2.2, h.2.2]⟩

theorem Decodes.refl (s : State) : Decodes s [] s := ⟨Appends.refl s, rfl, rfl⟩

/-- Everything one round of DECODE can do on a well-formed tree (R100): it takes a bit, emitting a symbol or moving the cursor
to a valid internal node; no bit is left; the bit's child is absent, which is a right child; or OBUF is full. -/
theorem decodeRound_cases {s : State} (ha : ArenaOk s.node) (hr : AtInternal s.node s.root)
    (hc : AtInternal s.node s.work.cur) :
    (∃ x t, decodeRound s = .ok t ∧ x.length ≤ 1 ∧ Decodes s x t ∧ AtInternal s.node t.work.cur ∧ bitsLeft t + 1 = bitsLeft s) ∨
    (∃ t, decodeRound s = raise .streamEos t.work.k t ∧ Decodes s [] t ∧ bitsLeft t = 0) ∨
    (∃ t, decodeRound s = raise .streamAbsentChild t.work.k t ∧ Appends s [] t ∧ t.work.k = s.work.k ∧
      t.work.cnt = s.work.cnt ∧ bitsLeft t + 1 = bitsLeft s ∧ ∃ n, nodeAt s.node s.work.cur = some n ∧ n.valid = true ∧ n.leaf = false ∧ n.right = NONE) ∨
    (∃ t, decodeRound s = raise .ioErrorOutput t.outLen.toNat t ∧ Appends s [] t ∧ s.cfg.obufSize ≤ t.outLen ∧
      t.work.cnt = s.work.cnt) := by
  obtain ⟨h256, n, hn, hv⟩ := hc
  obtain ⟨hl, hL, hR⟩ := (ha _ n hn hv).2 h256
  unfold decodeRound
  rcases readBit_cases s with ⟨h1, h2⟩ | ⟨b, rbuf, rem, rp, d, h1, h2⟩
  · exact .inr (.inl ⟨s, by rw [h1], Decodes.refl s, h2⟩)
  · rw [h1]
    generalize hu : setDraws d (setWork { s.work with rbuf := rbuf, rem := rem, rp := rp } s) = u
    have hun : u.node = s.node := by rw [← hu]; rfl
    have huc : u.work.cur = s.work.cur := by rw [← hu]; rfl
    have hur : u.root = s.root := by rw [← hu]; rfl
    have huk : u.work.k = s.work.k := by rw [← hu]; rfl
    have hucnt : u.work.cnt = s.work.cnt := by rw [← hu]; rfl
    have hui : u.inLen = s.inLen := by rw [← hu]; rfl
    have hucfg : u.cfg = s.cfg := by rw [← hu]; rfl
    have hul : bitsLeft u + 1 = bitsLeft s := by rw [← h2, ← hu]; rfl
    have hua : Appends s [] u := by rw [← hu]; exact Appends.nil s _ _
    have hd : descend b u = if n.child b = NONE then raise .streamAbsentChild u.work.k u
        else arrive (n.child b) (setWork { u.work with k := u.work.k + 1 } u) := by
      have : nodeAt u.node u.work.cur = some n := by rw [hun, huc]; exact hn
      simp only [descend, this]
    simp only [hd]
    by_cases hch : n.child b = NONE
    · rw [if_pos hch]
      refine .inr (.inr (.inl ⟨u, rfl, hua, huk, hucnt, hul, n, hn, hv, hl, ?_⟩))
      cases b with
      | false => exact absurd hch (nodeAt_some_ne hL.2.choose_spec.1)
      | true => exact hch
    · rw [if_neg hch]
      obtain ⟨hlt, n', hn', hv'⟩ := ha.child hn hv hl b hch
      generalize hw : setWork { u.work with k := u.work.k + 1 } u = v
      have hvn : nodeAt v.node (n.child b) = some n' := by rw [← hw, setWork_node, hun]; exact hn'
      have hva : Appends s [] v := by rw [← hw]; exact hua.of_work _
      have hvd : Decodes s [] v := by
        refine ⟨hva, by rw [← hw]; exact hucnt, ?_⟩
        have : bitsLeft v = bitsLeft u := by rw [← hw]; rfl
        have hk : v.work.k = u.work.k + 1 := by rw [← hw]; rfl
        rw [this, hk, huk]; omega
      have hvl : bitsLeft v + 1 = bitsLeft s := by rw [← hw]; exact hul
      have hvcfg : v.cfg = s.cfg := by rw [← hw]; exact hucfg
      have hvr : v.root = s.root := by rw [← hw]; exact hur
      by_cases hl' : n'.leaf = true
      · have hlt' : n.child b < 256#9 := by
          by_contra hge
          have := ((ha _ n' hn' hv').2 (by simpa using hge)).1
          simp [hl'] at this
        have harr : arrive (n.child b) v =
            (emitByte ((n.child b).setWidth 8) v).bind fun t => .ok (symbolDone t) := by
          simp only [arrive, hvn, hl', hlt', if_true, symbolDone]
        rw [harr]
        rcases emitByte_appends ((n.child b).setWidth 8) v with ⟨t, h3, h4, h5, -⟩ | ⟨h3, h4⟩
        · rw [h3, Body.bind_ok]
          refine .inl ⟨[(n.child b).setWidth 8], symbolDone t, rfl, by simp, ?_, ?_, ?_⟩
          · refine hvd.trans (y := [(n.child b).setWidth 8]) ⟨h4.of_work _, ?_, ?_⟩
            · simp [symbolDone, h5]
            · obtain ⟨m, k, w, d', rfl⟩ := h4.frame
              simp only [setDraws_work, setWork_work] at h5
              subst h5
              rfl
          · have : t.root = s.root := by
              obtain ⟨m, k, w, d', rfl⟩ := h4.frame
              exact hvr
            simpa [symbolDone, this] using hr
          · rw [← hvl]
            obtain ⟨m, k, w, d', rfl⟩ := h4.frame
            simp only [setDraws_work, setWork_work] at h5
            subst h5
            rfl
        · rw [h3, raise_bind]
          exact .inr (.inr (.inr ⟨v, rfl, hva, hvcfg ▸ h4, hvd.2.1⟩))
      · have hl' : n'.leaf = false := by simpa using hl'
        rw [arrive_internal hvn hl']
        refine .inl ⟨[], _, rfl, by simp, ?_, ?_, ?_⟩
        · exact ⟨hva.of_work _, hvd.2.1, hvd.2.2⟩
        · refine ⟨?_, n', hn', hv'⟩
          by_contra hlt'
          have := ((ha _ n' hn' hv').1 (by simpa using hlt')).1
          simp [hl'] at this
        · exact hvl

/-- Everything DECODE's loop can do on a well-formed tree, with fuel for every bit that is left (R72, R100). -/
theorem decodeLoop_cases (fuel : Nat) {s : State} (ha : ArenaOk s.node) (hr : AtInternal s.node s.root)
    (hc : AtInternal s.node s.work.cur) (hf : bitsLeft s < fuel) (hcnt : s.work.cnt ≤ s.total.toNat) :
    (∃ x t, decodeLoop fuel s = .ok t ∧ Decodes s x t ∧ t.work.cnt = s.total.toNat) ∨
    (∃ x t, decodeLoop fuel s = raise .streamEos t.work.k t ∧ Decodes s x t ∧ bitsLeft t = 0 ∧ t.work.cnt < s.total.toNat) ∨
    (∃ x t, decodeLoop fuel s = raise .streamAbsentChild t.work.k t ∧ Appends s x t ∧ t.work.cnt < s.total.toNat ∧
      t.work.k + bitsLeft t + 1 = s.work.k + bitsLeft s ∧
      ∃ i n, nodeAt s.node i = some n ∧ n.valid = true ∧ n.leaf = false ∧ n.right = NONE) ∨
    (∃ x t, decodeLoop fuel s = raise .ioErrorOutput t.outLen.toNat t ∧ Appends s x t ∧ s.cfg.obufSize ≤ t.outLen ∧
      t.work.cnt = s.work.cnt + x.length ∧ t.work.cnt < s.total.toNat) := by
  induction fuel generalizing s with
  | zero => omega
  | succ fuel ih =>
    rw [decodeLoop]
    by_cases hlt : s.work.cnt < s.total.toNat
    · rw [if_pos hlt]
      rcases decodeRound_cases ha hr hc with ⟨x, t, h1, hx, h2, h3, h4⟩ | ⟨t, h1, h2, h3⟩ |
          ⟨t, h1, h2, h3, h4, h5, n, h6⟩ | ⟨t, h1, h2, h3, h4⟩
      · rw [h1, Body.bind_ok]
        obtain ⟨m, l, w, d, ht⟩ := h2.1.frame
        have hn : t.node = s.node := by rw [ht]; rfl
        have hrt : t.root = s.root := by rw [ht]; rfl
        have htot : t.total = s.total := by rw [ht]; rfl
        have hcfg : t.cfg = s.cfg := by rw [ht]; rfl
        have hcnt' := h2.2.1
        have hk := h2.2.2
        rcases ih (s := t) (hn ▸ ha) (by rw [hn, hrt]; exact hr) (by rw [hn]; exact h3) (by omega) (by rw [htot]; omega) with
          ⟨y, u, h5, h6, h7⟩ | ⟨y, u, h5, h6, h7, h8⟩ | ⟨y, u, h5, h6, h7, h8, i, n, h9, h10⟩ | ⟨y, u, h5, h6, h7, h8, h9⟩
        · exact .inl ⟨x ++ y, u, h5, h2.trans h6, by rw [h7, htot]⟩
        · exact .inr (.inl ⟨x ++ y, u, h5, h2.trans h6, h7, by rw [← htot]; exact h8⟩)
        · exact .inr (.inr (.inl ⟨x ++ y, u, h5, h2.1.trans h6, by rw [← htot]; exact h7, by omega, i, n, hn ▸ h9, h10⟩))
        · exact .inr (.inr (.inr ⟨x ++ y, u, h5, h2.1.trans h6, hcfg ▸ h7, by rw [h8, hcnt', List.length_append]; omega,
            by rw [← htot]; exact h9⟩))
      · rw [h1, raise_bind]
        exact .inr (.inl ⟨[], t, rfl, h2, h3, by rw [h2.2.1]; simpa using hlt⟩)
      · rw [h1, raise_bind]
        exact .inr (.inr (.inl ⟨[], t, rfl, h2, by omega, by omega, _, n, h6⟩))
      · rw [h1, raise_bind]
        exact .inr (.inr (.inr ⟨[], t, rfl, h2, h3, by simpa using h4, by omega⟩))
    · rw [if_neg hlt]
      exact .inl ⟨[], s, rfl, Decodes.refl s, by omega⟩

/-- The cursor's arrival at a node leaves the unpacker and k as they were, or finds OBUF full (R100). -/
theorem arrive_written {v : State} {i : NodeIdx} {n : Node} (hn : nodeAt v.node i = some n) (hi : n.leaf = true → i < 256#9) :
    (∃ t, arrive i v = .ok t ∧ t.work.rbuf = v.work.rbuf ∧ t.work.rem = v.work.rem ∧ t.work.rp = v.work.rp ∧
      t.work.k = v.work.k ∧ t.inLen = v.inLen ∧ t.ibuf = v.ibuf ∧ t.node = v.node ∧ t.root = v.root) ∨
    ∃ info t, arrive i v = .raised .ioErrorOutput info t := by
  cases hl : n.leaf with
  | false => exact .inl ⟨_, arrive_internal hn hl, rfl, rfl, rfl, rfl, rfl, rfl, rfl, rfl⟩
  | true =>
    have harr : arrive i v = (emitByte (i.setWidth 8) v).bind fun t => .ok (symbolDone t) := by
      simp only [arrive, hn, hl, hi hl, if_true, symbolDone]
    rcases emitByte_appends (i.setWidth 8) v with ⟨t, h3, h4, h5, -⟩ | ⟨h3, -⟩
    · rw [harr, h3, Body.bind_ok]
      refine .inl ⟨_, rfl, ?_, ?_, ?_, ?_, ?_, ?_, ?_, ?_⟩
      · exact show t.work.rbuf = v.work.rbuf by rw [h5]
      · exact show t.work.rem = v.work.rem by rw [h5]
      · exact show t.work.rp = v.work.rp by rw [h5]
      · exact show t.work.k = v.work.k by rw [h5]
      all_goals
        obtain ⟨m, l, w, d, rfl⟩ := h4.frame
        rfl
    · rw [harr, h3, raise_bind]
      exact .inr ⟨_, _, rfl⟩

/-- One round of DECODE over written input, by the bit it takes (R98, R100). -/
theorem decodeRound_written {s : State} (ha : ArenaOk s.node) (hc : AtInternal s.node s.work.cur) (hu : Unpacking s) :
    (∃ b t, decodeRound s = .ok t ∧ unreadBits s = b :: unreadBits t ∧ Unpacking t ∧ t.work.k = s.work.k + 1 ∧
      t.node = s.node ∧ t.root = s.root) ∨
    (∃ t, decodeRound s = raise .streamAbsentChild s.work.k t ∧ (unreadBits s)[0]? = some true) ∨
    ∃ e info t, decodeRound s = .raised e info t ∧ e ≠ .streamAbsentChild := by
  obtain ⟨h256, n, hn, hv⟩ := hc
  obtain ⟨hl, hL, -⟩ := (ha _ n hn hv).2 h256
  unfold decodeRound
  rcases readBit_spec hu with ⟨-, hr⟩ | ⟨b, rbuf, rem, rp, hr, hub, hun⟩
  · rw [hr]
    exact .inr (.inr ⟨_, _, s, rfl, by decide⟩)
  · rw [hr]
    generalize hw : setWork { s.work with rbuf := rbuf, rem := rem, rp := rp } s = u at hub hun
    have hun' : u.node = s.node := by rw [← hw]; rfl
    have huc : u.work.cur = s.work.cur := by rw [← hw]; rfl
    have hur : u.root = s.root := by rw [← hw]; rfl
    have huk : u.work.k = s.work.k := by rw [← hw]; rfl
    have hd : descend b u = if n.child b = NONE then raise .streamAbsentChild u.work.k u
        else arrive (n.child b) (setWork { u.work with k := u.work.k + 1 } u) := by
      have : nodeAt u.node u.work.cur = some n := by rw [hun', huc]; exact hn
      simp only [descend, this]
    simp only [hd]
    by_cases hch : n.child b = NONE
    · rw [if_pos hch, huk]
      refine .inr (.inl ⟨u, rfl, ?_⟩)
      rw [hub]
      cases b with
      | false => exact absurd hch (nodeAt_some_ne hL.2.choose_spec.1)
      | true => rfl
    · rw [if_neg hch]
      obtain ⟨-, n', hn', hv'⟩ := ha.child hn hv hl b hch
      have hlt : n'.leaf = true → n.child b < 256#9 := fun hl' => by
        by_contra hge
        have := ((ha _ n' hn' hv').2 (by simpa using hge)).1
        simp [hl'] at this
      rcases arrive_written (v := setWork { u.work with k := u.work.k + 1 } u) (by rw [setWork_node, hun']; exact hn') hlt with
        ⟨t, h1, h2, h3, h4, h5, h6, h7, h8, h9⟩ | ⟨i, t, h1⟩
      · refine .inl ⟨b, t, h1, ?_, ?_, ?_, by rw [h8, setWork_node, hun'], by rw [h9, ← hur]; rfl⟩
        · rw [hub, unreadBits_congr (s := u) h2 h3 h4 h6 h7]
        · exact hun.congr h3 h4 h6 h7
        · rw [h5, ← huk]; rfl
      · exact .inr (.inr ⟨_, _, t, h1, by decide⟩)

/-- Over written input STREAM_ABSENT_CHILD is raised at a payload bit that is 1 (R90, R100). -/
theorem decodeLoop_absent (fuel : Nat) {s t : State} {info : DWord} (ha : ArenaOk s.node) (hr : AtInternal s.node s.root)
    (hc : AtInternal s.node s.work.cur) (hu : Unpacking s) (h : decodeLoop fuel s = .raised .streamAbsentChild info t) :
    ∃ m, info = BitVec.ofNat 64 (s.work.k + m) ∧ (unreadBits s)[m]? = some true := by
  induction fuel generalizing s with
  | zero => cases h
  | succ fuel ih =>
    rw [decodeLoop] at h
    split at h
    · rcases decodeRound_written ha hc hu with ⟨b, u, h1, h2, h3, h4, h5, h6⟩ | ⟨u, h1, h2⟩ | ⟨e, i, u, h1, h2⟩
      · have hcur : AtInternal s.node u.work.cur := by
          rcases decodeRound_cases ha hr hc with ⟨x, v, g, -, -, g', -⟩ | ⟨v, g, -⟩ | ⟨v, g, -⟩ | ⟨v, g, -⟩ <;> rw [h1] at g
          · rw [Body.ok.inj g]; exact g'
          all_goals cases g
        rw [h1, Body.bind_ok] at h
        obtain ⟨m, h7, h8⟩ := ih (s := u) (h5 ▸ ha) (by rw [h5, h6]; exact hr) (by rw [h5]; exact hcur) h3 h
        exact ⟨m + 1, by rw [h7, h4, show s.work.k + 1 + m = s.work.k + (m + 1) by omega], by rw [h2]; exact h8⟩
      · rw [h1, raise_bind] at h
        cases h
        exact ⟨0, rfl, h2⟩
      · rw [h1] at h
        cases h
        exact absurd rfl h2
    · cases h

end Sys2Proof.Machine
end

