-- ==== Sys2Proof/Laws/Frequency.lean ====
section
/-! SUPPORT. What COUNT, SERIALIZE and DESERIALIZE can do. -/

namespace Sys2Proof.Machine

/-! ### COUNT -/

/-- Counting one byte adds one to one entry of FREQ. -/
theorem countByte_spec (i : Nat) (s : State) : ∃ d, countByte i s =
    setDraws d (setFreq (readIbuf i s).1 (freqAt s.freq (readIbuf i s).1 + 1#32) s) := by
  obtain ⟨d, hd⟩ := readIbuf_frame i s
  exact ⟨d, by simp only [countByte, setFreq, hd]; rfl⟩

/-- Counting changes FREQ and the count of free values only. -/
theorem countLoop_frame (n i : Nat) (s : State) : ∃ f d, countLoop n i s = setDraws d (setTable f s) := by
  induction n generalizing i s with
  | zero => exact ⟨s.freq, s.draws, rfl⟩
  | succ n ih =>
    obtain ⟨d, hd⟩ := countByte_spec i s
    obtain ⟨f', d', h'⟩ := ih (i + 1) (countByte i s)
    exact ⟨f', d', by rw [countLoop, h', hd]; rfl⟩

theorem freqTotal_bump (f : Vector Word 256) (b : Byte) (h : freqTotal f + 1 < 2 ^ 32) :
    freqTotal (f.set b.toNat (freqAt f b + 1#32) b.isLt) = freqTotal f + 1 := by
  have h1 := freqTotal_set f b (freqAt f b + 1#32)
  have h2 := freqAt_le_total f b
  have h3 : (freqAt f b + 1#32).toNat = (freqAt f b).toNat + 1 := by rw [BitVec.toNat_add]; simp; omega
  omega

/-- Each counted byte adds one to the sum of FREQ (R80, R85), written by the host or not. -/
theorem countLoop_total (n i : Nat) (s : State) (h : freqTotal s.freq + n < 2 ^ 32) :
    freqTotal (countLoop n i s).freq = freqTotal s.freq + n := by
  induction n generalizing i s with
  | zero => simp [countLoop]
  | succ n ih =>
    obtain ⟨d, hd⟩ := countByte_spec i s
    have hb := freqTotal_bump s.freq (readIbuf i s).1 (by omega)
    have hf : (countByte i s).freq = s.freq.set (readIbuf i s).1.toNat (freqAt s.freq (readIbuf i s).1 + 1#32)
        (readIbuf i s).1.isLt := by rw [hd]; rfl
    rw [countLoop, ih (i + 1) (countByte i s) (by rw [hf]; omega), hf]
    omega

/-- Over written bytes, COUNT adds to each entry the number of times its symbol occurs (R79). -/
theorem countLoop_counts (n i : Nat) (s : State) (hw : ∀ j, i ≤ j → j < i + n → (Memory.read s.ibuf j).isSome = true)
    (ht : freqTotal s.freq + n < 2 ^ 32) :
    ∃ f, countLoop n i s = setTable f s ∧
      ∀ b, (freqAt f b).toNat =
        (freqAt s.freq b).toNat + ((List.range n).map fun j => (Memory.read s.ibuf (i + j)).getD 0#8).count b := by
  induction n generalizing i s with
  | zero => exact ⟨s.freq, rfl, fun b => by simp⟩
  | succ n ih =>
    obtain ⟨x, hx⟩ := Option.isSome_iff_exists.1 (hw i (by omega) (by omega))
    have hc : countByte i s = setFreq x (freqAt s.freq x + 1#32) s := by simp [countByte, readIbuf_written hx]
    have hb := freqTotal_bump s.freq x (by omega)
    obtain ⟨f, hf, hcount⟩ := ih (i + 1) (countByte i s)
      (fun j h1 h2 => by simpa [hc] using hw j (by omega) (by omega))
      (by rw [hc, setFreq_freq]; omega)
    refine ⟨f, by rw [countLoop, hf, hc]; rfl, fun b => ?_⟩
    rw [hcount b]
    have hl : (List.range (n + 1)).map (fun j => (Memory.read s.ibuf (i + j)).getD 0#8) =
        x :: (List.range n).map fun j => (Memory.read s.ibuf (i + 1 + j)).getD 0#8 := by
      simp [List.range_succ_eq_map, hx, Function.comp_def, Nat.add_assoc, Nat.add_comm 1]
    rw [hl, List.count_cons]
    simp only [hc, setFreq_freq, setFreq_ibuf, freqAt_set]
    have h2 := freqAt_le_total s.freq x
    by_cases hbx : b = x
    · subst hbx
      have h3 : (freqAt s.freq b + 1#32).toNat = (freqAt s.freq b).toNat + 1 := by rw [BitVec.toNat_add]; simp; omega
      simp [h3]; omega
    · simp [hbx, Ne.symm hbx]

theorem countState_frame (s : State) : ∃ f d, countState s =
    countEnd (setDraws d (setTable f (countStart s))) := by
  obtain ⟨f, d, h⟩ := countLoop_frame s.inLen.toNat 0 (countStart s)
  exact ⟨f, d, by rw [countState, h]⟩

/-- After COUNT the sum of FREQ is IN_LEN (R80, R85). -/
theorem countState_total (s : State) : freqTotal (countState s).freq = s.inLen.toNat := by
  have h := countLoop_total s.inLen.toNat 0 (countStart s) (by simpa using s.inLen.isLt)
  simpa [countState] using h

/-- Over written input, COUNT leaves in FREQ how often each symbol occurs, and draws no free value (R79). -/
theorem countState_counts {s : State} (hw : InputWritten s) : ∃ f, countState s = countEnd (setTable f (countStart s)) ∧
    ∀ b, (freqAt f b).toNat = (inputOf s).count b := by
  obtain ⟨f, hf, hc⟩ := countLoop_counts s.inLen.toNat 0 (countStart s)
    (fun j _ h => hw j (by simpa using h)) (by simpa using s.inLen.isLt)
  exact ⟨f, by rw [countState, hf], fun b => by simpa [inputOf] using hc b⟩

/-! ### SERIALIZE -/

theorem entryBytes_length (f : Vector Word 256) (b : Byte) :
    (entryBytes f b).length = 5 * (if freqAt f b = 0#32 then 0 else 1) := by
  unfold entryBytes
  split <;> simp_all [leBytes_length]

/-- The header has 8 + 5 bytes per present symbol (R82). -/
theorem headerBytes_length (f : Vector Word 256) (n : BitVec 9) : (headerBytes f n).length = 8 + 5 * alphabetSize f := by
  have h : ∀ l : List Byte, (l.flatMap (entryBytes f)).length =
      5 * (l.map fun b => if freqAt f b = 0#32 then 0 else 1).sum := by
    intro l
    induction l with
    | nil => rfl
    | cons b l ih => simp [ih, entryBytes_length, Nat.mul_add]
  simp [headerBytes, leBytes_length, alphabetSize_eq_sum, h symbols]

/-- SERIALIZE never finds OBUF full (R82): it writes the header from index 0 on. -/
theorem serializeBody_ok {s : State} (h : 1288 ≤ s.cfg.obufSize.toNat) :
    serializeBody s = .ok (setOutput (Memory.writeAll s.obuf 0 (headerBytes s.freq s.nsym))
      (BitVec.ofNat 32 (8 + 5 * alphabetSize s.freq)) s) := by
  have hl := headerBytes_length s.freq s.nsym
  have ha := alphabetSize_le s.freq
  rw [serializeBody, emitBytes_fits (by simp [hl]; omega)]
  simp [hl]

/-! ### DESERIALIZE -/

/-- One entry: stored, or one of its two header errors, with FREQ zeroed (R83). -/
theorem readEntry_cases (o : Nat) (s : State) :
    (∃ e d, readEntry o s = raise e o (zeroHeader (setDraws d s)) ∧ (e = .hdrZeroFreq ∨ e = .hdrDupSymbol)) ∨
    (∃ b c d, readEntry o s = .ok (setDraws d (setFreq b c s)) ∧ c ≠ 0#32 ∧ freqAt s.freq b = 0#32) := by
  obtain ⟨d1, h1⟩ := readIbuf_frame o s
  obtain ⟨d2, h2⟩ := memRead_frame (o + 1) 4 (readIbuf o s).2
  have hlt := memRead_lt (o + 1) 4 (readIbuf o s).2
  have h3 : (memRead (o + 1) 4 (readIbuf o s).2).2 = setDraws d2 s := by rw [h2, h1]; rfl
  unfold readEntry
  generalize readIbuf o s = r1 at h3 hlt ⊢
  simp only
  generalize memRead (o + 1) 4 r1.2 = r2 at h3 hlt ⊢
  obtain ⟨v, t⟩ := r2
  simp only at h3 hlt ⊢
  subst h3
  by_cases hz : v = 0
  · exact .inl ⟨_, d2, by rw [if_pos hz]; rfl, .inl rfl⟩
  · by_cases hd : freqAt s.freq r1.1 = 0#32
    · refine .inr ⟨r1.1, BitVec.ofNat 32 v, d2, by simp [hz, hd]; rfl, ?_, hd⟩
      intro hc
      have := congrArg BitVec.toNat hc
      simp only [BitVec.toNat_ofNat, Nat.reducePow] at this hlt
      omega
    · exact .inl ⟨_, d2, by simp [hz, hd]; rfl, .inr rfl⟩

/-- The entries: all stored, each in an entry of its own, or a header error with FREQ zeroed (R83). -/
theorem readEntries_cases (n o : Nat) (s : State) :
    (∃ e j d, readEntries n o s = raise e (o + 5 * j) (zeroHeader (setDraws d s)) ∧ j < n ∧
      (e = .hdrZeroFreq ∨ e = .hdrDupSymbol)) ∨
    (∃ f d, readEntries n o s = .ok (setDraws d (setTable f s)) ∧ alphabetSize f = alphabetSize s.freq + n) := by
  induction n generalizing o s with
  | zero => exact .inr ⟨s.freq, s.draws, rfl, rfl⟩
  | succ n ih =>
    rcases readEntry_cases o s with ⟨e, d, h, he⟩ | ⟨b, c, d, h, hc, hb⟩
    · exact .inl ⟨e, 0, d, by simp [readEntries, h], by omega, he⟩
    · rcases ih (o + 5) (setDraws d (setFreq b c s)) with ⟨e, j, d', h', hj, he⟩ | ⟨f, d', h', ha⟩
      · refine .inl ⟨e, j + 1, d', ?_, by omega, he⟩
        rw [readEntries, h, Body.bind_ok, h', show o + 5 + 5 * j = o + 5 * (j + 1) by omega]
        rfl
      · refine .inr ⟨f, d', by rw [readEntries, h, Body.bind_ok, h']; rfl, ?_⟩
        have := alphabetSize_set s.freq b c
        simp only [hc, hb, if_true, if_false] at this
        simp only [setDraws_freq, setFreq_freq] at ha
        omega

/-- Everything DESERIALIZE's body can do (R83): a header error, with FREQ, NSYM, TOTAL and PAYLOAD_OFF zero and the flags 0,
or the table of a header of n entries. It never gets stuck. -/
theorem deserializeBody_cases (s : State) :
    (∃ e i d, deserializeBody s = raise e i (setDraws d (deserializeStart s)) ∧ e.errClass = some .corruptHeader) ∨
    (∃ n f d, deserializeBody s = .ok (deserializeEnd n (setDraws d (setTable f (deserializeStart s)))) ∧
      alphabetSize f = n ∧ 8 + 5 * n ≤ s.inLen.toNat ∧ n ≤ 256) := by
  unfold deserializeBody
  by_cases h8 : s.inLen.toNat < 8
  · exact .inl ⟨.hdrShort, _, s.draws, by rw [if_pos h8]; rfl, rfl⟩
  · rw [if_neg h8]
    obtain ⟨d, hd⟩ := memRead_frame 0 8 (deserializeStart s)
    generalize memRead 0 8 (deserializeStart s) = r at hd ⊢
    obtain ⟨e, t⟩ := r
    simp only at hd ⊢
    subst hd
    unfold deserializeEntries
    by_cases he : 256 < e
    · exact .inl ⟨.hdrCountRange, _, d, by rw [if_pos he]; rfl, rfl⟩
    · rw [if_neg he]
      by_cases hl : s.inLen.toNat < 8 + 5 * e
      · exact .inl ⟨.hdrTruncated, _, d, by rw [if_pos (by simpa using hl)]; rfl, rfl⟩
      · rw [if_neg (by simpa using hl)]
        rcases readEntries_cases e 8 (setDraws d (deserializeStart s)) with ⟨c, j, d', h, -, hc⟩ | ⟨f, d', h, ha⟩
        · refine .inl ⟨c, 8 + 5 * j, d', by rw [h]; rfl, ?_⟩
          rcases hc with rfl | rfl <;> rfl
        · exact .inr ⟨e, f, d', by rw [h]; rfl, by simpa using ha, by omega, by omega⟩

end Sys2Proof.Machine
end

