-- ==== Sys2Proof/Laws/Commands.lean ====
section
/-! SUPPORT. Everything each command's body can do from a state whose flags tell the truth: where it ends, what it raises, and
that it never gets stuck (spec/40_command_common.md R69, R72). -/

namespace Sys2Proof.Machine

/-! ### Output -/

theorem emitBytes_appends (bs : List Byte) (s : State) : AppendsOrFull s (emitBytes bs s) := by
  induction bs generalizing s with
  | nil => exact AppendsOrFull.of_ok (Appends.refl s)
  | cons b bs ih => exact (emitByte_appendsOrFull b s).bind ih

theorem serializeBody_cases (s : State) : AppendsOrFull (setOutput s.obuf 0#32 s) (serializeBody s) :=
  emitBytes_appends _ _

/-- The bytes appended to an empty output are the output. -/
theorem Appends.output_eq {s t : State} {x : List Byte} (h : Appends s x t) (hw : s.outLen = 0#32) : outputOf t = x := by
  have hl := h.outLen
  rw [hw] at hl
  simp only [BitVec.toNat_ofNat, Nat.zero_mod, Nat.zero_add] at hl
  apply List.ext_getElem?
  intro j
  simp only [outputOf, hl, List.getElem?_map]
  by_cases hj : j < x.length
  · have := h.read j
    rw [hw] at this
    simp only [BitVec.toNat_ofNat, Nat.zero_mod, Nat.zero_le, true_and, Nat.zero_add, hj, if_true, Nat.sub_zero] at this
    rw [List.getElem?_range hj]
    simp [this, hj]
  · simp [hj]

/-- The bytes appended to an output follow it. -/
theorem Appends.output_drop {s t : State} {x : List Byte} (h : Appends s x t) :
    (outputOf t).drop s.outLen.toNat = x := by
  have hl := h.outLen
  apply List.ext_getElem?
  intro j
  simp only [outputOf, List.getElem?_drop, List.getElem?_map]
  by_cases hj : j < x.length
  · have := h.read (s.outLen.toNat + j)
    rw [if_pos (by omega), Nat.add_sub_cancel_left] at this
    rw [List.getElem?_range (by omega)]
    simp [this, hj]
  · rw [List.getElem?_eq_none (by simp; omega)]
    simp; omega

/-! ### The tree a valid TREE_V stands for -/

theorem FlagsOk.treeFor {s : State} (h : FlagsOk s) (ht : s.treeV = true) : TreeFor s.freq s.node s.root := by
  have := treeFor_builtTree s.freq
  rwa [h.tree ht] at this

theorem freqTotal_pos {f : Vector Word 256} (h : 0 < freqTotal f) : ∃ b, freqAt f b ≠ 0#32 := by
  by_contra hno
  have hz : ∀ b, freqAt f b = 0#32 := fun b => by
    by_contra hb
    exact hno ⟨b, hb⟩
  have : f = Vector.replicate 256 0#32 := freq_ext fun b => by rw [hz b, freqAt_zero]
  rw [this, freqTotal_zero] at h
  omega

/-- While symbols are still to come there is a root to start from. -/
theorem TreeFor.atRoot {f : Vector Word 256} {t : Vector Node 511} {root : NodeIdx} (h : TreeFor f t root)
    (hp : 0 < freqTotal f) : AtInternal t root := by
  obtain ⟨b, hb⟩ := freqTotal_pos hp
  exact h.rootOk.resolve_left (h.covers b hb).1

/-- Everything DECODE's body can do under its precondition (R100). -/
theorem decodeBody_cases {s : State} (hf : FlagsOk s) (ht : s.treeV = true) :
    (∃ x t, decodeBody s = .ok (decodeEnd t) ∧ Appends (decodeStart s) x t ∧ x.length = s.total.toNat) ∨
    (∃ x t, decodeBody s = raise .streamEos (8 * (s.inLen.toNat - s.payloadOff.toNat)) t ∧
      Appends (decodeStart s) x t ∧ x.length < s.total.toNat) ∨
    (∃ x t k, decodeBody s = raise .streamAbsentChild k t ∧ Appends (decodeStart s) x t ∧
      k < 8 * (s.inLen.toNat - s.payloadOff.toNat) ∧
      ∃ i n, nodeAt s.node i = some n ∧ n.valid = true ∧ n.leaf = false ∧ n.right = NONE) ∨
    (∃ x t, decodeBody s = raise .ioErrorOutput t.outLen.toNat t ∧ Appends (decodeStart s) x t ∧
      s.cfg.obufSize ≤ t.outLen ∧ x.length < s.total.toNat) := by
  have htree := hf.treeFor ht
  have htot := (hf.alphabet (hf.treeNeedsTable ht)).2
  unfold decodeBody
  by_cases h0 : s.total.toNat = 0
  · have hloop : decodeLoop (8 * s.inLen.toNat + 1) (decodeStart s) = .ok (decodeStart s) := by
      rw [decodeLoop, if_neg (by simp only [decodeStart_total, h0]; omega)]
    rw [hloop, Body.bind_ok]
    exact .inl ⟨[], _, rfl, Appends.refl _, by simp [h0]⟩
  · have hroot := htree.atRoot (by omega)
    have hleft : bitsLeft (decodeStart s) = 8 * (s.inLen.toNat - s.payloadOff.toNat) := by
      simp [bitsLeft, decodeStart]
    rcases decodeLoop_cases (8 * s.inLen.toNat + 1) (s := decodeStart s) htree.arena hroot hroot (by rw [hleft]; omega)
      (Nat.zero_le _) with ⟨x, t, h1, h2, h3⟩ | ⟨x, t, h1, h2, h3, h4⟩ | ⟨x, t, h1, h2, h3, h4, h5⟩ | ⟨x, t, h1, h2, h3, h4, h5⟩
    · rw [h1, Body.bind_ok]
      refine .inl ⟨x, t, rfl, h2.1, ?_⟩
      have := h2.2.1
      rw [h3] at this
      have h0 : (decodeStart s).work.cnt = 0 := rfl
      rw [h0, Nat.zero_add] at this
      exact this.symm
    · rw [h1, raise_bind]
      refine .inr (.inl ⟨x, t, ?_, h2.1, ?_⟩)
      · have := h2.2.2
        have h0 : (decodeStart s).work.k = 0 := rfl
        rw [h3, h0, hleft, Nat.zero_add, Nat.add_zero] at this
        rw [this]
      · have := h2.2.1
        have h0 : (decodeStart s).work.cnt = 0 := rfl
        rw [h0, Nat.zero_add] at this
        rw [← this]; exact h4
    · rw [h1, raise_bind]
      refine .inr (.inr (.inl ⟨x, t, t.work.k, rfl, h2, ?_, h5⟩))
      have h0 : (decodeStart s).work.k = 0 := rfl
      rw [h0, hleft] at h4
      omega
    · rw [h1, raise_bind]
      refine .inr (.inr (.inr ⟨x, t, rfl, h2, h3, ?_⟩))
      have h0 : (decodeStart s).work.cnt = 0 := rfl
      rw [h0, Nat.zero_add] at h4
      rw [← h4]; exact h5

/-! ### GENCODES -/

/-- GENCODES under its precondition: the codes of the tree, as `generatedCodes` says (R94). -/
theorem gencodesBody_ok {s : State} (hf : FlagsOk s) (ht : s.treeV = true) : ∃ c,
    gencodesBody s = .ok (codesDone (setCodes c (gencodesStart s))) ∧ generatedCodes s.node s.root = some c ∧
    (∀ b, freqAt s.freq b ≠ 0#32 → follow s.node s.root (codeBits (codeAt c b)) = some (b.setWidth 9) ∧
      codeBits (codeAt c b) ≠ [] ∧ (codeBits (codeAt c b)).length ≤ 255) ∧
    (∀ b, freqAt s.freq b = 0#32 → codeAt c b = Code.empty) ∧ ∀ b, (codeAt c b).Tight := by
  obtain ⟨c, h1, h2, h3, h4⟩ := builtCodes_spec s.freq
  rw [hf.tree ht] at h1 h2 h3
  exact ⟨c, h1 s rfl rfl, h2, h3, h4⟩

end Sys2Proof.Machine
end

