-- ==== Sys2Proof/Laws/Header.lean ====
section
/-! SUPPORT. Headers by value: what DESERIALIZE reads from a written file, and that the header SERIALIZE writes is the header
of the table's own entries (spec/41_frequency.md R78, R81, R83, R84). -/

namespace Sys2Proof.Machine

/-! ### Bytes at a place of IBUF -/

/-- IBUF holds the bytes from index o on. -/
def BytesAt (s : State) (o : Nat) (bs : List Byte) : Prop := ∀ j, j < bs.length → Memory.read s.ibuf (o + j) = bs[j]?

theorem BytesAt.left {s : State} {o : Nat} {x y : List Byte} (h : BytesAt s o (x ++ y)) : BytesAt s o x := fun j hj => by
  rw [h j (by rw [List.length_append]; omega), List.getElem?_append_left hj]

theorem BytesAt.right {s : State} {o : Nat} {x y : List Byte} (h : BytesAt s o (x ++ y)) : BytesAt s (o + x.length) y :=
  fun j hj => by
    rw [Nat.add_assoc, h (x.length + j) (by rw [List.length_append]; omega), List.getElem?_append_right (by omega),
      Nat.add_sub_cancel_left]

theorem BytesAt.congr {s t : State} {o : Nat} {bs : List Byte} (h : BytesAt s o bs) (hi : t.ibuf = s.ibuf) : BytesAt t o bs :=
  fun j hj => by rw [hi]; exact h j hj

theorem bytesAt_input {s : State} (hw : InputWritten s) : BytesAt s 0 (inputOf s) := fun j hj => by
  rw [inputOf, List.length_map, List.length_range] at hj
  have h := hw j hj
  rw [Nat.zero_add, inputOf, List.getElem?_map, List.getElem?_range hj]
  cases hr : Memory.read s.ibuf j with
  | none => rw [hr] at h; cases h
  | some b => simp [hr]

theorem inputOf_length (s : State) : (inputOf s).length = s.inLen.toNat := by simp [inputOf]

theorem readIbuf_at {s : State} {o : Nat} {b : Byte} {bs : List Byte} (h : BytesAt s o (b :: bs)) : readIbuf o s = (b, s) :=
  readIbuf_written (by simpa using h 0 (by simp))

theorem readBytes_at {s : State} {bs : List Byte} {o : Nat} (h : BytesAt s o bs) : readBytes bs.length o s = (bs, s) := by
  induction bs generalizing o with
  | nil => rfl
  | cons b bs ih =>
    have h1 : BytesAt s (o + 1) bs := BytesAt.right (x := [b]) h
    simp only [List.length_cons, readBytes, readIbuf_at h, ih h1]

theorem memRead_at {s : State} {bs : List Byte} {o n : Nat} (h : BytesAt s o bs) (hn : bs.length = n) :
    memRead o n s = (leValue bs, s) := by
  subst hn
  rw [memRead, readBytes_at h]

/-- What the host copied from a written output is written input, and the same bytes (H5 of R126). -/
theorem Copied.input {t s : State} (h : Copied t s) (hw : ∀ i, i < t.outLen.toNat → (Memory.read t.obuf i).isSome = true) :
    InputWritten s ∧ inputOf s = outputOf t := by
  obtain ⟨h1, h2⟩ := h
  refine ⟨fun i hi => ?_, ?_⟩
  · rw [h1] at hi; rw [h2 i hi]; exact hw i hi
  · rw [inputOf, outputOf, h1]
    refine List.map_congr_left fun i hi => ?_
    rw [h2 i (List.mem_range.1 hi)]

/-! ### Entries -/

/-- The bytes of one entry (R78). -/
def entryOf (e : Byte × Word) : List Byte := e.1 :: leBytes 4 e.2.toNat

theorem entryOf_length (e : Byte × Word) : (entryOf e).length = 5 := by simp [entryOf, leBytes_length]

theorem entries_length (es : Entries) : (es.flatMap entryOf).length = 5 * es.length := by
  induction es with
  | nil => rfl
  | cons e es ih => rw [List.flatMap_cons, List.length_append, entryOf_length, ih, List.length_cons]; omega

theorem headerOf_eq (es : Entries) : headerOf es = leBytes 8 es.length ++ es.flatMap entryOf := rfl

theorem headerOf_length (es : Entries) : (headerOf es).length = 8 + 5 * es.length := by
  rw [headerOf_eq, List.length_append, leBytes_length, entries_length]

/-- What reading the entry at offset o comes to (R83). -/
theorem readEntry_at {s : State} {o : Nat} {b : Byte} {c : Word} (h : BytesAt s o (entryOf (b, c))) :
    readEntry o s = if c = 0#32 then headerFail .hdrZeroFreq o s
      else if freqAt s.freq b ≠ 0#32 then headerFail .hdrDupSymbol o s else .ok (setFreq b c s) := by
  have h1 : BytesAt s (o + 1) (leBytes 4 c.toNat) := BytesAt.right (x := [b]) h
  have hv : leValue (leBytes 4 c.toNat) = c.toNat := leValue_leBytes (by simpa using c.isLt)
  have hz : c.toNat = 0 ↔ c = 0#32 := by
    rw [show (0 : Nat) = (0#32).toNat from rfl]
    exact ⟨BitVec.eq_of_toNat_eq, congrArg _⟩
  unfold readEntry
  simp only [readIbuf_at h, memRead_at h1 (leBytes_length _ _), hv, hz, BitVec.ofNat_toNat, BitVec.setWidth_eq]

/-- A table with entries stored in it, in order. -/
def fillTable (f : Vector Word 256) (es : Entries) : Vector Word 256 :=
  es.foldl (fun f e => f.set e.1.toNat e.2 e.1.isLt) f

theorem freqAt_fillTable {es : Entries} (h : EntriesOk es) (f : Vector Word 256) (b : Byte) :
    ((∀ e ∈ es, e.1 ≠ b) → freqAt (fillTable f es) b = freqAt f b) ∧
    ∀ e ∈ es, e.1 = b → freqAt (fillTable f es) b = e.2 := by
  obtain ⟨hd, hz⟩ := h
  induction es generalizing f with
  | nil => simp [fillTable]
  | cons x es ih =>
    rw [List.map_cons, List.nodup_cons] at hd
    obtain ⟨h1, h2⟩ := ih (f := f.set x.1.toNat x.2 x.1.isLt) hd.2 fun e he => hz e (List.mem_cons_of_mem _ he)
    have hstep : fillTable f (x :: es) = fillTable (f.set x.1.toNat x.2 x.1.isLt) es := rfl
    rw [hstep]
    refine ⟨fun hno => ?_, fun e he heb => ?_⟩
    · rw [h1 fun e he => hno e (List.mem_cons_of_mem _ he), freqAt_set, if_neg]
      exact fun hc => hno x (List.mem_cons_self) hc.symm
    · rcases List.mem_cons.1 he with rfl | he
      · rw [h1 fun e' he' hc => hd.1 (List.mem_map.2 ⟨e', he', hc.trans heb.symm⟩), freqAt_set, if_pos heb.symm]
      · exact h2 e he heb

/-- Filling the empty table gives the table of exactly these entries. -/
theorem tableOf_fill {es : Entries} (h : EntriesOk es) : TableOf es (fillTable (Vector.replicate 256 0#32) es) :=
  ⟨fun e he => (freqAt_fillTable h _ e.1).2 e he rfl, fun b hb => by rw [(freqAt_fillTable h _ b).1 hb, freqAt_zero]⟩

theorem TableOf.unique {es : Entries} {f g : Vector Word 256} (hf : TableOf es f) (hg : TableOf es g) : f = g := by
  refine freq_ext fun b => ?_
  by_cases h : ∃ e ∈ es, e.1 = b
  · obtain ⟨e, he, rfl⟩ := h
    rw [hf.1 e he, hg.1 e he]
  · have h' : ∀ e ∈ es, e.1 ≠ b := fun e he hc => h ⟨e, he, hc⟩
    rw [hf.2 b h', hg.2 b h']

theorem entries_length_le {es : Entries} (h : EntriesOk es) : es.length ≤ 256 := by
  have h1 : (es.map fun e => e.1) ⊆ symbols := fun b _ => mem_symbols b
  have h2 := (h.1.subperm h1).length_le
  rwa [List.length_map, symbols_length] at h2

/-- Well-formed entries in IBUF are all stored, whatever entries come after them (R83). -/
theorem readEntries_at {es : Entries} (h : EntriesOk es) (k : Nat) {s : State} {o : Nat}
    (hb : BytesAt s o (es.flatMap entryOf)) (hfree : ∀ e ∈ es, freqAt s.freq e.1 = 0#32) :
    readEntries (es.length + k) o s = readEntries k (o + 5 * es.length) (setTable (fillTable s.freq es) s) := by
  obtain ⟨hd, hz⟩ := h
  induction es generalizing s o with
  | nil => simp [fillTable, setTable_self]
  | cons x es ih =>
    rw [List.map_cons, List.nodup_cons] at hd
    rw [List.flatMap_cons] at hb
    have h1 := readEntry_at hb.left
    rw [if_neg (hz x List.mem_cons_self), if_neg (by simpa using hfree x List.mem_cons_self)] at h1
    have hb' : BytesAt (setFreq x.1 x.2 s) (o + 5) (es.flatMap entryOf) := by
      have := hb.right
      rw [entryOf_length] at this
      exact this.congr rfl
    rw [List.length_cons, show es.length + 1 + k = (es.length + k) + 1 by omega, readEntries, h1, Body.bind_ok,
      ih hb' (fun e he => ?_) hd.2 fun e he => hz e (List.mem_cons_of_mem _ he), show o + 5 + 5 * es.length = o + 5 * (es.length + 1) by omega]
    · rfl
    · rw [setFreq_freq, freqAt_set, if_neg]
      · exact hfree e (List.mem_cons_of_mem _ he)
      · exact fun hc => hd.1 (List.mem_map.2 ⟨e, he, hc⟩)

/-! ### DESERIALIZE of a written input -/

theorem deserializeStart_ibuf_eq (s : State) : (deserializeStart s).ibuf = s.ibuf := rfl

/-- The entry count of a written input of at least 8 bytes (R83). -/
theorem count_at {s : State} (hw : InputWritten s) (h8 : 8 ≤ s.inLen.toNat) :
    memRead 0 8 (deserializeStart s) = (leValue ((inputOf s).take 8), deserializeStart s) := by
  have hb : BytesAt (deserializeStart s) 0 ((inputOf s).take 8) := by
    have := bytesAt_input hw
    rw [← List.take_append_drop 8 (inputOf s)] at this
    exact this.left.congr rfl
  exact memRead_at hb (by rw [List.length_take, inputOf_length]; omega)

/-- DESERIALIZE of an input that starts with a well-formed header (R83). -/
theorem deserializeBody_file {s : State} {es : Entries} {rest : List Byte} (hw : InputWritten s)
    (hi : inputOf s = headerOf es ++ rest) (he : EntriesOk es) :
    ∃ f, TableOf es f ∧ deserializeBody s = .ok (deserializeEnd es.length (setTable f (deserializeStart s))) := by
  refine ⟨_, tableOf_fill he, ?_⟩
  have hlen := inputOf_length s
  rw [hi, List.length_append, headerOf_length] at hlen
  have hle := entries_length_le he
  have hcnt : leValue ((inputOf s).take 8) = es.length := by
    rw [hi, headerOf_eq, List.append_assoc, List.take_left' (leBytes_length _ _), leValue_leBytes (by omega)]
  have hb := bytesAt_input hw
  rw [hi, headerOf_eq, List.append_assoc] at hb
  have hb' := hb.right.left
  rw [leBytes_length] at hb'
  have hr := readEntries_at he 0 (s := deserializeStart s) (hb'.congr rfl) fun e _ => by simp [deserializeStart, freqAt_zero]
  rw [Nat.add_zero] at hr
  unfold deserializeBody
  simp only
  rw [if_neg (by omega), count_at hw (by omega), hcnt]
  unfold deserializeEntries
  rw [if_neg (by omega), if_neg (by simp only [deserializeStart_inLen]; omega), Nat.zero_add] at *
  rw [hr]
  rfl

/-! ### Header errors -/

/-- Everything the entry at offset o can come to, by the value of its bytes (R83): the symbol b and the four bytes of the
count. -/
theorem readEntry_bytes {s : State} {o : Nat} {b : Byte} {cnt : List Byte} (h : BytesAt s o (b :: cnt)) (hc : cnt.length = 4) :
    readEntry o s = if leValue cnt = 0 then headerFail .hdrZeroFreq o s
      else if freqAt s.freq b ≠ 0#32 then headerFail .hdrDupSymbol o s
      else .ok (setFreq b (BitVec.ofNat 32 (leValue cnt)) s) := by
  have h1 : BytesAt s (o + 1) cnt := BytesAt.right (x := [b]) h
  unfold readEntry
  simp only [readIbuf_at h, memRead_at h1 hc]

/-- The first bad entry of n entries over written bytes: a zero count, or a nonzero count and a symbol that an earlier entry, or
the table before them, has (R83, R112). -/
theorem readEntries_raised (n : Nat) {s t : State} {o : Nat} {bs : List Byte} {e : ErrCode} {info : DWord} (hb : BytesAt s o bs)
    (hn : bs.length = 5 * n) (h : readEntries n o s = .raised e info t) :
    ∃ j, j < n ∧ info = BitVec.ofNat 64 (o + 5 * j) ∧
      ((e = .hdrZeroFreq ∧ leValue ((bs.drop (5 * j + 1)).take 4) = 0) ∨
       (e = .hdrDupSymbol ∧ leValue ((bs.drop (5 * j + 1)).take 4) ≠ 0 ∧ ∃ b, bs[5 * j]? = some b ∧
         (freqAt s.freq b ≠ 0#32 ∨ ∃ j', j' < j ∧ bs[5 * j']? = some b))) := by
  induction n generalizing s o bs with
  | zero => cases h
  | succ n ih =>
    obtain ⟨b, bs, rfl⟩ := List.exists_cons_of_length_pos (l := bs) (by omega)
    rw [List.length_cons] at hn
    have hsplit : b :: bs = (b :: bs.take 4) ++ bs.drop 4 := by simp
    rw [hsplit] at hb
    have h1 := readEntry_bytes hb.left (by simp; omega)
    rw [readEntries, h1] at h
    have hdrop : ∀ j, ((b :: bs).drop (5 * (j + 1) + 1)) = (bs.drop 4).drop (5 * j + 1) := fun j => by
      rw [List.drop_drop, show 5 * (j + 1) + 1 = (4 + (5 * j + 1)) + 1 by omega, List.drop_succ_cons]
    have hget : ∀ j, (b :: bs)[5 * (j + 1)]? = (bs.drop 4)[5 * j]? := fun j => by
      rw [List.getElem?_drop, show 5 * (j + 1) = (4 + 5 * j) + 1 by omega, List.getElem?_cons_succ]
    split at h
    · rename_i hz
      simp only [headerFail, raise, Body.bind_raised, Body.raised.injEq] at h
      exact ⟨0, by omega, h.2.1.symm, .inl ⟨h.1.symm, by simpa using hz⟩⟩
    · rename_i hz
      split at h
      · rename_i hf
        simp only [headerFail, raise, Body.bind_raised, Body.raised.injEq] at h
        exact ⟨0, by omega, h.2.1.symm, .inr ⟨h.1.symm, by simpa using hz, b, rfl, .inl hf⟩⟩
      · rw [Body.bind_ok] at h
        have hr := hb.right
        rw [show (b :: bs.take 4).length = 5 by simp; omega] at hr
        obtain ⟨j, hj, hi, hc⟩ := ih (s := setFreq b (BitVec.ofNat 32 (leValue (bs.take 4))) s) (hr.congr rfl) (by rw [List.length_drop]; omega) h
        refine ⟨j + 1, by omega, by rw [hi, show o + 5 + 5 * j = o + 5 * (j + 1) by omega], ?_⟩
        rw [hdrop, hget]
        rcases hc with hc | ⟨h2, h3, x, h4, h5⟩
        · exact .inl hc
        · refine .inr ⟨h2, h3, x, h4, ?_⟩
          rcases h5 with h5 | ⟨j', h6, h7⟩
          · rw [setFreq_freq, freqAt_set] at h5
            split at h5
            · rename_i hx
              exact .inr ⟨0, by omega, by simp [hx]⟩
            · exact .inl h5
          · exact .inr ⟨j' + 1, by omega, by rw [hget]; exact h7⟩

/-- DESERIALIZE's errors, in the order they are checked (R83, R112). -/
theorem deserializeBody_raised {s t : State} {e : ErrCode} {info : DWord} (h : deserializeBody s = .raised e info t) :
    (s.inLen.toNat < 8 ∧ e = .hdrShort ∧ info = BitVec.ofNat 64 s.inLen.toNat) ∨
    (8 ≤ s.inLen.toNat ∧ ∃ n u, memRead 0 8 (deserializeStart s) = (n, u) ∧
      ((256 < n ∧ e = .hdrCountRange ∧ info = BitVec.ofNat 64 n) ∨
       (n ≤ 256 ∧ s.inLen.toNat < 8 + 5 * n ∧ e = .hdrTruncated ∧ info = BitVec.ofNat 64 n) ∨
       (n ≤ 256 ∧ 8 + 5 * n ≤ s.inLen.toNat ∧ readEntries n 8 u = .raised e info t))) := by
  unfold deserializeBody at h
  simp only at h
  split at h
  · rename_i h8
    cases h
    exact .inl ⟨h8, rfl, rfl⟩
  · rename_i h8
    obtain ⟨d, hd⟩ := memRead_frame 0 8 (deserializeStart s)
    generalize memRead 0 8 (deserializeStart s) = r at h hd
    obtain ⟨n, u⟩ := r
    have hlen : u.inLen = s.inLen := by rw [show u = _ from hd]; rfl
    refine .inr ⟨by omega, n, u, rfl, ?_⟩
    unfold deserializeEntries at h
    split at h
    · rename_i hn
      cases h
      exact .inl ⟨hn, rfl, rfl⟩
    · rename_i hn
      rw [hlen] at h
      split at h
      · rename_i hl
        cases h
        exact .inr (.inl ⟨by omega, hl, rfl, rfl⟩)
      · rename_i hl
        refine .inr (.inr ⟨by omega, by omega, ?_⟩)
        rcases Body.bind_raised_iff.1 h with h | ⟨u, -, h⟩
        · exact h
        · cases h

/-! ### The entries of a table -/

/-- The entries of a table, in increasing symbol order (R81). -/
def entriesOf (f : Vector Word 256) : Entries := (symbols.filter fun b => freqAt f b ≠ 0#32).map fun b => (b, freqAt f b)

theorem entriesOf_ok (f : Vector Word 256) : EntriesOk (entriesOf f) := by
  refine ⟨?_, fun e he => ?_⟩
  · rw [entriesOf, List.map_map]
    exact (symbols_nodup.filter _).map_on fun a _ b _ h => h
  · obtain ⟨b, hb, rfl⟩ := List.mem_map.1 he
    simpa using (List.mem_filter.1 hb).2

theorem entriesOf_table (f : Vector Word 256) : TableOf (entriesOf f) f := by
  refine ⟨fun e he => ?_, fun b hb => ?_⟩
  · obtain ⟨b, -, rfl⟩ := List.mem_map.1 he
    rfl
  · by_contra hz
    exact hb (b, freqAt f b) (List.mem_map.2 ⟨b, List.mem_filter.2 ⟨mem_symbols b, by simpa using hz⟩, rfl⟩) rfl

theorem entriesOf_length (f : Vector Word 256) : (entriesOf f).length = alphabetSize f := by
  rw [entriesOf, List.length_map, alphabetSize, List.countP_eq_length_filter]

/-- What SERIALIZE writes is the header of the table's entries (R81). -/
theorem headerBytes_eq (f : Vector Word 256) (n : BitVec 9) (h : n.toNat = alphabetSize f) :
    headerBytes f n = headerOf (entriesOf f) := by
  rw [headerBytes, headerOf_eq, entriesOf_length, h]
  congr 1
  rw [entriesOf]
  generalize symbols = l
  induction l with
  | nil => rfl
  | cons b l ih =>
    rw [List.flatMap_cons, ih, entryBytes]
    by_cases hz : freqAt f b = 0#32
    · simp [hz]
    · simp [hz, entryOf]

/-- A table of well-formed entries has as many symbols as entries, and its total is the sum of their counts. -/
theorem TableOf.sums {es : Entries} {f : Vector Word 256} (he : EntriesOk es) (hf : TableOf es f) :
    alphabetSize f = es.length ∧ freqTotal f = (es.map fun e => e.2.toNat).sum := by
  rw [hf.unique (tableOf_fill he)]
  suffices h : ∀ (g : Vector Word 256), (∀ e ∈ es, freqAt g e.1 = 0#32) →
      alphabetSize (fillTable g es) = alphabetSize g + es.length ∧
      freqTotal (fillTable g es) = freqTotal g + (es.map fun e => e.2.toNat).sum by
    have := h _ fun e _ => freqAt_zero e.1
    rw [alphabetSize_zero, freqTotal_zero, Nat.zero_add, Nat.zero_add] at this
    exact this
  clear hf f
  obtain ⟨hd, hz⟩ := he
  induction es with
  | nil => simp [fillTable]
  | cons x es ih =>
    intro g hg
    rw [List.map_cons, List.nodup_cons] at hd
    obtain ⟨h1, h2⟩ := ih hd.2 (fun e he => hz e (List.mem_cons_of_mem _ he)) (g.set x.1.toNat x.2 x.1.isLt) fun e he => by
      rw [freqAt_set, if_neg fun hc => hd.1 (List.mem_map.2 ⟨e, he, hc⟩)]
      exact hg e (List.mem_cons_of_mem _ he)
    have hstep : fillTable g (x :: es) = fillTable (g.set x.1.toNat x.2 x.1.isLt) es := rfl
    have h3 := alphabetSize_set g x.1 x.2
    have h4 := freqTotal_set g x.1 x.2
    rw [if_pos (hg x List.mem_cons_self), if_neg (hz x List.mem_cons_self)] at h3
    rw [hg x List.mem_cons_self] at h4
    rw [hstep, h1, h2, List.length_cons, List.map_cons, List.sum_cons]
    simp only [BitVec.toNat_ofNat, Nat.zero_mod, Nat.add_zero] at h3 h4
    omega

end Sys2Proof.Machine
end

