-- ==== Sys2Proof/Laws/Invariant.lean ====
section
/-! SUPPORT. The invariant of Safety.lean, part by part: what every body of a command and every host action keeps
(spec/10_state.md R24; spec/40_command_common.md R72). -/

namespace Sys2Proof.Machine

/-! ### Between the stages of a command -/

/-- The invariant inside a command: buffers and flags in order, and no error so far. -/
structure Running (s : State) : Prop where
  buffers : BuffersOk s
  flags   : FlagsOk s
  errCode : s.errCode = .noError
  errInfo : s.errInfo = 0#64

theorem Ready.running {s : State} (h : Ready s) : Running s :=
  ⟨h.1.buffers, h.1.flags, (h.1.lifecycle.busyClean h.2).2, h.1.lifecycle.errInfo (h.1.lifecycle.busyClean h.2).2⟩

/-- A body that ends in a state of the invariant, or raises an error in one; never stuck. -/
def SoundBody (b : Body) : Prop :=
  (∃ t, b = .ok t ∧ Running t) ∨ (∃ e i t, b = .raised e i t ∧ e ≠ .noError ∧ BuffersOk t ∧ FlagsOk t)

/-- A command step whose body is sound ends in the invariant. -/
theorem SoundBody.finish {b : Body} (h : SoundBody b) : ∃ t, finish b = .next t ∧ Inv t := by
  rcases h with ⟨t, rfl, h⟩ | ⟨e, i, t, rfl, he, hb, hf⟩
  · refine ⟨complete t, rfl, ⟨h.buffers.1, h.buffers.2, h.buffers.3, h.buffers.4, h.buffers.5, h.buffers.6, h.buffers.7⟩,
      ⟨?_, fun _ => h.errInfo, ?_, rfl⟩,
      ⟨h.flags.1, h.flags.2, h.flags.3, h.flags.4, h.flags.5, h.flags.6, h.flags.7, h.flags.8, h.flags.9, h.flags.10,
        h.flags.11, h.flags.12⟩⟩
    · intro hb; simp at hb
    · intro hb; simp at hb
  · refine ⟨errorEntry e i t, rfl, ⟨hb.1, hb.2, hb.3, hb.4, hb.5, hb.6, hb.7⟩, ⟨?_, fun hc => ?_, ?_, rfl⟩,
      ⟨hf.1, hf.2, hf.3, hf.4, hf.5, hf.6, hf.7, hf.8, hf.9, hf.10, hf.11, hf.12⟩⟩
    · intro hb; simp [errorEntry] at hb
    · exact absurd hc he
    · intro hb; simp [errorEntry] at hb

theorem SoundBody.bind {b : Body} {f : State → Body} (h : SoundBody b) (hf : ∀ t, b = .ok t → Running t → SoundBody (f t)) :
    SoundBody (b.bind f) := by
  rcases h with ⟨t, rfl, h⟩ | ⟨e, i, t, rfl, h⟩
  · exact hf t rfl h
  · exact .inr ⟨e, i, t, rfl, h⟩

/-- A command step whose precondition fails leaves the invariant as it was. -/
theorem refused_inv {s : State} (e : ErrCode) (info : Nat) (he : e ≠ .noError) (h : Inv s) :
    Inv (errorEntry e (BitVec.ofNat 64 info) s) := by
  obtain ⟨hb, -, hf⟩ := h
  refine ⟨⟨hb.1, hb.2, hb.3, hb.4, hb.5, hb.6, hb.7⟩, ⟨?_, fun hc => ?_, ?_, rfl⟩,
      ⟨hf.1, hf.2, hf.3, hf.4, hf.5, hf.6, hf.7, hf.8, hf.9, hf.10, hf.11, hf.12⟩⟩
  · intro hb; simp [errorEntry] at hb
  · exact absurd hc he
  · intro hb; simp [errorEntry] at hb

theorem runCommand_inv {pre : Bool} {e : ErrCode} {info : Nat} {body : State → Body} {s : State} (he : pre = false → e ≠ .noError)
    (h : Inv s) (hb : pre = true → SoundBody (body s)) : ∃ t, runCommand pre e info body s = .next t ∧ Inv t := by
  cases pre with
  | true => exact (hb rfl).finish
  | false => exact ⟨_, rfl, refused_inv e info (he rfl) h⟩

/-! ### Updates that keep the parts -/

theorem BuffersOk.congr {s t : State} (h : BuffersOk s) (h1 : t.cfg = s.cfg) (h2 : t.ibuf = s.ibuf) (h3 : t.obuf = s.obuf)
    (h4 : t.outLen = s.outLen) : BuffersOk t := by
  obtain ⟨a1, a2, a3, a4, a5, a6, a7⟩ := h
  rw [← h1, ← h2, ← h3, ← h4] at *
  exact ⟨a1, a2, a3, a4, a5, a6, a7⟩

theorem BuffersOk.restart {s t : State} (h : BuffersOk s) (h1 : t.cfg = s.cfg) (h2 : t.ibuf = s.ibuf) (h3 : t.obuf = s.obuf)
    (h4 : t.outLen = 0#32) : BuffersOk t := by
  obtain ⟨a1, a2, a3, a4, a5, a6, a7⟩ := h
  rw [← h1, ← h2, ← h3] at *
  exact ⟨a1, a2, a3, a4, a5, by rw [h4]; simp [BitVec.le_def], fun i hi => by rw [h4] at hi; simp at hi⟩

theorem BuffersOk.appends {s t : State} {x : List Byte} (h : BuffersOk s) (ha : Appends s x t) : BuffersOk t := by
  have h1 := ha.wf h.obufWf
  have h2 := ha.within h.obufWithin
  have h3 := ha.outLen_le h.outLen
  have h4 := ha.written h.output
  obtain ⟨m, n, w, d, rfl⟩ := ha.frame
  exact ⟨h.config, h.ibufWf, h.ibufWithin, h1, h2, h3, h4⟩

/-- The flags speak of these fields only. -/
theorem FlagsOk.congr {s t : State} (h : FlagsOk s) (h1 : t.cfg = s.cfg) (h2 : t.inLen = s.inLen) (h3 : t.ibuf = s.ibuf)
    (h4 : t.ftV = s.ftV) (h5 : t.ftSrc = s.ftSrc) (h6 : t.treeV = s.treeV) (h7 : t.codesV = s.codesV) (h8 : t.freq = s.freq)
    (h9 : t.nsym = s.nsym) (h10 : t.total = s.total) (h11 : t.payloadOff = s.payloadOff) (h12 : t.node = s.node)
    (h13 : t.root = s.root) (h14 : t.code = s.code) (h15 : t.freqKnown = s.freqKnown) (h16 : t.nodeKnown = s.nodeKnown)
    (h17 : t.codeKnown = s.codeKnown) : FlagsOk t := by
  have hi : inputOf t = inputOf s := by simp only [inputOf, h2, h3]
  have hw : InputWritten t ↔ InputWritten s := by simp only [InputWritten, h2, h3]
  obtain ⟨a1, a2, a3, a4, a5, a6, a7, a8, a9, a10, a11, a12⟩ := h
  constructor
  · rw [h5, h4]; exact a1
  · rw [h6, h4]; exact a2
  · rw [h7, h6]; exact a3
  · rw [h4, h15]; exact a4
  · rw [h6, h16]; exact a5
  · rw [h7, h17]; exact a6
  · rw [h4, h2, h1]; exact a7
  · rw [h4, h9, h8, h10]; exact a8
  · rw [h4, h5, h10, h2, hi, hw, h8]; exact a9
  · rw [h4, h5, h11, h9, h2]; exact a10
  · rw [h6, h8, h12, h13]; exact a11
  · rw [h7, h12, h13, h14]; exact a12

/-- With the four flags 0 there is nothing to guarantee. -/
theorem FlagsOk.cleared {t : State} (h1 : t.ftV = false) (h2 : t.ftSrc = false) (h3 : t.treeV = false) (h4 : t.codesV = false) :
    FlagsOk t := by
  constructor <;> simp [h1, h2, h3, h4]

theorem FlagsOk.appends {s t : State} {x : List Byte} (h : FlagsOk s) (ha : Appends s x t) : FlagsOk t := by
  obtain ⟨m, n, w, d, rfl⟩ := ha.frame
  exact h.congr rfl rfl rfl rfl rfl rfl rfl rfl rfl rfl rfl rfl rfl rfl rfl rfl rfl

theorem AppendsOrFull.sound {s : State} {b : Body} (h : AppendsOrFull s b) (hs : Running s) : SoundBody b := by
  rcases h with ⟨x, t, rfl, ha⟩ | ⟨x, t, rfl, ha, -⟩
  · refine .inl ⟨t, rfl, hs.buffers.appends ha, hs.flags.appends ha, ?_, ?_⟩
    · obtain ⟨m, n, w, d, rfl⟩ := ha.frame; exact hs.errCode
    · obtain ⟨m, n, w, d, rfl⟩ := ha.frame; exact hs.errInfo
  · exact .inr ⟨_, _, t, rfl, by simp, hs.buffers.appends ha, hs.flags.appends ha⟩

/-! ### The bodies -/

theorem clearBody_sound {s : State} (h : Running s) : SoundBody (clearBody s) :=
  .inl ⟨_, rfl, h.buffers.restart rfl rfl rfl rfl, FlagsOk.cleared rfl rfl rfl rfl, h.errCode, rfl⟩

theorem countBody_sound {s : State} (h : Running s) (hin : inputFits s = true) : SoundBody (countBody s) := by
  have hle : s.inLen ≤ s.cfg.ibufSize := by simpa [inputFits] using hin
  have htot := countState_total s
  have hcnt : InputWritten s → ∀ b, (freqAt (countState s).freq b).toNat = (inputOf s).count b := fun hw b => by
    obtain ⟨f, hf, hc⟩ := countState_counts hw
    rw [hf, ← hc b]
    rfl
  obtain ⟨f, d, hs⟩ := countState_frame s
  rw [hs] at htot hcnt
  refine .inl ⟨_, rfl, ?_, ?_, ?_, ?_⟩
  · rw [hs]; exact h.buffers.congr rfl rfl rfl rfl
  · rw [hs]
    have hlt := s.inLen.isLt
    have ha := alphabetSize_le f
    have hfreq : (countEnd (setDraws d (setTable f (countStart s)))).freq = f := rfl
    rw [hfreq] at htot hcnt
    have htotal : (countEnd (setDraws d (setTable f (countStart s)))).total.toNat = s.inLen.toNat := by
      show (BitVec.ofNat 64 s.inLen.toNat).toNat = _
      rw [BitVec.toNat_ofNat]; exact Nat.mod_eq_of_lt (by omega)
    refine ⟨fun hc => by simp at hc, fun hc => by simp at hc, fun hc => by simp at hc, fun _ => rfl, fun hc => by simp at hc,
      fun hc => by simp at hc, fun _ => hle, fun _ => ⟨?_, ?_⟩, fun _ _ => ⟨htotal, fun hw => hcnt hw⟩,
      fun _ hc => by simp at hc, fun hc => by simp at hc, fun hc => by simp at hc⟩
    · show (BitVec.ofNat 9 (alphabetSize f)).toNat = alphabetSize f
      rw [BitVec.toNat_ofNat]; exact Nat.mod_eq_of_lt (by omega)
    · rw [htotal, hfreq]; exact htot.symm
  · rw [hs]; exact h.errCode
  · rw [hs]; exact h.errInfo

theorem serializeBody_sound {s : State} (h : Running s) : SoundBody (serializeBody s) :=
  (serializeBody_cases s).sound ⟨h.buffers.restart rfl rfl rfl rfl,
    h.flags.congr rfl rfl rfl rfl rfl rfl rfl rfl rfl rfl rfl rfl rfl rfl rfl rfl rfl, h.errCode, h.errInfo⟩

theorem deserializeBody_sound {s : State} (h : Running s) (hin : inputFits s = true) : SoundBody (deserializeBody s) := by
  have hle : s.inLen ≤ s.cfg.ibufSize := by simpa [inputFits] using hin
  rcases deserializeBody_cases s with ⟨e, i, d, h1, h2⟩ | ⟨n, f, d, h1, h2, h3, h4⟩
  · rw [h1]
    exact .inr ⟨_, _, _, rfl, (fun hc => by subst hc; cases h2), h.buffers.congr rfl rfl rfl rfl, FlagsOk.cleared rfl rfl rfl rfl⟩
  · rw [h1]
    have ht := freqTotal_lt f
    have hn : (BitVec.ofNat 9 n).toNat = n := by rw [BitVec.toNat_ofNat]; exact Nat.mod_eq_of_lt (by omega)
    have hp : (BitVec.ofNat 32 (8 + 5 * n)).toNat = 8 + 5 * n := by
      rw [BitVec.toNat_ofNat]; exact Nat.mod_eq_of_lt (by omega)
    refine .inl ⟨_, rfl, h.buffers.congr rfl rfl rfl rfl, ?_, h.errCode, h.errInfo⟩
    refine ⟨fun _ => rfl, fun hc => by simp at hc, fun hc => by simp at hc, fun _ => rfl, fun hc => by simp at hc,
      fun hc => by simp at hc, fun _ => hle, fun _ => ⟨hn.trans h2.symm, ?_⟩, fun _ hc => by simp at hc,
      fun _ _ => ⟨?_, ?_⟩, fun hc => by simp at hc, fun hc => by simp at hc⟩
    · show (BitVec.ofNat 64 (freqTotal f)).toNat = freqTotal f
      rw [BitVec.toNat_ofNat]; exact Nat.mod_eq_of_lt (by omega)
    · show (BitVec.ofNat 32 (8 + 5 * n)).toNat = 8 + 5 * (BitVec.ofNat 9 n).toNat
      rw [hp, hn]
    · show BitVec.ofNat 32 (8 + 5 * n) ≤ s.inLen
      rw [BitVec.le_def, hp]; exact h3

/-- The flags after a tree has been put in. -/
theorem FlagsOk.retree {s t : State} (h : FlagsOk s) (hft : s.ftV = true) (h1 : t.cfg = s.cfg) (h2 : t.inLen = s.inLen)
    (h3 : t.ibuf = s.ibuf) (h4 : t.ftV = s.ftV) (h5 : t.ftSrc = s.ftSrc) (h6 : t.codesV = false) (h8 : t.freq = s.freq)
    (h9 : t.nsym = s.nsym) (h10 : t.total = s.total) (h11 : t.payloadOff = s.payloadOff) (h15 : t.freqKnown = s.freqKnown)
    (h16 : t.nodeKnown = true) (h17 : builtTree s.freq = (t.node, t.root)) : FlagsOk t := by
  have hi : inputOf t = inputOf s := by simp only [inputOf, h2, h3]
  have hw : InputWritten t ↔ InputWritten s := by simp only [InputWritten, h2, h3]
  obtain ⟨a1, a2, a3, a4, a5, a6, a7, a8, a9, a10, a11, a12⟩ := h
  constructor
  · rw [h5, h4]; exact a1
  · intro _; rw [h4]; exact hft
  · simp [h6]
  · rw [h4, h15]; exact a4
  · intro _; exact h16
  · simp [h6]
  · rw [h4, h2, h1]; exact a7
  · rw [h4, h9, h8, h10]; exact a8
  · rw [h4, h5, h10, h2, hi, hw, h8]; exact a9
  · rw [h4, h5, h11, h9, h2]; exact a10
  · intro _; rw [h8]; exact h17
  · simp [h6]

/-- What BUILD leaves is a tree for the flags to speak of. -/
theorem Running.built {s : State} (h : Running s) (hft : s.ftV = true) (w : Work) :
    Running (treeDone (setRoot (builtTree s.freq).2 (setArena (builtTree s.freq).1 (setWork w (buildStart s))))) := by
  refine ⟨h.buffers.congr ?_ ?_ ?_ ?_, h.flags.retree hft ?_ ?_ ?_ ?_ ?_ ?_ ?_ ?_ ?_ ?_ ?_ ?_ ?_, ?_, ?_⟩ <;>
    simp [h.errCode, h.errInfo]

theorem buildBody_sound {s : State} (h : Running s) (hft : s.ftV = true) : SoundBody (buildBody s) := by
  obtain ⟨w, hs⟩ := buildState_frame s
  exact .inl ⟨_, rfl, hs ▸ h.built hft w⟩

theorem gencodesBody_sound {s : State} (h : Running s) (ht : s.treeV = true) : SoundBody (gencodesBody s) := by
  obtain ⟨c, h1, h2, -⟩ := gencodesBody_ok h.flags ht
  rw [h1]
  obtain ⟨a1, a2, a3, a4, a5, a6, a7, a8, a9, a10, a11, a12⟩ := h.flags
  exact .inl ⟨_, rfl, h.buffers.congr rfl rfl rfl rfl,
    ⟨a1, a2, fun _ => ht, a4, a5, fun _ => rfl, a7, a8, a9, a10, a11, fun _ => h2⟩, h.errCode, h.errInfo⟩

theorem Running.appends {s t : State} {x : List Byte} (h : Running s) (ha : Appends s x t) : Running t := by
  have hb := h.buffers.appends ha
  have hf := h.flags.appends ha
  obtain ⟨m, n, w, d, rfl⟩ := ha.frame
  exact ⟨hb, hf, h.errCode, h.errInfo⟩

theorem Running.packStart {s : State} (h : Running s) : Running (packStart s) := ⟨h.buffers.congr rfl rfl rfl rfl,
  h.flags.congr rfl rfl rfl rfl rfl rfl rfl rfl rfl rfl rfl rfl rfl rfl rfl rfl rfl, h.errCode, h.errInfo⟩

theorem Running.packEnd {s : State} (h : Running s) : Running (packEnd s) := ⟨h.buffers.congr rfl rfl rfl rfl,
  h.flags.congr rfl rfl rfl rfl rfl rfl rfl rfl rfl rfl rfl rfl rfl rfl rfl rfl rfl, h.errCode, h.errInfo⟩

theorem Running.decodeStart {s : State} (h : Running s) : Running (decodeStart s) := ⟨h.buffers.restart rfl rfl rfl rfl,
  h.flags.congr rfl rfl rfl rfl rfl rfl rfl rfl rfl rfl rfl rfl rfl rfl rfl rfl rfl, h.errCode, h.errInfo⟩

theorem Running.decodeEnd {s : State} (h : Running s) : Running (decodeEnd s) := ⟨h.buffers.congr rfl rfl rfl rfl,
  h.flags.congr rfl rfl rfl rfl rfl rfl rfl rfl rfl rfl rfl rfl rfl rfl rfl rfl rfl, h.errCode, h.errInfo⟩

theorem packBody_sound {s : State} (h : Running s) : SoundBody (packBody s) := by
  rcases packBody_cases s with ⟨x, t, h1, h2⟩ | ⟨x, t, h1, h2, -⟩
  · rw [h1]
    exact .inl ⟨_, rfl, (h.packStart.appends h2).packEnd⟩
  · rw [h1]
    exact .inr ⟨_, _, t, rfl, by simp, h.packStart.buffers.appends h2, h.packStart.flags.appends h2⟩

theorem decodeBody_sound {s : State} (h : Running s) (ht : s.treeV = true) : SoundBody (decodeBody s) := by
  rcases decodeBody_cases h.flags ht with ⟨x, t, h1, h2, -⟩ | ⟨x, t, h1, h2, -⟩ | ⟨x, t, k, h1, h2, -⟩ | ⟨x, t, h1, h2, -⟩
  · rw [h1]
    exact .inl ⟨_, rfl, (h.decodeStart.appends h2).decodeEnd⟩
  all_goals
    rw [h1]
    exact .inr ⟨_, _, t, rfl, by simp, h.decodeStart.buffers.appends h2, h.decodeStart.flags.appends h2⟩

theorem Running.stage {s : State} (h : Running s) (n : Nat) : Running (enterStage n s) :=
  ⟨h.buffers.congr rfl rfl rfl rfl, h.flags.congr rfl rfl rfl rfl rfl rfl rfl rfl rfl rfl rfl rfl rfl rfl rfl rfl rfl,
    h.errCode, h.errInfo⟩

/-! ### What a stage leaves for the next one's precondition -/

theorem countBody_flags {s t : State} (h : countBody s = .ok t) : t.ftV = true ∧ t.ftSrc = false := by
  obtain ⟨f, d, hs⟩ := countState_frame s
  rw [← Body.ok.inj h, hs]
  exact ⟨rfl, rfl⟩

theorem serializeBody_frame {s t : State} (h : serializeBody s = .ok t) : ∃ m n w d,
    t = setDraws d (setWork w (setOutput m n s)) := by
  rcases serializeBody_cases s with ⟨x, u, h1, h2⟩ | ⟨x, u, h1, -⟩
  · rw [h1] at h; cases h
    obtain ⟨m, n, w, d, rfl⟩ := h2.frame
    exact ⟨m, n, w, d, rfl⟩
  · rw [h1] at h; cases h

theorem buildBody_flags {s t : State} (h : buildBody s = .ok t) : t.treeV = true ∧ t.ftSrc = s.ftSrc := by
  obtain ⟨w, hs⟩ := buildState_frame s
  rw [← Body.ok.inj h, hs]
  exact ⟨rfl, rfl⟩

theorem compressBody_sound {s : State} (h : Running s) (hin : inputFits s = true) : SoundBody (compressBody s) := by
  unfold compressBody
  simp only [Body.bind_assoc]
  refine SoundBody.bind (countBody_sound (h.stage 1) hin) fun t1 e1 h1 => ?_
  have hf1 := (countBody_flags e1).1
  refine SoundBody.bind (serializeBody_sound (h1.stage 2)) fun t2 e2 h2 => ?_
  have hf2 : t2.ftV = true := by
    obtain ⟨m, n, w, d, rfl⟩ := serializeBody_frame e2
    exact hf1
  refine SoundBody.bind (buildBody_sound (h2.stage 3) hf2) fun t3 e3 h3 => ?_
  refine SoundBody.bind (gencodesBody_sound (h3.stage 4) (buildBody_flags e3).1) fun t4 e4 h4 => ?_
  exact packBody_sound (h4.stage 5)

theorem deserializeBody_flags {s t : State} (h : deserializeBody s = .ok t) : t.ftV = true ∧ t.ftSrc = true := by
  rcases deserializeBody_cases s with ⟨e, i, d, h1, -⟩ | ⟨n, f, d, h1, -⟩ <;> rw [h1] at h <;> cases h
  exact ⟨rfl, rfl⟩

theorem decompressBody_sound {s : State} (h : Running s) (hin : inputFits s = true) : SoundBody (decompressBody s) := by
  have h0 : Running (setOutput s.obuf 0#32 s) := ⟨h.buffers.restart rfl rfl rfl rfl,
    h.flags.congr rfl rfl rfl rfl rfl rfl rfl rfl rfl rfl rfl rfl rfl rfl rfl rfl rfl, h.errCode, h.errInfo⟩
  unfold decompressBody
  simp only [Body.bind_assoc]
  refine SoundBody.bind (deserializeBody_sound (h0.stage 1) hin) fun t1 e1 h1 => ?_
  refine SoundBody.bind (buildBody_sound (h1.stage 2) (deserializeBody_flags e1).1) fun t2 e2 h2 => ?_
  exact decodeBody_sound (h2.stage 3) (buildBody_flags e2).1

/-! ### Host actions -/

theorem Inv.congr {s t : State} (h : Inv s) (hb : BuffersOk t) (hf : FlagsOk t) (h1 : t.busy = s.busy) (h2 : t.done = s.done)
    (h3 : t.errCode = s.errCode) (h4 : t.errInfo = s.errInfo) (h5 : t.lastOp = s.lastOp) (h6 : t.curCmd = s.curCmd)
    (h7 : t.work = s.work) : Inv t := by
  obtain ⟨a1, a2, a3, a4⟩ := h.lifecycle
  exact ⟨hb, ⟨by rw [h1, h2, h3]; exact a1, by rw [h3, h4]; exact a2, by rw [h1, h5, h6]; exact a3, by rw [h7]; exact a4⟩, hf⟩

/-- A change of the fields the invariant does not speak of. -/
theorem Inv.free {s : State} (h : Inv s) (ovr : Bool) (ien ist : BitVec 2) (o c : DWord) (sc : List HostAction)
    (r : List Reply) (de dr : Nat) :
    Inv { s with
      ovr := ovr, irqEn := ien, irqStatus := ist, origBits := o, compBits := c, script := sc, reads := r, delay := de
      draws := dr } :=
  h.congr (h.buffers.congr rfl rfl rfl rfl)
    (h.flags.congr rfl rfl rfl rfl rfl rfl rfl rfl rfl rfl rfl rfl rfl rfl rfl rfl rfl) rfl rfl rfl rfl rfl rfl rfl

theorem accepted_inv {s : State} (h : Inv s) (v : Word) : Inv (accepted v s) :=
  ⟨h.buffers.congr rfl rfl rfl rfl, ⟨fun _ => ⟨rfl, rfl⟩, fun _ => rfl, fun _ => rfl, h.lifecycle.work⟩,
    h.flags.congr rfl rfl rfl rfl rfl rfl rfl rfl rfl rfl rfl rfl rfl rfl rfl rfl rfl⟩

theorem resetWith_inv {c : Config} (h : c.wellFormed = true) (sc : List HostAction) (r : List Reply) (dr : Nat) :
    Inv { State.resetWith c with script := sc, reads := r, draws := dr } :=
  ⟨⟨h, rfl, rfl, rfl, rfl, by simp [State.resetWith, BitVec.le_def], fun i hi => by simp [State.resetWith] at hi⟩,
    ⟨fun hb => by simp [State.resetWith] at hb, fun _ => rfl, fun hb => by simp [State.resetWith] at hb, rfl⟩,
    FlagsOk.cleared rfl rfl rfl rfl⟩

theorem readIbuf_keeps {s : State} (h : Inv s) (i : Nat) : Inv (readIbuf i s).2 := by
  obtain ⟨d, hd⟩ := readIbuf_frame i s
  rw [hd]
  exact h.free s.ovr s.irqEn s.irqStatus s.origBits s.compBits s.script s.reads s.delay d

theorem reply_keeps {s : State} (h : Inv s) (v : Reply) : Inv (reply v s) :=
  h.free s.ovr s.irqEn s.irqStatus s.origBits s.compBits s.script (v :: s.reads) s.delay s.draws

theorem drawn_keeps {s : State} (h : Inv s) : Inv (drawn s) :=
  h.free s.ovr s.irqEn s.irqStatus s.origBits s.compBits s.script s.reads s.delay (s.draws + 1)

theorem overrun_keeps {s : State} (h : Inv s) : Inv (overrun s) :=
  h.free true s.irqEn s.irqStatus s.origBits s.compBits s.script s.reads s.delay s.draws

theorem hostRegRead_keeps {s : State} (h : Inv s) (off : BitVec 16) : Inv (hostRegRead off s) := by
  unfold hostRegRead
  simp only
  split
  · exact reply_keeps (drawn_keeps h) _
  · exact reply_keeps h _

theorem hostIbufWrite_keeps {s : State} (h : Inv s) (i : Nat) (v : Byte) : Inv (hostIbufWrite i v s) := by
  unfold hostIbufWrite
  split
  · rename_i hi
    split
    · exact overrun_keeps h
    · obtain ⟨a1, a2, a3, a4, a5, a6, a7⟩ := h.buffers
      exact h.congr ⟨a1, Memory.wf_write _ _ _ a2, Memory.within_write _ _ a3 hi, a4, a5, a6, a7⟩
        (FlagsOk.cleared rfl rfl rfl rfl) rfl rfl rfl rfl rfl rfl rfl
  · exact h

theorem hostObufRead_keeps {s : State} (h : Inv s) (i : Nat) : Inv (hostObufRead i s) := by
  unfold hostObufRead
  split
  · split
    · exact reply_keeps (drawn_keeps h) _
    · split
      · exact reply_keeps h _
      · exact reply_keeps (drawn_keeps h) _
  · exact reply_keeps h _

theorem acceptCmd_keeps {s : State} (h : Inv s) (v : Word) : Inv (acceptCmd v s) :=
  (accepted_inv h v).free s.ovr s.irqEn s.irqStatus s.origBits s.compBits s.script s.reads (Config.commandDelay s.draws)
    (s.draws + 1)

theorem hostRegWrite_keeps {s : State} (h : Inv s) (off : BitVec 16) (v : Word) : Inv (hostRegWrite off v s) := by
  unfold hostRegWrite
  cases regAt off with
  | cmd =>
    simp only
    split
    · exact overrun_keeps h
    · exact acceptCmd_keeps h v
  | inLen =>
    simp only
    split
    · exact overrun_keeps h
    · exact h.congr (h.buffers.congr rfl rfl rfl rfl) (FlagsOk.cleared rfl rfl rfl rfl) rfl rfl rfl rfl rfl rfl rfl
  | irqEn => exact h.free s.ovr (v.extractLsb' 0 2) s.irqStatus s.origBits s.compBits s.script s.reads s.delay s.draws
  | irqStatus =>
    exact h.free s.ovr s.irqEn (s.irqStatus &&& ~~~(v.extractLsb' 0 2)) s.origBits s.compBits s.script s.reads s.delay s.draws
  | _ => exact h

theorem hostAct_keeps {s : State} (h : Inv s) (a : HostAction) : Inv (hostAct a s) := by
  cases a with
  | regRead off => exact hostRegRead_keeps h off
  | regWrite off v => exact hostRegWrite_keeps h off v
  | ibufRead i =>
    show Inv (hostIbufRead i s)
    unfold hostIbufRead
    split
    · exact reply_keeps (readIbuf_keeps h i) _
    · exact reply_keeps h _
  | ibufWrite i v => exact hostIbufWrite_keeps h i v
  | obufRead i => exact hostObufRead_keeps h i
  | obufWrite i v => exact h
  | wait =>
    have := hostRegRead_keeps h 0x00C#16
    simp only [hostAct]
    generalize hostRegRead 0x00C#16 s = t at this
    split
    · exact this.free t.ovr t.irqEn t.irqStatus t.origBits t.compBits (.wait :: t.script) t.reads t.delay t.draws
    · exact this
  | waitIrq =>
    simp only [hostAct]
    split
    · exact h
    · exact h.free s.ovr s.irqEn s.irqStatus s.origBits s.compBits (.waitIrq :: s.script) s.reads s.delay s.draws
  | reset => exact resetWith_inv h.buffers.config _ _ _

/-! ### Command steps -/

/-- Every command, in any running state of the invariant, ends in a state of the invariant (R72). -/
theorem exec_inv {s : State} (h : Ready s) (i : Instr) : ∃ t, exec i s = .next t ∧ Inv t := by
  have hr := h.running
  cases i with
  | nop => exact runCommand_inv (pre := true) (e := .noError) (info := 0) (fun hc => nomatch hc) h.1 fun _ => .inl ⟨s, rfl, hr⟩
  | clear => exact runCommand_inv (pre := true) (e := .noError) (info := 0) (fun hc => nomatch hc) h.1 fun _ => clearBody_sound hr
  | count => exact runCommand_inv (by simp) h.1 (countBody_sound hr)
  | serialize => exact runCommand_inv (by simp) h.1 fun _ => serializeBody_sound hr
  | build => exact runCommand_inv (by simp) h.1 (buildBody_sound hr)
  | gencodes => exact runCommand_inv (by simp) h.1 (gencodesBody_sound hr)
  | pack => exact runCommand_inv (by simp) h.1 fun _ => packBody_sound hr
  | compress => exact runCommand_inv (by simp) h.1 (compressBody_sound hr)
  | deserialize => exact runCommand_inv (by simp) h.1 (deserializeBody_sound hr)
  | decode => exact runCommand_inv (by simp) h.1 fun hp => decodeBody_sound hr (by simp_all)
  | decompress => exact runCommand_inv (by simp) h.1 (decompressBody_sound hr)

end Sys2Proof.Machine
end

