-- ==== Sys2Proof/Laws/Paths.lean ====
section
/-! SUPPORT. Paths in a finished tree: the last step of a path, and that a node has one path from the root
(spec/42_tree.md R92). -/

namespace Sys2Proof.Machine

/-- The last step of a path goes from a valid internal node to its child. -/
theorem follow_snoc {t : Vector Node 511} (ha : ArenaOk t) {i j : NodeIdx} {p : List Bool} {b : Bool}
    (hi : ∃ n, nodeAt t i = some n ∧ n.valid = true) (h : follow t i (p ++ [b]) = some j) :
    ∃ x n, follow t i p = some x ∧ nodeAt t x = some n ∧ n.valid = true ∧ n.leaf = false ∧ n.child b = j := by
  induction p generalizing i with
  | nil =>
    obtain ⟨n, hn, hl, hc, h⟩ := follow_cons_some h
    obtain ⟨n', hn', hv⟩ := hi
    rw [hn] at hn'; cases hn'
    exact ⟨i, n, rfl, hn, hv, hl, by simpa [follow] using h⟩
  | cons c p ih =>
    obtain ⟨n, hn, hl, hc, h⟩ := follow_cons_some h
    obtain ⟨n', hn', hv⟩ := hi
    rw [hn] at hn'; cases hn'
    obtain ⟨x, m, h1, h2⟩ := ih (ha.child hn hv hl c hc).2 h
    exact ⟨x, m, by rw [follow_cons hn hl hc]; exact h1, h2⟩

/-- In a finished forest of one tree every node has one path from the root. -/
theorem Growing.path_unique {f : Vector Word 256} {t : Vector Node 511} {root : NodeIdx} {m : Nat} (h : Growing f t [root] m)
    {p q : List Bool} {j : NodeIdx} (hp : follow t root p = some j) (hq : follow t root q = some j) : p = q := by
  have hv := (h.queued root (by simp)).2
  have hno : ∀ i, ¬ HasChild t i root := by
    obtain ⟨n, hn, hv⟩ := hv
    exact (h.roots root n hn hv).1 (by simp)
  have child : ∀ {x : NodeIdx} {n : Node} {b : Bool} {j : NodeIdx}, nodeAt t x = some n → n.valid = true → n.leaf = false →
      n.child b = j → HasChild t x j := fun {x n b j} h1 h2 h3 h4 => by
    refine ⟨n, h1, h2, h3, ?_⟩
    cases b with
    | false => exact .inl h4
    | true => exact .inr h4
  induction p using List.reverseRecOn generalizing q j with
  | nil =>
    simp only [follow, Option.some.injEq] at hp
    subst hp
    rcases List.eq_nil_or_concat q with rfl | ⟨q, b, rfl⟩
    · rfl
    · rw [List.concat_eq_append] at hq
      obtain ⟨x, n, -, h1, h2, h3, h4⟩ := follow_snoc h.arena hv hq
      exact absurd (child h1 h2 h3 h4) (hno x)
  | append_singleton p b ih =>
    obtain ⟨x, n, h0, h1, h2, h3, h4⟩ := follow_snoc h.arena hv hp
    rcases List.eq_nil_or_concat q with rfl | ⟨q, c, rfl⟩
    · simp only [follow, Option.some.injEq] at hq
      subst hq
      exact absurd (child h1 h2 h3 h4) (hno x)
    · rw [List.concat_eq_append] at hq ⊢
      obtain ⟨y, n', g0, g1, g2, g3, g4⟩ := follow_snoc h.arena hv hq
      obtain rfl := h.unique x y j (child h1 h2 h3 h4) (child g1 g2 g3 g4)
      rw [h1] at g1; cases g1
      rw [ih h0 g0]
      have h256 : 256#9 ≤ x := by
        by_contra hlt
        have := ((h.arena x n h1 h2).1 (by simpa using hlt)).1
        rw [h3] at this; cases this
      have hxm : x.toNat < m := by
        by_contra hge
        have := h.fresh x (by omega) (nodeAt_some_ne h1)
        rw [h1] at this; cases this
        simp [Node.empty] at h2
      obtain ⟨n', hn', -, -, hLR, -⟩ := h.internal x (by rw [BitVec.le_def] at h256; simpa using h256) hxm
      rw [h1] at hn'; cases hn'
      have : b = c := by
        cases b <;> cases c <;> simp only [Node.child, if_true, Bool.false_eq_true, if_false] at h4 g4 <;> try rfl
        · exact absurd (h4.trans g4.symm) hLR
        · exact absurd (g4.trans h4.symm) hLR
      rw [this]

/-! ### The three shapes of a tree -/

/-- The tree of two or more symbols (R87, R92). -/
theorem builtTree_many {f : Vector Word 256} (h : 2 ≤ alphabetSize f) :
    (builtTree f).2 = BitVec.ofNat 9 (256 + alphabetSize f - 2) ∧
    Growing f (builtTree f).1 [(builtTree f).2] (256 + alphabetSize f - 1) := by
  obtain ⟨s, rfl⟩ : ∃ s : State, f = s.freq := ⟨setTable f State.reset, by rw [setTable_freq]⟩
  exact buildState_many h

/-- The tree of one symbol (R90). -/
theorem builtTree_one {f : Vector Word 256} {b : Byte} (h : freqAt f b ≠ 0#32) (h' : ∀ c, c ≠ b → freqAt f c = 0#32) :
    (builtTree f).2 = 256#9 ∧ nodeAt (builtTree f).1 256#9 = some
      { valid := true, leaf := false, freq := (freqAt f b).setWidth 40, left := b.setWidth 9, right := NONE } ∧
    ∀ i, i ≠ 256#9 → i ≠ NONE → nodeAt (builtTree f).1 i = some (if i < 256#9 then leafSlot f (i.setWidth 8) else Node.empty) := by
  obtain ⟨s, rfl⟩ : ∃ s : State, f = s.freq := ⟨setTable f State.reset, by rw [setTable_freq]⟩
  have hp : presentIdx s.freq = [b.setWidth 9] := by
    unfold presentIdx
    have : symbols.filter (fun b => decide (freqAt s.freq b ≠ 0#32)) = [b] := by
      have hn : (symbols.filter (fun b => decide (freqAt s.freq b ≠ 0#32))).Nodup := symbols_nodup.filter _
      have hm : ∀ c, c ∈ symbols.filter (fun b => decide (freqAt s.freq b ≠ 0#32)) ↔ c = b := by
        intro c
        simp only [List.mem_filter, mem_symbols, true_and, decide_eq_true_eq]
        exact ⟨fun hc => by by_contra hne; exact hc (h' c hne), fun hc => hc ▸ h⟩
      have := (List.perm_ext_iff_of_nodup hn (List.nodup_singleton b)).2 (by simpa using hm)
      exact List.perm_singleton.1 this
    rw [this]; rfl
  obtain ⟨h1, h2⟩ := buildState_lone hp
  have hl := plantLeaves_leaf s b
  refine ⟨h1, ?_, fun i hi hN => ?_⟩
  · rw [h2, show (256 : Nat) = (256#9 : NodeIdx).toNat from rfl, nodeAt_set, if_pos ⟨rfl, by decide⟩, loneRoot, nodeFreq,
      hl, leafSlot, if_neg h]
    rfl
  · rw [h2, show (256 : Nat) = (256#9 : NodeIdx).toNat from rfl, nodeAt_set, if_neg (by simp [hi])]
    exact plantLeaves_node s i hN

/-- The tree of the empty table (R89). -/
theorem builtTree_none {f : Vector Word 256} (h : ∀ b, freqAt f b = 0#32) : 
    (builtTree f).2 = NONE ∧ (builtTree f).1 = Vector.replicate 511 Node.empty := by
  obtain ⟨s, rfl⟩ : ∃ s : State, f = s.freq := ⟨setTable f State.reset, by rw [setTable_freq]⟩
  exact buildState_empty (by unfold presentIdx; simp [h])

end Sys2Proof.Machine
end

