-- ==== Sys2Proof/Laws/Exec.lean ====
section
/-! SUPPORT. Every command's step as the end of its body, where its precondition holds, and as the error of the table of
spec/40_command_common.md R69 where it does not; and how commands end (R70, R109). -/

namespace Sys2Proof.Machine

/-! ### How a body's end ends the command -/

theorem finish_raise (e : ErrCode) (n : Nat) (s : State) : finish (raise e n s) = .next (errorEntry e (BitVec.ofNat 64 n) s) := rfl

/-- Completion without an error (R70). -/
theorem complete_succeeded {s : State} (h : s.errCode = .noError) : complete s = succeeded s := by
  simp only [complete, succeeded, h, ne_eq, not_true_eq_false, if_false]

/-- Error entry (R109, R113). -/
theorem errorEntry_failed {e : ErrCode} (h : e ≠ .noError) (info : DWord) (s : State) : errorEntry e info s = failed e info s := by
  simp only [errorEntry, complete, recordError, failed, ne_eq, h, not_false_eq_true, if_true]

theorem inputFits_true {s : State} : inputFits s = true ↔ s.inLen ≤ s.cfg.ibufSize := by simp [inputFits]

theorem inputFits_false {s : State} : inputFits s = false ↔ s.cfg.ibufSize < s.inLen := by
  simp [inputFits, BitVec.lt_def, BitVec.le_def]

/-! ### The commands whose precondition holds -/

theorem exec_nop (s : State) : exec .nop s = .next (complete s) := rfl

theorem exec_clear (s : State) : exec .clear s = .next (complete (clearState s)) := rfl

theorem exec_count {s : State} (h : s.inLen ≤ s.cfg.ibufSize) : exec .count s = .next (complete (countState s)) := by
  simp only [exec, execCount, runCommand, inputFits_true.2 h, if_true]; rfl

theorem exec_serialize {s : State} (h : s.ftV = true) : exec .serialize s = finish (serializeBody s) := by
  simp only [exec, execSerialize, runCommand, h, if_true]

theorem exec_build {s : State} (h : s.ftV = true) : exec .build s = .next (complete (buildState s)) := by
  simp only [exec, execBuild, runCommand, h, if_true]; rfl

theorem exec_gencodes {s : State} (h : s.treeV = true) : exec .gencodes s = finish (gencodesBody s) := by
  simp only [exec, execGencodes, runCommand, h, if_true]

theorem exec_pack {s : State} (h : s.codesV = true) (h' : s.ftSrc = false) : exec .pack s = finish (packBody s) := by
  simp only [exec, execPack, runCommand, h, h', Bool.not_false, Bool.and_self, if_true]

theorem exec_compress {s : State} (h : s.inLen ≤ s.cfg.ibufSize) : exec .compress s = finish (compressBody s) := by
  simp only [exec, execCompress, runCommand, inputFits_true.2 h, if_true]

theorem exec_deserialize {s : State} (h : s.inLen ≤ s.cfg.ibufSize) : exec .deserialize s = finish (deserializeBody s) := by
  simp only [exec, execDeserialize, runCommand, inputFits_true.2 h, if_true]

theorem exec_decode {s : State} (h : s.treeV = true) (h' : s.ftSrc = true) : exec .decode s = finish (decodeBody s) := by
  simp only [exec, execDecode, runCommand, h, h', Bool.and_self, if_true]

theorem exec_decompress {s : State} (h : s.inLen ≤ s.cfg.ibufSize) : exec .decompress s = finish (decompressBody s) := by
  simp only [exec, execDecompress, runCommand, inputFits_true.2 h, if_true]

/-! ### The commands whose precondition fails (R69) -/

theorem exec_input_refused {s : State} (h : s.cfg.ibufSize < s.inLen) {i : Instr}
    (hi : i ∈ [Instr.count, .compress, .deserialize, .decompress]) :
    exec i s = .next (failed .ioErrorInput (BitVec.ofNat 64 s.inLen.toNat) s) := by
  have hf := inputFits_false.2 h
  simp only [List.mem_cons, List.not_mem_nil, or_false] at hi
  rcases hi with rfl | rfl | rfl | rfl <;>
    simp only [exec, execCount, execCompress, execDeserialize, execDecompress, runCommand, hf, Bool.false_eq_true, if_false] <;>
    rw [errorEntry_failed (by simp)]

theorem exec_table_refused {s : State} (h : s.ftV = false) {i : Instr} (hi : i ∈ [Instr.serialize, .build]) :
    exec i s = .next (failed .seqError 0#64 s) := by
  simp only [List.mem_cons, List.not_mem_nil, or_false] at hi
  rcases hi with rfl | rfl <;>
    simp only [exec, execSerialize, execBuild, runCommand, h, Bool.false_eq_true, if_false] <;>
    rw [errorEntry_failed (by simp)]

theorem exec_gencodes_refused {s : State} (h : s.treeV = false) : exec .gencodes s = .next (failed .seqError 0#64 s) := by
  simp only [exec, execGencodes, runCommand, h, Bool.false_eq_true, if_false]
  rw [errorEntry_failed (by simp)]

theorem exec_pack_refused {s : State} (h : (s.codesV && !s.ftSrc) = false) : exec .pack s = .next (failed .seqError 0#64 s) := by
  simp only [exec, execPack, runCommand, h, Bool.false_eq_true, if_false]
  rw [errorEntry_failed (by simp)]

theorem exec_decode_refused {s : State} (h : (s.treeV && s.ftSrc) = false) : exec .decode s = .next (failed .seqError 0#64 s) := by
  simp only [exec, execDecode, runCommand, h, Bool.false_eq_true, if_false]
  rw [errorEntry_failed (by simp)]

/-! ### Where DECODE starts -/

theorem payloadOf_length (s : State) : (payloadOf s).length = 8 * (s.inLen.toNat - s.payloadOff.toNat) := by
  rw [payloadOf, bitsOfBytes_length, List.length_drop, inputOf_length]

/-- Over written input the unpacker starts with the payload still to be read (R98, R100). -/
theorem decodeStart_unreads {s : State} (hw : InputWritten s) :
    Unpacking (decodeStart s) ∧ unreadBits (decodeStart s) = payloadOf s := by
  refine ⟨⟨by simp [decodeStart], fun j _ hj => hw j hj⟩, ?_⟩
  have : unreadBytes (decodeStart s) = (inputOf s).drop s.payloadOff.toNat := by
    apply List.ext_getElem?
    intro j
    rw [List.getElem?_drop]
    simp only [unreadBytes, inputOf, List.getElem?_map, decodeStart_inLen, decodeStart_ibuf]
    show Option.map _ (List.range (s.inLen.toNat - s.payloadOff.toNat))[j]? =
      Option.map _ (List.range s.inLen.toNat)[s.payloadOff.toNat + j]?
    by_cases h : j < s.inLen.toNat - s.payloadOff.toNat
    · rw [List.getElem?_range h, List.getElem?_range (by omega)]; rfl
    · rw [List.getElem?_eq_none (by simp; omega), List.getElem?_eq_none (by simp; omega)]; rfl
  rw [unreadBits, payloadOf, this]
  simp [decodeStart]

/-- The path of a symbol has at least one bit: a root is no leaf (R90, R92). -/
theorem FlagsOk.path_ne_nil {s : State} (hf : FlagsOk s) (ht : s.treeV = true) {p : List Bool} {b : Byte}
    (h : IsPath s.node s.root p b) : p ≠ [] := by
  rintro rfl
  have := h.1
  simp only [follow, Option.some.injEq] at this
  rcases (hf.treeFor ht).rootOk with h | ⟨h, -⟩
  · rw [this] at h; exact symIdx_ne_none b h
  · rw [this] at h; exact symIdx_not_internal b h

/-! ### Frames on any state, a malformed tree included -/

/-- The walk of GENCODES on any state: it changes CODE only, or gets stuck (R94). -/
theorem walk_frame (fuel : Nat) : ∀ (i : NodeIdx) (c l : Nat) (s : State),
    (∃ k, walk fuel i c l s = .ok (setCodes k s)) ∨ ∃ f, walk fuel i c l s = .stuck f := by
  induction fuel with
  | zero => intro i c l s; exact .inr ⟨_, rfl⟩
  | succ fuel ih =>
    intro i c l s
    rw [walk]
    cases hn : nodeAt s.node i with
    | none => exact .inr ⟨_, rfl⟩
    | some n =>
      simp only
      split
      · split
        · exact .inl ⟨_, rfl⟩
        · exact .inr ⟨_, rfl⟩
      · rcases ih n.left (2 * c) (l + 1) s with ⟨k, hk⟩ | ⟨f, hf⟩
        · rw [hk, Body.bind_ok]
          split
          · exact .inl ⟨k, rfl⟩
          · rcases ih n.right (2 * c + 1) (l + 1) (setCodes k s) with ⟨k', hk'⟩ | ⟨f, hf⟩
            · exact .inl ⟨k', by rw [hk']; rfl⟩
            · exact .inr ⟨f, hf⟩
        · rw [hf]; exact .inr ⟨f, rfl⟩

/-- GENCODES on any state (R94). -/
theorem gencodesBody_frame (s : State) : (∃ k, gencodesBody s = .ok (codesDone (setCodes k (gencodesStart s)))) ∨
    ∃ f, gencodesBody s = .stuck f := by
  unfold gencodesBody
  simp only
  split
  · exact .inl ⟨(gencodesStart s).code, rfl⟩
  · rcases walk_frame 511 (gencodesStart s).root 0 0 (gencodesStart s) with ⟨k, hk⟩ | ⟨f, hf⟩
    · rw [hk]; exact .inl ⟨k, rfl⟩
    · rw [hf]; exact .inr ⟨f, rfl⟩

/-- A body that only appends bytes to the output: it ends, it raises, or it gets stuck. -/
def OnlyAppends (s : State) (b : Body) : Prop :=
  (∃ x t, b = .ok t ∧ Appends s x t) ∨ (∃ e i x t, b = .raised e i t ∧ Appends s x t) ∨ ∃ f, b = .stuck f

theorem OnlyAppends.bind {s : State} {b : Body} {f : State → Body} (h : OnlyAppends s b) (hf : ∀ t, OnlyAppends t (f t)) :
    OnlyAppends s (b.bind f) := by
  rcases h with ⟨x, t, rfl, h⟩ | ⟨e, i, x, t, rfl, h⟩ | ⟨g, rfl⟩
  · rcases hf t with ⟨y, u, h1, h2⟩ | ⟨e, i, y, u, h1, h2⟩ | ⟨g, h1⟩
    · exact .inl ⟨x ++ y, u, h1, h.trans h2⟩
    · exact .inr (.inl ⟨e, i, x ++ y, u, h1, h.trans h2⟩)
    · exact .inr (.inr ⟨g, h1⟩)
  · exact .inr (.inl ⟨e, i, x, t, rfl, h⟩)
  · exact .inr (.inr ⟨g, rfl⟩)

theorem OnlyAppends.after {s t : State} {b : Body} (h : Appends s [] t) (hb : OnlyAppends t b) : OnlyAppends s b := by
  rcases hb with ⟨x, u, h1, h2⟩ | ⟨e, i, x, u, h1, h2⟩ | ⟨g, h1⟩
  · exact .inl ⟨x, u, h1, h.trans h2⟩
  · exact .inr (.inl ⟨e, i, x, u, h1, h.trans h2⟩)
  · exact .inr (.inr ⟨g, h1⟩)

theorem AppendsOrFull.onlyAppends {s : State} {b : Body} (h : AppendsOrFull s b) : OnlyAppends s b := by
  rcases h with ⟨x, t, h1, h2⟩ | ⟨x, t, h1, h2, -⟩
  · exact .inl ⟨x, t, h1, h2⟩
  · exact .inr (.inl ⟨_, _, x, t, h1, h2⟩)

theorem arrive_onlyAppends (i : NodeIdx) (s : State) : OnlyAppends s (arrive i s) := by
  unfold arrive
  cases nodeAt s.node i with
  | none => exact .inr (.inr ⟨_, rfl⟩)
  | some n =>
    simp only
    split
    · split
      · exact (emitByte_appendsOrFull _ _).onlyAppends.bind fun t => .inl ⟨[], _, rfl, (Appends.refl t).of_work _⟩
      · exact .inr (.inr ⟨_, rfl⟩)
    · exact .inl ⟨[], _, rfl, (Appends.refl s).of_work _⟩

theorem decodeRound_onlyAppends (s : State) : OnlyAppends s (decodeRound s) := by
  unfold decodeRound
  rcases readBit_cases s with ⟨h, -⟩ | ⟨b, rbuf, rem, rp, d, h, -⟩
  · rw [h]; exact .inr (.inl ⟨_, _, [], s, rfl, Appends.refl s⟩)
  · rw [h]
    refine OnlyAppends.after (((Appends.refl s).of_work { s.work with rbuf := rbuf, rem := rem, rp := rp }).of_draws d) ?_
    generalize setDraws d (setWork { s.work with rbuf := rbuf, rem := rem, rp := rp } s) = t
    simp only [descend]
    cases nodeAt t.node t.work.cur with
    | none => exact .inr (.inr ⟨_, rfl⟩)
    | some n =>
      simp only
      split
      · exact .inr (.inl ⟨_, _, [], t, rfl, Appends.refl t⟩)
      · exact OnlyAppends.after ((Appends.refl t).of_work _) (arrive_onlyAppends _ _)

theorem decodeLoop_onlyAppends (fuel : Nat) (s : State) : OnlyAppends s (decodeLoop fuel s) := by
  induction fuel generalizing s with
  | zero => exact .inr (.inr ⟨_, rfl⟩)
  | succ fuel ih =>
    rw [decodeLoop]
    split
    · exact (decodeRound_onlyAppends s).bind ih
    · exact .inl ⟨[], s, rfl, Appends.refl s⟩

/-- DECODE on any state: it appends to an empty output (R100). -/
theorem decodeBody_frame (s : State) :
    (∃ x t, decodeBody s = .ok (decodeEnd t) ∧ Appends (decodeStart s) x t) ∨
    (∃ e i x t, decodeBody s = .raised e i t ∧ Appends (decodeStart s) x t) ∨ ∃ f, decodeBody s = .stuck f := by
  unfold decodeBody
  rcases decodeLoop_onlyAppends (8 * s.inLen.toNat + 1) (decodeStart s) with ⟨x, t, h1, h2⟩ | ⟨e, i, x, t, h1, h2⟩ | ⟨f, h1⟩
  · exact .inl ⟨x, t, by rw [h1]; rfl, h2⟩
  · exact .inr (.inl ⟨e, i, x, t, by rw [h1]; rfl, h2⟩)
  · exact .inr (.inr ⟨f, by rw [h1]; rfl⟩)

end Sys2Proof.Machine
end

