-- ==== Sys2Proof/Laws/PerInstr.lean ====
section
/-! SUPPORT. The family RoundTrip of LAWS.json, one lemma per command: a command as syntax, its word, and the way back
(spec/30_encoding.md R59, R61). -/

namespace Sys2Proof.Laws.RoundTrip

/-- The command is well formed, its word is a legal CMD32 word with MBZ = 0, and the decoder reads it back, both from the word
and from the numbering of spec/opcode_table.json. -/
def Statement (i : Instr) : Prop :=
  i.wellFormed = true ∧ (splitWord (encode i)).wellFormed = true ∧ decodeWord (encode i) = .ok i ∧
    decodeTableWord 32 (encode i).toNat = some i

theorem nop : Statement .nop := ⟨rfl, rfl, rfl, rfl⟩
theorem clear : Statement .clear := ⟨rfl, rfl, rfl, rfl⟩
theorem count : Statement .count := ⟨rfl, rfl, rfl, rfl⟩
theorem serialize : Statement .serialize := ⟨rfl, rfl, rfl, rfl⟩
theorem build : Statement .build := ⟨rfl, rfl, rfl, rfl⟩
theorem gencodes : Statement .gencodes := ⟨rfl, rfl, rfl, rfl⟩
theorem pack : Statement .pack := ⟨rfl, rfl, rfl, rfl⟩
theorem compress : Statement .compress := ⟨rfl, rfl, rfl, rfl⟩
theorem deserialize : Statement .deserialize := ⟨rfl, rfl, rfl, rfl⟩
theorem decode : Statement .decode := ⟨rfl, rfl, rfl, rfl⟩
theorem decompress : Statement .decompress := ⟨rfl, rfl, rfl, rfl⟩

end Sys2Proof.Laws.RoundTrip
end

