-- ==== Sys2Proof/Laws/Registers.lean ====
section
/-! SUPPORT. Registers as the host reads them: every word has zeros outside its fields (spec/10_state.md R20). -/

namespace Sys2Proof.Machine

/-- A value of n bits, widened to a word, is zero outside any mask that covers its n bits. -/
theorem setWidth_masked {n : Nat} (x : BitVec n) (m : Word) (h : ∀ j, j < 32 → j < n → m.getLsbD j = true) :
    x.setWidth 32 &&& ~~~m = 0#32 := by
  ext j hj
  by_cases hn : j < n
  · have := h j hj hn
    rw [BitVec.getLsbD_eq_getElem hj] at this
    simp [this]
  · simp [BitVec.getLsbD_of_ge x j (by omega)]

/-- Bits [29:26] of NODE word 1 (R36). -/
theorem Node.word1_reserved (n : Node) : n.word1 &&& 0x3C000000#32 = 0#32 := by
  unfold Node.word1
  split
  · refine BitVec.eq_of_getLsbD_eq fun j hj => ?_
    rw [BitVec.getLsbD_and]
    by_cases hr : 26 ≤ j ∧ j < 30
    · simp only [BitVec.getLsbD_append]
      repeat rw [if_neg (by omega)]
      rw [if_pos (by omega)]
      simp
    · rw [show (0x3C000000#32).getLsbD j = false by revert j; decide]; simp
  · rfl

/-- Bits [31:24] of STATUS (R22). -/
theorem statusOf_reserved (lastOp e : BitVec 8) (a b c d f g h i : Bool) :
    statusOf lastOp e a b c d f g h i &&& 0xFF000000#32 = 0#32 := by
  refine BitVec.eq_of_getLsbD_eq fun j hj => ?_
  rw [BitVec.getLsbD_and]
  by_cases h24 : j < 24
  · rw [show (0xFF000000#32).getLsbD j = false by revert j; decide]; simp
  · simp only [statusOf, BitVec.getLsbD_append]
    repeat rw [if_neg (by omega)]
    simp

/-- The value of a word is zero outside its fields (R20). -/
theorem regValue_reserved (s : State) (r : Reg) : regValue s r &&& ~~~r.fields = 0#32 := by
  cases r with
  | status => exact statusOf_reserved _ _ _ _ _ _ _ _ _ _
  | nsym => exact setWidth_masked _ _ (by decide)
  | root => exact setWidth_masked _ _ (by decide)
  | irqEn => exact setWidth_masked _ _ (by decide)
  | irqStatus => exact setWidth_masked _ _ (by decide)
  | node1 i =>
    rw [Reg.fields, show ~~~0xC3FFFFFF#32 = 0x3C000000#32 by decide, regValue]
    split
    · exact Node.word1_reserved _
    · rfl
  | code sym w =>
    simp only [regValue, Code.word, Reg.fields]
    split
    · exact setWidth_masked _ _ (by decide)
    · split
      · rfl
      · exact BitVec.and_zero
  | _ => simp [regValue, Reg.fields]

/-- A read of a word returns zero outside its fields, at all times and whatever word is in hand (R20). -/
theorem readReg_reserved (s : State) (r : Reg) (w : Word) : (readReg s r w).1 &&& ~~~r.fields = 0#32 := by
  unfold readReg
  split
  · rename_i h
    rw [h.1]
    exact statusOf_reserved _ _ _ _ _ _ _ _ _ _
  · split
    · simp only
      rw [BitVec.and_assoc, BitVec.and_not_self]
      exact BitVec.and_zero
    · exact regValue_reserved s r

end Sys2Proof.Machine
end

