-- ==== Sys2Proof/Tests/Slice0.lean ====
section
/-! SUPPORT. Tests of decoding, of well-formedness and of one step of every command, with expected values from
spec/95_test_vectors.md and the rules; then, for every statement with hypotheses, a concrete state and operands that meet
them. -/

namespace Sys2Proof.Machine.Tests

/-! ### Small states -/

/-- A list of bytes as the contents of IBUF from index k on. -/
def cells : Nat → List Byte → Memory
  | _, [] => []
  | k, b :: bs => (k, b) :: cells (k + 1) bs

/-- After reset with sizes c: the host has written the bytes to IBUF and their number to IN_LEN. -/
def loadedWith (c : Config) (bs : List Byte) : State :=
  { State.resetWith c with ibuf := cells 0 bs, inLen := BitVec.ofNat 32 bs.length }

/-- The sizes of the spec's vectors. -/
def loaded (bs : List Byte) : State := loadedWith Config.default bs

/-- The state a command ends in. -/
def after (i : Instr) (s : State) : State :=
  match exec i s with
  | .next t => t
  | .fault _ => s
  | .refused _ => s

/-- The state a command ends in, with the next command word accepted. -/
def next (i : Instr) (s : State) : State := accepted 0#32 (after i s)

/-- What the host leaves when it copies the output of t to the input of a block of the same sizes after reset (H5 of R126). -/
def copied (t : State) : State := { State.resetWith t.cfg with ibuf := t.obuf, inLen := t.outLen }

/-- A property of the state a step ends in. -/
def nextSat (o : Host.Outcome State Fault Refusal) (p : State → Bool) : Bool :=
  match o with
  | .next t => p t
  | .fault _ => false
  | .refused _ => false

/-- "aaabbc" (E1). -/
def aaabbc : List Byte := [0x61#8, 0x61#8, 0x61#8, 0x62#8, 0x62#8, 0x63#8]

/-- The file of "zzzz" (E3): one entry, and the payload byte 0x00. -/
def zzzzFile : List Byte :=
  [0x01#8, 0x00#8, 0x00#8, 0x00#8, 0x00#8, 0x00#8, 0x00#8, 0x00#8, 0x7A#8, 0x04#8, 0x00#8, 0x00#8, 0x00#8, 0x00#8]

/-- The frequency table of a list of entries. -/
def table (es : Entries) : Vector Word 256 :=
  es.foldl (fun f e => f.set e.1.toNat e.2 e.1.isLt) (Vector.replicate 256 0#32)

/-- After reset, with a frequency table in place as COUNT leaves it (FT_V = 1, FT_SRC = 0). -/
def tabled (es : Entries) : State := { State.reset with freq := table es, nsym := BitVec.ofNat 9 es.length, ftV := true }

/-- The tree of "ab": NODE[256] over a and b (BU2). -/
def treeAB (s : State) : State :=
  setRoot 256#9 (setNode 256#9 { valid := true, leaf := false, freq := 2#40, left := 0x61#9, right := 0x62#9 }
    (setNode 0x62#9 (leafNode 1#32) (setNode 0x61#9 (leafNode 1#32) { s with treeV := true })))

/-- The codes of "ab" (GC2). -/
def codesAB (s : State) : State :=
  setCode 0x61#8 { len := 1#8, bits := 0#256 } (setCode 0x62#8 { len := 1#8, bits := 1#256 } { s with codesV := true })

/-! ### Command words, written out from R59 and R61: [31:8] zero, [7:0] OPCODE -/

theorem test_decode_nop : decodeTableWord 32 0b00000000_00000000_00000000_0000_0000 = some .nop := by decide
theorem test_decode_clear : decodeTableWord 32 0b00000000_00000000_00000000_0000_0001 = some .clear := by decide
theorem test_decode_count : decodeTableWord 32 0b00000000_00000000_00000000_0001_0000 = some .count := by decide
theorem test_decode_serialize : decodeTableWord 32 0b00000000_00000000_00000000_0001_0001 = some .serialize := by decide
theorem test_decode_build : decodeTableWord 32 0b00000000_00000000_00000000_0001_0010 = some .build := by decide
theorem test_decode_gencodes : decodeTableWord 32 0b00000000_00000000_00000000_0001_0011 = some .gencodes := by decide
theorem test_decode_pack : decodeTableWord 32 0b00000000_00000000_00000000_0001_0100 = some .pack := by decide
theorem test_decode_compress : decodeTableWord 32 0b00000000_00000000_00000000_0001_1000 = some .compress := by decide
theorem test_decode_deserialize : decodeTableWord 32 0b00000000_00000000_00000000_0010_0000 = some .deserialize := by decide
theorem test_decode_decode : decodeTableWord 32 0b00000000_00000000_00000000_0010_0001 = some .decode := by decide
theorem test_decode_decompress : decodeTableWord 32 0b00000000_00000000_00000000_0010_1000 = some .decompress := by decide

/-- R62: the two kinds of illegal word. -/
theorem test_decode_mbz : decodeWord 0b00000000_00000000_00000001_0001_0000#32 = .error .mbzNonzero := by decide
theorem test_decode_reserved : decodeWord 0b00000000_00000000_00000000_0001_0101#32 = .error .reservedOpcode := by decide
theorem test_decode_wide : decodeTableWord 40 0x0100000010 = none := by decide

/-! ### Well-formedness -/

theorem test_wf_mbz : (Cmd32.wellFormed { opcode := 0x10#8, mbz := 1#24 }) = false := by decide
theorem test_wf_opcode : (Cmd32.wellFormed { opcode := 0x02#8, mbz := 0#24 }) = false := by decide
theorem test_wf_legal : (Cmd32.wellFormed { opcode := 0x28#8, mbz := 0#24 }) = true := by decide
theorem test_wf_ibuf : (Config.wellFormed { ibufSize := 0#32, obufSize := 65536#32 }) = false := by decide
theorem test_wf_obuf : (Config.wellFormed { ibufSize := 65536#32, obufSize := 1287#32 }) = false := by decide
theorem test_wf_least : (Config.wellFormed { ibufSize := 1#32, obufSize := 1288#32 }) = true := by decide

/-! ### One step of every command (spec/95_test_vectors.md section 2) -/

/-- LC2: NOP after reset. -/
theorem test_nop : nextSat (step (State.reset.withFetchWord 32 0x00)) (fun t => statusWord t == 0x00000002#32) = true := by decide

/-- CLEAR clears OVR. -/
theorem test_clear : nextSat (step ((overrun (loaded aaabbc)).withFetchWord 32 0x01)) (fun t => statusWord t == 0x00010002#32) = true := by decide

/-- CT1. -/
theorem test_count : nextSat (step ((loaded aaabbc).withFetchWord 32 0x10)) (fun t =>
    freqAt t.freq 0x61#8 == 3#32 && freqAt t.freq 0x63#8 == 1#32 && t.nsym == 3#9 && statusWord t == 0x00100012#32) = true := by
  decide +kernel

/-- CT4: IN_LEN above IBUF_SIZE. -/
theorem test_count_input : nextSat (step ({ loadedWith ⟨16#32, 1288#32⟩ [] with inLen := 17#32 }.withFetchWord 32 0x10))
    (fun t => statusWord t == 0x00100106#32 && t.errInfo == 17#64) = true := by decide

/-- The header of "aab" (CP6). -/
theorem test_serialize : nextSat (step ((tabled [(0x61#8, 2#32), (0x62#8, 1#32)]).withFetchWord 32 0x11)) (fun t =>
    outputOf t == [0x02#8, 0x00#8, 0x00#8, 0x00#8, 0x00#8, 0x00#8, 0x00#8, 0x00#8, 0x61#8, 0x02#8, 0x00#8, 0x00#8, 0x00#8,
      0x62#8, 0x01#8, 0x00#8, 0x00#8, 0x00#8]) = true := by decide +kernel

/-- SE5. -/
theorem test_serialize_sequence : nextSat (step (State.reset.withFetchWord 32 0x11)) (fun t => statusWord t == 0x00110B06#32) = true := by
  decide

/-- BU1. -/
theorem test_build : nextSat (step ((tabled [(0x61#8, 3#32), (0x62#8, 2#32), (0x63#8, 1#32)]).withFetchWord 32 0x12)) (fun t =>
    regValue t (.node0 256#9) == 0x00000003#32 && regValue t (.node1 256#9) == 0x80C46300#32 &&
    regValue t (.node0 257#9) == 0x00000006#32 && regValue t (.node1 257#9) == 0x82006100#32 && t.root == 0x101#9) = true := by
  decide +kernel

/-- BU8. -/
theorem test_build_lone : nextSat (step ((tabled [(0x7A#8, 4#32)]).withFetchWord 32 0x12)) (fun t =>
    regValue t (.node0 256#9) == 0x00000004#32 && regValue t (.node1 256#9) == 0x83FE7A00#32 && t.root == 0x100#9) = true := by
  decide +kernel

/-- GC2. -/
theorem test_gencodes : nextSat (step ((treeAB State.reset).withFetchWord 32 0x13)) (fun t =>
    codeAt t.code 0x61#8 == { len := 1#8, bits := 0#256 } && codeAt t.code 0x62#8 == { len := 1#8, bits := 1#256 } &&
    codeAt t.code 0x63#8 == Code.empty) = true := by decide +kernel

/-- The payload of "ab" (CP5): bits 0 1, then six padding zeros. -/
theorem test_pack : nextSat (step ((codesAB (loaded [0x61#8, 0x62#8])).withFetchWord 32 0x14)) (fun t =>
    outputOf t == [0x40#8] && t.compBits == 2#64) = true := by decide +kernel

/-- CP5. -/
theorem test_compress : nextSat (step ((loaded [0x61#8, 0x62#8]).withFetchWord 32 0x18)) (fun t =>
    statusWord t == 0x001800D2#32 && t.compBits == 2#64 && t.origBits == 16#64 && (outputOf t).drop 8 ==
      [0x61#8, 0x01#8, 0x00#8, 0x00#8, 0x00#8, 0x62#8, 0x01#8, 0x00#8, 0x00#8, 0x00#8, 0x40#8]) = true := by decide +kernel

/-- DS8b: the zero check comes before the duplicate check. -/
theorem test_deserialize_zero : nextSat (step ((loaded [0x02#8, 0x00#8, 0x00#8, 0x00#8, 0x00#8, 0x00#8, 0x00#8, 0x00#8, 0x61#8,
    0x01#8, 0x00#8, 0x00#8, 0x00#8, 0x61#8, 0x00#8, 0x00#8, 0x00#8, 0x00#8]).withFetchWord 32 0x20)) (fun t =>
    statusWord t == 0x00200606#32 && t.errInfo == 13#64) = true := by decide +kernel

/-- DS10. -/
theorem test_deserialize : nextSat (step ((loaded [0x01#8, 0x00#8, 0x00#8, 0x00#8, 0x00#8, 0x00#8, 0x00#8, 0x00#8, 0x41#8, 0xFF#8,
    0xFF#8, 0xFF#8, 0xFF#8]).withFetchWord 32 0x20)) (fun t =>
    freqAt t.freq 0x41#8 == 0xFFFFFFFF#32 && t.total == 4294967295#64 && t.payloadOff == 13#32 &&
    statusWord t == 0x00200032#32) = true := by decide +kernel

/-- DECODE of two symbols of the tree of "ab" (R100): bits 1 0. -/
theorem test_decode : nextSat (step ({ treeAB (loaded [0x80#8]) with ftV := true, ftSrc := true, total := 2#64 }.withFetchWord 32
    0x21)) (fun t => outputOf t == [0x62#8, 0x61#8] && t.compBits == 2#64 && t.origBits == 16#64 &&
    statusWord t == 0x00210072#32) = true := by decide +kernel

/-- DC6. -/
theorem test_decompress : nextSat (step ((loaded (zzzzFile.set 13 0x08#8)).withFetchWord 32 0x28)) (fun t =>
    outputOf t == [0x7A#8, 0x7A#8, 0x7A#8, 0x7A#8] && t.compBits == 4#64 && statusWord t == 0x00280072#32) = true := by
  decide +kernel

/-- DC5: a 1 bit reaches the absent child. -/
theorem test_decompress_absent : nextSat (step ((loaded (zzzzFile.set 13 0x80#8)).withFetchWord 32 0x28)) (fun t =>
    statusWord t == 0x00280876#32 && t.errInfo == 0#64 && t.outLen == 0#32) = true := by decide +kernel

/-- LC7: an illegal word. -/
theorem test_illegal : nextSat (step (State.reset.withFetchWord 32 0x80000010)) (fun t =>
    statusWord t == 0x00100A06#32 && t.errInfo == 0x80000010#64 && t.irqStatus == 0b11#2) = true := by decide

/-! ### States of the invariant -/

theorem read_cells (bs : List Byte) (k i : Nat) : Memory.read (cells k bs) i = if k ≤ i then bs[i - k]? else none := by
  induction bs generalizing k with
  | nil => simp [cells, Memory.read]
  | cons b bs ih =>
    rw [cells, Memory.read, ih]
    rcases Nat.lt_trichotomy k i with h | rfl | h
    · rw [if_neg (Nat.ne_of_lt h), if_pos (by omega), if_pos h.le, show i - k = i - (k + 1) + 1 by omega, List.getElem?_cons_succ]
    · simp
    · rw [if_neg (Nat.ne_of_gt h), if_neg (by omega), if_neg (by omega)]

theorem within_cells (bs : List Byte) (k size : Nat) (h : k + bs.length ≤ size) : Memory.within size (cells k bs) = true := by
  induction bs generalizing k with
  | nil => rfl
  | cons b bs ih =>
    simp only [List.length_cons] at h
    have := ih (k + 1) (by omega)
    simp only [Memory.within, cells, List.all_cons, Bool.and_eq_true, decide_eq_true_eq] at this ⊢
    exact ⟨by omega, this⟩

theorem wf_cells (bs : List Byte) (k : Nat) : Memory.wf (cells k bs) = true := by
  induction bs generalizing k with
  | nil => rfl
  | cons b bs ih =>
    have := ih (k + 1)
    cases bs with
    | nil => rfl
    | cons c bs => simpa [cells, Memory.wf] using this

/-- The bytes of OBUF may be there already. -/
def holding (c : Config) (bs out : List Byte) : State :=
  { loadedWith c bs with obuf := cells 0 out, outLen := BitVec.ofNat 32 out.length }

theorem holding_inv {c : Config} {bs out : List Byte} (hc : c.wellFormed = true) (hi : bs.length ≤ c.ibufSize.toNat)
    (ho : out.length ≤ c.obufSize.toNat) : Inv (holding c bs out) := by
  have hn : (BitVec.ofNat 32 out.length).toNat = out.length := by
    rw [BitVec.toNat_ofNat, Nat.mod_eq_of_lt (lt_of_le_of_lt ho c.obufSize.isLt)]
  refine ⟨⟨hc, wf_cells _ _, within_cells bs 0 c.ibufSize.toNat (by omega), wf_cells _ _,
      within_cells out 0 c.obufSize.toNat (by omega), ?_, ?_⟩,
    ⟨(fun h => nomatch h), fun _ => rfl, (fun h => nomatch h), rfl⟩, FlagsOk.cleared rfl rfl rfl rfl⟩
  · show BitVec.ofNat 32 out.length ≤ c.obufSize
    rw [BitVec.le_def, hn]; exact ho
  · intro i h
    show (Memory.read (cells 0 out) i).isSome = true
    rw [show (holding c bs out).outLen.toNat = out.length from hn] at h
    rw [read_cells, if_pos (Nat.zero_le i)]
    simpa using h

theorem loadedWith_inv {c : Config} {bs : List Byte} (hc : c.wellFormed = true) (hi : bs.length ≤ c.ibufSize.toNat) :
    Inv (loadedWith c bs) := holding_inv (out := []) hc hi (Nat.zero_le _)

theorem accepted_ready {s : State} (h : Inv s) (v : Word) : Ready (accepted v s) := ⟨accepted_inv h v, rfl⟩

theorem after_spec {s : State} (h : Ready s) (i : Instr) : exec i s = .next (after i s) ∧ Inv (after i s) := by
  obtain ⟨t, ht, hi⟩ := exec_inv h i
  have : after i s = t := by simp only [after, ht]
  rw [this]
  exact ⟨ht, hi⟩

theorem next_ready {s : State} (h : Ready s) (i : Instr) : Ready (next i s) := accepted_ready (after_spec h i).2 _

/-- A block whose input is the first n bytes of the output of t, with DECOMPRESS accepted. -/
def fed (t : State) (n : Word) : State := accepted 0x28#32 { copied t with inLen := n }

theorem fed_fields (t : State) (n : Word) : (fed t n).errCode = .noError ∧ (fed t n).inLen = n ∧ (fed t n).cfg = t.cfg ∧
    (fed t n).ibuf = t.obuf := ⟨rfl, rfl, rfl, rfl⟩

theorem fed_copied (t : State) : Copied t (fed t t.outLen) := ⟨rfl, fun _ _ => rfl⟩

theorem copied_ready {t : State} (h : Inv t) (hc : t.cfg = Config.default) (n : Word) :
    Ready (fed t n) := by
  have hb := h.buffers
  have hinv : Inv { copied t with inLen := n } := by
    refine ⟨⟨hb.config, hb.obufWf, ?_, rfl, rfl, ?_, fun i hi => ?_⟩,
      ⟨(fun hb => nomatch hb), fun _ => rfl, (fun hb => nomatch hb), rfl⟩, FlagsOk.cleared rfl rfl rfl rfl⟩
    · have := hb.obufWithin
      rw [hc] at this
      show Memory.within t.cfg.ibufSize.toNat t.obuf = true
      rw [hc]; exact this
    · exact Nat.zero_le _
    · exact absurd hi (Nat.not_lt_zero i)
  exact accepted_ready hinv _

/-- "aaabbc" loaded, with a command accepted; then counted, built, and with codes. -/
def sLoaded : State := accepted 0x10#32 (loaded aaabbc)
def sCounted : State := next .count sLoaded
def sBuilt : State := next .build sCounted
def sCoded : State := next .gencodes sBuilt

theorem sLoaded_ready : Ready sLoaded := accepted_ready (loadedWith_inv (by decide) (by decide)) _
theorem sCounted_ready : Ready sCounted := next_ready sLoaded_ready _
theorem sBuilt_ready : Ready sBuilt := next_ready sCounted_ready _
theorem sCoded_ready : Ready sCoded := next_ready sBuilt_ready _

/-- What COUNT leaves, in short. -/
theorem next_count {s : State} (h : inputFits s = true) : (next .count s).ftV = true ∧ (next .count s).errCode = .noError ∧
    (next .count s).cfg = s.cfg := by
  obtain ⟨f, d, hs⟩ := countState_frame s
  simp only [next, after, exec, execCount, runCommand, h, if_true, countBody, finish, hs]
  exact ⟨rfl, rfl, rfl⟩

theorem sCounted_ftV : sCounted.ftV = true := (next_count (by decide)).1

theorem after_serialize_cfg (s : State) : (after .serialize s).cfg = s.cfg := by
  cases h : s.ftV with
  | false => simp only [after, exec, execSerialize, runCommand, h]; rfl
  | true =>
    simp only [after, exec, execSerialize, runCommand, h, if_true]
    rcases serializeBody_cases s with ⟨x, t, h1, h2⟩ | ⟨x, t, h1, h2, -⟩ <;> rw [h1] <;>
      obtain ⟨m, n, w, d, rfl⟩ := h2.frame <;> rfl

/-- What BUILD leaves, in short. -/
theorem next_build {s : State} (h : s.ftV = true) : (next .build s).treeV = true := by
  obtain ⟨w, hs⟩ := buildState_frame s
  simp only [next, after, exec, execBuild, runCommand, h, if_true, buildBody, finish, hs]
  rfl

theorem sBuilt_treeV : sBuilt.treeV = true := next_build sCounted_ftV

theorem sCoded_facts : sCoded.codesV = true ∧ sCoded.ftSrc = false ∧ sCoded.outLen = 0#32 ∧ sCoded.cfg = Config.default ∧
    (∀ i, i < sCoded.inLen.toNat → (Memory.read sCoded.ibuf i).isSome = true) ∧
    (payloadBits sCoded.code (inputOf sCoded)).length = 9 := by decide +kernel

/-- A one-symbol file: n times "z", and a payload; parsed, and its tree built. -/
def sLone (c : Config) (n : Nat) (payload : List Byte) : State :=
  next .build (next .deserialize (accepted 0x20#32 (loadedWith c (headerOf [(0x7A#8, BitVec.ofNat 32 n)] ++ payload))))

theorem sLone_ready {c : Config} {n : Nat} {payload : List Byte} (hc : c.wellFormed = true)
    (hi : 13 + payload.length ≤ c.ibufSize.toNat) : Ready (sLone c n payload) :=
  next_ready (next_ready (accepted_ready (loadedWith_inv hc (by
    simp only [headerOf, List.length_append, List.flatMap_cons, List.flatMap_nil, List.length_cons, leBytes, List.length_nil]
    omega)) _) _) _

theorem sLone_default_ready (n : Nat) (b : Byte) : Ready (sLone Config.default n [b]) :=
  sLone_ready (by decide) (by simp [Config.default])

/-- What a one-symbol table's tree looks like to DECODE (R90). -/
def LoneTree (c : Config) (s : State) (n : Nat) (payload : List Bool) : Prop :=
  s.cfg = c ∧ s.treeV = true ∧ s.ftSrc = true ∧ s.total.toNat = n ∧ payloadOf s = payload ∧
  (∀ i, i < s.inLen.toNat → (Memory.read s.ibuf i).isSome = true) ∧
  follow s.node s.root [false] = some 0x7A#9 ∧ s.root = 256#9 ∧
  nodeAt s.node 256#9 = some { valid := true, leaf := false, freq := BitVec.ofNat 40 n, left := 0x7A#9, right := NONE } ∧
  nodeAt s.node 0x7A#9 = some { valid := true, leaf := true, freq := BitVec.ofNat 40 n, left := NONE, right := NONE } ∧
  (∀ b : Byte, b ≠ 0x7A#8 → freqAt s.freq b = 0#32) ∧ freqAt s.freq 0x7A#8 ≠ 0#32

theorem sLone_four : LoneTree Config.default (sLone Config.default 4 [0x0F#8]) 4
    [false, false, false, false, true, true, true, true] := by
  unfold LoneTree
  decide +kernel

theorem LoneTree.isPath {s : State} {n : Nat} {p : List Bool} {c : Config} (h : LoneTree c s n p) :
    ∀ k, ∀ b ∈ List.replicate k 0x7A#8, IsPath s.node s.root [false] b := by
  intro k b hb
  rw [List.eq_of_mem_replicate hb]
  obtain ⟨-, -, -, -, -, -, hf, -, -, hn, -⟩ := h
  exact ⟨hf, _, hn, rfl⟩

theorem sLoaded_written : InputWritten sLoaded := by
  show ∀ i, i < sLoaded.inLen.toNat → (Memory.read sLoaded.ibuf i).isSome = true
  decide

/-! ### Witnesses: states and operands that meet the hypotheses of the statements -/

theorem witness_ElevenWordsOnly : 256 ≤ (0x100#32).toNat ∧ 256 ≤ (0xFFFFFFFF#32).toNat ∧
    ∀ v ∈ [0x02#32, 0x0F#32, 0x15#32, 0x17#32, 0x19#32, 0x1F#32, 0x22#32, 0x27#32, 0x29#32, 0xFF#32],
      (0x02 ≤ v.toNat ∧ v.toNat ≤ 0x0F) ∨ (0x15 ≤ v.toNat ∧ v.toNat ≤ 0x17) ∨ (0x19 ≤ v.toNat ∧ v.toNat ≤ 0x1F) ∨
      (0x22 ≤ v.toNat ∧ v.toNat ≤ 0x27) ∨ (0x29 ≤ v.toNat ∧ v.toNat ≤ 0xFF) := by simp

theorem witness_EveryAcceptedWord : State.reset.busy = false ∧
    (∀ v ∈ [0x100#32, 0x80000010#32, 0x02#32, 0xFF#32], v.extractLsb' 8 24 ≠ 0#24 ∨ v.extractLsb' 0 8 ∉ legalOpcodes) ∧
    ∀ v ∈ [0x00#32, 0x28#32], v.extractLsb' 8 24 = 0#24 ∧ v.extractLsb' 0 8 ∈ legalOpcodes := by
  simp only [List.forall_mem_cons, List.not_mem_nil, false_imp_iff, implies_true, and_true]
  decide

/-- With the delay run out, and with a host that has nothing left to do. -/
theorem witness_StepRunsDecodedCommand : engineTurn (State.reset.withFetchWord 32 0x28) = true ∧
    decodeWord (State.reset.withFetchWord 32 0x28).curCmd = .ok .decompress ∧
    engineTurn { accepted 0x105#32 State.reset with delay := 5 } = true ∧
    decodeWord (accepted 0x105#32 State.reset).curCmd = .error .mbzNonzero ∧ engineTurn State.reset = false ∧
    engineTurn { accepted 0x28#32 State.reset with delay := 1, script := [.wait] } = false ∧ State.reset.script = [] ∧
    State.script { State.reset with script := [.waitIrq, .wait] } = .waitIrq :: [.wait] ∧
    State.reset.busy = false ∧ (accepted 0x28#32 State.reset).busy = true ∧
    irqLine State.reset = false ∧ irqLine { State.reset with irqEn := 1#2, irqStatus := 1#2 } = true := by decide +kernel

theorem witness_CommandStepIsReached : State.busy { accepted 0x28#32 State.reset with delay := 5, script := [.wait] } = true := rfl

theorem witness_CmdWriteAccepted : State.reset.busy = false ∧ wordOffset 0x008#16 = 0x008#16 ∧ wordOffset 0x00B#16 = 0x008#16 := by
  decide

theorem witness_WritesWhileBusy : (accepted 0x10#32 State.reset).busy = true ∧ wordOffset 0x00B#16 = 0x008#16 ∧
    wordOffset 0x013#16 = 0x010#16 ∧ 0 < (accepted 0x10#32 State.reset).cfg.ibufSize.toNat ∧
    65535 < (accepted 0x10#32 State.reset).cfg.ibufSize.toNat ∧ wordOffset 0x044#16 = 0x044#16 ∧ wordOffset 0x048#16 = 0x048#16 ∧
    (overrun State.reset).ovr = true ∧ ∃ t, step (overrun State.reset) = .next t := by
  refine ⟨rfl, by decide, by decide, by decide, by decide, by decide, by decide, rfl, hostStep (overrun State.reset), ?_⟩
  have h : engineTurn (overrun State.reset) = false := by decide
  rw [step, h]
  rfl

theorem witness_ControlRegisterWrites : (loaded aaabbc).busy = false ∧ wordOffset 0x010#16 = 0x010#16 ∧
    wordOffset 0x044#16 = 0x044#16 ∧ wordOffset 0x04B#16 = 0x048#16 ∧ ∃ t, exec .nop (loaded aaabbc) = .next t := by
  refine ⟨rfl, by decide, by decide, by decide, _, rfl⟩

/-- The first and last words of every window. -/
theorem witness_RegisterMap : regAt 0x400#16 = .freq 0#8 ∧ regAt 0x7FF#16 = .freq 255#8 ∧ regAt 0x1000#16 = .node0 0#9 ∧
    regAt 0x1FF0#16 = .node0 510#9 ∧ regAt 0x1FF4#16 = .node1 510#9 ∧ regAt 0x2000#16 = .code 0#8 0#4 ∧
    regAt 0x5FFC#16 = .code 255#8 15#4 ∧ regAt 0x054#16 = .reserved ∧ regAt 0x3FC#16 = .reserved ∧
    regAt 0x800#16 = .reserved ∧ regAt 0xFFC#16 = .reserved ∧ regAt 0x1FF8#16 = .reserved ∧ regAt 0x1FFC#16 = .reserved ∧
    regAt 0x6000#16 = .reserved ∧ regAt 0xFFFF#16 = .reserved := by decide +kernel

theorem witness_ConstantRegisters : wordOffset 0x003#16 = 0x000#16 ∧ wordOffset 0x004#16 = 0x004#16 ∧
    wordOffset 0x04C#16 = 0x04C#16 ∧ wordOffset 0x053#16 = 0x050#16 := by decide

theorem witness_ReservedAndReadOnly : regAt 0x6000#16 = .reserved ∧ wordOffset 0x008#16 = 0x008#16 ∧
    wordOffset 0x054#16 ∉ [0x008#16, 0x010#16, 0x044#16, 0x048#16] ∧
    wordOffset 0x00C#16 ∉ [0x008#16, 0x010#16, 0x044#16, 0x048#16] ∧ wordOffset 0x044#16 ∈ [0x044#16, 0x048#16] ∧
    wordOffset 0x04B#16 ∈ [0x044#16, 0x048#16] ∧ (0xFFFFFFFD#32).extractLsb' 0 2 = (0x00000001#32).extractLsb' 0 2 ∧
    (1 ≤ (1#4).toNat ∧ (1#4).toNat ≤ 7) ∧ 1 ≤ (7#4).toNat ∧ (7#4).toNat ≤ 7 := by decide

/-- After CLEAR every table word is known. -/
theorem witness_ReadsWhileIdle : (clearState State.reset).busy = false ∧ (clearState State.reset).freqKnown = true ∧
    (clearState State.reset).nodeKnown = true ∧ (clearState State.reset).codeKnown = true ∧
    nodeAt (clearState State.reset).node 510#9 = some Node.empty ∧ regAt 0x400#16 = .freq 0#8 ∧
    regAt 0x1FF0#16 = .node0 510#9 ∧ regAt 0x1FF4#16 = .node1 510#9 ∧ regAt 0x3880#16 = .code 0x62#8 0#4 ∧
    wordOffset 0x020#16 + 4#16 = 0x024#16 ∧ wordOffset 0x03C#16 + 4#16 = 0x040#16 := by decide +kernel

theorem witness_ReadsWhileBusy : (accepted 0x10#32 State.reset).busy = true ∧ 8 ≤ (8#4).toNat ∧ 8 ≤ (15#4).toNat := by decide

theorem witness_ResetValues : 8 ≤ (8#4).toNat ∧ 8 ≤ (15#4).toNat := by decide

theorem witness_FieldLayouts : Node.empty.valid = false ∧ (leafNode 3#32).valid = true ∧
    (1 ≤ (1#4).toNat ∧ (1#4).toNat ≤ 7) ∧ (1 ≤ (7#4).toNat ∧ (7#4).toNat ≤ 7) ∧ 8 ≤ (8#4).toNat ∧ 8 ≤ (15#4).toNat ∧ 31 < 32 := by
  decide

theorem witness_IbufAccess : (loaded aaabbc).busy = false ∧ 5 < (loaded aaabbc).cfg.ibufSize.toNat ∧
    Memory.read (loaded aaabbc).ibuf 5 = some 0x63#8 ∧ Memory.read (loaded aaabbc).ibuf 6 = none ∧
    65535 < (loaded aaabbc).cfg.ibufSize.toNat ∧ (loaded aaabbc).cfg.ibufSize.toNat ≤ 65536 ∧ sLoaded.busy = true := by decide

theorem witness_ObufAccess : (holding Config.default [] aaabbc).busy = false ∧
    Memory.read (holding Config.default [] aaabbc).obuf 0 = some 0x61#8 ∧ Memory.read (holding Config.default [] aaabbc).obuf 6 = none ∧
    65535 < (holding Config.default [] aaabbc).cfg.obufSize.toNat ∧ (holding Config.default [] aaabbc).cfg.obufSize.toNat ≤ 65536 ∧
    sLoaded.busy = true := by decide

theorem witness_InterruptOutput : (∃ t, exec .pack State.reset = .next t) ∧
    (succeeded State.reset).irqStatus.getLsbD 0 = true ∧ (failed .seqError 0#64 State.reset).irqStatus.getLsbD 1 = true :=
  ⟨⟨_, rfl⟩, by decide, by decide⟩

theorem witness_ResetInput : wordOffset 0x008#16 = 0x008#16 := by decide

/-- A legal word and an illegal one. -/
theorem witness_CommandCompletion : (∃ t, commandStep (accepted 0x00#32 State.reset) = .next t) ∧
    ∃ t, commandStep (accepted 0x105#32 State.reset) = .next t := ⟨⟨_, rfl⟩, ⟨_, rfl⟩⟩

theorem witness_PreconditionErrors :
    (loadedWith ⟨16#32, 1288#32⟩ []).cfg.ibufSize < (17#32 : Word) ∧ State.reset.ftV = false ∧
    State.reset.treeV = false ∧ State.reset.codesV = false ∧ State.reset.ftSrc = false ∧
    State.ftSrc { State.reset with ftSrc := true } = true := by decide

theorem witness_ErrorTable : Ready sLoaded ∧ InputWritten sLoaded ∧ ∀ i, ∃ t, exec i sLoaded = .next t :=
  ⟨sLoaded_ready, sLoaded_written, fun i => ⟨_, (after_spec sLoaded_ready i).1⟩⟩

theorem witness_ValidityFlags : (∀ i, ∃ t, exec i sLoaded = .next t) ∧ sLoaded.cfg.wellFormed = true ∧
    sLoaded.errCode = .noError := ⟨fun i => ⟨_, (after_spec sLoaded_ready i).1⟩, by decide, rfl⟩

theorem witness_FramesWithoutOutput : ∀ i ∈ [Instr.nop, .clear, .count, .deserialize, .build, .gencodes], ∃ t,
    exec i sLoaded = .next t := fun i _ => ⟨_, (after_spec sLoaded_ready i).1⟩

theorem witness_FramesWithOutput : ∀ i ∈ [Instr.serialize, .pack, .decode, .compress, .decompress], ∃ t,
    exec i sCoded = .next t := fun i _ => ⟨_, (after_spec sCoded_ready i).1⟩

theorem witness_NopCompletes : (loaded aaabbc).busy = false := rfl

theorem witness_ClearEmpties : (loaded aaabbc).busy = false ∧ Instr.nop ≠ .clear ∧ ∃ t, exec .nop State.reset = .next t :=
  ⟨rfl, by decide, _, rfl⟩

theorem witness_CountResult : sLoaded.errCode = .noError ∧ sLoaded.inLen ≤ sLoaded.cfg.ibufSize ∧ InputWritten sLoaded :=
  ⟨rfl, by decide, sLoaded_written⟩

theorem witness_SerializeResult : sCounted.errCode = .noError ∧ sCounted.ftV = true ∧ sCounted.cfg.wellFormed = true ∧
    sCounted.nsym.toNat = alphabetSize sCounted.freq :=
  ⟨rfl, sCounted_ftV, sCounted_ready.1.buffers.config, (sCounted_ready.1.flags.alphabet sCounted_ftV).1⟩

/-- The entries may come in any order, with anything after them (DS9). -/
theorem witness_DeserializeResult :
    let es : Entries := [(0x62#8, 2#32), (0x61#8, 3#32)]
    let s := loaded (headerOf es ++ [0xFF#8])
    s.errCode = .noError ∧ s.inLen ≤ s.cfg.ibufSize ∧ InputWritten s ∧ inputOf s = headerOf es ++ [0xFF#8] ∧ EntriesOk es := by
  refine ⟨rfl, by decide, ?_, by decide, ⟨by decide, by simp⟩⟩
  show ∀ i, i < (loaded (headerOf [(0x62#8, 2#32), (0x61#8, 3#32)] ++ [0xFF#8])).inLen.toNat →
    (Memory.read (loaded (headerOf [(0x62#8, 2#32), (0x61#8, 3#32)] ++ [0xFF#8])).ibuf i).isSome = true
  decide

/-- One input for each of the five errors (DS4, DS5, E4 at L = 8, DS7, DS8). -/
theorem witness_DeserializeErrors :
    (loaded [0x00#8]).inLen.toNat < 8 ∧
    (8 ≤ (loaded (leBytes 8 257)).inLen.toNat ∧ 256 < leValue ((inputOf (loaded (leBytes 8 257))).take 8)) ∧
    (8 ≤ (loaded (leBytes 8 256)).inLen.toNat ∧ leValue ((inputOf (loaded (leBytes 8 256))).take 8) ≤ 256 ∧
      (loaded (leBytes 8 256)).inLen.toNat < 8 + 5 * leValue ((inputOf (loaded (leBytes 8 256))).take 8)) ∧
    (inputOf (loaded (headerOf [(0x61#8, 0#32)])) =
      leBytes 8 1 ++ (([] : Entries).flatMap fun x => x.1 :: leBytes 4 x.2.toNat) ++ (0x61#8 :: leBytes 4 (0#32).toNat) ++ []) ∧
    (inputOf (loaded (headerOf [(0x61#8, 1#32), (0x61#8, 2#32)])) = leBytes 8 2 ++
      (([(0x61#8, 1#32)] : Entries).flatMap fun x => x.1 :: leBytes 4 x.2.toNat) ++ (0x61#8 :: leBytes 4 (2#32).toNat) ++ []) ∧
    EntriesOk [] ∧ EntriesOk [(0x61#8, 1#32)] := by
  exact ⟨by decide, by decide, by decide, by decide, by decide, ⟨by decide, by simp⟩, ⟨by decide, by simp⟩⟩

theorem witness_TableRoundTrip : Ready sCounted ∧ sCounted.ftV = true ∧ ∃ t s', exec .serialize sCounted = .next t ∧
    s'.errCode = .noError ∧ s'.inLen ≤ s'.cfg.ibufSize ∧ Copied t s' := by
  have hs := after_spec sCounted_ready .serialize
  have hc : (after .serialize sCounted).cfg = Config.default := (after_serialize_cfg _).trans (next_count (by decide)).2.2
  refine ⟨sCounted_ready, sCounted_ftV, _, _, hs.1, (fed_fields _ _).1, ?_, fed_copied _⟩
  rw [(fed_fields _ _).2.1, (fed_fields _ _).2.2.1]
  have h := hs.2.buffers.outLen
  rw [hc] at h ⊢
  exact h

/-- An empty queue, and two elements of equal frequency. -/
theorem witness_PopMinTakesLeast : State.reset.work.queue = [] ∧
    State.work (setWork { Work.idle with queue := [0x62#9, 0x61#9] } State.reset) ≠ Work.idle := by decide

theorem witness_BuildResult : sCounted.errCode = .noError ∧ sCounted.ftV = true := ⟨rfl, sCounted_ftV⟩

theorem witness_BuildDependsOnFreqAlone : (tabled []).ftV = true ∧ State.ftV { tabled [] with inLen := 5#32 } = true ∧
    (tabled []).freq = State.freq { tabled [] with inLen := 5#32 } := ⟨rfl, rfl, rfl⟩

theorem witness_DegenerateTrees : (∀ b, freqAt (tabled []).freq b = 0#32) ∧
    freqAt (tabled [(0x7A#8, 4#32)]).freq 0x7A#8 ≠ 0#32 ∧ ∀ c : Byte, c ≠ 0x7A#8 → freqAt (tabled [(0x7A#8, 4#32)]).freq c = 0#32 := by
  decide +kernel

theorem witness_TreeShape : 2 ≤ alphabetSize (table [(0x61#8, 1#32), (0x62#8, 1#32)]) ∧
    freqAt (table [(0x61#8, 1#32), (0x62#8, 1#32)]) 0x61#8 ≠ 0#32 := by decide +kernel

theorem builtAB : (builtTree (table [(0x61#8, 1#32), (0x62#8, 1#32)])).2 = 256#9 ∧
    nodeAt (builtTree (table [(0x61#8, 1#32), (0x62#8, 1#32)])).1 256#9 =
      some { valid := true, leaf := false, freq := 2#40, left := 0x61#9, right := 0x62#9 } := by
  unfold builtTree
  decide +kernel

theorem witness_MergesTakeTheTwoLeast : ∃ n, nodeAt (builtTree (table [(0x61#8, 1#32), (0x62#8, 1#32)])).1 256#9 = some n ∧
    n.valid = true ∧ n.leaf = false := ⟨_, builtAB.2, rfl, rfl⟩

theorem witness_NodeFrequencies : ∃ n, nodeAt (builtTree (table [(0x61#8, 1#32), (0x62#8, 1#32)])).1 256#9 = some n ∧
    n.valid = true ∧ n.leaf = false ∧ n.right ≠ NONE := ⟨_, builtAB.2, rfl, rfl, by decide⟩

theorem witness_GencodesResult : Ready sBuilt ∧ sBuilt.treeV = true := ⟨sBuilt_ready, sBuilt_treeV⟩

theorem witness_DegenerateCodes : (Ready (sLone Config.default 4 [0x0F#8]) ∧ (sLone Config.default 4 [0x0F#8]).treeV = true ∧
    freqAt (sLone Config.default 4 [0x0F#8]).freq 0x7A#8 ≠ 0#32 ∧
    ∀ c, c ≠ 0x7A#8 → freqAt (sLone Config.default 4 [0x0F#8]).freq c = 0#32) ∧
    Ready (next .build (next .count (accepted 0x10#32 State.reset))) ∧
    (next .build (next .count (accepted 0x10#32 State.reset))).treeV = true ∧
    (next .build (next .count (accepted 0x10#32 State.reset))).root = NONE := by
  obtain ⟨-, h1, -, -, -, -, -, -, -, -, h2, h3⟩ := sLone_four
  exact ⟨⟨sLone_default_ready _ _, h1, h3, h2⟩,
    next_ready (next_ready (accepted_ready (loadedWith_inv (bs := []) (by decide) (Nat.zero_le _)) _) _) _,
    next_build (next_count (by decide)).1, by decide +kernel⟩

theorem witness_CodesArePrefixFree : Ready sBuilt ∧ sBuilt.treeV = true ∧ ∃ t, exec .gencodes sBuilt = .next t ∧
    1 ≤ (codeAt t.code 0x61#8).len.toNat ∧ 1 ≤ (codeAt t.code 0x62#8).len.toNat := by
  have h : 1 ≤ (codeAt (after .gencodes sBuilt).code 0x61#8).len.toNat ∧
      1 ≤ (codeAt (after .gencodes sBuilt).code 0x62#8).len.toNat := by decide +kernel
  exact ⟨sBuilt_ready, sBuilt_treeV, _, (after_spec sBuilt_ready _).1, h⟩

theorem witness_PackerIsMsbFirst : State.reset.work.acc = 0#8 ∧ State.reset.work.nb = 0 ∧
    State.reset.outLen < State.reset.cfg.obufSize ∧ [true, false, true].length ≤ 8 ∧ (List.replicate 8 true).length ≤ 8 := by decide

/-- At the end of the data, and at its last byte (B7, B9). -/
theorem witness_ReadBitStream : State.reset.work.rem = 0 ∧ State.reset.inLen.toNat ≤ State.reset.work.rp ∧
    (loaded [0x1F#8]).work.rp < (loaded [0x1F#8]).inLen.toNat ∧
    Memory.read (loaded [0x1F#8]).ibuf (loaded [0x1F#8]).work.rp = some 0x1F#8 := by decide

/-- A one-symbol table, with OBUF full: the payload has no room. -/
def sFull : State :=
  next .gencodes (next .build (next .count (accepted 0x10#32
    (holding { ibufSize := 1#32, obufSize := 1288#32 } [0x7A#8] (List.replicate 1288 0x00#8)))))

theorem sFull_ready : Ready sFull :=
  next_ready (next_ready (next_ready (accepted_ready (holding_inv (by decide) (by decide)
    (by rw [List.length_replicate]; decide)) _) _) _) _

theorem sFull_facts : sFull.codesV = true ∧ sFull.ftSrc = false ∧ sFull.outLen = 1288#32 ∧ sFull.cfg.obufSize = 1288#32 ∧
    (∀ i, i < sFull.inLen.toNat → (Memory.read sFull.ibuf i).isSome = true) ∧
    (payloadBits sFull.code (inputOf sFull)).length = 1 := by decide +kernel

theorem witness_PackResult :
    (Ready sCoded ∧ sCoded.codesV = true ∧ sCoded.ftSrc = false ∧ InputWritten sCoded ∧
      sCoded.outLen.toNat + ((payloadBits sCoded.code (inputOf sCoded)).length + 7) / 8 ≤ sCoded.cfg.obufSize.toNat) ∧
    Ready sFull ∧ sFull.codesV = true ∧ sFull.ftSrc = false ∧ InputWritten sFull ∧
      sFull.cfg.obufSize.toNat < sFull.outLen.toNat + ((payloadBits sFull.code (inputOf sFull)).length + 7) / 8 := by
  obtain ⟨h1, h2, h3, h4, h5, h6⟩ := sFull_facts
  obtain ⟨g1, g2, g3, g4, g5, g6⟩ := sCoded_facts
  exact ⟨⟨sCoded_ready, g1, g2, g5, by rw [g3, g4, g6]; decide⟩, sFull_ready, h1, h2, h5, by rw [h3, h4, h6]; decide⟩

/-- DC7: the bits after the last symbol are not read. -/
theorem witness_DecodeResult : ∃ (s : State) (bytes : List Byte) (rest : List Bool), Ready s ∧ s.treeV = true ∧ s.ftSrc = true ∧ InputWritten s ∧
    bytes.length = s.total.toNat ∧ bytes.length ≤ s.cfg.obufSize.toNat ∧ (∀ b ∈ bytes, IsPath s.node s.root [false] b) ∧
    payloadOf s = (bytes.flatMap fun _ => [false]) ++ rest := by
  have h := sLone_four
  have hp := h.isPath 4
  obtain ⟨h0, h1, h2, h3, h4, h5, -⟩ := h
  exact ⟨_, List.replicate 4 0x7A#8, [true, true, true, true], sLone_default_ready _ _, h1, h2, h5, h3.symm, by rw [h0]; decide, hp, h4⟩

theorem sLone_nine : LoneTree Config.default (sLone Config.default 9 [0x00#8]) 9 (List.replicate 8 false) := by
  unfold LoneTree
  decide +kernel

/-- DC9. -/
theorem witness_DecodeRunsOut : ∃ (s : State) (bytes : List Byte) (rest : List Bool) (i : NodeIdx) (n : Node), Ready s ∧ s.treeV = true ∧ s.ftSrc = true ∧ InputWritten s ∧
    bytes.length < s.total.toNat ∧ bytes.length ≤ s.cfg.obufSize.toNat ∧ (∀ b ∈ bytes, IsPath s.node s.root [false] b) ∧
    payloadOf s = (bytes.flatMap fun _ => [false]) ++ rest ∧ follow s.node s.root rest = some i ∧ nodeAt s.node i = some n ∧
    n.leaf = false := by
  have h := sLone_nine
  have hp := h.isPath 8
  obtain ⟨h0, h1, h2, h3, h4, h5, -, h7, h8, -⟩ := h
  exact ⟨_, List.replicate 8 0x7A#8, [], 256#9, _, sLone_default_ready _ _, h1, h2, h5, by rw [h3]; decide, by rw [h0]; decide, hp,
    h4, by rw [h7]; rfl, h8, rfl⟩

theorem sLone_five : LoneTree Config.default (sLone Config.default 5 [0x08#8]) 5 (List.replicate 4 false ++ [true, false, false, false]) := by
  unfold LoneTree
  decide +kernel

/-- DC8, and DC5 with the 1 bit first. -/
theorem witness_DecodeAbsentChild : ∃ (s : State) (k : Nat) (rest : List Bool), Ready s ∧ s.treeV = true ∧ s.ftSrc = true ∧ InputWritten s ∧
    freqAt s.freq 0x7A#8 ≠ 0#32 ∧ (∀ c, c ≠ 0x7A#8 → freqAt s.freq c = 0#32) ∧ k < s.total.toNat ∧ k ≤ s.cfg.obufSize.toNat ∧
    payloadOf s = List.replicate k false ++ true :: rest := by
  obtain ⟨h0, h1, h2, h3, h4, h5, -, -, -, -, h6, h7⟩ := sLone_five
  exact ⟨_, 4, [false, false, false], sLone_default_ready _ _, h1, h2, h5, h7, h6, by rw [h3]; decide, by rw [h0]; decide, h4⟩

theorem sLone_over : LoneTree { ibufSize := 175#32, obufSize := 1288#32 } (sLone { ibufSize := 175#32, obufSize := 1288#32 } 1289 (List.replicate 162 0x00#8)) 1289
    (List.replicate 1296 false) := by
  unfold LoneTree
  decide +kernel

/-- DC11. -/
theorem witness_DecodeOverflow : ∃ (s : State) (bytes : List Byte) (b : Byte) (rest : List Bool), Ready s ∧ s.treeV = true ∧ s.ftSrc = true ∧ InputWritten s ∧
    bytes.length = s.cfg.obufSize.toNat ∧ bytes.length < s.total.toNat ∧
    (∀ c ∈ bytes ++ [b], IsPath s.node s.root [false] c) ∧
    payloadOf s = ((bytes ++ [b]).flatMap fun _ => [false]) ++ rest := by
  have h := sLone_over
  have hp := h.isPath 1289
  obtain ⟨h0, h1, h2, h3, h4, h5, -⟩ := h
  refine ⟨_, List.replicate 1288 0x7A#8, 0x7A#8, List.replicate 7 false, sLone_ready (by decide) (by rw [List.length_replicate]; decide), h1, h2, h5,
    ?_, by rw [h3, List.length_replicate]; decide, ?_, ?_⟩
  · rw [List.length_replicate, h0]; decide
  · rw [← List.replicate_succ']; exact hp
  · rw [h4]; decide +kernel

theorem witness_CompressIsItsStages : sLoaded.cfg.wellFormed = true ∧ sLoaded.errCode = .noError ∧
    sLoaded.inLen ≤ sLoaded.cfg.ibufSize := by decide

theorem witness_DecompressIsItsStages : sLoaded.errCode = .noError ∧ sLoaded.inLen ≤ sLoaded.cfg.ibufSize := by decide

theorem witness_CompressResult : Ready sLoaded ∧ sLoaded.inLen ≤ sLoaded.cfg.ibufSize ∧ InputWritten sLoaded ∧
    1288 + 32 * sLoaded.inLen.toNat ≤ sLoaded.cfg.obufSize.toNat :=
  ⟨sLoaded_ready, by decide, sLoaded_written, by decide⟩

/-- The file of DC7. -/
theorem witness_DecompressResult :
    let es : Entries := [(0x7A#8, 4#32)]
    let s := accepted 0x28#32 (loaded (headerOf es ++ [0x0F#8]))
    Ready s ∧ s.inLen ≤ s.cfg.ibufSize ∧ InputWritten s ∧ inputOf s = headerOf es ++ [0x0F#8] ∧ EntriesOk es ∧
    TableOf es (table es) ∧ (List.replicate 4 0x7A#8).length = freqTotal (table es) ∧
    (∀ b ∈ List.replicate 4 0x7A#8, IsPath (builtTree (table es)).1 (builtTree (table es)).2 [false] b) ∧
    bitsOfBytes [0x0F#8] = ((List.replicate 4 0x7A#8).flatMap fun _ => [false]) ++ [true, true, true, true] := by
  refine ⟨accepted_ready (loadedWith_inv (by decide) (by decide)) _, by decide, ?_, by decide, ⟨by decide, by simp⟩, ?_,
    by decide +kernel, ?_, by decide⟩
  · show ∀ i, i < (loaded (headerOf [(0x7A#8, 4#32)] ++ [0x0F#8])).inLen.toNat →
      (Memory.read (loaded (headerOf [(0x7A#8, 4#32)] ++ [0x0F#8])).ibuf i).isSome = true
    decide
  · have h : freqAt (table [(0x7A#8, 4#32)]) 0x7A#8 = 4#32 ∧
        ∀ b : Byte, b ≠ 0x7A#8 → freqAt (table [(0x7A#8, 4#32)]) b = 0#32 := by decide +kernel
    exact ⟨fun e he => by rw [List.mem_singleton.mp he]; exact h.1,
      fun b hb => h.2 b fun hc => hb _ (List.mem_singleton.mpr rfl) hc.symm⟩
  · intro b hb
    rw [List.eq_of_mem_replicate hb]
    have h : follow (builtTree (table [(0x7A#8, 4#32)])).1 (builtTree (table [(0x7A#8, 4#32)])).2 [false] = some 0x7A#9 ∧
        nodeAt (builtTree (table [(0x7A#8, 4#32)])).1 0x7A#9 = some (leafNode 4#32) := by
      unfold builtTree
      decide +kernel
    exact ⟨h.1, _, h.2, rfl⟩

/-- The file of "aaabbc" (E1). -/
def tFile : State := after .compress sLoaded

theorem tFile_spec : exec .compress sLoaded = .next tFile ∧ Inv tFile := after_spec sLoaded_ready _

theorem tFile_facts : tFile.errCode = .noError ∧ tFile.outLen = 25#32 ∧ tFile.nsym = 3#9 ∧ tFile.cfg = Config.default := by
  decide +kernel

theorem witness_CompressDecompressRoundTrip : Ready sLoaded ∧ InputWritten sLoaded ∧ exec .compress sLoaded = .next tFile ∧
    tFile.errCode = .noError ∧ ∃ s', Ready s' ∧ Copied tFile s' ∧ tFile.outLen ≤ s'.cfg.ibufSize ∧
      sLoaded.inLen ≤ s'.cfg.obufSize := by
  obtain ⟨h1, h2, -, h4⟩ := tFile_facts
  refine ⟨sLoaded_ready, sLoaded_written, tFile_spec.1, h1, _, copied_ready tFile_spec.2 h4 tFile.outLen, fed_copied _, ?_, ?_⟩
  · rw [(fed_fields _ _).2.2.1, h2, h4]; decide
  · rw [(fed_fields _ _).2.2.1, h4]; decide

/-- E4: the lengths where the clauses meet. -/
theorem witness_TruncatedFiles : Ready sLoaded ∧ InputWritten sLoaded ∧ exec .compress sLoaded = .next tFile ∧
    tFile.errCode = .noError ∧ 8 + 5 * tFile.nsym.toNat = 23 ∧ ∀ L ∈ [0#32, 7#32, 8#32, 22#32, 23#32, 24#32], ∃ s', Ready s' ∧
      s'.inLen = L ∧ s'.inLen < tFile.outLen ∧ s'.inLen ≤ s'.cfg.ibufSize ∧ sLoaded.inLen ≤ s'.cfg.obufSize ∧
      ∀ i, i < s'.inLen.toNat → Memory.read s'.ibuf i = Memory.read tFile.obuf i := by
  obtain ⟨h1, h2, h3, h4⟩ := tFile_facts
  simp only [List.forall_mem_cons, List.not_mem_nil, false_imp_iff, implies_true, and_true]
  have h : ∀ L : Word, L < 25#32 → ∃ s', Ready s' ∧
      s'.inLen = L ∧ s'.inLen < tFile.outLen ∧ s'.inLen ≤ s'.cfg.ibufSize ∧ sLoaded.inLen ≤ s'.cfg.obufSize ∧
      ∀ i, i < s'.inLen.toNat → Memory.read s'.ibuf i = Memory.read tFile.obuf i := fun L hL => by
    refine ⟨_, copied_ready tFile_spec.2 h4 L, (fed_fields _ _).2.1, ?_, ?_, ?_, fun i _ => by rw [(fed_fields _ _).2.2.2]⟩
    · rw [(fed_fields _ _).2.1, h2]; exact hL
    · rw [(fed_fields _ _).2.1, (fed_fields _ _).2.2.1, h4]
      exact show L ≤ 65536#32 by bv_omega
    · rw [(fed_fields _ _).2.2.1, h4]; decide
  exact ⟨sLoaded_ready, sLoaded_written, tFile_spec.1, h1, by rw [h3]; decide, h _ (by decide), h _ (by decide), h _ (by decide),
    h _ (by decide), h _ (by decide), h _ (by decide)⟩

theorem witness_ResetMeetsInvariant : Config.wellFormed ⟨1#32, 1288#32⟩ = true := by decide

/-- The engine's turn, and the host's. -/
theorem witness_StepKeepsInvariant : Inv (accepted 0x00#32 (loaded aaabbc)) ∧
    (∃ t, step (accepted 0x00#32 (loaded aaabbc)) = .next t) ∧ Inv (loaded aaabbc) ∧ ∃ t, step (loaded aaabbc) = .next t :=
  ⟨(accepted_ready (loadedWith_inv (by decide) (by decide)) _).1, ⟨_, rfl⟩, loadedWith_inv (by decide) (by decide), ⟨_, rfl⟩⟩

theorem witness_EveryStepEnds : Inv sLoaded ∧ Inv (loaded aaabbc) := ⟨sLoaded_ready.1, loadedWith_inv (by decide) (by decide)⟩

end Sys2Proof.Machine.Tests
end

section
/-! PROOF. What the body of every command leaves unwritten, and the validity flags it leaves (spec/10_state.md R23, R25;
spec/40_command_common.md R69). -/

namespace Sys2Proof.Machine

/-! ### Postconditions of bodies -/

/-- Where a body ends P holds, and where it raises an error e, Q e does. -/
def Body.Post (b : Body) (P : State → Prop) (Q : ErrCode → State → Prop) : Prop :=
  (∀ t, b = .ok t → P t) ∧ ∀ e info t, b = .raised e info t → Q e t

section
variable {b : Body} {P P' : State → Prop} {Q Q' : ErrCode → State → Prop}

theorem Body.Post.ends {t : State} (h : b.Post P Q) (ht : b = .ok t) : P t := h.1 t ht

theorem Body.Post.raises {e : ErrCode} {info : DWord} {t : State} (h : b.Post P Q) (ht : b = .raised e info t) : Q e t :=
  h.2 e info t ht

theorem Body.Post.of_ok {t : State} (h : P t) : (Body.ok t).Post P Q :=
  And.intro (fun _ ht => Body.ok.inj ht ▸ h) fun _ _ _ ht => nomatch ht

theorem Body.Post.of_raised {e : ErrCode} {info : DWord} {t : State} (h : Q e t) : (Body.raised e info t).Post P Q :=
  And.intro (fun _ ht => nomatch ht) fun _ _ _ ht => by cases ht; exact h

theorem Body.Post.of_stuck {r : Fault} : (Body.stuck r).Post P Q :=
  And.intro (fun _ ht => nomatch ht) fun _ _ _ ht => nomatch ht

theorem Body.Post.bind {f : State → Body} (h : b.Post P Q) (hf : ∀ t, P t → (f t).Post P' Q) : (b.bind f).Post P' Q := by
  cases b with
  | ok t => exact hf t (h.ends rfl)
  | raised e info t => exact .of_raised (h.raises rfl)
  | stuck r => exact .of_stuck

theorem Body.Post.mono (h : b.Post P Q) (hP : ∀ t, P t → P' t) (hQ : ∀ e t, Q e t → Q' e t) : b.Post P' Q' :=
  And.intro (fun _ ht => hP _ (h.ends ht)) fun _ _ _ ht => hQ _ _ (h.raises ht)

end

/-! ### What no body writes -/

/-- The fields that no command's body writes, the rest as after reset: those of acceptance and completion, the sizes, the input,
the interrupt registers, and the host's own side. -/
def bodyFrame (s : State) : State :=
  { State.resetWith s.cfg with
    busy := s.busy, done := s.done, errCode := s.errCode, lastOp := s.lastOp, inLen := s.inLen, irqEn := s.irqEn
    irqStatus := s.irqStatus, ibuf := s.ibuf, curCmd := s.curCmd, script := s.script, reads := s.reads, delay := s.delay }

/-- The fields of `bodyFrame` are in t as they are in s. -/
def BodyKeeps (s t : State) : Prop := bodyFrame t = bodyFrame s

theorem BodyKeeps.refl (s : State) : BodyKeeps s s := rfl

theorem BodyKeeps.trans {s t u : State} (h : BodyKeeps s t) (h' : BodyKeeps t u) : BodyKeeps s u := Eq.trans h' h

theorem BodyKeeps.cfg {s t : State} (h : BodyKeeps s t) : t.cfg = s.cfg :=
  show (bodyFrame t).cfg = (bodyFrame s).cfg from congrArg _ h

theorem BodyKeeps.errCode {s t : State} (h : BodyKeeps s t) : t.errCode = s.errCode :=
  show (bodyFrame t).errCode = (bodyFrame s).errCode from congrArg _ h

theorem BodyKeeps.inLen {s t : State} (h : BodyKeeps s t) : t.inLen = s.inLen :=
  show (bodyFrame t).inLen = (bodyFrame s).inLen from congrArg _ h

/-- FT_V, FT_SRC, TREE_V and CODES_V, as `flagsOf` gives them (R23). -/
abbrev Flags := Bool × Bool × Bool × Bool

/-- A body started in s leaves the flags `ok` where it ends and flags that meet `err` where it raises, and writes no field of
`BodyKeeps`. -/
def LeavesFlags (s : State) (ok : Flags) (err : ErrCode → Flags → Prop) (b : Body) : Prop :=
  b.Post (fun t => BodyKeeps s t ∧ flagsOf t = ok) fun e t => BodyKeeps s t ∧ err e (flagsOf t)

section
variable {s : State} {ok ok' : Flags} {err err' : ErrCode → Flags → Prop} {b : Body}

theorem LeavesFlags.mono (h : LeavesFlags s ok err b) (he : ∀ e f, err e f → err' e f) : LeavesFlags s ok err' b :=
  Body.Post.mono h (fun _ h => h) fun e _ h => ⟨h.1, he e _ h.2⟩

theorem LeavesFlags.of_ok {t : State} (hk : BodyKeeps s t) (hf : flagsOf t = ok) : LeavesFlags s ok err (.ok t) :=
  Body.Post.of_ok ⟨hk, hf⟩

theorem LeavesFlags.of_raised {e : ErrCode} {info : DWord} {t : State} (hk : BodyKeeps s t) (hf : err e (flagsOf t)) :
    LeavesFlags s ok err (.raised e info t) := Body.Post.of_raised ⟨hk, hf⟩

theorem LeavesFlags.of_stuck {r : Fault} : LeavesFlags s ok err (.stuck r) := Body.Post.of_stuck

/-- A body that goes on from a state in which the same fields are kept. -/
theorem LeavesFlags.after {t : State} (hk : BodyKeeps s t) (h : LeavesFlags t ok err b) : LeavesFlags s ok err b :=
  Body.Post.mono h (fun _ h => ⟨hk.trans h.1, h.2⟩) fun _ _ h => ⟨hk.trans h.1, h.2⟩

theorem LeavesFlags.bind {f : State → Body} (h : LeavesFlags s ok err b)
    (hf : ∀ u, BodyKeeps s u → flagsOf u = ok → LeavesFlags u ok' err (f u)) : LeavesFlags s ok' err (b.bind f) :=
  Body.Post.bind h fun u hu => (hf u hu.1 hu.2).after hu.1

end

/-- How a command step ends, from what its body leaves: the body ended, it raised, or the precondition failed. -/
theorem LeavesFlags.command_ends {s t : State} {ok : Flags} {err : ErrCode → Flags → Prop} {body : State → Body}
    {pre : Bool} {e : ErrCode} {info : Nat} (h : LeavesFlags s ok err (body s)) (ht : runCommand pre e info body s = .next t) :
    ∃ u, BodyKeeps s u ∧ ((pre = true ∧ flagsOf u = ok ∧ t = complete u) ∨
      (pre = true ∧ ∃ e' i', err e' (flagsOf u) ∧ t = errorEntry e' i' u) ∨
      (pre = false ∧ u = s ∧ ∃ i', t = errorEntry e i' s)) := by
  rcases runCommand_next ht with ⟨hp, u, hu, rfl⟩ | ⟨hp, e', i', u, hu, rfl⟩ | ⟨hp, rfl⟩
  · obtain ⟨hk, hf⟩ := h.ends hu
    exact ⟨u, hk, .inl ⟨hp, hf, rfl⟩⟩
  · obtain ⟨hk, hf⟩ := h.raises hu
    exact ⟨u, hk, .inr (.inl ⟨hp, e', i', hf, rfl⟩)⟩
  · exact ⟨s, .refl s, .inr (.inr ⟨hp, rfl, _, rfl⟩)⟩

/-! ### The bodies that append to the output -/

/-- Bytes appended to the output leave the flags (R51). -/
theorem Appends.keeps {s t : State} {x : List Byte} (h : Appends s x t) : BodyKeeps s t ∧ flagsOf t = flagsOf s := by
  obtain ⟨m, n, w, d, rfl⟩ := h.frame
  exact ⟨rfl, rfl⟩

/-- What a stage that only appends does with an error: the flags stay as given, and the error is no CorruptHeader. -/
def OutputError (flags : Flags) (e : ErrCode) (f : Flags) : Prop := e.errClass ≠ some .corruptHeader ∧ f = flags

theorem AppendsOrFull.leavesFlags {s : State} {b : Body} (h : AppendsOrFull s b) :
    LeavesFlags s (flagsOf s) (OutputError (flagsOf s)) b := by
  rcases h with ⟨x, t, rfl, ha⟩ | ⟨x, t, rfl, ha, -⟩
  · exact .of_ok ha.keeps.1 ha.keeps.2
  · exact .of_raised ha.keeps.1 ⟨by decide, ha.keeps.2⟩

theorem serializeBody_leaves {s : State} {f : Flags} (hs : flagsOf s = f) :
    LeavesFlags s f (OutputError f) (serializeBody s) :=
  hs ▸ (serializeBody_cases s).leavesFlags.after rfl

theorem packBody_leaves {s : State} {f : Flags} (hs : flagsOf s = f) :
    LeavesFlags s f (OutputError f) (packBody s) := by
  subst hs
  have hpack : LeavesFlags (packStart s) (flagsOf s) (OutputError (flagsOf s))
      ((packLoop s.inLen.toNat 0 (packStart s)).bind flushBits) :=
    ((packLoop_appends _ _ _).bind flushBits_appends).leavesFlags
  refine LeavesFlags.after (t := packStart s) rfl (hpack.bind fun t _ ht => ?_)
  exact .of_ok rfl ht

/-- A body that raises no CorruptHeader error. -/
def RaisesNoHeaderError (b : Body) : Prop := b.Post (fun _ => True) fun e _ => e.errClass ≠ some .corruptHeader

theorem RaisesNoHeaderError.bind {b : Body} {f : State → Body} (h : RaisesNoHeaderError b)
    (hf : ∀ t, RaisesNoHeaderError (f t)) : RaisesNoHeaderError (b.bind f) := Body.Post.bind h fun t _ => hf t

theorem emitByte_noHeaderError (v : Byte) (s : State) : RaisesNoHeaderError (emitByte v s) := by
  rcases emitByte_cases v s with ⟨-, h⟩ | ⟨-, h⟩ <;> rw [h]
  · exact .of_ok trivial
  · exact .of_raised (by decide)

theorem arrive_noHeaderError (i : NodeIdx) (s : State) : RaisesNoHeaderError (arrive i s) := by
  unfold arrive
  cases nodeAt s.node i with
  | none => exact .of_stuck
  | some n =>
    simp only
    split
    · split
      · exact (emitByte_noHeaderError _ _).bind fun _ => .of_ok trivial
      · exact .of_stuck
    · exact .of_ok trivial

theorem descend_noHeaderError (b : Bool) (s : State) : RaisesNoHeaderError (descend b s) := by
  unfold descend
  cases nodeAt s.node s.work.cur with
  | none => exact .of_stuck
  | some n =>
    simp only
    split
    · exact .of_raised (by decide)
    · exact arrive_noHeaderError _ _

theorem decodeRound_noHeaderError (s : State) : RaisesNoHeaderError (decodeRound s) := by
  unfold decodeRound
  split
  · exact .of_raised (by decide)
  · exact descend_noHeaderError _ _

theorem decodeLoop_noHeaderError (fuel : Nat) (s : State) : RaisesNoHeaderError (decodeLoop fuel s) := by
  induction fuel generalizing s with
  | zero => exact .of_stuck
  | succ fuel ih =>
    rw [decodeLoop]
    split
    · exact (decodeRound_noHeaderError s).bind ih
    · exact .of_ok trivial

theorem decodeBody_noHeaderError (s : State) : RaisesNoHeaderError (decodeBody s) :=
  (decodeLoop_noHeaderError _ _).bind fun _ => .of_ok trivial

theorem decodeBody_leaves {s : State} {f : Flags} (hs : flagsOf s = f) :
    LeavesFlags s f (OutputError f) (decodeBody s) := by
  subst hs
  have hno := decodeBody_noHeaderError s
  have hstart : BodyKeeps s (decodeStart s) := rfl
  rcases decodeBody_frame s with ⟨x, t, h, ha⟩ | ⟨e, i, x, t, h, ha⟩ | ⟨f, h⟩ <;> rw [h] at hno ⊢
  · exact .of_ok ((hstart.trans ha.keeps.1).trans rfl) ha.keeps.2
  · exact .of_raised (hstart.trans ha.keeps.1) ⟨hno.raises rfl, ha.keeps.2⟩
  · exact .of_stuck

/-! ### The bodies that end without an error, and DESERIALIZE -/

section
variable {err : ErrCode → Flags → Prop}

theorem nopBody_leaves (s : State) : LeavesFlags s (flagsOf s) err (nopBody s) := .of_ok (.refl s) rfl

theorem clearBody_leaves (s : State) : LeavesFlags s (false, false, false, false) err (clearBody s) := .of_ok rfl rfl

theorem countBody_leaves (s : State) : LeavesFlags s (true, false, false, false) err (countBody s) := by
  obtain ⟨f, d, h⟩ := countState_frame s
  rw [countBody, h]
  exact .of_ok rfl rfl

theorem buildBody_leaves {s : State} {ft src tree codes : Bool} (hs : flagsOf s = (ft, src, tree, codes)) :
    LeavesFlags s (ft, src, true, false) err (buildBody s) := by
  cases hs
  obtain ⟨w, h⟩ := buildState_frame s
  rw [buildBody, h]
  exact .of_ok rfl rfl

theorem gencodesBody_leaves {s : State} {ft src tree codes : Bool} (hs : flagsOf s = (ft, src, tree, codes)) :
    LeavesFlags s (ft, src, tree, true) err (gencodesBody s) := by
  cases hs
  rcases gencodesBody_frame s with ⟨k, h⟩ | ⟨f, h⟩ <;> rw [h]
  · exact .of_ok rfl rfl
  · exact .of_stuck

end

theorem deserializeBody_leaves (s : State) : LeavesFlags s (true, true, false, false)
    (fun e f => e.errClass = some .corruptHeader ∧ f = (false, false, false, false)) (deserializeBody s) := by
  rcases deserializeBody_cases s with ⟨e, i, d, h, he⟩ | ⟨n, f, d, h, -⟩ <;> rw [h]
  · exact .of_raised rfl ⟨he, rfl⟩
  · exact .of_ok rfl rfl

/-! ### The pipelines -/

theorem enterStage_keeps (n : Nat) (s : State) : BodyKeeps s (enterStage n s) := rfl

/-- SERIALIZE raises no error where OBUF has at least the size of R5 (R82). -/
theorem serializeBody_leaves_of_room {s : State} {f : Flags} (hs : flagsOf s = f) :
    LeavesFlags s f (fun _ _ => ¬ 1288 ≤ s.cfg.obufSize.toNat) (serializeBody s) := by
  subst hs
  by_cases hroom : 1288 ≤ s.cfg.obufSize.toNat
  · rw [serializeBody_ok hroom]
    exact .of_ok rfl rfl
  · exact (serializeBody_leaves rfl).mono fun _ _ _ => hroom

/-- COMPRESS leaves its last stage's flags, also where PACK finds OBUF full; with OBUF as R5 has it no other stage can (R103). -/
theorem compressBody_leaves (s : State) : LeavesFlags s (true, false, true, true)
    (fun _ f => 1288 ≤ s.cfg.obufSize.toNat → f = (true, false, true, true)) (compressBody s) := by
  unfold compressBody
  simp only [Body.bind_assoc]
  refine .bind (.after (enterStage_keeps 1 s) (countBody_leaves _)) fun t₁ k₁ f₁ => ?_
  refine .bind (.after (enterStage_keeps 2 t₁) ((serializeBody_leaves_of_room (s := enterStage 2 t₁) f₁).mono
    fun _ _ hfull hroom => absurd (by rwa [enterStage_cfg, k₁.cfg]) hfull)) fun t₂ _ f₂ => ?_
  refine .bind (.after (enterStage_keeps 3 t₂) (buildBody_leaves (s := enterStage 3 t₂) f₂)) fun t₃ _ f₃ => ?_
  refine .bind (.after (enterStage_keeps 4 t₃) (gencodesBody_leaves (s := enterStage 4 t₃) f₃)) fun t₄ _ f₄ => ?_
  exact .after (enterStage_keeps 5 t₄) ((packBody_leaves (s := enterStage 5 t₄) f₄).mono fun _ _ h _ => h.2)

/-- The flags DECOMPRESS leaves where it ends with an error: those of DESERIALIZE's failure, or those of BUILD (R104). -/
def decompressErrorFlags (e : ErrCode) : Flags :=
  if e.errClass = some .corruptHeader then (false, false, false, false) else (true, true, true, false)

theorem decompressBody_leaves (s : State) :
    LeavesFlags s (true, true, true, false) (fun e f => f = decompressErrorFlags e) (decompressBody s) := by
  unfold decompressBody
  simp only [Body.bind_assoc]
  refine .bind (.after (t := enterStage 1 (setOutput s.obuf 0#32 s)) rfl
    ((deserializeBody_leaves _).mono fun e f h => ?_)) fun t₁ _ f₁ => ?_
  · rw [decompressErrorFlags, if_pos h.1, h.2]
  refine .bind (.after (enterStage_keeps 2 t₁) (buildBody_leaves (s := enterStage 2 t₁) f₁)) fun t₂ _ f₂ => ?_
  refine .after (enterStage_keeps 3 t₂) ((decodeBody_leaves (s := enterStage 3 t₂) f₂).mono fun e f h => ?_)
  rw [decompressErrorFlags, if_neg h.1, h.2]

/-! ### Every command -/

/-- Every command is a precondition and a body that keeps what `BodyKeeps` names. -/
theorem exec_runs_body (i : Instr) (s : State) : ∃ pre e info body ok err,
    exec i s = runCommand pre e info body s ∧ LeavesFlags s ok err (body s) := by
  cases i with
  | nop => exact ⟨true, .noError, 0, _, _, fun _ _ => False, rfl, nopBody_leaves s⟩
  | clear => exact ⟨true, .noError, 0, _, _, fun _ _ => False, rfl, clearBody_leaves s⟩
  | count => exact ⟨_, _, _, _, _, fun _ _ => False, rfl, countBody_leaves s⟩
  | serialize => exact ⟨_, _, _, _, _, _, rfl, serializeBody_leaves rfl⟩
  | build => exact ⟨_, _, _, _, _, fun _ _ => False, rfl, buildBody_leaves rfl⟩
  | gencodes => exact ⟨_, _, _, _, _, fun _ _ => False, rfl, gencodesBody_leaves rfl⟩
  | pack => exact ⟨_, _, _, _, _, _, rfl, packBody_leaves rfl⟩
  | compress => exact ⟨_, _, _, _, _, _, rfl, compressBody_leaves s⟩
  | deserialize => exact ⟨_, _, _, _, _, _, rfl, deserializeBody_leaves s⟩
  | decode => exact ⟨_, _, _, _, _, _, rfl, decodeBody_leaves rfl⟩
  | decompress => exact ⟨_, _, _, _, _, _, rfl, decompressBody_leaves s⟩

/-- A command ends by completion or error entry in a state its body kept in the fields of `BodyKeeps`. -/
theorem exec_ends {i : Instr} {s t : State} (h : exec i s = .next t) :
    ∃ u, BodyKeeps s u ∧ (t = complete u ∨ ∃ e info, t = errorEntry e info u) := by
  obtain ⟨pre, e, info, body, ok, err, hrun, hbody⟩ := exec_runs_body i s
  obtain ⟨u, hk, ⟨-, -, rfl⟩ | ⟨-, e', i', -, rfl⟩ | ⟨-, rfl, i', rfl⟩⟩ := hbody.command_ends (hrun ▸ h)
  · exact ⟨u, hk, .inl rfl⟩
  · exact ⟨u, hk, .inr ⟨e', i', rfl⟩⟩
  · exact ⟨u, hk, .inr ⟨e, i', rfl⟩⟩

/-- No command writes IN_LEN (R25). -/
theorem exec_inLen {i : Instr} {s t : State} (h : exec i s = .next t) : t.inLen = s.inLen := by
  obtain ⟨u, hk, rfl | ⟨e, info, rfl⟩⟩ := exec_ends h <;> exact hk.inLen

/-! ### The flags after a command -/

/-- The flags a command step leaves, by how it ends; after an error of the body ERRCODE tells which one it was. -/
theorem LeavesFlags.command_flags {s t : State} {ok : Flags} {err : ErrCode → Flags → Prop} {body : State → Body}
    {pre : Bool} {e : ErrCode} {info : Nat} (h : LeavesFlags s ok err (body s)) (ht : runCommand pre e info body s = .next t) :
    (pre = true ∧ ((flagsOf t = ok ∧ t.errCode = s.errCode) ∨ err t.errCode (flagsOf t))) ∨
    (pre = false ∧ flagsOf t = flagsOf s) := by
  obtain ⟨u, hk, ⟨hp, hu, rfl⟩ | ⟨hp, e', i', he, rfl⟩ | ⟨hp, rfl, i', rfl⟩⟩ := h.command_ends ht
  · exact .inl ⟨hp, .inl ⟨hu, hk.errCode⟩⟩
  · exact .inl ⟨hp, .inr he⟩
  · exact .inr ⟨hp, rfl⟩

/-- Where the errors of the body leave the flags its end does, only the precondition tells the two outcomes apart. -/
theorem LeavesFlags.command_flags_eq {s t : State} {ok : Flags} {err : ErrCode → Flags → Prop} {body : State → Body}
    {pre : Bool} {e : ErrCode} {info : Nat} (h : LeavesFlags s ok err (body s)) (herr : ∀ e f, err e f → f = ok)
    (ht : runCommand pre e info body s = .next t) :
    flagsOf t = if pre = true then ok else flagsOf s := by
  rcases h.command_flags ht with ⟨hp, ⟨hf, -⟩ | hf⟩ | ⟨hp, hf⟩
  · rw [if_pos hp, hf]
  · rw [if_pos hp, herr _ _ hf]
  · rw [if_neg (by simp [hp]), hf]

/-- DESERIALIZE: the flags are 0 after each error of the body, and tell of a parsed header else (R23, R83). -/
theorem exec_deserialize_flags {s t : State} (h : exec .deserialize s = .next t) (he : s.errCode = .noError) :
    flagsOf t = if s.inLen ≤ s.cfg.ibufSize then
      if t.errCode = .noError then (true, true, false, false) else (false, false, false, false)
    else flagsOf s := by
  rcases (deserializeBody_leaves s).command_flags h with ⟨hp, ⟨hf, ht⟩ | ⟨hc, hf⟩⟩ | ⟨hp, hf⟩
  · rw [if_pos (inputFits_true.1 hp), if_pos (ht.trans he), hf]
  · rw [if_pos (inputFits_true.1 hp), if_neg (fun hn => by rw [hn] at hc; cases hc), hf]
  · rw [if_neg (fun hle => by rw [inputFits_true.2 hle] at hp; cases hp), hf]

/-- DECOMPRESS: an error of the header leaves no flag, a later one what BUILD left (R23, R104). -/
theorem exec_decompress_flags {s t : State} (h : exec .decompress s = .next t) (he : s.errCode = .noError) :
    flagsOf t = if s.inLen ≤ s.cfg.ibufSize then decompressErrorFlags t.errCode else flagsOf s := by
  rcases (decompressBody_leaves s).command_flags h with ⟨hp, ⟨hf, ht⟩ | hf⟩ | ⟨hp, hf⟩
  · rw [if_pos (inputFits_true.1 hp), ht, he, hf]; rfl
  · rw [if_pos (inputFits_true.1 hp), hf]
  · rw [if_neg (fun hle => by rw [inputFits_true.2 hle] at hp; cases hp), hf]

end Sys2Proof.Machine
end

section
/-! PROOF. The invariant at reset and along every step (spec/10_state.md R24, R39; spec/40_command_common.md R68, R71). -/

namespace Sys2Proof.Machine

/-- The command step of an illegal word is an error entry, and keeps the invariant (R71). -/
theorem illegalCommand_inv {s : State} (h : Inv s) : Inv (illegalCommand s) := by
  have := refused_inv .illegalCmd s.curCmd.toNat (by simp) h
  rwa [BitVec.ofNat_toNat] at this

/-- The command step of any word, legal or not, keeps the invariant (R68). -/
theorem commandStep_inv {s t : State} (h : Ready s) (hs : commandStep s = .next t) : Inv t := by
  unfold commandStep at hs
  split at hs
  · cases hs; exact illegalCommand_inv h.1
  · rename_i i _
    obtain ⟨u, hu, hinv⟩ := exec_inv h i
    rw [hu] at hs
    cases hs; exact hinv

/-- A host step keeps the invariant: the script and the delay are not in it, and no host action breaks it. -/
theorem hostStep_inv {s : State} (h : Inv s) : Inv (hostStep s) := by
  unfold hostStep
  split
  · exact h
  · rename_i a rest _
    exact hostAct_keeps
      (h.free s.ovr s.irqEn s.irqStatus s.origBits s.compBits rest s.reads (s.delay - 1) s.draws) a

theorem busy_of_engineTurn {s : State} (h : engineTurn s = true) : s.busy = true := (Bool.and_eq_true_iff.1 h).1

theorem resetWith_meets_inv {c : Config} (h : c.wellFormed = true) : Inv (State.resetWith c) := resetWith_inv h [] [] 0

/-- Settles O58: a step is a command step in a Ready state, or a host step. -/
theorem stepKeepsInvariant : Obligations.StepKeepsInvariant := by
  intro s t h hs
  unfold step at hs
  split at hs
  · rename_i hturn
    exact commandStep_inv ⟨h, busy_of_engineTurn hturn⟩ hs
  · cases hs; exact hostStep_inv h

/-- Settles O57: after reset the buffers are empty, nothing runs, and no flag is set. -/
theorem resetMeetsInvariant : Obligations.ResetMeetsInvariant :=
  ⟨resetWith_meets_inv rfl, fun _ => resetWith_meets_inv⟩

end Sys2Proof.Machine
end

section
/-! PROOF. The register map: which byte offset goes to which word of REG (spec/10_state.md R18, R20, R35 to R37;
spec/20_memory.md R43). -/

namespace Sys2Proof.Machine

/-! ### Word offsets -/

/-- Clearing bits [1:0] is shifting them out and zeros in. -/
theorem wordOffset_eq_shift (off : BitVec 16) : wordOffset off = (off >>> 2) <<< 2 := by
  refine BitVec.eq_of_getLsbD_eq fun j hj => ?_
  have hm : (0xFFFC#16).getLsbD j = !decide (j < 2) := by revert j; decide
  rw [wordOffset, BitVec.getLsbD_and, hm, BitVec.getLsbD_shiftLeft, BitVec.getLsbD_ushiftRight]
  by_cases h2 : j < 2
  · simp [h2]
  · simp [h2, hj, show 2 + (j - 2) = j by omega]

theorem wordOffset_toNat (off : BitVec 16) : (wordOffset off).toNat = off.toNat / 4 * 4 := by
  have := off.isLt
  rw [wordOffset_eq_shift, BitVec.toNat_shiftLeft, BitVec.toNat_ushiftRight, Nat.shiftRight_eq_div_pow, Nat.shiftLeft_eq]
  omega

theorem wordOffset_aligned (off : BitVec 16) : (wordOffset off).toNat % 4 = 0 := by rw [wordOffset_toNat]; omega

/-! ### The control and status registers -/

/-- The words of REG outside the table of R18's registers: FREQ, NODE, CODE and the reserved words. -/
def Reg.isWindow : Reg → Bool
  | .freq _ => true
  | .node0 _ => true
  | .node1 _ => true
  | .code _ _ => true
  | .reserved => true
  | _ => false

theorem windowAt_isWindow (a : Nat) : (windowAt a).isWindow = true := by
  unfold windowAt
  repeat' split
  all_goals rfl

theorem regTable_not_window : ∀ p ∈ regTable, p.2.isWindow = false := by decide

theorem regTable_offset_le : ∀ p ∈ regTable, p.1.toNat ≤ 0x50 := by decide

theorem regTable_lookup : ∀ p ∈ regTable, regTable.lookup p.1 = some p.2 := by decide

/-- No register has two offsets. -/
theorem regTable_offset_unique : ∀ p ∈ regTable, ∀ q ∈ regTable, p.2 = q.2 → p.1 = q.1 := by decide

/-- The table of R18 has no gap below 0x54. -/
theorem regTable_covers : ∀ k < 21, (regTable.lookup (BitVec.ofNat 16 (4 * k))).isSome = true := by decide

/-- An offset goes to a register of the table of R18, or to what the windows say from 0x54 on. -/
theorem regAt_cases (off : BitVec 16) :
    (wordOffset off, regAt off) ∈ regTable ∨ (0x54 ≤ (wordOffset off).toNat ∧ regAt off = windowAt (wordOffset off).toNat) := by
  unfold regAt
  cases h : regTable.lookup (wordOffset off) with
  | some r =>
    obtain ⟨l₁, l₂, htable, -⟩ := List.lookup_eq_some_iff.1 h
    exact .inl (by simp [htable])
  | none =>
    refine .inr ⟨?_, rfl⟩
    by_contra hlt
    have hal := wordOffset_aligned off
    have hc := regTable_covers ((wordOffset off).toNat / 4) (by omega)
    rw [Nat.mul_div_cancel' (by omega), BitVec.ofNat_toNat, BitVec.setWidth_eq, h] at hc
    cases hc

theorem regAt_of_offset {off a : BitVec 16} {r : Reg} (hp : (a, r) ∈ regTable) (h : wordOffset off = a) : regAt off = r := by
  rw [regAt, h, regTable_lookup _ hp]

/-- A control or status register has exactly the offset of R18's table. -/
theorem regAt_eq_iff_of_table {off : BitVec 16} {p : BitVec 16 × Reg} (hp : p ∈ regTable) :
    regAt off = p.2 ↔ wordOffset off = p.1 := by
  refine ⟨fun h => ?_, regAt_of_offset hp⟩
  rcases regAt_cases off with hm | ⟨-, hw⟩
  · exact regTable_offset_unique _ hm _ hp h
  · have := windowAt_isWindow (wordOffset off).toNat
    rw [← hw, h, regTable_not_window p hp] at this
    cases this

/-- A word of a window, or a reserved word, has an offset from 0x54 on, by the windows alone. -/
theorem regAt_eq_iff_of_window {off : BitVec 16} {r : Reg} (hr : r.isWindow = true) :
    regAt off = r ↔ 0x54 ≤ (wordOffset off).toNat ∧ windowAt (wordOffset off).toNat = r := by
  rcases regAt_cases off with hm | ⟨hle, hw⟩
  · have hlt := regTable_offset_le _ hm
    have hne : regAt off ≠ r := fun h => by
      have := regTable_not_window _ hm
      rw [h, hr] at this
      cases this
    simp only at hlt
    exact ⟨fun h => absurd h hne, fun h => by omega⟩
  · rw [hw]
    exact ⟨fun h => ⟨hle, h⟩, fun h => h.2⟩

/-! ### The windows -/

/-- The offsets from 0x400 on: FREQ, NODE, CODE, and the gaps between them; and the gap below 0x400. -/
theorem windowAt_cases {a : Nat} (ha : a % 4 = 0) :
    (∃ sym : Byte, a = 0x400 + 4 * sym.toNat ∧ windowAt a = .freq sym) ∨
    (∃ i : NodeIdx, a = 0x1000 + 8 * i.toNat ∧ i.toNat ≠ 511 ∧ windowAt a = .node0 i) ∨
    (∃ i : NodeIdx, a = 0x1000 + 8 * i.toNat + 4 ∧ i.toNat ≠ 511 ∧ windowAt a = .node1 i) ∨
    (∃ (sym : Byte) (w : BitVec 4), a = 0x2000 + 64 * sym.toNat + 4 * w.toNat ∧ windowAt a = .code sym w) ∨
    ((a ≤ 0x3FC ∨ (0x800 ≤ a ∧ a ≤ 0xFFC) ∨ (0x1FF8 ≤ a ∧ a ≤ 0x1FFC) ∨ 0x6000 ≤ a) ∧ windowAt a = .reserved) := by
  unfold windowAt
  split
  · exact .inl ⟨_, by rw [BitVec.toNat_ofNat]; omega, rfl⟩
  · split
    · split
      · exact .inr (.inl ⟨_, by rw [BitVec.toNat_ofNat]; omega, by rw [BitVec.toNat_ofNat]; omega, rfl⟩)
      · exact .inr (.inr (.inl ⟨_, by rw [BitVec.toNat_ofNat]; omega, by rw [BitVec.toNat_ofNat]; omega, rfl⟩))
    · split
      · exact .inr (.inr (.inr (.inl ⟨_, _, by simp only [BitVec.toNat_ofNat]; omega, rfl⟩)))
      · exact .inr (.inr (.inr (.inr ⟨by omega, rfl⟩)))

section
variable {a : Nat} (ha : a % 4 = 0)
include ha

theorem windowAt_eq_freq {sym : Byte} : windowAt a = .freq sym ↔ a = 0x400 + 4 * sym.toNat := by
  rcases windowAt_cases ha with ⟨x, e, h⟩ | ⟨x, e, -, h⟩ | ⟨x, e, -, h⟩ | ⟨x, w, e, h⟩ | ⟨e, h⟩ <;>
    simp only [h, Reg.freq.injEq, reduceCtorEq, ← BitVec.toNat_inj, false_iff] <;> omega

theorem windowAt_eq_node0 {i : NodeIdx} : windowAt a = .node0 i ↔ a = 0x1000 + 8 * i.toNat ∧ i.toNat ≠ 511 := by
  rcases windowAt_cases ha with ⟨x, e, h⟩ | ⟨x, e, hx, h⟩ | ⟨x, e, hx, h⟩ | ⟨x, w, e, h⟩ | ⟨e, h⟩ <;>
    simp only [h, Reg.node0.injEq, reduceCtorEq, ← BitVec.toNat_inj, false_iff] <;> omega

theorem windowAt_eq_node1 {i : NodeIdx} : windowAt a = .node1 i ↔ a = 0x1000 + 8 * i.toNat + 4 ∧ i.toNat ≠ 511 := by
  rcases windowAt_cases ha with ⟨x, e, h⟩ | ⟨x, e, hx, h⟩ | ⟨x, e, hx, h⟩ | ⟨x, w, e, h⟩ | ⟨e, h⟩ <;>
    simp only [h, Reg.node1.injEq, reduceCtorEq, ← BitVec.toNat_inj, false_iff] <;> omega

theorem windowAt_eq_code {sym : Byte} {w : BitVec 4} :
    windowAt a = .code sym w ↔ a = 0x2000 + 64 * sym.toNat + 4 * w.toNat := by
  rcases windowAt_cases ha with ⟨x, e, h⟩ | ⟨x, e, hx, h⟩ | ⟨x, e, hx, h⟩ | ⟨x, v, e, h⟩ | ⟨e, h⟩ <;>
    simp only [h, Reg.code.injEq, reduceCtorEq, ← BitVec.toNat_inj, false_iff] <;> omega

theorem windowAt_eq_reserved : windowAt a = .reserved ↔
    a ≤ 0x3FC ∨ (0x800 ≤ a ∧ a ≤ 0xFFC) ∨ (0x1FF8 ≤ a ∧ a ≤ 0x1FFC) ∨ 0x6000 ≤ a := by
  rcases windowAt_cases ha with ⟨x, e, h⟩ | ⟨x, e, hx, h⟩ | ⟨x, e, hx, h⟩ | ⟨x, v, e, h⟩ | ⟨e, h⟩ <;>
    simp only [h, reduceCtorEq, true_iff, false_iff] <;> omega

end

/-- Settles O9: an offset goes to R18's register of that word, or to what the windows say of it. -/
theorem registerMap : Obligations.RegisterMap := by
  intro off
  have ha := wordOffset_aligned off
  have hN : ∀ i : NodeIdx, i ≠ NONE ↔ i.toNat ≠ 511 := fun i => not_congr BitVec.toNat_inj.symm
  refine ⟨wordOffset_toNat off, fun p hp => regAt_eq_iff_of_table hp, fun sym => ?_, fun i => ?_, fun i => ?_,
    fun sym w => ?_, ?_⟩ <;> rw [regAt_eq_iff_of_window rfl]
  · rw [windowAt_eq_freq ha]; omega
  · rw [windowAt_eq_node0 ha, hN]; omega
  · rw [windowAt_eq_node1 ha, hN]; omega
  · rw [windowAt_eq_code ha]; omega
  · rw [windowAt_eq_reserved ha]; omega

end Sys2Proof.Machine
end

section
/-! PROOF. Host reads and writes of REG, register by register (spec/10_state.md R19 to R37, R39; spec/20_memory.md R46). -/

namespace Sys2Proof.Machine

/-! ### Exact and open reads -/

/-- A word that R46 lists as exact reads its value at all times. -/
theorem readReg_exact {s : State} {r : Reg} (hs : r ≠ .status) (hx : r.exactWhileBusy = true) (hk : Reg.known s r = true)
    (w : Word) : readReg s r w = (regValue s r, false) := by
  simp [readReg, hs, hx, hk]

/-- While BUSY = 0 every word written since reset reads its value. -/
theorem readReg_idle {s : State} {r : Reg} (hb : s.busy = false) (hk : Reg.known s r = true) (w : Word) :
    readReg s r w = (regValue s r, false) := by
  simp [readReg, hb, hk]

/-- While BUSY = 0 a table word not written since reset reads the fields of the free word in hand (R39). -/
theorem readReg_unknown {s : State} {r : Reg} (hb : s.busy = false) (hk : Reg.known s r = false) (w : Word) :
    readReg s r w = (w &&& r.fields, true) := by
  simp [readReg, hb, hk]

theorem hostRegRead_of_readReg {s : State} {off : BitVec 16} {v : Word}
    (h : ∀ w, readReg s (regAt off) w = (v, false)) : hostRegRead off s = reply (.word v) s := by
  simp [hostRegRead, h]

theorem hostRegRead_exact {s : State} {off : BitVec 16} {r : Reg} (h : regAt off = r) (hs : r ≠ .status)
    (hx : r.exactWhileBusy = true) (hk : Reg.known s r = true) : hostRegRead off s = reply (.word (regValue s r)) s :=
  hostRegRead_of_readReg fun w => h ▸ readReg_exact hs hx hk w

theorem hostRegRead_idle {s : State} {off : BitVec 16} {r : Reg} (h : regAt off = r) (hb : s.busy = false)
    (hk : Reg.known s r = true) : hostRegRead off s = reply (.word (regValue s r)) s :=
  hostRegRead_of_readReg fun w => h ▸ readReg_idle hb hk w

/-! ### Writes -/

/-- The words of REG that a host write changes: the read-write registers and CMD (R18, R20). -/
def writableOffsets : List (BitVec 16) := [0x008#16, 0x010#16, 0x044#16, 0x048#16]

/-- A write to any word but CMD, IN_LEN, IRQ_EN and IRQ_STATUS is ignored (R20). -/
theorem hostRegWrite_ignored {off : BitVec 16} (h : wordOffset off ∉ writableOffsets) (v : Word) (s : State) :
    hostRegWrite off v s = s := by
  have hne : ∀ p ∈ regTable, p.1 ∈ writableOffsets → regAt off ≠ p.2 := fun p hp hw he =>
    h ((regAt_eq_iff_of_table hp).1 he ▸ hw)
  unfold hostRegWrite
  split
  case h_1 he => exact absurd he (hne (0x008#16, .cmd) (by decide) (by decide))
  case h_2 he => exact absurd he (hne (0x010#16, .inLen) (by decide) (by decide))
  case h_3 he => exact absurd he (hne (0x044#16, .irqEn) (by decide) (by decide))
  case h_4 he => exact absurd he (hne (0x048#16, .irqStatus) (by decide) (by decide))
  all_goals rfl

theorem hostRegWrite_inLen {off : BitVec 16} (h : wordOffset off = 0x010#16) {s : State} (hb : s.busy = false) (v : Word) :
    hostRegWrite off v s = { clearFlags s with inLen := v } := by
  simp [hostRegWrite, regAt_of_offset (r := .inLen) (by decide) h, hb]

theorem hostRegWrite_irqEn {off : BitVec 16} (h : wordOffset off = 0x044#16) (v : Word) (s : State) :
    hostRegWrite off v s = { s with irqEn := v.extractLsb' 0 2 } := by
  simp [hostRegWrite, regAt_of_offset (r := .irqEn) (by decide) h]

theorem hostRegWrite_irqStatus {off : BitVec 16} (h : wordOffset off = 0x048#16) (v : Word) (s : State) :
    hostRegWrite off v s = { s with irqStatus := s.irqStatus &&& ~~~(v.extractLsb' 0 2) } := by
  simp [hostRegWrite, regAt_of_offset (r := .irqStatus) (by decide) h]

/-- Settles O8: the three register writes, and `exec_inLen`. -/
theorem controlRegisterWrites : Obligations.ControlRegisterWrites := by
  refine ⟨fun s off v => ⟨fun hb h => hostRegWrite_inLen h hb v, fun h => hostRegWrite_irqEn h v s,
    fun h => ⟨_, hostRegWrite_irqStatus h v s, fun j hj => ?_⟩⟩, fun i s t => exec_inLen⟩
  simp [hj]

/-! ### The constant registers -/

/-- Settles O10: the four are exact while BUSY = 1 too, and none is writable. -/
theorem constantRegisters : Obligations.ConstantRegisters := by
  intro s off
  have key : ∀ p ∈ regTable, p.2 ≠ .status → p.2.exactWhileBusy = true → Reg.known s p.2 = true →
      p.1 ∉ writableOffsets → wordOffset off = p.1 →
      hostRegRead off s = reply (.word (regValue s p.2)) s ∧ ∀ v, hostRegWrite off v s = s :=
    fun p hp hs hx hk hw h =>
      ⟨hostRegRead_exact (regAt_of_offset hp h) hs hx hk, fun v => hostRegWrite_ignored (h ▸ hw) v s⟩
  exact ⟨key (0x000#16, .id) (by decide) (by decide) rfl rfl (by decide),
    key (0x004#16, .version) (by decide) (by decide) rfl rfl (by decide),
    key (0x04C#16, .capIbufSize) (by decide) (by decide) rfl rfl (by decide),
    key (0x050#16, .capObufSize) (by decide) (by decide) rfl rfl (by decide)⟩

/-! ### Reserved words and fields -/

/-- Bits of a word that no field covers are zero as a whole (R20). -/
theorem extractLsb'_of_masked {x m : Word} (hx : x &&& ~~~m = 0#32) (lo n : Nat)
    (hm : ∀ j < n, m.getLsbD (lo + j) = false) : x.extractLsb' lo n = 0#n := by
  refine BitVec.eq_of_getLsbD_eq fun j hj => ?_
  have h := congrArg (fun y => BitVec.getLsbD y (lo + j)) hx
  by_cases h32 : lo + j < 32
  · simpa only [BitVec.getLsbD_and, BitVec.getLsbD_not, BitVec.getLsbD_extractLsb', BitVec.getLsbD_zero, hj, hm j hj, h32,
      decide_true, Bool.true_and, Bool.not_false, Bool.and_true] using h
  · simp [BitVec.getLsbD_of_ge x (lo + j) (by omega)]

theorem readReg_field_zero (s : State) (r : Reg) (w : Word) (lo n : Nat) (hm : ∀ j < n, r.fields.getLsbD (lo + j) = false) :
    (readReg s r w).1.extractLsb' lo n = 0#n :=
  extractLsb'_of_masked (readReg_reserved s r w) lo n hm

/-- A word without a field reads 0. -/
theorem readReg_no_field {s : State} {r : Reg} (h : r.fields = 0#32) (w : Word) : (readReg s r w).1 = 0#32 := by
  have := readReg_reserved s r w
  rwa [h, BitVec.not_zero, BitVec.and_allOnes] at this

/-- Words 1 to 7 of a CODE entry are reserved (R37). -/
theorem code_fields_reserved (sym : Byte) {k : BitVec 4} (h1 : 1 ≤ k.toNat) (h7 : k.toNat ≤ 7) :
    (Reg.code sym k).fields = 0#32 := by
  have h0 : k ≠ 0#4 := by bv_omega
  have h8 : k < 8#4 := by bv_omega
  simp only [Reg.fields, h0, h8, if_false, if_true]

/-- Words 8 to 15 of a CODE entry are BITS throughout (R37). -/
theorem code_fields_bits (sym : Byte) {k : BitVec 4} (h8 : 8 ≤ k.toNat) : (Reg.code sym k).fields = BitVec.allOnes 32 := by
  have h0 : k ≠ 0#4 := by bv_omega
  have h8 : ¬ k < 8#4 := by bv_omega
  simp only [Reg.fields, h0, h8, if_false]
  rfl

/-- Settles O11: reserved words and fields read 0 by `readReg_reserved`, and read-only words ignore writes. -/
theorem reservedAndReadOnly : Obligations.ReservedAndReadOnly := by
  intro s off
  refine ⟨?_, fun h v => hostRegWrite_ignored h v s, ?_, fun w => ⟨?_, ?_, ?_, ?_, ?_, ?_⟩⟩
  · rintro (h | h)
    · exact hostRegRead_exact h (by decide) rfl rfl
    · exact hostRegRead_exact (regAt_of_offset (r := .cmd) (by decide) h) (by decide) rfl rfl
  · intro h v v' hv
    simp only [List.mem_cons, List.not_mem_nil, or_false] at h
    rcases h with h | h
    · rw [hostRegWrite_irqEn h, hostRegWrite_irqEn h, hv]
    · rw [hostRegWrite_irqStatus h, hostRegWrite_irqStatus h, hv]
  · exact readReg_field_zero s .status w 24 8 (by decide)
  · simp only [List.forall_mem_cons, List.not_mem_nil, false_imp_iff, implies_true, and_true]
    exact ⟨readReg_field_zero s .nsym w 9 23 (by decide), readReg_field_zero s .root w 9 23 (by decide)⟩
  · simp only [List.forall_mem_cons, List.not_mem_nil, false_imp_iff, implies_true, and_true]
    exact ⟨readReg_field_zero s .irqEn w 2 30 (by decide), readReg_field_zero s .irqStatus w 2 30 (by decide)⟩
  · exact fun i => readReg_field_zero s (.node1 i) w 26 4 (fun j hj => by revert j; simp only [Reg.fields]; decide)
  · exact fun sym => readReg_field_zero s (.code sym 0#4) w 8 24 (fun j hj => by revert j; simp only [Reg.fields]; decide)
  · exact fun sym k h1 h7 => readReg_no_field (code_fields_reserved sym h1 h7) w

/-! ### Reads while BUSY = 0 -/

/-- The two words of a 64-bit register (R18). -/
theorem dword_halves (r : DWord) : r.extractLsb' 32 32 ++ r.extractLsb' 0 32 = r :=
  (BitVec.extractLsb'_append_extractLsb'_eq_extractLsb' rfl).trans BitVec.extractLsb'_eq_self

/-- Settles O12: while BUSY = 0 every known word reads its value. -/
theorem readsWhileIdle : Obligations.ReadsWhileIdle := by
  intro s off hb
  have key : ∀ p ∈ regTable, Reg.known s p.2 = true → wordOffset off = p.1 →
      hostRegRead off s = reply (.word (regValue s p.2)) s :=
    fun p hp hk h => hostRegRead_idle (regAt_of_offset hp h) hb hk
  refine ⟨key (0x00C#16, .status) (by decide) rfl, key (0x010#16, .inLen) (by decide) rfl,
    key (0x014#16, .outLen) (by decide) rfl, key (0x018#16, .nsym) (by decide) rfl, key (0x01C#16, .root) (by decide) rfl,
    key (0x038#16, .payloadOff) (by decide) rfl, key (0x044#16, .irqEn) (by decide) rfl,
    key (0x048#16, .irqStatus) (by decide) rfl, ?_, ?_, ?_, ?_⟩
  · intro base r hm
    refine ⟨r.extractLsb' 0 32, r.extractLsb' 32 32, dword_halves r, ?_⟩
    simp only [List.mem_cons, Prod.mk.injEq, List.not_mem_nil, or_false] at hm
    rcases hm with ⟨rfl, rfl⟩ | ⟨rfl, rfl⟩ | ⟨rfl, rfl⟩ | ⟨rfl, rfl⟩
    · exact ⟨key (0x020#16, .totalLo) (by decide) rfl, key (0x024#16, .totalHi) (by decide) rfl⟩
    · exact ⟨key (0x028#16, .origBitsLo) (by decide) rfl, key (0x02C#16, .origBitsHi) (by decide) rfl⟩
    · exact ⟨key (0x030#16, .compBitsLo) (by decide) rfl, key (0x034#16, .compBitsHi) (by decide) rfl⟩
    · exact ⟨key (0x03C#16, .errInfoLo) (by decide) rfl, key (0x040#16, .errInfoHi) (by decide) rfl⟩
  · exact fun sym hk h => hostRegRead_idle h hb hk
  · intro i n hk hn
    refine ⟨fun h => ?_, fun h => ?_⟩ <;> rw [hostRegRead_idle h hb hk] <;> simp only [regValue, hn]
  · exact fun sym w hk h => hostRegRead_idle h hb hk

/-! ### Reset -/

theorem statusWord_resetWith (c : Config) : statusWord (State.resetWith c) = 0#32 := by
  show statusOf 0#8 0#8 false false false false false false false false = 0#32
  decide

/-- Settles O19: every register of the reset state, where the tables are unknown. -/
theorem resetValues : Obligations.ResetValues := by
  refine ⟨rfl, fun c => ?_⟩
  have unknown : ∀ (r : Reg) (w : Word), Reg.known (State.resetWith c) r = false →
      readReg (State.resetWith c) r w = (w &&& r.fields, true) := fun r w hk => readReg_unknown rfl hk w
  have known : ∀ (r : Reg) (w : Word), Reg.known (State.resetWith c) r = true →
      readReg (State.resetWith c) r w = (regValue (State.resetWith c) r, false) := fun r w hk => readReg_idle rfl hk w
  refine ⟨fun w => ⟨known .id w rfl, known .version w rfl, known .capIbufSize w rfl, known .capObufSize w rfl,
      statusWord_resetWith c ▸ known .status w rfl⟩, statusWord_resetWith c, rfl, rfl, rfl, rfl, rfl, rfl, rfl, rfl, rfl,
      rfl, rfl, rfl, fun w sym => ?_, fun w i => ⟨?_, unknown (.node1 i) w rfl⟩, fun w sym k => ⟨fun hk => ?_, fun hk => ?_⟩, fun i => ⟨rfl, rfl⟩⟩
  · rw [unknown _ w rfl]; exact congrArg (·, true) BitVec.and_allOnes
  · rw [unknown _ w rfl]; exact congrArg (·, true) BitVec.and_allOnes
  · rw [unknown _ w rfl, hk]; rfl
  · rw [unknown _ w rfl, code_fields_bits sym hk]; exact congrArg (·, true) BitVec.and_allOnes

/-! ### Field layouts -/

/-- The flag bits of STATUS, from bit 0 up (R22). -/
theorem statusOf_flags (lastOp e : BitVec 8) (codesV treeV ftSrc ftV ovr err done busy : Bool) :
    let w := statusOf lastOp e codesV treeV ftSrc ftV ovr err done busy
    w.getLsbD 0 = busy ∧ w.getLsbD 1 = done ∧ w.getLsbD 2 = err ∧ w.getLsbD 3 = ovr ∧ w.getLsbD 4 = ftV ∧
      w.getLsbD 5 = ftSrc ∧ w.getLsbD 6 = treeV ∧ w.getLsbD 7 = codesV := by
  simp only [statusOf, BitVec.getLsbD_append, BitVec.getLsbD_ofBool]
  simp

/-- The byte fields of STATUS (R22). -/
theorem statusOf_bytes (lastOp e : BitVec 8) (codesV treeV ftSrc ftV ovr err done busy : Bool) :
    let w := statusOf lastOp e codesV treeV ftSrc ftV ovr err done busy
    w.extractLsb' 8 8 = e ∧ w.extractLsb' 16 8 = lastOp ∧ w.extractLsb' 24 8 = 0#8 := by
  refine ⟨?_, ?_, ?_⟩ <;>
    simp (disch := decide) only [statusOf, BitVec.extractLsb'_append_eq_of_le, BitVec.extractLsb'_append_eq_right,
      BitVec.extractLsb'_eq_self, Nat.reduceSub]

/-- ERR is set exactly where ERRCODE is not 0 (R22, R108). -/
theorem errBit_iff_toBits (s : State) : errBit s = true ↔ s.errCode.toBits ≠ 0#8 := by
  unfold errBit
  cases s.errCode <;> decide

theorem Node.words_invalid {n : Node} (h : n.valid = false) : n.word0 = 0#32 ∧ n.word1 = 0#32 := by
  simp [Node.word0, Node.word1, h]

/-- Both words of a valid node, field by field (R36). -/
theorem Node.words_valid {n : Node} (h : n.valid = true) :
    n.word0 = n.freq.extractLsb' 0 32 ∧ n.word1.extractLsb' 0 8 = n.freq.extractLsb' 32 8 ∧
      n.word1.extractLsb' 8 9 = n.left ∧ n.word1.extractLsb' 17 9 = n.right ∧ n.word1.extractLsb' 26 4 = 0#4 ∧
      n.word1.getLsbD 30 = n.leaf ∧ n.word1.getLsbD 31 = true := by
  have h1 : n.word1 = BitVec.ofBool true ++ BitVec.ofBool n.leaf ++ 0#4 ++ n.right ++ n.left ++ n.freq.extractLsb' 32 8 := by
    rw [Node.word1, h]; rfl
  rw [h1]
  refine ⟨by rw [Node.word0, h]; rfl, ?_, ?_, ?_, ?_, ?_, ?_⟩
  iterate 4
    simp (disch := decide) only [BitVec.extractLsb'_append_eq_of_le, BitVec.extractLsb'_append_eq_right,
      Nat.reduceSub]
  iterate 2
    simp only [BitVec.getLsbD_append, BitVec.getLsbD_ofBool]
    simp

/-- The words of a code entry: LEN, seven reserved words, and BITS (R37). -/
theorem Code.word_layout (c : Code) : c.word 0#4 = c.len.setWidth 32 ∧
    (∀ w : BitVec 4, 1 ≤ w.toNat → w.toNat ≤ 7 → c.word w = 0#32) ∧
    ∀ (w : BitVec 4) (k : Nat), 8 ≤ w.toNat → k < 32 → (c.word w).getLsbD k = c.bits.getLsbD (32 * (w.toNat - 8) + k) := by
  refine ⟨rfl, fun w h1 h7 => ?_, fun w k h8 hk => ?_⟩
  · rw [Code.word, if_neg (by bv_omega), if_pos (by bv_omega)]
  · rw [Code.word, if_neg (by bv_omega), if_neg (by bv_omega)]
    simp [hk]

/-- Settles O14: the layouts of STATUS, NODE and CODE, and the table of R108 row by row. -/
theorem fieldLayouts : Obligations.FieldLayouts := by
  refine ⟨fun s => ?_, fun e => by cases e <;> rfl, fun n => ⟨Node.words_invalid, Node.words_valid⟩, Code.word_layout⟩
  obtain ⟨h0, h1, h2, h3, h4, h5, h6, h7⟩ :=
    statusOf_flags s.lastOp s.errCode.toBits s.codesV s.treeV s.ftSrc s.ftV s.ovr (errBit s) s.done s.busy
  exact ⟨h0, h1, (Eq.congr_left h2).trans (errBit_iff_toBits s), h3, h4, h5, h6, h7, statusOf_bytes _ _ _ _ _ _ _ _ _ _⟩

end Sys2Proof.Machine
end

section
/-! PROOF. The validity flags after every command and every host step (spec/10_state.md R23; spec/20_memory.md R43, R44). -/

namespace Sys2Proof.Machine

/-! ### The flags after a host step -/

theorem hostRegRead_flags (off : BitVec 16) (s : State) : flagsOf (hostRegRead off s) = flagsOf s := by
  unfold hostRegRead
  simp only
  split <;> rfl

theorem hostIbufRead_flags (i : Nat) (s : State) : flagsOf (hostIbufRead i s) = flagsOf s := by
  obtain ⟨d, hd⟩ := readIbuf_frame i s
  unfold hostIbufRead
  split
  · rw [hd]; rfl
  · rfl

theorem hostObufRead_flags (i : Nat) (s : State) : flagsOf (hostObufRead i s) = flagsOf s := by
  unfold hostObufRead
  split
  · split
    · rfl
    · split <;> rfl
  · rfl

theorem hostIbufWrite_flags (i : Nat) (v : Byte) (s : State) : flagsOf (hostIbufWrite i v s) =
    if i < s.cfg.ibufSize.toNat ∧ s.busy = false then (false, false, false, false) else flagsOf s := by
  unfold hostIbufWrite
  split
  · rename_i hi
    split
    · rename_i hb
      rw [if_neg (by simp [hb])]; rfl
    · rename_i hb
      rw [if_pos ⟨hi, by simpa using hb⟩]; rfl
  · rename_i hi
    rw [if_neg fun h => hi h.1]

theorem hostRegWrite_flags (off : BitVec 16) (v : Word) (s : State) : flagsOf (hostRegWrite off v s) =
    if wordOffset off = 0x010#16 ∧ s.busy = false then (false, false, false, false) else flagsOf s := by
  by_cases h : wordOffset off = 0x010#16 ∧ s.busy = false
  · rw [if_pos h, hostRegWrite_inLen h.1 h.2]; rfl
  · rw [if_neg h]
    unfold hostRegWrite
    split
    case h_1 => split <;> rfl
    case h_2 hr =>
      have hin := (regAt_eq_iff_of_table (p := (0x010#16, .inLen)) (by decide)).1 hr
      rw [if_pos (by simpa [hin] using h)]; rfl
    all_goals rfl

/-- R23: what a host action does to the flags. -/
theorem hostAct_flags (a : HostAction) (s : State) : flagsOf (hostAct a s) =
    match a with
    | .regWrite off _ => if wordOffset off = 0x010#16 ∧ s.busy = false then (false, false, false, false) else flagsOf s
    | .ibufWrite i _ => if i < s.cfg.ibufSize.toNat ∧ s.busy = false then (false, false, false, false) else flagsOf s
    | .reset => (false, false, false, false)
    | _ => flagsOf s := by
  cases a with
  | regRead off => exact hostRegRead_flags off s
  | regWrite off v => exact hostRegWrite_flags off v s
  | ibufRead i => exact hostIbufRead_flags i s
  | ibufWrite i v => exact hostIbufWrite_flags i v s
  | obufRead i => exact hostObufRead_flags i s
  | obufWrite i v => rfl
  | wait =>
    rw [← hostRegRead_flags 0x00C#16 s, hostAct]
    simp only
    split <;> rfl
  | waitIrq =>
    simp only [hostAct]
    split <;> rfl
  | reset => rfl

/-- The next host action runs on a state whose script and delay have moved on, which no rule of the flags reads. -/
theorem hostStep_flags (s : State) : flagsOf (hostStep s) =
    match s.script.head? with
    | some (.regWrite off _) => if wordOffset off = 0x010#16 ∧ s.busy = false then (false, false, false, false) else flagsOf s
    | some (.ibufWrite i _) =>
      if i < s.cfg.ibufSize.toNat ∧ s.busy = false then (false, false, false, false) else flagsOf s
    | some .reset => (false, false, false, false)
    | _ => flagsOf s := by
  unfold hostStep
  cases hs : s.script with
  | nil => rfl
  | cons a rest => rw [hostAct_flags]; cases a <;> rfl

/-! ### The validity flags -/

/-- Settles O24: each command's flags by its body's, and a host step's by its action's. -/
theorem validityFlags : Obligations.ValidityFlags := by
  refine ⟨fun i s t h hc he => ?_, hostStep_flags⟩
  have room : 1288 ≤ s.cfg.obufSize.toNat := by
    simp only [Config.wellFormed, Bool.and_eq_true, decide_eq_true_eq] at hc
    exact hc.2
  have never : ∀ ok : Flags, ∀ (_ : ErrCode) f, False → f = ok := fun _ _ _ h => h.elim
  cases i with
  | nop => exact (nopBody_leaves s).command_flags_eq (pre := true) (e := .noError) (info := 0) (never _) h
  | clear => exact (clearBody_leaves s).command_flags_eq (pre := true) (e := .noError) (info := 0) (never _) h
  | count => exact ((countBody_leaves s).command_flags_eq (never _) h).trans (if_congr inputFits_true rfl rfl)
  | serialize => exact ((serializeBody_leaves rfl).command_flags_eq (fun _ _ h => h.2) h).trans (ite_self _)
  | build => exact (buildBody_leaves rfl).command_flags_eq (never _) h
  | gencodes => exact (gencodesBody_leaves rfl).command_flags_eq (never _) h
  | pack => exact ((packBody_leaves rfl).command_flags_eq (fun _ _ h => h.2) h).trans (ite_self _)
  | compress =>
    exact ((compressBody_leaves s).command_flags_eq (fun _ _ h => h room) h).trans (if_congr inputFits_true rfl rfl)
  | deserialize => exact exec_deserialize_flags h he
  | decode => exact ((decodeBody_leaves rfl).command_flags_eq (fun _ _ h => h.2) h).trans (ite_self _)
  | decompress => exact exec_decompress_flags h he

end Sys2Proof.Machine
end

section
/-! PROOF. Host reads and writes of IBUF and OBUF, host reads while BUSY = 1, and what a host read leaves unchanged
(spec/20_memory.md R43 to R46, R53; spec/10_state.md R20, R22, R39). -/

namespace Sys2Proof.Machine

/-! ### IBUF -/

section
variable {i : Nat} {s : State}

theorem hostIbufRead_written (hi : i < s.cfg.ibufSize.toNat) {b : Byte} (hb : Memory.read s.ibuf i = some b) :
    hostIbufRead i s = reply (.byte b) s := by
  rw [hostIbufRead, if_pos hi, readIbuf_written hb]

theorem hostIbufRead_unwritten (hi : i < s.cfg.ibufSize.toNat) (hn : Memory.read s.ibuf i = none) :
    hostIbufRead i s = reply (.byte (Config.freeByte s.draws)) (drawn s) := by
  rw [hostIbufRead, if_pos hi, readIbuf, hn]

theorem hostIbufRead_outside (hi : s.cfg.ibufSize.toNat ≤ i) : hostIbufRead i s = reply (.byte 0#8) s := by
  rw [hostIbufRead, if_neg (Nat.not_lt.2 hi)]

theorem hostIbufWrite_idle (hi : i < s.cfg.ibufSize.toNat) (hb : s.busy = false) (v : Byte) :
    hostIbufWrite i v s = { clearFlags s with ibuf := Memory.write s.ibuf i v } := by
  simp only [hostIbufWrite, hi, hb, if_true, Bool.false_eq_true, if_false]

theorem hostIbufWrite_busy (hi : i < s.cfg.ibufSize.toNat) (hb : s.busy = true) (v : Byte) :
    hostIbufWrite i v s = overrun s := by
  simp only [hostIbufWrite, hi, hb, if_true]

theorem hostIbufWrite_outside (hi : s.cfg.ibufSize.toNat ≤ i) (v : Byte) : hostIbufWrite i v s = s := by
  rw [hostIbufWrite, if_neg (Nat.not_lt.2 hi)]

end

/-- Settles O15: reads by what stands at the index, writes by BUSY, and a stored byte by the laws of `Memory.write`. -/
theorem ibufAccess : Obligations.IbufAccess := by
  refine fun s i => ⟨fun hi => ⟨fun b => hostIbufRead_written hi, hostIbufRead_unwritten hi, fun v hb => ?_,
    fun v hb => hostIbufWrite_busy hi hb v⟩, fun hi => ⟨hostIbufRead_outside hi, hostIbufWrite_outside hi⟩⟩
  exact ⟨Memory.write s.ibuf i v, hostIbufWrite_idle hi hb v, Memory.read_write_same _ _ _,
    fun j hj => Memory.read_write_other _ _ hj⟩

/-! ### OBUF -/

section
variable {i : Nat} {s : State}

theorem hostObufRead_written (hi : i < s.cfg.obufSize.toNat) (hb : s.busy = false) {b : Byte}
    (hr : Memory.read s.obuf i = some b) : hostObufRead i s = reply (.byte b) s := by
  simp only [hostObufRead, hi, hb, hr, if_true, Bool.false_eq_true, if_false]

/-- While BUSY = 1, and where nothing has been written since reset, a read is open (R45). -/
theorem hostObufRead_open (hi : i < s.cfg.obufSize.toNat) (h : s.busy = true ∨ Memory.read s.obuf i = none) :
    hostObufRead i s = reply (.byte (Config.freeByte s.draws)) (drawn s) := by
  rw [hostObufRead, if_pos hi]
  cases hb : s.busy with
  | true => rfl
  | false =>
    have hn : Memory.read s.obuf i = none := h.resolve_left (by simp [hb])
    simp only [Bool.false_eq_true, if_false, hn]

theorem hostObufRead_outside (hi : s.cfg.obufSize.toNat ≤ i) : hostObufRead i s = reply (.byte 0#8) s := by
  rw [hostObufRead, if_neg (Nat.not_lt.2 hi)]

end

/-- Settles O16: a read by BUSY and by what stands at the index; no action writes OBUF. -/
theorem obufAccess : Obligations.ObufAccess := fun _ _ =>
  ⟨fun hi => ⟨fun hb _ => hostObufRead_written hi hb, hostObufRead_open hi⟩, hostObufRead_outside, fun _ => rfl⟩

/-! ### What a read leaves unchanged -/

theorem hostRegRead_frame (off : BitVec 16) (s : State) : ∃ d, hostRegRead off s =
    reply (.word (readReg s (regAt off) (Config.freeWord s.draws)).1) (setDraws d s) := by
  unfold hostRegRead
  simp only
  cases (readReg s (regAt off) (Config.freeWord s.draws)).2 with
  | true => exact ⟨s.draws + 1, rfl⟩
  | false => exact ⟨s.draws, rfl⟩

theorem hostIbufRead_frame (i : Nat) (s : State) : ∃ v d, hostIbufRead i s = reply (.byte v) (setDraws d s) := by
  by_cases hi : i < s.cfg.ibufSize.toNat
  · obtain ⟨d, hd⟩ := readIbuf_frame i s
    exact ⟨(readIbuf i s).1, d, by rw [hostIbufRead, if_pos hi, hd]⟩
  · exact ⟨0#8, s.draws, hostIbufRead_outside (Nat.not_lt.1 hi)⟩

theorem hostObufRead_frame (i : Nat) (s : State) : ∃ v d, hostObufRead i s = reply (.byte v) (setDraws d s) := by
  by_cases hi : i < s.cfg.obufSize.toNat
  · by_cases hopen : s.busy = true ∨ Memory.read s.obuf i = none
    · exact ⟨_, s.draws + 1, hostObufRead_open hi hopen⟩
    · obtain ⟨hb, hr⟩ := not_or.1 hopen
      obtain ⟨b, hr⟩ := Option.ne_none_iff_exists'.1 hr
      exact ⟨b, s.draws, hostObufRead_written hi (Bool.eq_false_iff.2 hb) hr⟩
  · exact ⟨0#8, s.draws, hostObufRead_outside (Nat.not_lt.1 hi)⟩

/-- Settles O17: a read of each space is a reply, with free values drawn or not. -/
theorem readsChangeNothing : Obligations.ReadsChangeNothing := fun s =>
  ⟨fun off => hostRegRead_frame off s, fun i => hostIbufRead_frame i s, fun i => hostObufRead_frame i s⟩

/-! ### Register reads while BUSY = 1 -/

theorem readReg_status_busy {s : State} (hb : s.busy = true) (w : Word) :
    readReg s .status w = (statusWhileBusy s w, true) := by
  rw [readReg, if_pos ⟨rfl, hb⟩]

/-- While BUSY = 1 a word that R46 lists as open reads the fields of the free word in hand. -/
theorem readReg_open {s : State} {r : Reg} (hb : s.busy = true) (hx : r.exactWhileBusy = false) (w : Word) :
    readReg s r w = (w &&& r.fields, true) := by
  have hs : r ≠ .status := by rintro rfl; cases hx
  simp [readReg, hb, hs, hx]

theorem readReg_open_whole {s : State} {r : Reg} (hb : s.busy = true) (hx : r.exactWhileBusy = false)
    (hf : r.fields = BitVec.allOnes 32) (w : Word) : readReg s r w = (w, true) := by
  rw [readReg_open hb hx, hf, BitVec.and_allOnes]

/-- BUSY, DONE, OVR and LAST_OP of STATUS while BUSY = 1 (R22). -/
theorem statusWhileBusy_exact (s : State) (w : Word) :
    (statusWhileBusy s w).getLsbD 0 = s.busy ∧ (statusWhileBusy s w).getLsbD 1 = s.done ∧
      (statusWhileBusy s w).getLsbD 3 = s.ovr ∧ (statusWhileBusy s w).extractLsb' 16 8 = s.lastOp := by
  obtain ⟨h0, h1, -, h3, -⟩ := statusOf_flags s.lastOp (w.extractLsb' 8 8) (w.getLsbD 7) (w.getLsbD 6) (w.getLsbD 5)
    (w.getLsbD 4) s.ovr (w.getLsbD 2) s.done s.busy
  exact ⟨h0, h1, h3, (statusOf_bytes _ _ _ _ _ _ _ _ _ _).2.1⟩

/-- ERR and the four validity flags of STATUS while BUSY = 1 (R46). -/
theorem statusWhileBusy_open_flags (s : State) (w : Word) :
    ∀ j ∈ [2, 4, 5, 6, 7], (statusWhileBusy s w).getLsbD j = w.getLsbD j := by
  obtain ⟨-, -, h2, -, h4, h5, h6, h7⟩ := statusOf_flags s.lastOp (w.extractLsb' 8 8) (w.getLsbD 7) (w.getLsbD 6)
    (w.getLsbD 5) (w.getLsbD 4) s.ovr (w.getLsbD 2) s.done s.busy
  simp only [List.forall_mem_cons, List.not_mem_nil, false_imp_iff, implies_true, and_true]
  exact ⟨h2, h4, h5, h6, h7⟩

/-- ERRCODE of STATUS while BUSY = 1 (R46). -/
theorem statusWhileBusy_open_errCode (s : State) (w : Word) {j : Nat} (h8 : 8 ≤ j) (h16 : j < 16) :
    (statusWhileBusy s w).getLsbD j = w.getLsbD j := by
  have he : (statusWhileBusy s w).extractLsb' 8 8 = w.extractLsb' 8 8 := (statusOf_bytes _ _ _ _ _ _ _ _ _ _).1
  have hj := congrArg (BitVec.getLsbD · (j - 8)) he
  simpa only [BitVec.getLsbD_extractLsb', show j - 8 < 8 by omega, decide_true, Bool.true_and,
    Nat.add_sub_of_le h8] using hj

/-- Settles O13: the exact words, STATUS, and the open words, whole or with reserved bits. -/
theorem readsWhileBusy : Obligations.ReadsWhileBusy := by
  intro s w hb
  have status := congrArg Prod.fst (readReg_status_busy hb w)
  refine ⟨?_, status ▸ hb ▸ statusWhileBusy_exact s w, fun j hj => ?_, ?_, ?_, fun sym => readReg_open_whole hb rfl rfl w,
    fun i => ⟨readReg_open_whole hb rfl rfl w, readReg_open hb rfl w⟩,
    fun sym k => ⟨fun hk => hk ▸ readReg_open hb rfl w, fun hk => readReg_open_whole hb rfl (code_fields_bits sym hk) w⟩⟩
  · simp only [List.forall_mem_cons, List.not_mem_nil, false_imp_iff, implies_true, and_true]
    exact ⟨readReg_exact (by decide) rfl rfl w, readReg_exact (by decide) rfl rfl w, readReg_exact (by decide) rfl rfl w,
      readReg_exact (by decide) rfl rfl w, readReg_exact (by decide) rfl rfl w, readReg_exact (by decide) rfl rfl w,
      readReg_exact (by decide) rfl rfl w, readReg_exact (by decide) rfl rfl w, readReg_exact (by decide) rfl rfl w⟩
  · rw [status]
    simp only [List.mem_cons, List.not_mem_nil, or_false] at hj
    by_cases h8 : 8 ≤ j
    · exact statusWhileBusy_open_errCode s w h8 (by omega)
    · exact statusWhileBusy_open_flags s w j (by simp only [List.mem_cons, List.not_mem_nil, or_false]; omega)
  · have whole : ∀ r ∈ [Reg.outLen, .totalLo, .totalHi, .origBitsLo, .origBitsHi, .compBitsLo, .compBitsHi, .payloadOff,
        .errInfoLo, .errInfoHi], r.exactWhileBusy = false ∧ r.fields = BitVec.allOnes 32 := by decide
    exact fun r hr => readReg_open_whole hb (whole r hr).1 (whole r hr).2 w
  · simp only [List.forall_mem_cons, List.not_mem_nil, false_imp_iff, implies_true, and_true]
    exact ⟨readReg_open hb rfl w, readReg_open hb rfl w⟩

end Sys2Proof.Machine
end

section
/-! PROOF. What the commands that store to OBUF leave as it was (spec/20_memory.md R51; spec/41_frequency.md R81;
spec/43_bitstream.md R99, R100; spec/44_pipelines.md R103, R104). -/

namespace Sys2Proof.Machine

/-! ### The fields each command writes -/

/-- s with the fields SERIALIZE writes as in t (R81). -/
def serializeFields (t s : State) : State := { ended t s with obuf := t.obuf, outLen := t.outLen }

/-- s with the fields PACK writes as in t (R99). -/
def packFields (t s : State) : State := { ended t s with obuf := t.obuf, outLen := t.outLen, compBits := t.compBits }

/-- s with the fields DECODE writes as in t (R100). -/
def decodeFields (t s : State) : State :=
  { ended t s with obuf := t.obuf, outLen := t.outLen, origBits := t.origBits, compBits := t.compBits }

/-- s with the fields the stages of COMPRESS write as in t (R103). -/
def compressFields (t s : State) : State :=
  { ended t s with
    obuf := t.obuf, outLen := t.outLen, freq := t.freq, freqKnown := t.freqKnown, nsym := t.nsym, root := t.root
    total := t.total, origBits := t.origBits, compBits := t.compBits, payloadOff := t.payloadOff, node := t.node
    nodeKnown := t.nodeKnown, code := t.code, codeKnown := t.codeKnown, ftV := t.ftV, ftSrc := t.ftSrc, treeV := t.treeV
    codesV := t.codesV }

/-- s with the fields the stages of DECOMPRESS write as in t (R104). -/
def decompressFields (t s : State) : State :=
  { ended t s with
    obuf := t.obuf, outLen := t.outLen, freq := t.freq, freqKnown := t.freqKnown, nsym := t.nsym, root := t.root
    total := t.total, origBits := t.origBits, compBits := t.compBits, payloadOff := t.payloadOff, node := t.node
    nodeKnown := t.nodeKnown, ftV := t.ftV, ftSrc := t.ftSrc, treeV := t.treeV, codesV := t.codesV }

/-- `f t s` is s with certain fields as in t: those of `serializeFields`, perhaps more, but not IBUF. -/
structure OutputFields (f : State → State → State) : Prop where
  self   : ∀ t, f t t = t
  absorb : ∀ t u s, f t (f u s) = f t s
  covers : ∀ t s, f t (serializeFields t s) = f t s
  ibuf   : ∀ t s, (f t s).ibuf = s.ibuf

theorem serializeFields_output : OutputFields serializeFields :=
  ⟨fun _ => rfl, fun _ _ _ => rfl, fun _ _ => rfl, fun _ _ => rfl⟩

theorem packFields_output : OutputFields packFields := ⟨fun _ => rfl, fun _ _ _ => rfl, fun _ _ => rfl, fun _ _ => rfl⟩

theorem decodeFields_output : OutputFields decodeFields := ⟨fun _ => rfl, fun _ _ _ => rfl, fun _ _ => rfl, fun _ _ => rfl⟩

theorem compressFields_output : OutputFields compressFields :=
  ⟨fun _ => rfl, fun _ _ _ => rfl, fun _ _ => rfl, fun _ _ => rfl⟩

theorem decompressFields_output : OutputFields decompressFields :=
  ⟨fun _ => rfl, fun _ _ _ => rfl, fun _ _ => rfl, fun _ _ => rfl⟩

section
variable {f : State → State → State} {s t u : State} (hf : OutputFields f)
include hf

theorem OutputFields.of_serializeFields (h : t = serializeFields t s) : t = f t s :=
  calc t = f t t := (hf.self t).symm
    _ = f t (serializeFields t s) := congrArg (f t) h
    _ = f t s := hf.covers t s

theorem OutputFields.trans (h : t = f t s) (h' : u = f u t) : u = f u s :=
  calc u = f u t := h'
    _ = f u (f t s) := congrArg (f u) h
    _ = f u s := hf.absorb u t s

end

/-- The stages of COMPRESS may write what those of DECOMPRESS may. -/
theorem compressFields_of_decompressFields {s t : State} (h : t = decompressFields t s) : t = compressFields t s :=
  calc t = compressFields t t := rfl
    _ = compressFields t (decompressFields t s) := congrArg (compressFields t) h
    _ = compressFields t s := rfl

/-! ### Parts of a command that store no byte -/

/-- t is s but for the fields f names, and OBUF is the same. -/
structure StoresNothing (f : State → State → State) (s t : State) : Prop where
  fields : t = f t s
  obuf   : t.obuf = s.obuf

theorem StoresNothing.trans {f : State → State → State} {s t u : State} (hf : OutputFields f) (h : StoresNothing f s t)
    (h' : StoresNothing f t u) : StoresNothing f s u :=
  ⟨hf.trans h.fields h'.fields, h'.obuf.trans h.obuf⟩

theorem StoresNothing.compress {s t : State} (h : StoresNothing decompressFields s t) : StoresNothing compressFields s t :=
  ⟨compressFields_of_decompressFields h.fields, h.obuf⟩

theorem enterStage_storesNothing {f : State → State → State} (hf : OutputFields f) (n : Nat) (s : State) :
    StoresNothing f s (enterStage n s) :=
  ⟨hf.of_serializeFields rfl, rfl⟩

theorem countState_storesNothing (s : State) : StoresNothing decompressFields s (countState s) := by
  obtain ⟨f, d, h⟩ := countState_frame s
  rw [h]
  exact ⟨rfl, rfl⟩

theorem buildState_storesNothing (s : State) :
    StoresNothing decompressFields s (buildState s) ∧ (buildState s).outLen = s.outLen := by
  obtain ⟨w, h⟩ := buildState_frame s
  rw [h]
  exact ⟨⟨rfl, rfl⟩, rfl⟩

theorem gencodesBody_storesNothing (s : State) :
    (gencodesBody s).Post (fun t => StoresNothing compressFields s t ∧ t.outLen = s.outLen) fun _ _ => False := by
  rcases gencodesBody_frame s with ⟨k, h⟩ | ⟨r, h⟩ <;> rw [h]
  · exact .of_ok ⟨⟨rfl, rfl⟩, rfl⟩
  · exact .of_stuck

theorem deserializeBody_storesNothing (s : State) :
    (deserializeBody s).Post (StoresNothing decompressFields s) fun _ => StoresNothing decompressFields s := by
  rcases deserializeBody_cases s with ⟨e, i, d, h, -⟩ | ⟨n, f, d, h, -⟩ <;> rw [h]
  · exact .of_raised ⟨rfl, rfl⟩
  · exact .of_ok ⟨rfl, rfl⟩

/-! ### States that differ in these fields, and in OBUF from a first index on -/

/-- t is s but for the fields f names, and its OBUF is that of s below `first` and from OUT_LEN on. -/
structure WritesOnly (f : State → State → State) (first : Nat) (s t : State) : Prop where
  fields   : t = f t s
  first_le : first ≤ t.outLen.toNat
  obuf     : ∀ a, a < first ∨ t.outLen.toNat ≤ a → Memory.read t.obuf a = Memory.read s.obuf a

/-- OUT_LEN may have any value where no byte has been stored. -/
theorem StoresNothing.writesOnly {f : State → State → State} {first : Nat} {s t : State} (h : StoresNothing f s t)
    (hle : first ≤ t.outLen.toNat) : WritesOnly f first s t :=
  ⟨h.fields, hle, fun _ _ => by rw [h.obuf]⟩

section
variable {f : State → State → State} {first : Nat} {s t u : State} (hf : OutputFields f)
include hf

/-- Going on without a change of OBUF or OUT_LEN. -/
theorem WritesOnly.same_output (h : WritesOnly f first s t) (hu : StoresNothing f t u) (hn : u.outLen = t.outLen) :
    WritesOnly f first s u :=
  ⟨hf.trans h.fields hu.fields, hn ▸ h.first_le, by rw [hu.obuf, hn]; exact h.obuf⟩

theorem WritesOnly.enterStage (n : Nat) (h : WritesOnly f first s t) : WritesOnly f first s (enterStage n t) :=
  h.same_output hf (enterStage_storesNothing hf n t) rfl

/-- Going on by appending bytes at OUT_LEN. -/
theorem WritesOnly.appends {x : List Byte} (h : WritesOnly f first s t) (ha : Appends t x u) : WritesOnly f first s u := by
  have hlen := ha.outLen
  have hle := h.first_le
  refine ⟨hf.trans h.fields (hf.of_serializeFields ?_), by omega, fun a hout => ?_⟩
  · obtain ⟨m, n, w, d, rfl⟩ := ha.frame
    rfl
  · rw [ha.read, if_neg (by omega)]
    exact h.obuf a (by omega)

/-- The end of a command writes the fields of `ended` alone. -/
theorem WritesOnly.complete (h : WritesOnly f first s u) : WritesOnly f first s (complete u) :=
  h.same_output hf ⟨hf.of_serializeFields rfl, rfl⟩ rfl

theorem WritesOnly.errorEntry (e : ErrCode) (info : DWord) (h : WritesOnly f first s u) :
    WritesOnly f first s (errorEntry e info u) :=
  h.same_output hf ⟨hf.of_serializeFields rfl, rfl⟩ rfl

theorem WritesOnly.bytes (h : WritesOnly f first s t) (a : Nat) : Memory.read t.ibuf a = Memory.read s.ibuf a ∧
    (a < first ∨ t.outLen.toNat ≤ a → Memory.read t.obuf a = Memory.read s.obuf a) :=
  ⟨congrArg (Memory.read · a) ((congrArg State.ibuf h.fields).trans (hf.ibuf t s)), h.obuf a⟩

end

/-! ### Bodies -/

/-- Where the body ends and where it raises, only the fields of f and OBUF from `first` on differ from s. -/
def BodyWritesOnly (f : State → State → State) (first : Nat) (s : State) (b : Body) : Prop :=
  b.Post (WritesOnly f first s) fun _ => WritesOnly f first s

section
variable {f : State → State → State} {first : Nat} {s t : State} (hf : OutputFields f)
include hf

/-- A command leaves what its body leaves; where the precondition fails it writes only the fields of `ended`. -/
theorem BodyWritesOnly.command {pre : Bool} {e : ErrCode} {info : Nat} {body : State → Body}
    (hb : BodyWritesOnly f first s (body s)) (hs : first ≤ s.outLen.toNat) (ht : runCommand pre e info body s = .next t) :
    WritesOnly f first s t := by
  rcases runCommand_next ht with ⟨-, u, hu, rfl⟩ | ⟨-, e', i', u, hu, rfl⟩ | ⟨-, rfl⟩
  · exact (hb.ends hu).complete hf
  · exact (hb.raises hu).errorEntry hf e' i'
  · exact WritesOnly.errorEntry hf e _ (StoresNothing.writesOnly ⟨(hf.self s).symm, rfl⟩ hs)

theorem OnlyAppends.writesOnly {b : Body} (hb : OnlyAppends t b) (h : WritesOnly f first s t) :
    BodyWritesOnly f first s b := by
  rcases hb with ⟨x, u, rfl, ha⟩ | ⟨e, i, x, u, rfl, ha⟩ | ⟨r, rfl⟩
  · exact .of_ok (h.appends hf ha)
  · exact .of_raised (h.appends hf ha)
  · exact .of_stuck

/-- SERIALIZE starts the output at 0, so that nothing may have been stored before it. -/
theorem serializeBody_writesOnly (h : StoresNothing f s t) : BodyWritesOnly f 0 s (serializeBody t) :=
  have hstart : StoresNothing f t (setOutput t.obuf 0#32 t) := ⟨hf.of_serializeFields rfl, rfl⟩
  (serializeBody_cases t).onlyAppends.writesOnly hf ((h.trans hf hstart).writesOnly (Nat.zero_le _))

theorem packBody_writesOnly (h : WritesOnly f first s t) (hstart : ∀ u, packStart u = f (packStart u) u)
    (hend : ∀ u, packEnd u = f (packEnd u) u) :
    BodyWritesOnly f first s (packBody t) := by
  have hpack : AppendsOrFull (packStart t) ((packLoop t.inLen.toNat 0 (packStart t)).bind flushBits) :=
    (packLoop_appends _ _ _).bind flushBits_appends
  exact (hpack.onlyAppends.writesOnly hf (h.same_output hf ⟨hstart t, rfl⟩ rfl)).bind fun u hu =>
    .of_ok (hu.same_output hf ⟨hend u, rfl⟩ rfl)

/-- DECODE starts the output at 0, so that nothing may have been stored before it. -/
theorem decodeBody_writesOnly (h : StoresNothing f s t) (hstart : ∀ u, decodeStart u = f (decodeStart u) u)
    (hend : ∀ u, decodeEnd u = f (decodeEnd u) u) :
    BodyWritesOnly f 0 s (decodeBody t) :=
  ((decodeLoop_onlyAppends _ _).writesOnly hf ((h.trans hf ⟨hstart t, rfl⟩).writesOnly (Nat.zero_le _))).bind fun u hu =>
    .of_ok (hu.same_output hf ⟨hend u, rfl⟩ rfl)

end

/-! ### The pipelines -/

/-- COUNT stores nothing, SERIALIZE starts the output, BUILD and GENCODES leave it, and PACK appends to it (R103). -/
theorem compressBody_writesOnly (s : State) : BodyWritesOnly compressFields 0 s (compressBody s) := by
  have hf := compressFields_output
  have stage := enterStage_storesNothing hf
  have hcount := ((stage 1 s).trans hf (countState_storesNothing _).compress).trans hf (stage 2 _)
  unfold compressBody
  simp only [Body.bind_assoc, countBody, buildBody, Body.bind_ok]
  refine Body.Post.bind (serializeBody_writesOnly hf hcount) fun t ht => ?_
  obtain ⟨hbuild, hlen⟩ := buildState_storesNothing (enterStage 3 t)
  have hbuilt := ((ht.enterStage hf 3).same_output hf hbuild.compress hlen).enterStage hf 4
  refine Body.Post.bind ((gencodesBody_storesNothing (enterStage 4 (buildState (enterStage 3 t)))).mono
    (fun u hu => hbuilt.same_output hf hu.1 hu.2) fun _ _ => False.elim) fun u hu => ?_
  exact packBody_writesOnly hf (hu.enterStage hf 5) (fun _ => rfl) fun _ => rfl

/-- DESERIALIZE and BUILD store nothing, and DECODE starts the output (R104). -/
theorem decompressBody_writesOnly (s : State) : BodyWritesOnly decompressFields 0 s (decompressBody s) := by
  have hf := decompressFields_output
  have stage := enterStage_storesNothing hf
  have hstart : StoresNothing decompressFields s (setOutput s.obuf 0#32 s) := ⟨rfl, rfl⟩
  have hparse := fun t => (hstart.trans hf (stage 1 _)).trans hf (u := t)
  unfold decompressBody
  simp only [Body.bind_assoc, buildBody, Body.bind_ok]
  refine Body.Post.bind ((deserializeBody_storesNothing _).mono hparse fun _ t ht =>
    (hparse t ht).writesOnly (Nat.zero_le _)) fun t ht => ?_
  have hbuilt := (ht.trans hf (stage 2 t)).trans hf (buildState_storesNothing _).1
  exact decodeBody_writesOnly hf (hbuilt.trans hf (stage 3 _)) (fun _ => rfl) fun _ => rfl

/-! ### The commands -/

section
variable {s t : State}

theorem exec_serialize_writesOnly (h : exec .serialize s = .next t) : WritesOnly serializeFields 0 s t :=
  BodyWritesOnly.command serializeFields_output
    (serializeBody_writesOnly serializeFields_output ⟨rfl, rfl⟩) (Nat.zero_le _) h

theorem exec_pack_writesOnly (h : exec .pack s = .next t) : WritesOnly packFields s.outLen.toNat s t :=
  have hstart : WritesOnly packFields s.outLen.toNat s s := StoresNothing.writesOnly ⟨rfl, rfl⟩ (Nat.le_refl _)
  BodyWritesOnly.command packFields_output
    (packBody_writesOnly packFields_output hstart (fun _ => rfl) fun _ => rfl) (Nat.le_refl _) h

theorem exec_decode_writesOnly (h : exec .decode s = .next t) : WritesOnly decodeFields 0 s t :=
  BodyWritesOnly.command decodeFields_output
    (decodeBody_writesOnly decodeFields_output ⟨rfl, rfl⟩ (fun _ => rfl) fun _ => rfl) (Nat.zero_le _) h

theorem exec_compress_writesOnly (h : exec .compress s = .next t) : WritesOnly compressFields 0 s t :=
  BodyWritesOnly.command compressFields_output (compressBody_writesOnly s) (Nat.zero_le _) h

theorem exec_decompress_writesOnly (h : exec .decompress s = .next t) : WritesOnly decompressFields 0 s t :=
  BodyWritesOnly.command decompressFields_output (decompressBody_writesOnly s) (Nat.zero_le _) h

end

/-- Settles O26: each command writes only its fields, and OBUF only from its first index up to OUT_LEN. -/
theorem framesWithOutput : Obligations.FramesWithOutput := by
  refine fun s t => ⟨fun h => (exec_serialize_writesOnly h).fields, fun h => (exec_pack_writesOnly h).fields,
    fun h => (exec_decode_writesOnly h).fields, fun h => (exec_compress_writesOnly h).fields,
    fun h => (exec_decompress_writesOnly h).fields, fun i hi h => ?_⟩
  simp only [List.mem_cons, List.not_mem_nil, or_false] at hi
  rcases hi with rfl | rfl | rfl | rfl | rfl
  · exact (exec_serialize_writesOnly h).bytes serializeFields_output
  · exact (exec_pack_writesOnly h).bytes packFields_output
  · exact (exec_decode_writesOnly h).bytes decodeFields_output
  · exact (exec_compress_writesOnly h).bytes compressFields_output
  · exact (exec_decompress_writesOnly h).bytes decompressFields_output

end Sys2Proof.Machine
end

section
/-! PROOF. The opcode map and the decoder on all 2^32 words (spec/30_encoding.md R59, R61 to R63), and the command step of an
accepted word (spec/40_command_common.md R71). -/

namespace Sys2Proof.Machine

/-! ### The opcode map (R61) -/

/-- The lemmas of Laws/PerInstr, for every command at once. -/
theorem roundTrip (i : Instr) : Laws.RoundTrip.Statement i := by
  cases i with
  | nop => exact Laws.RoundTrip.nop
  | clear => exact Laws.RoundTrip.clear
  | count => exact Laws.RoundTrip.count
  | serialize => exact Laws.RoundTrip.serialize
  | build => exact Laws.RoundTrip.build
  | gencodes => exact Laws.RoundTrip.gencodes
  | pack => exact Laws.RoundTrip.pack
  | compress => exact Laws.RoundTrip.compress
  | deserialize => exact Laws.RoundTrip.deserialize
  | decode => exact Laws.RoundTrip.decode
  | decompress => exact Laws.RoundTrip.decompress

theorem encode_wellFormed (i : Instr) : (splitWord (encode i)).wellFormed = true := (roundTrip i).2.1

theorem decodeWord_encode (i : Instr) : decodeWord (encode i) = .ok i := (roundTrip i).2.2.1

theorem lookup_opcodeOf (i : Instr) : opcodeTable.lookup (opcodeOf i) = some i := by cases i <;> rfl

/-- The table and `opcodeOf` are one map, read in its two directions. -/
theorem lookup_opcodeTable_iff {o : BitVec 8} {i : Instr} : opcodeTable.lookup o = some i ↔ o = opcodeOf i := by
  constructor
  · intro h
    obtain ⟨l₁, l₂, htable, -⟩ := List.lookup_eq_some_iff.1 h
    have hrows : ∀ row ∈ opcodeTable, row.1 = opcodeOf row.2 := by decide
    exact hrows (o, i) (by simp [htable])
  · rintro rfl
    exact lookup_opcodeOf i

theorem mem_legalOpcodes_iff {o : BitVec 8} : o ∈ legalOpcodes ↔ ∃ i, opcodeOf i = o := by
  constructor
  · have hcolumn : legalOpcodes = opcodeTable.map fun row => opcodeOf row.2 := rfl
    rw [hcolumn, List.mem_map]
    rintro ⟨row, -, h⟩
    exact ⟨row.2, h⟩
  · rintro ⟨i, rfl⟩
    cases i <;> decide

/-- Where the opcodes lie; the gaps between are the reserved ranges of R63. -/
theorem opcodeOf_ranges (i : Instr) :
    (opcodeOf i).toNat ≤ 0x01 ∨ (0x10 ≤ (opcodeOf i).toNat ∧ (opcodeOf i).toNat ≤ 0x14) ∨ (opcodeOf i).toNat = 0x18 ∨
      (0x20 ≤ (opcodeOf i).toNat ∧ (opcodeOf i).toNat ≤ 0x21) ∨ (opcodeOf i).toNat = 0x28 := by
  cases i <;> decide

/-! ### The decoder (R62) -/

/-- The two fields make up the word. -/
theorem toNat_eq_fields (v : Word) : v.toNat = 256 * (v.extractLsb' 8 24).toNat + (v.extractLsb' 0 8).toNat := by
  have := v.isLt
  simp only [BitVec.extractLsb'_toNat, Nat.shiftRight_eq_div_pow]
  omega

theorem decodeWord_eq_ok_iff {v : Word} {i : Instr} :
    decodeWord v = .ok i ↔ v.extractLsb' 8 24 = 0#24 ∧ v.extractLsb' 0 8 = opcodeOf i := by
  rw [← lookup_opcodeTable_iff]
  unfold decodeWord splitWord
  by_cases hmbz : v.extractLsb' 8 24 = 0#24
  · cases opcodeTable.lookup (v.extractLsb' 0 8) <;> simp [hmbz]
  · simp [hmbz]

theorem decodeWord_eq_ok_iff_toNat {v : Word} {i : Instr} : decodeWord v = .ok i ↔ v.toNat = (opcodeOf i).toNat := by
  have hop := (v.extractLsb' 0 8).isLt
  have hop' := (opcodeOf i).isLt
  rw [decodeWord_eq_ok_iff, toNat_eq_fields, ← BitVec.toNat_inj, ← BitVec.toNat_inj, BitVec.toNat_zero]
  omega

theorem decodeWord_error_of_not_ok {v : Word} (h : ∀ i, decodeWord v ≠ .ok i) : ∃ e, decodeWord v = .error e := by
  cases hv : decodeWord v with
  | error e => exact ⟨e, rfl⟩
  | ok i => exact absurd hv (h i)

theorem decodeWord_error_of_ne_opcode {v : Word} (h : ∀ i, v.toNat ≠ (opcodeOf i).toNat) : ∃ e, decodeWord v = .error e :=
  decodeWord_error_of_not_ok fun i hv => h i (decodeWord_eq_ok_iff_toNat.1 hv)

theorem decodeWord_error_of_illegal {v : Word} (h : v.extractLsb' 8 24 ≠ 0#24 ∨ v.extractLsb' 0 8 ∉ legalOpcodes) :
    ∃ e, decodeWord v = .error e := by
  refine decodeWord_error_of_not_ok fun i hv => ?_
  obtain ⟨hmbz, hop⟩ := decodeWord_eq_ok_iff.1 hv
  exact h.elim (· hmbz) (· (mem_legalOpcodes_iff.2 ⟨i, hop.symm⟩))

/-! ### The command step (R68, R71) -/

theorem commandStep_of_ok {s : State} {i : Instr} (h : decodeWord s.curCmd = .ok i) : commandStep s = exec i s := by
  rw [commandStep, h]

theorem commandStep_of_error {s : State} {e : Illegal} (h : decodeWord s.curCmd = .error e) :
    commandStep s = .next (failed .illegalCmd (s.curCmd.setWidth 64) s) := by
  rw [← errorEntry_failed (by simp), commandStep, h]
  rfl

/-! ### The obligations -/

/-- Settles O2: both tests of R62 are one comparison of numbers, and no opcode is at 256 or above or in a gap of the table. -/
theorem elevenWordsOnly : Obligations.ElevenWordsOnly := by
  refine ⟨fun _ _ => decodeWord_eq_ok_iff_toNat, fun v hv => ?_, fun v hv => ?_⟩
  · refine decodeWord_error_of_ne_opcode fun i => ?_
    have := (opcodeOf i).isLt
    omega
  · refine decodeWord_error_of_ne_opcode fun i => ?_
    have := opcodeOf_ranges i
    omega

/-- Settles O3: an illegal word's command step is an error entry, a legal word's is its command. -/
theorem everyAcceptedWord : Obligations.EveryAcceptedWord := by
  refine fun s v _ => ⟨accepted_lastOp s v, fun hillegal => ?_, fun hmbz hop => ?_⟩
  · obtain ⟨e, he⟩ := decodeWord_error_of_illegal hillegal
    exact commandStep_of_error he
  · obtain ⟨i, hi⟩ := mem_legalOpcodes_iff.1 hop
    exact ⟨i, hi, commandStep_of_ok (decodeWord_eq_ok_iff.2 ⟨hmbz, hi.symm⟩)⟩

/-- Settles O1: the words written out are the encodings, and each of the two illegal words fails its test of R62. -/
theorem opcodeMapWords : Obligations.OpcodeMapWords :=
  ⟨fun i => ⟨encode_wellFormed i, decodeWord_encode i⟩,
    decodeWord_encode .nop, decodeWord_encode .clear, decodeWord_encode .count, decodeWord_encode .serialize,
    decodeWord_encode .build, decodeWord_encode .gencodes, decodeWord_encode .pack, decodeWord_encode .compress,
    decodeWord_encode .deserialize, decodeWord_encode .decode, decodeWord_encode .decompress, rfl, rfl⟩

end Sys2Proof.Machine
end

section
/-! PROOF. Steps, preconditions and completion (spec/40_command_common.md R68 to R72; spec/20_memory.md R54;
spec/30_encoding.md R65), and NOP (R76). -/

namespace Sys2Proof.Machine

/-! ### A step is a command step or a host step (R54, R68) -/

theorem step_engine {s : State} (h : engineTurn s = true) : step s = commandStep s := by rw [step, if_pos h]

theorem step_host {s : State} (h : engineTurn s = false) : step s = .next (hostStep s) := by
  rw [step, if_neg (by simp [h])]

theorem hostStep_nil {s : State} (h : s.script = []) : hostStep s = s := by rw [hostStep, h]

theorem hostStep_cons {s : State} {a : HostAction} {rest : List HostAction} (h : s.script = a :: rest) :
    hostStep s = hostAct a { s with script := rest, delay := s.delay - 1 } := by rw [hostStep, h]

/-- The word placed is the command's own, with its command step next. -/
theorem withFetchWord_encode (s : State) (i : Instr) :
    s.withFetchWord 32 (encode i).toNat = { accepted (encode i) s with delay := 0 } := by
  rw [State.withFetchWord, placeCommand, Nat.mod_eq_of_lt (encode i).isLt, BitVec.ofNat_toNat, BitVec.setWidth_eq]

theorem step_withFetchWord (s : State) (i : Instr) :
    step (s.withFetchWord 32 (encode i).toNat) = exec i (s.withFetchWord 32 (encode i).toNat) := by
  rw [withFetchWord_encode, step_engine rfl]
  exact commandStep_of_ok (decodeWord_encode i)

theorem hostRegRead_script (off : BitVec 16) (s : State) : (hostRegRead off s).script = s.script := by
  obtain ⟨d, h⟩ := hostRegRead_frame off s
  rw [h]; rfl

theorem hostAct_wait_idle {s : State} (h : s.busy = false) : hostAct .wait s = hostRegRead 0x00C#16 s := by
  simp only [hostAct, h, Bool.false_eq_true, if_false]

theorem hostAct_wait_busy {s : State} (h : s.busy = true) :
    hostAct .wait s = { hostRegRead 0x00C#16 s with script := .wait :: s.script } := by
  simp only [hostAct, h, if_true, hostRegRead_script]

theorem hostAct_waitIrq_high {s : State} (h : irqLine s = true) : hostAct .waitIrq s = s := by
  simp only [hostAct, h, if_true]

theorem hostAct_waitIrq_low {s : State} (h : irqLine s = false) :
    hostAct .waitIrq s = { s with script := .waitIrq :: s.script } := by
  simp only [hostAct, h, Bool.false_eq_true, if_false]

/-- Settles O4: the engine's step by what CUR_CMD decodes to, the host's by the first access of the list. -/
theorem stepRunsDecodedCommand : Obligations.StepRunsDecodedCommand := by
  refine ⟨fun s i hturn hi => (step_engine hturn).trans (commandStep_of_ok hi), fun s e hturn he => ?_,
    fun s => step_host, step_withFetchWord, fun s => hostStep_nil, fun s a rest => hostStep_cons,
    fun s => ⟨fun _ => rfl, fun _ _ => rfl, fun _ => rfl, fun _ _ => rfl, fun _ => rfl, fun _ _ => rfl,
      hostAct_wait_idle, hostAct_wait_busy, hostAct_waitIrq_high, hostAct_waitIrq_low⟩⟩
  rw [step_engine hturn, commandStep, he]

/-! ### Every step ends (R72, R110) -/

/-- The command step of any word ends in a state of the invariant. -/
theorem commandStep_ends {s : State} (h : Ready s) : ∃ t, commandStep s = .next t ∧ Inv t := by
  unfold commandStep
  cases decodeWord s.curCmd with
  | error e => exact ⟨_, rfl, illegalCommand_inv h.1⟩
  | ok i => exact exec_inv h i

/-- Settles O59: in the engine's turn the state is Ready, and a host step always ends. -/
theorem everyStepEnds : Obligations.EveryStepEnds := by
  intro s h
  cases hturn : engineTurn s with
  | true =>
    obtain ⟨t, ht, -⟩ := commandStep_ends ⟨h, busy_of_engineTurn hturn⟩
    exact ⟨t, (step_engine hturn).trans ht⟩
  | false => exact ⟨_, step_host hturn⟩

/-! ### Preconditions (R69) -/

/-- Settles O22: the refused commands of R69, one lemma per row of its table. -/
theorem preconditionErrors : Obligations.PreconditionErrors := by
  refine fun s => ⟨fun h i hi => ?_, fun h i => exec_table_refused h, exec_gencodes_refused, fun h => ?_, fun h => ?_⟩
  · rw [exec_input_refused h hi, BitVec.ofNat_toNat]
  · exact exec_pack_refused (by simpa only [Bool.and_eq_false_iff, Bool.not_eq_false'] using h)
  · exact exec_decode_refused (Bool.and_eq_false_iff.2 h)

/-! ### Completion (R70) -/

theorem BodyKeeps.irqStatus {s t : State} (h : BodyKeeps s t) : t.irqStatus = s.irqStatus :=
  show (bodyFrame t).irqStatus = (bodyFrame s).irqStatus from congrArg _ h

/-- A command step of any word is the completion of a state with IRQ_STATUS as it was before. -/
theorem commandStep_completes {s t : State} (h : commandStep s = .next t) :
    ∃ u, u.irqStatus = s.irqStatus ∧ t = complete u := by
  unfold commandStep at h
  split at h
  · cases h
    exact ⟨recordError .illegalCmd (s.curCmd.setWidth 64) s, rfl, rfl⟩
  · obtain ⟨u, hk, rfl | ⟨e, info, rfl⟩⟩ := exec_ends h
    · exact ⟨u, hk.irqStatus, rfl⟩
    · exact ⟨recordError e info u, hk.irqStatus, rfl⟩

/-- The interrupt bits completion sets, by the ERRCODE it leaves. -/
theorem complete_irqStatus_eq (s : State) : (complete s).irqStatus =
    if (complete s).errCode = .noError then s.irqStatus ||| irqDone else s.irqStatus ||| (irqDone ||| irqError) := by
  rw [← BitVec.or_assoc]
  exact ite_not _ _ _

/-- STATUS bit 2 is ERR (R22). -/
theorem statusWord_err (s : State) : (statusWord s).getLsbD 2 = true ↔ s.errCode ≠ .noError := by
  obtain ⟨-, -, h, -⟩ :=
    statusOf_flags s.lastOp s.errCode.toBits s.codesV s.treeV s.ftSrc s.ftV s.ovr (errBit s) s.done s.busy
  exact (Eq.congr_left h).trans decide_eq_true_iff

/-- Settles O21: every command step ends in `complete`. -/
theorem commandCompletion : Obligations.CommandCompletion := by
  intro s t h
  obtain ⟨u, hirq, rfl⟩ := commandStep_completes h
  exact ⟨rfl, rfl, hirq ▸ complete_irqStatus_eq u, statusWord_err _⟩

/-! ### NOP (R76) -/

/-- Settles O27: NOP's body ends at once, without an error, in the state its acceptance left. -/
theorem nopCompletes : Obligations.NopCompletes := fun s _ =>
  (exec_nop _).trans (congrArg _ (complete_succeeded (s := accepted (encode .nop) s) rfl))

end Sys2Proof.Machine
end

section
/-! PROOF. What the commands that store no byte leave as it was (spec/40_command_common.md R76, R77; spec/41_frequency.md R79,
R83; spec/42_tree.md R87, R94), and CLEAR (R77). -/

namespace Sys2Proof.Machine

/-! ### The fields each command writes -/

/-- s with the fields CLEAR writes as in t (R77). -/
def clearFields (t s : State) : State :=
  { ended t s with
    freq := t.freq, freqKnown := t.freqKnown, node := t.node, nodeKnown := t.nodeKnown, code := t.code
    codeKnown := t.codeKnown, nsym := t.nsym, root := t.root, total := t.total, origBits := t.origBits
    compBits := t.compBits, payloadOff := t.payloadOff, outLen := t.outLen, ovr := t.ovr
    ftV := t.ftV, ftSrc := t.ftSrc, treeV := t.treeV, codesV := t.codesV }

/-- s with the fields COUNT and DESERIALIZE write as in t (R79, R83). -/
def tableFields (t s : State) : State :=
  { ended t s with
    freq := t.freq, freqKnown := t.freqKnown, nsym := t.nsym, root := t.root, total := t.total, origBits := t.origBits
    compBits := t.compBits, payloadOff := t.payloadOff, ftV := t.ftV, ftSrc := t.ftSrc, treeV := t.treeV
    codesV := t.codesV }

/-- s with the fields BUILD writes as in t (R87). -/
def buildFields (t s : State) : State :=
  { ended t s with node := t.node, nodeKnown := t.nodeKnown, root := t.root, treeV := t.treeV, codesV := t.codesV }

/-- s with the fields GENCODES writes as in t (R94). -/
def gencodesFields (t s : State) : State :=
  { ended t s with code := t.code, codeKnown := t.codeKnown, codesV := t.codesV }

/-! ### The commands -/

section
variable {s t : State}

/-- What holds however a command ends holds of its next state: after the body, after an error of the body, and after an error of
the precondition. -/
theorem runCommand_satisfies {P : State → Prop} {pre : Bool} {e : ErrCode} {info : Nat} {body : State → Body}
    (hbody : (body s).Post (fun u => P (complete u)) fun e' u => ∀ info', P (errorEntry e' info' u))
    (hpre : ∀ info', P (errorEntry e info' s)) (h : runCommand pre e info body s = .next t) : P t := by
  rcases runCommand_next h with ⟨-, u, hu, rfl⟩ | ⟨-, e', info', u, hu, rfl⟩ | ⟨-, rfl⟩
  · exact hbody.ends hu
  · exact hbody.raises hu info'
  · exact hpre _

theorem exec_nop_fields (h : exec .nop s = .next t) : t = ended t s := by
  rw [exec_nop] at h
  cases h; rfl

theorem exec_clear_fields (h : exec .clear s = .next t) : t = clearFields t s := by
  rw [exec_clear] at h
  cases h; rfl

theorem exec_count_fields (h : exec .count s = .next t) : t = tableFields t s := by
  refine runCommand_satisfies (P := fun t => t = tableFields t s) ?_ (fun _ => rfl) h
  obtain ⟨f, d, hs⟩ := countState_frame s
  rw [countBody, hs]
  exact .of_ok rfl

theorem exec_deserialize_fields (h : exec .deserialize s = .next t) : t = tableFields t s := by
  refine runCommand_satisfies (P := fun t => t = tableFields t s) ?_ (fun _ => rfl) h
  rcases deserializeBody_cases s with ⟨e, i, d, hs, -⟩ | ⟨n, f, d, hs, -⟩ <;> rw [hs]
  · exact .of_raised fun _ => rfl
  · exact .of_ok rfl

theorem exec_build_fields (h : exec .build s = .next t) : t = buildFields t s := by
  refine runCommand_satisfies (P := fun t => t = buildFields t s) ?_ (fun _ => rfl) h
  obtain ⟨w, hs⟩ := buildState_frame s
  rw [buildBody, hs]
  exact .of_ok rfl

theorem exec_gencodes_fields (h : exec .gencodes s = .next t) : t = gencodesFields t s := by
  refine runCommand_satisfies (P := fun t => t = gencodesFields t s) ?_ (fun _ => rfl) h
  rcases gencodesBody_frame s with ⟨c, hs⟩ | ⟨r, hs⟩ <;> rw [hs]
  · exact .of_ok rfl
  · exact .of_stuck

end

theorem buffers_of_fields {f : State → State → State} {s t : State} (h : t = f t s) (hibuf : (f t s).ibuf = s.ibuf)
    (hobuf : (f t s).obuf = s.obuf) : t.ibuf = s.ibuf ∧ t.obuf = s.obuf :=
  ⟨(congrArg State.ibuf h).trans hibuf, (congrArg State.obuf h).trans hobuf⟩

/-- None of the fields these commands write is a buffer. -/
theorem exec_keeps_buffers {i : Instr} {s t : State}
    (hi : i ∈ [Instr.nop, .clear, .count, .deserialize, .build, .gencodes]) (h : exec i s = .next t) :
    t.ibuf = s.ibuf ∧ t.obuf = s.obuf := by
  simp only [List.mem_cons, List.not_mem_nil, or_false] at hi
  rcases hi with rfl | rfl | rfl | rfl | rfl | rfl
  · exact buffers_of_fields (exec_nop_fields h) rfl rfl
  · exact buffers_of_fields (exec_clear_fields h) rfl rfl
  · exact buffers_of_fields (exec_count_fields h) rfl rfl
  · exact buffers_of_fields (exec_deserialize_fields h) rfl rfl
  · exact buffers_of_fields (exec_build_fields h) rfl rfl
  · exact buffers_of_fields (exec_gencodes_fields h) rfl rfl

/-- Settles O25: each command's fields, and the two buffers among those it leaves. -/
theorem framesWithoutOutput : Obligations.FramesWithoutOutput := by
  refine fun s t => ⟨exec_nop_fields, exec_clear_fields, exec_count_fields, exec_deserialize_fields, exec_build_fields,
    exec_gencodes_fields, fun i hi h a => ?_⟩
  obtain ⟨hibuf, hobuf⟩ := exec_keeps_buffers hi h
  exact ⟨by rw [hibuf], by rw [hobuf]⟩

/-! ### CLEAR (R77) -/

/-- OVR is a field of CLEAR only. -/
theorem exec_keeps_ovr {i : Instr} {s t : State} (hi : i ≠ .clear) (h : exec i s = .next t) : t.ovr = s.ovr := by
  cases i with
  | clear => exact absurd rfl hi
  | nop => exact (congrArg State.ovr (exec_nop_fields h)).trans rfl
  | count => exact (congrArg State.ovr (exec_count_fields h)).trans rfl
  | serialize => exact (congrArg State.ovr (exec_serialize_writesOnly h).fields).trans rfl
  | build => exact (congrArg State.ovr (exec_build_fields h)).trans rfl
  | gencodes => exact (congrArg State.ovr (exec_gencodes_fields h)).trans rfl
  | pack => exact (congrArg State.ovr (exec_pack_writesOnly h).fields).trans rfl
  | compress => exact (congrArg State.ovr (exec_compress_writesOnly h).fields).trans rfl
  | deserialize => exact (congrArg State.ovr (exec_deserialize_fields h)).trans rfl
  | decode => exact (congrArg State.ovr (exec_decode_writesOnly h).fields).trans rfl
  | decompress => exact (congrArg State.ovr (exec_decompress_writesOnly h).fields).trans rfl

theorem regValue_freq_zero {s : State} (h : s.freq = Vector.replicate 256 0#32) (sym : Byte) :
    regValue s (.freq sym) = 0#32 := by
  rw [regValue, h, freqAt_zero]

/-- Both words of every entry of an empty arena, and of index 511, which is no entry, are 0. -/
theorem regValue_node_empty {s : State} (h : s.node = Vector.replicate 511 Node.empty) (i : NodeIdx) :
    regValue s (.node0 i) = 0#32 ∧ regValue s (.node1 i) = 0#32 := by
  by_cases hi : i = NONE
  · simp only [regValue, nodeAt_none_iff.2 hi, and_self]
  · simp only [regValue, h, nodeAt_empty i hi]
    exact Node.words_invalid rfl

theorem Code.word_empty (w : BitVec 4) : Code.empty.word w = 0#32 := by
  unfold Code.word
  split
  · rfl
  · split
    · rfl
    · exact BitVec.extractLsb'_zero

theorem regValue_code_empty {s : State} (h : s.code = Vector.replicate 256 Code.empty) (sym : Byte) (w : BitVec 4) :
    regValue s (.code sym w) = 0#32 := by
  rw [regValue, h, codeAt_empty, Code.word_empty]

/-- Settles O28: the body of CLEAR writes the whole state but a few fields, and OVR is no field of another command. -/
theorem clearEmpties : Obligations.ClearEmpties := by
  refine ⟨fun s _ => ⟨succeeded (clearState (accepted (encode .clear) s)), ?_, rfl, fun w sym => ?_, fun w i => ?_,
    fun w sym k => ?_⟩, fun i s t => exec_keeps_ovr, fun s => rfl⟩
  · exact (exec_clear _).trans (congrArg _ (complete_succeeded rfl))
  · rw [readReg_idle rfl rfl, regValue_freq_zero rfl]
  · obtain ⟨h0, h1⟩ := regValue_node_empty (s := succeeded (clearState (accepted (encode .clear) s))) rfl i
    exact ⟨by rw [readReg_idle rfl rfl, h0], by rw [readReg_idle rfl rfl, h1]⟩
  · rw [readReg_idle rfl rfl, regValue_code_empty rfl]

end Sys2Proof.Machine
end

section
/-! PROOF. The CMD write, writes while a command runs, and the way to its command step (spec/40_command_common.md R66 to R68,
R77; spec/70_reset_and_hazards.md R129). -/

namespace Sys2Proof.Machine

/-! ### Writes to CMD and IN_LEN (R66, R67) -/

theorem hostRegWrite_cmd_idle {off : BitVec 16} (h : wordOffset off = 0x008#16) {s : State} (hb : s.busy = false) (v : Word) :
    hostRegWrite off v s = acceptCmd v s := by
  simp [hostRegWrite, regAt_of_offset (r := .cmd) (by decide) h, hb]

theorem hostRegWrite_cmd_busy {off : BitVec 16} (h : wordOffset off = 0x008#16) {s : State} (hb : s.busy = true) (v : Word) :
    hostRegWrite off v s = overrun s := by
  simp [hostRegWrite, regAt_of_offset (r := .cmd) (by decide) h, hb]

theorem hostRegWrite_inLen_busy {off : BitVec 16} (h : wordOffset off = 0x010#16) {s : State} (hb : s.busy = true) (v : Word) :
    hostRegWrite off v s = overrun s := by
  simp [hostRegWrite, regAt_of_offset (r := .inLen) (by decide) h, hb]

/-- Settles O6: the write is `acceptCmd`, whose delay and count of draws are the two free values. -/
theorem cmdWriteAccepted : Obligations.CmdWriteAccepted := fun s _ v hb h =>
  ⟨Config.commandDelay s.draws, s.draws + 1, hostRegWrite_cmd_idle h hb v⟩

/-! ### What no host action but reset undoes -/

/-- OVR stays set from s to t, and a command running in s still runs in t, with its delay. -/
structure KeepsPending (s t : State) : Prop where
  ovr   : s.ovr = true → t.ovr = true
  busy  : s.busy = true → t.busy = true
  delay : s.busy = true → t.delay = s.delay

theorem KeepsPending.refl (s : State) : KeepsPending s s := ⟨id, id, fun _ => rfl⟩

theorem KeepsPending.reply_setDraws (v : Reply) (d : Nat) (s : State) : KeepsPending s (reply v (setDraws d s)) :=
  ⟨id, id, fun _ => rfl⟩

theorem overrun_keepsPending (s : State) : KeepsPending s (overrun s) := ⟨fun _ => rfl, id, fun _ => rfl⟩

theorem hostRegRead_keepsPending (off : BitVec 16) (s : State) : KeepsPending s (hostRegRead off s) := by
  obtain ⟨d, h⟩ := hostRegRead_frame off s
  rw [h]
  exact .reply_setDraws _ _ s

/-- A CMD write while BUSY = 1 does not start the command anew. -/
theorem hostRegWrite_keepsPending (off : BitVec 16) (v : Word) (s : State) : KeepsPending s (hostRegWrite off v s) := by
  unfold hostRegWrite
  cases regAt off with
  | cmd =>
    simp only
    split
    · exact overrun_keepsPending s
    · rename_i hidle
      exact ⟨id, fun _ => rfl, fun hb => absurd hb hidle⟩
  | inLen =>
    simp only
    split
    · exact overrun_keepsPending s
    · exact ⟨id, id, fun _ => rfl⟩
  | irqEn => exact ⟨id, id, fun _ => rfl⟩
  | irqStatus => exact ⟨id, id, fun _ => rfl⟩
  | _ => exact .refl s

theorem hostIbufWrite_keepsPending (i : Nat) (v : Byte) (s : State) : KeepsPending s (hostIbufWrite i v s) := by
  unfold hostIbufWrite
  split
  · split
    · exact overrun_keepsPending s
    · exact ⟨id, id, fun _ => rfl⟩
  · exact .refl s

theorem hostAct_keepsPending {a : HostAction} (ha : a ≠ .reset) (s : State) : KeepsPending s (hostAct a s) := by
  cases a with
  | regRead off => exact hostRegRead_keepsPending off s
  | regWrite off v => exact hostRegWrite_keepsPending off v s
  | ibufRead i =>
    obtain ⟨v, d, h⟩ := hostIbufRead_frame i s
    rw [hostAct, h]
    exact .reply_setDraws _ _ s
  | ibufWrite i v => exact hostIbufWrite_keepsPending i v s
  | obufRead i =>
    obtain ⟨v, d, h⟩ := hostObufRead_frame i s
    rw [hostAct, h]
    exact .reply_setDraws _ _ s
  | obufWrite i v => exact .refl s
  | wait =>
    obtain ⟨hovr, hbusy, hdelay⟩ := hostRegRead_keepsPending 0x00C#16 s
    simp only [hostAct]
    split <;> exact ⟨hovr, hbusy, hdelay⟩
  | waitIrq =>
    simp only [hostAct]
    split
    · exact .refl s
    · exact ⟨id, id, fun _ => rfl⟩
  | reset => exact absurd rfl ha

/-! ### OVR is sticky (R67, R77) -/

theorem commandStep_keeps_ovr {s t : State} (hi : decodeWord s.curCmd ≠ .ok .clear) (h : commandStep s = .next t) :
    t.ovr = s.ovr := by
  unfold commandStep at h
  split at h
  · cases h; rfl
  · rename_i i hdec
    exact exec_keeps_ovr (fun hc => hi (hc ▸ hdec)) h

theorem hostStep_keeps_ovr {s : State} (ha : s.script.head? ≠ some .reset) (h : s.ovr = true) : (hostStep s).ovr = true := by
  cases hs : s.script with
  | nil => rwa [hostStep_nil hs]
  | cons a rest =>
    rw [hostStep_cons hs]
    exact (hostAct_keepsPending (fun hc => ha (by rw [hs, hc]; rfl)) _).ovr h

/-- Settles O7: ignored writes are `overrun`, and of all steps only the two named ones clear OVR. -/
theorem writesWhileBusy : Obligations.WritesWhileBusy := by
  refine ⟨fun s hb => ⟨fun off v h => ?_, fun i v hi => hostIbufWrite_busy hi hb v, fun off v h => hostRegWrite_irqEn h v s,
    fun off v h => hostRegWrite_irqStatus h v s⟩, fun s t hovr h => ?_⟩
  · rcases h with h | h
    · exact hostRegWrite_cmd_busy h hb v
    · exact hostRegWrite_inLen_busy h hb v
  · cases hturn : engineTurn s with
    | true =>
      rw [step_engine hturn] at h
      by_cases hi : decodeWord s.curCmd = .ok .clear
      · exact .inr (.inl ⟨rfl, hi⟩)
      · exact .inl ((commandStep_keeps_ovr hi h).trans hovr)
    | false =>
      rw [step_host hturn] at h
      cases h
      by_cases ha : s.script.head? = some .reset
      · exact .inr (.inr ⟨rfl, ha⟩)
      · exact .inl (hostStep_keeps_ovr ha hovr)

/-! ### The command step comes (R68, R129) -/

/-- A host step while a command runs uses up one step of its delay, unless the host resets the block. -/
theorem hostStep_uses_delay {s : State} (hb : s.busy = true) (hturn : engineTurn s = false) :
    (hostStep s).busy = false ∨ ((hostStep s).busy = true ∧ (hostStep s).delay + 1 = s.delay) := by
  simp only [engineTurn, hb, Bool.true_and, Bool.or_eq_false_iff, decide_eq_false_iff_not] at hturn
  obtain ⟨hdelay, hscript⟩ := hturn
  cases hs : s.script with
  | nil => simp [hs] at hscript
  | cons a rest =>
    rw [hostStep_cons hs]
    by_cases ha : a = .reset
    · exact .inl (by rw [ha]; rfl)
    · have hkeep := hostAct_keepsPending ha { s with script := rest, delay := s.delay - 1 }
      refine .inr ⟨hkeep.busy hb, ?_⟩
      rw [hkeep.delay hb]
      exact Nat.sub_add_cancel (Nat.pos_of_ne_zero hdelay)

theorem run_succ_host (k : Nat) {s : State} (h : engineTurn s = false) :
    Host.Core.run Sys2Proof.core (k + 1) s = Host.Core.run Sys2Proof.core k (hostStep s) := by
  have hs : Sys2Proof.core.step s = .next (hostStep s) := step_host h
  simp only [Host.Core.run, hs]

/-- Settles O5, by induction on the delay: each host step uses up one step of it. -/
theorem commandStepIsReached : Obligations.CommandStepIsReached := by
  intro s hb
  induction hn : s.delay generalizing s with
  | zero => exact ⟨0, s, Nat.le_refl _, rfl, .inl (by simp [engineTurn, hb, hn])⟩
  | succ n ih =>
    cases hturn : engineTurn s with
    | true => exact ⟨0, s, Nat.zero_le _, rfl, .inl hturn⟩
    | false =>
      rcases hostStep_uses_delay hb hturn with hidle | ⟨hbusy, hdelay⟩
      · exact ⟨1, hostStep s, by omega, run_succ_host 0 hturn, .inr hidle⟩
      · obtain ⟨k, t, hk, hrun, ht⟩ := ih (hostStep s) hbusy (by omega)
        exact ⟨k + 1, t, by omega, (run_succ_host k hturn).trans hrun, ht⟩

end Sys2Proof.Machine
end

section
/-! PROOF. COUNT, SERIALIZE and DESERIALIZE by value: the table of the input, the header of the table, and the table of a header
(spec/41_frequency.md R78 to R85; spec/60_exceptions.md R112). -/

namespace Sys2Proof.Machine

/-! ### COUNT -/

/-- Neither the alphabet size nor eight times IN_LEN wraps in its register (R9, R79). -/
theorem countEnd_registers (s : State) :
    (countEnd s).nsym.toNat = alphabetSize s.freq ∧ (countEnd s).total.toNat = s.inLen.toNat ∧
      (countEnd s).origBits.toNat = 8 * s.inLen.toNat := by
  have ha := alphabetSize_le s.freq
  have hl := s.inLen.isLt
  simp only [countEnd_nsym, countEnd_total, countEnd_origBits, BitVec.toNat_ofNat]
  omega

/-- Settles O29: the counts are those of the input where it is written, and their sum is IN_LEN in any case. -/
theorem countResult : Obligations.CountResult := by
  intro s he hfit
  have hsum := countState_total s
  refine ⟨_, exec_count hfit, ?_⟩
  have hcounts : InputWritten s → ∀ sym, (freqAt (countState s).freq sym).toNat = (inputOf s).count sym := fun hw => by
    obtain ⟨f, hf, hc⟩ := countState_counts hw
    rw [hf]
    exact hc
  have hle : ∀ sym, (freqAt (countState s).freq sym).toNat ≤ s.inLen.toNat := fun sym =>
    hsum ▸ freqAt_le_total _ sym
  obtain ⟨f, d, hf⟩ := countState_frame s
  rw [hf] at hsum hcounts hle ⊢
  obtain ⟨hn, ht, ho⟩ := countEnd_registers (setDraws d (setTable f (countStart s)))
  exact ⟨he, hcounts, hsum, hle, hn, ht, ho, rfl, rfl, rfl, rfl, rfl⟩

/-! ### SERIALIZE -/

/-- Bytes that fit the rest of OBUF are all appended (R51). -/
theorem emitBytes_appends_all {bs : List Byte} {s : State} (h : s.outLen.toNat + bs.length ≤ s.cfg.obufSize.toNat) :
    ∃ t, emitBytes bs s = .ok t ∧ Appends s bs t :=
  ⟨_, emitBytes_fits h, .inr h, s.work, s.draws, rfl⟩

/-- With an OBUF of the least size R5 allows, SERIALIZE leaves in it the header of the table's entries, and nothing else has
changed (R81, R82). -/
theorem serializeBody_header {s : State} (hc : s.cfg.wellFormed = true) (hn : s.nsym.toNat = alphabetSize s.freq) :
    ∃ t, serializeBody s = .ok t ∧ Appends (setOutput s.obuf 0#32 s) (headerOf (entriesOf s.freq)) t := by
  have hlen := headerBytes_length s.freq s.nsym
  have hle := alphabetSize_le s.freq
  simp only [Config.wellFormed, Bool.and_eq_true, decide_eq_true_eq] at hc
  rw [← headerBytes_eq s.freq s.nsym hn]
  exact emitBytes_appends_all (by simp only [setOutput_outLen, setOutput_cfg, BitVec.toNat_ofNat]; omega)

/-- Settles O30: at most 256 entries of five bytes and a count of eight are appended to an empty output. -/
theorem serializeResult : Obligations.SerializeResult := by
  intro s he hv hc hn
  obtain ⟨t, ht, ha⟩ := serializeBody_header hc hn
  have hlen := ha.outLen
  have hle := alphabetSize_le s.freq
  rw [headerOf_length, entriesOf_length, ← hn, setOutput_outLen, BitVec.toNat_ofNat, Nat.zero_mod, Nat.zero_add] at hlen
  refine ⟨complete t, (exec_serialize hv).trans (congrArg finish ht), ha.keeps.1.errCode.trans he, hlen, ?_, ha.output_eq rfl⟩
  rw [complete_outLen, hlen]
  omega

/-! ### DESERIALIZE -/

/-- Settles O31: the well-formed entries are all stored, and NSYM, TOTAL and PAYLOAD_OFF hold their values without wrapping. -/
theorem deserializeResult : Obligations.DeserializeResult := by
  intro s es rest he hfit hw hin hes
  obtain ⟨f, hf, hbody⟩ := deserializeBody_file hw hin hes
  obtain ⟨-, hsum⟩ := hf.sums hes
  have hle := entries_length_le hes
  have hlt := freqTotal_lt f
  refine ⟨_, (exec_deserialize hfit).trans (congrArg finish hbody), he, hf, ?_, ?_, ?_, rfl, rfl, rfl, rfl, rfl⟩
  · rw [complete_nsym, deserializeEnd_nsym, BitVec.toNat_ofNat]; omega
  · rw [complete_total, deserializeEnd_total, setTable_freq, BitVec.toNat_ofNat, ← hsum]; omega
  · rw [complete_payloadOff, deserializeEnd_payloadOff, BitVec.toNat_ofNat]; omega

/-- A header error leaves the table and its registers as DESERIALIZE's first lines set them, whatever entries were stored
before it (R83). -/
theorem headerFail_setTable (e : ErrCode) (info : Nat) (f : Vector Word 256) (s : State) :
    headerFail e info (setTable f (deserializeStart s)) = raise e info (deserializeStart s) := rfl

theorem headerFail_start (e : ErrCode) (info : Nat) (s : State) :
    headerFail e info (deserializeStart s) = raise e info (deserializeStart s) := rfl

/-- Fewer than eight bytes (R83). -/
theorem deserializeBody_short {s : State} (h : s.inLen.toNat < 8) :
    deserializeBody s = raise .hdrShort s.inLen.toNat (deserializeStart s) := by
  rw [deserializeBody, if_pos h, headerFail_start]

section
variable {s : State} (hw : InputWritten s) (h8 : 8 ≤ s.inLen.toNat)
include hw h8

/-- From eight bytes on the entry count is that of the input (R83). -/
theorem deserializeBody_counted :
    deserializeBody s = deserializeEntries (leValue ((inputOf s).take 8)) (deserializeStart s) := by
  rw [deserializeBody, if_neg (by omega), count_at hw h8]

/-- An entry count above 256 (R83). -/
theorem deserializeBody_countRange (h : 256 < leValue ((inputOf s).take 8)) :
    deserializeBody s = raise .hdrCountRange (leValue ((inputOf s).take 8)) (deserializeStart s) := by
  rw [deserializeBody_counted hw h8, deserializeEntries, if_pos h, headerFail_start]

/-- More entries than the input has room for (R83). -/
theorem deserializeBody_truncated (hle : leValue ((inputOf s).take 8) ≤ 256)
    (h : s.inLen.toNat < 8 + 5 * leValue ((inputOf s).take 8)) :
    deserializeBody s = raise .hdrTruncated (leValue ((inputOf s).take 8)) (deserializeStart s) := by
  rw [deserializeBody_counted hw h8, deserializeEntries, if_neg (by omega), deserializeStart_inLen, if_pos h, headerFail_start]

/-- A header whose count and size are right comes to what its entries come to (R83). -/
theorem deserializeBody_entries {n : Nat} (hn : leValue ((inputOf s).take 8) = n) (hle : n ≤ 256)
    (hroom : 8 + 5 * n ≤ s.inLen.toNat) :
    deserializeBody s = (readEntries n 8 (deserializeStart s)).bind fun t => .ok (deserializeEnd n t) := by
  rw [deserializeBody_counted hw h8, hn, deserializeEntries, if_neg (by omega), deserializeStart_inLen, if_neg (by omega)]

end

/-- What makes the entry (b, c) after the entries es an error: a zero count, or else a symbol that came before (R83, R112). -/
def BadEntry (es : Entries) (b : Byte) (c : Word) (e : ErrCode) : Prop :=
  (c = 0#32 ∧ e = .hdrZeroFreq) ∨ (c ≠ 0#32 ∧ (∃ x ∈ es, x.1 = b) ∧ e = .hdrDupSymbol)

/-- A bad entry at offset o, where the table holds the well-formed entries before it (R83). -/
theorem readEntry_bad {s : State} {es : Entries} {b : Byte} {c : Word} {e : ErrCode} {o : Nat} (hf : TableOf es s.freq)
    (hes : EntriesOk es) (hbad : BadEntry es b c e) (h : BytesAt s o (entryOf (b, c))) :
    readEntry o s = headerFail e o s := by
  rw [readEntry_at h]
  rcases hbad with ⟨hc, rfl⟩ | ⟨hc, ⟨x, hx, rfl⟩, rfl⟩
  · rw [if_pos hc]
  · rw [if_neg hc, if_pos (hf.1 x hx ▸ hes.2 x hx)]

/-- The first bad entry, after well-formed ones, is the one reported (R83, R112). -/
theorem readEntries_bad {s : State} {es : Entries} {b : Byte} {c : Word} {e : ErrCode} {n : Nat} (hes : EntriesOk es)
    (hn : es.length < n) (hbad : BadEntry es b c e) (h : BytesAt s 8 (es.flatMap entryOf ++ entryOf (b, c))) :
    readEntries n 8 (deserializeStart s) = raise e (8 + 5 * es.length) (deserializeStart s) := by
  obtain ⟨k, rfl⟩ : ∃ k, n = es.length + (k + 1) := ⟨n - es.length - 1, by omega⟩
  have hentry := h.right
  rw [entries_length] at hentry
  have hstored := readEntry_bad (s := setTable (fillTable (Vector.replicate 256 0#32) es) (deserializeStart s))
    (tableOf_fill hes) hes hbad (hentry.congr rfl)
  rw [readEntries_at hes (k + 1) (s := deserializeStart s) (h.left.congr rfl) fun x _ => freqAt_zero x.1, readEntries,
    deserializeStart_freq, hstored, headerFail_setTable, raise_bind]

/-- DESERIALIZE of an input with a bad entry among those its header counts (R83, R112). -/
theorem deserializeBody_badEntry {s : State} (hw : InputWritten s) {n : Nat} {es : Entries} {b : Byte} {c : Word}
    {e : ErrCode} {rest : List Byte} (hle : n ≤ 256) (hn : es.length < n) (hroom : 8 + 5 * n ≤ s.inLen.toNat)
    (hes : EntriesOk es) (hin : inputOf s = leBytes 8 n ++ es.flatMap entryOf ++ entryOf (b, c) ++ rest)
    (hbad : BadEntry es b c e) : deserializeBody s = raise e (8 + 5 * es.length) (deserializeStart s) := by
  have hcount : leValue ((inputOf s).take 8) = n := by
    rw [hin, List.append_assoc, List.append_assoc, List.take_left' (leBytes_length _ _), leValue_leBytes (by omega)]
  have hbytes := bytesAt_input hw
  rw [hin, List.append_assoc (leBytes 8 n)] at hbytes
  have hentries := hbytes.left.right
  rw [leBytes_length, Nat.zero_add] at hentries
  rw [deserializeBody_entries hw (by omega) hcount hle hroom, readEntries_bad hes hn hbad hentries, raise_bind]

/-- Settles O32: each of the five inputs makes the body raise its error, in the state of DESERIALIZE's first lines. -/
theorem deserializeErrors : Obligations.DeserializeErrors := by
  intro s hfit hw e info hcase
  have hlt := s.inLen.isLt
  have hcount : leValue ((inputOf s).take 8) < 2 ^ 64 :=
    lt_of_lt_of_le (leValue_lt _) (Nat.pow_le_pow_right (n := 256) (by omega) (List.length_take_le 8 _))
  suffices h : deserializeBody s = raise e info (deserializeStart s) ∧ info < 2 ^ 64 ∧ e.errClass = some .corruptHeader by
    obtain ⟨hbody, hinfo, hclass⟩ := h
    refine ⟨_, by rw [exec_deserialize hfit, hbody, finish_raise], rfl, ?_, hclass, rfl, rfl, rfl, rfl, rfl, rfl, rfl,
      freqAt_zero, rfl⟩
    exact Nat.mod_eq_of_lt hinfo
  rcases hcase with ⟨h8, rfl, rfl⟩ | ⟨h8, h, rfl, rfl⟩ | ⟨h8, hle, h, rfl, rfl⟩ |
    ⟨n, es, b, c, rest, hle, hn, hroom, hes, hin, rfl, hbad⟩
  · exact ⟨deserializeBody_short h8, by omega, rfl⟩
  · exact ⟨deserializeBody_countRange hw h8 h, hcount, rfl⟩
  · exact ⟨deserializeBody_truncated hw h8 hle h, hcount, rfl⟩
  · refine ⟨deserializeBody_badEntry hw hle hn hroom hes hin hbad, by omega, ?_⟩
    rcases hbad with ⟨-, rfl⟩ | ⟨-, -, rfl⟩ <;> rfl

/-! ### There and back -/

/-- Settles O33: the output of SERIALIZE is the header of the table's entries, and DESERIALIZE gives the one table that has
exactly these. -/
theorem tableRoundTrip : Obligations.TableRoundTrip := by
  intro s hr hv
  obtain ⟨hn, htotal⟩ := hr.1.flags.alphabet hv
  obtain ⟨t, ht, hte, -, -, hout⟩ := serializeResult s (hr.1.lifecycle.busyClean hr.2).2 hv hr.1.buffers.config hn
  obtain ⟨t', ht', hinv⟩ := exec_inv hr .serialize
  obtain rfl : t = t' := Host.Outcome.next.inj (ht.symm.trans ht')
  refine ⟨t, ht, hte, fun s' he hfit hcopy => ?_⟩
  obtain ⟨hw, hin⟩ := hcopy.input hinv.buffers.output
  obtain ⟨u, hu, hue, htab, hun, hut, hup, -, -, -, hflags, -⟩ := deserializeResult s' (entriesOf s.freq) [] he hfit hw
    (by rw [hin, hout, List.append_nil]; rfl) (entriesOf_ok _)
  have hfreq : u.freq = s.freq := htab.unique (entriesOf_table _)
  rw [entriesOf_length, ← hn] at hun hup
  rw [← ((entriesOf_table s.freq).sums (entriesOf_ok _)).2, ← htotal] at hut
  exact ⟨u, hu, hue, hfreq, BitVec.eq_of_toNat_eq hun, BitVec.eq_of_toNat_eq hut, hup, congrArg Prod.fst hflags⟩

end Sys2Proof.Machine
end

section
/-! PROOF. The priority queue and the tree BUILD makes (spec/42_tree.md R86 to R93). -/

namespace Sys2Proof.Machine

/-- Entry n at index i is an internal node over two children: different valid entries of lower index, whose frequencies it adds
(R87, R92). -/
structure TwoChildren (t : Vector Node 511) (i : NodeIdx) (n : Node) : Prop where
  internal : n.leaf = false
  left     : ChildOk t i n.left
  right    : ChildOk t i n.right
  distinct : n.left ≠ n.right
  freq     : n.freq.toNat = (nodeFreq t n.left).toNat + (nodeFreq t n.right).toNat

/-! ### popmin (R86) -/

/-- Settles O34: an element popmin takes comes before every other in the order of keys. -/
theorem popMinTakesLeast : Obligations.PopMinTakesLeast := by
  intro s
  rcases popMin_cases s with ⟨hq, hp⟩ | ⟨i, hi, hlt, hp⟩
  · exact ⟨fun _ => hp, fun hne => absurd hq hne⟩
  · exact ⟨fun hq => absurd hi (hq ▸ List.not_mem_nil),
      fun _ => ⟨i, hi, hp, fun j hj hne => (keyLt_iff _ _ _).1 (hlt j hj hne)⟩⟩

/-! ### BUILD as a command (R87, R93) -/

/-- Settles O35: BUILD's body writes the tree of FREQ and its flags only, and completes without an error. -/
theorem buildResult : Obligations.BuildResult := by
  intro s he hv
  obtain ⟨w, hw⟩ := buildState_frame s
  rw [exec_build hv, hw, complete_succeeded (by exact he)]
  rfl

/-- BUILD under its precondition leaves the tree of FREQ, marked as valid (R87). -/
theorem exec_build_tree {s : State} (hv : s.ftV = true) :
    ∃ t, exec .build s = .next t ∧ (t.node, t.root) = builtTree s.freq ∧ t.treeV = true := by
  refine ⟨_, exec_build hv, ?_, rfl⟩
  rw [complete_node, complete_root, buildState_builtTree]

/-- Settles O36: both states are left with the tree of the one FREQ. -/
theorem buildDependsOnFreqAlone : Obligations.BuildDependsOnFreqAlone := by
  intro s s' hv hv' hf
  obtain ⟨t, ht, htree, -⟩ := exec_build_tree hv
  obtain ⟨t', ht', htree', -⟩ := exec_build_tree hv'
  rw [← hf, ← htree] at htree'
  obtain ⟨hnode, hroot⟩ := Prod.mk.inj htree'
  exact ⟨t, t', ht, ht', hnode.symm, hroot.symm⟩

/-! ### The valid entries of a tree -/

theorem leafSlot_present {f : Vector Word 256} {b : Byte} (h : freqAt f b ≠ 0#32) : leafSlot f b = leafNode (freqAt f b) :=
  if_neg h

theorem leafSlot_valid {f : Vector Word 256} {b : Byte} : (leafSlot f b).valid = true ↔ freqAt f b ≠ 0#32 := by
  by_cases h : freqAt f b = 0#32 <;> simp [leafSlot, h, Node.empty, leafNode]

theorem nodeFreq_of_some {t : Vector Node 511} {i : NodeIdx} {n : Node} (hn : nodeAt t i = some n) : nodeFreq t i = n.freq := by
  simp only [nodeFreq, hn]

/-- A valid entry that is no leaf stands at 256 or above (R36). -/
theorem ArenaOk.internal_ge {t : Vector Node 511} (ha : ArenaOk t) {i : NodeIdx} {n : Node} (hn : nodeAt t i = some n)
    (hv : n.valid = true) (hl : n.leaf = false) : 256#9 ≤ i := by
  by_contra hlt
  have hleaf := ((ha i n hn hv).1 (BitVec.not_le.1 hlt)).1
  rw [hl] at hleaf
  cases hleaf

/-- No other entries of the tree of one symbol are valid than its root and its leaf (R90). -/
theorem builtTree_one_valid {f : Vector Word 256} {b : Byte} (h : freqAt f b ≠ 0#32) (h' : ∀ c, c ≠ b → freqAt f c = 0#32)
    {i : NodeIdx} {n : Node} (hi : i ≠ 256#9) (hb : i ≠ b.setWidth 9) (hn : nodeAt (builtTree f).1 i = some n) :
    n.valid = false := by
  rw [(builtTree_one h h').2.2 i hi (nodeAt_some_ne hn)] at hn
  cases hn
  split
  · next hlt =>
    have hz : freqAt f (i.setWidth 8) = 0#32 := h' _ fun hc => hb (by rw [← hc, symIdx_of_lt hlt])
    simp [leafSlot, hz, Node.empty]
  · rfl

/-- No entry of the empty tree is valid (R89). -/
theorem builtTree_none_valid {f : Vector Word 256} (h : ∀ b, freqAt f b = 0#32) {i : NodeIdx} {n : Node}
    (hn : nodeAt (builtTree f).1 i = some n) : n.valid = false := by
  rw [(builtTree_none h).2, nodeAt_empty i (nodeAt_some_ne hn)] at hn
  cases hn
  rfl

/-- Settles O37: the two trees by value. -/
theorem degenerateTrees : Obligations.DegenerateTrees := by
  intro s hv
  obtain ⟨t, ht, htree, htv⟩ := exec_build_tree hv
  obtain ⟨hnode, hroot⟩ := Prod.mk.inj htree
  refine ⟨fun hz => ⟨t, ht, ?_, htv, fun i n hn => ?_⟩,
    fun b hb hz => ⟨t, ht, ?_, htv, ?_, ?_, fun i n hi hib hn => ?_⟩⟩
  · rw [hroot, (builtTree_none hz).1]
  · exact builtTree_none_valid hz (hnode ▸ hn)
  · rw [hroot, (builtTree_one hb hz).1]
  · rw [hnode, (builtTree_one hb hz).2.1]
  · rw [hnode, (treeFor_builtTree s.freq).leaves b, leafSlot_present hb]
    rfl
  · exact builtTree_one_valid hb hz hi hib (hnode ▸ hn)

/-! ### The shape of a tree (R92) -/

section
variable {f : Vector Word 256} {t : Vector Node 511} {q : List NodeIdx} {m : Nat} (h : Growing f t q m)
include h

/-- The valid entries are the leaves of the present symbols and the internal nodes made so far (R92). -/
theorem Growing.valid_iff {i : NodeIdx} {n : Node} (hn : nodeAt t i = some n) : n.valid = true ↔
    (i.toNat < 256 ∧ freqAt f (i.setWidth 8) ≠ 0#32) ∨ (256 ≤ i.toNat ∧ i.toNat < m) := by
  by_cases hi : i.toNat < 256
  · have hleaf := h.leaves (i.setWidth 8)
    rw [symIdx_of_lt (by simpa [BitVec.lt_def] using hi), hn] at hleaf
    cases hleaf
    rw [leafSlot_valid]
    exact ⟨fun hb => .inl ⟨hi, hb⟩, fun hc => hc.elim And.right fun hc => absurd hc.1 (by omega)⟩
  · by_cases him : i.toNat < m
    · obtain ⟨n', hn', hv, -⟩ := h.internal i (by omega) him
      rw [hn] at hn'; cases hn'
      exact iff_of_true hv (.inr ⟨by omega, him⟩)
    · rw [h.fresh i (by omega) (nodeAt_some_ne hn)] at hn
      cases hn
      exact iff_of_false Bool.false_ne_true (by omega)

/-- No entry from m on is valid (R87). -/
theorem Growing.valid_lt {i : NodeIdx} {n : Node} (hn : nodeAt t i = some n) (hv : n.valid = true) : i.toNat < m := by
  have hlow := h.low
  rcases (h.valid_iff hn).1 hv with ⟨hi, -⟩ | ⟨-, hi⟩ <;> omega

/-- A forest grows by merges of two nodes, so an internal node has two children (R87, R92). -/
theorem Growing.children {i : NodeIdx} {n : Node} (hn : nodeAt t i = some n) (hv : n.valid = true) (hi : 256 ≤ i.toNat) :
    TwoChildren t i n := by
  have him := h.valid_lt hn hv
  obtain ⟨n', hn', -, hr, hne, hsum⟩ := h.internal i hi him
  rw [hn] at hn'; cases hn'
  obtain ⟨hl, hleft, hright⟩ := (h.arena i n hn hv).2 (by simpa [BitVec.le_def] using hi)
  exact ⟨hl, hleft, hright.resolve_left hr, hne, hsum⟩

/-- A parent comes after its child and has at least its frequency (R87). -/
theorem Growing.child_lt {i j : NodeIdx} (hc : HasChild t i j) :
    j.toNat < i.toNat ∧ (nodeFreq t j).toNat ≤ (nodeFreq t i).toNat ∧ i.toNat < m := by
  obtain ⟨n, hn, hv, hl, hj⟩ := hc
  have hi : 256 ≤ i.toNat := h.arena.internal_ge hn hv hl
  have hn2 := h.children hn hv hi
  have hL := BitVec.lt_def.1 hn2.left.1
  have hR := BitVec.lt_def.1 hn2.right.1
  have hsum := hn2.freq
  rw [← nodeFreq_of_some hn] at hsum
  have him := h.valid_lt hn hv
  rcases hj with rfl | rfl <;> exact ⟨by omega, by omega, him⟩

/-- No node is more frequent than all symbols together: it is a root of the forest, or its parent is at least as frequent
(R91). -/
theorem Growing.freq_le_total {j : NodeIdx} {n : Node} (hn : nodeAt t j = some n) (hv : n.valid = true) :
    (nodeFreq t j).toNat ≤ freqTotal f := by
  induction hd : m - j.toNat using Nat.strong_induction_on generalizing j n with
  | _ d ih =>
    by_cases hj : j ∈ q
    · exact h.total ▸ List.single_le_sum (by simp) _ (List.mem_map.2 ⟨j, hj, rfl⟩)
    · obtain ⟨i, hc⟩ := not_forall_not.1 fun hno => hj ((h.roots j n hn hv).2 hno)
      obtain ⟨hlt, hle, him⟩ := h.child_lt hc
      obtain ⟨n', hn', hv', -⟩ := hc
      exact le_trans hle (ih _ (by omega) hn' hv' rfl)

end

/-- Settles O38: the shape is that of a forest grown to one tree. -/
theorem treeShape : Obligations.TreeShape := by
  intro f h2
  obtain ⟨hroot, h⟩ := builtTree_many h2
  have hcov := (treeFor_builtTree f).covers
  have hle := alphabetSize_le f
  have hr : (builtTree f).2.toNat = 256 + alphabetSize f - 2 := by
    rw [hroot, BitVec.toNat_ofNat]
    omega
  generalize builtTree f = tr at *
  obtain ⟨t, root⟩ := tr
  dsimp only at hr h hcov
  have hvalid : ∀ {i n}, nodeAt t i = some n → (n.valid = true ↔
      (i.toNat < 256 ∧ freqAt f (i.setWidth 8) ≠ 0#32) ∨ (256 ≤ i.toNat ∧ i.toNat ≤ root.toNat)) := fun hn => by
    have hlast : ∀ j : Nat, j < 256 + alphabetSize f - 1 ↔ j ≤ root.toNat := fun j => by omega
    rw [h.valid_iff hn, hlast]
  refine ⟨t, root, rfl, hr, fun i n hn => hvalid hn, fun b hb => ?_, fun i n hn hi hir => ?_,
    fun j n hn hv hj => ?_, fun b hb => ?_⟩
  · rw [h.leaves b, leafSlot_present hb]
    rfl
  · have hn2 := h.children hn ((hvalid hn).2 (.inr ⟨hi, hir⟩)) hi
    exact ⟨hn2.internal, hn2.distinct, hn2.left.1, hn2.right.1, hn2.left.2, hn2.right.2⟩
  · have hq : j ∉ [root] := fun hc => hj (List.mem_singleton.1 hc)
    obtain ⟨i, hc⟩ := not_forall_not.1 fun hno => hq ((h.roots j n hn hv).2 hno)
    exact ⟨i, hc, fun i' m' hm hv' hl' hc' => h.unique i' i j ⟨m', hm, hv', hl', hc'⟩ hc⟩
  · obtain ⟨-, p, hne, hp⟩ := hcov b hb
    have hlen := follow_length h.arena (h.queued root List.mem_cons_self).2 hp
    exact ⟨p, hp, List.length_pos_iff.2 hne, by omega, fun p' hp' => h.path_unique hp' hp⟩

/-- Settles O39: the forest keeps that each merge took the two least. -/
theorem mergesTakeTheTwoLeast : Obligations.MergesTakeTheTwoLeast := by
  intro f h2 i n hn hv hl
  obtain ⟨hlr, hleast⟩ := (builtTree_many h2).2.least i n hn hv hl
  refine ⟨hlr, fun j n' hj hv' hlt hno => hleast j n' hj hv' hlt ?_⟩
  rintro i' hi' ⟨x, hx, hxv, hxl, hc⟩
  obtain ⟨hL, hR⟩ := hno i' x hx hxv hxl hi'
  exact hc.elim hL hR

/-! ### Frequencies (R91) -/

/-- A table has no symbol, one, or more. -/
theorem table_cases (f : Vector Word 256) : (∀ b, freqAt f b = 0#32) ∨
    (∃ b, freqAt f b ≠ 0#32 ∧ ∀ c, c ≠ b → freqAt f c = 0#32) ∨ 2 ≤ alphabetSize f := by
  have hmem : ∀ b, freqAt f b ≠ 0#32 → b.setWidth 9 ∈ presentIdx f := fun b hb => mem_presentIdx.2 ⟨b, hb, rfl⟩
  match hp : presentIdx f with
  | [] => exact .inl fun b => by_contra fun hb => List.not_mem_nil (hp ▸ hmem b hb)
  | [i] =>
    obtain ⟨b, hb, rfl⟩ := mem_presentIdx.1 (hp ▸ List.mem_singleton_self i)
    exact .inr (.inl ⟨b, hb, fun c hc => by_contra fun hz => hc (symIdx_inj.1 (List.mem_singleton.1 (hp ▸ hmem c hz)))⟩)
  | i :: j :: q =>
    refine .inr (.inr ?_)
    rw [← presentIdx_length, hp, List.length_cons, List.length_cons]
    omega

theorem freqTotal_one {f : Vector Word 256} {b : Byte} (h : freqAt f b ≠ 0#32) (h' : ∀ c, c ≠ b → freqAt f c = 0#32) :
    freqTotal f = (freqAt f b).toNat := by
  have htable : TableOf [(b, freqAt f b)] f := ⟨by simp, fun c hc => h' c (Ne.symm (hc _ List.mem_cons_self))⟩
  simpa using (htable.sums ⟨by simp, by simpa using h⟩).2

/-- The valid nodes of a one-symbol tree, its leaf and the root over it, have the frequency of the symbol, and neither has two
children (R90). -/
theorem builtTree_one_node {f : Vector Word 256} {b : Byte} (h : freqAt f b ≠ 0#32) (h' : ∀ c, c ≠ b → freqAt f c = 0#32)
    {i : NodeIdx} {n : Node} (hn : nodeAt (builtTree f).1 i = some n) (hv : n.valid = true) :
    n.freq.toNat = freqTotal f ∧ n.right = NONE := by
  rw [freqTotal_one h h']
  by_cases hi : i = 256#9
  · rw [hi, (builtTree_one h h').2.1] at hn; cases hn
    exact ⟨leafNode_freq _, rfl⟩
  · by_cases hib : i = b.setWidth 9
    · rw [hib, (treeFor_builtTree f).leaves b, leafSlot_present h] at hn; cases hn
      exact ⟨leafNode_freq _, rfl⟩
    · rw [builtTree_one_valid h h' hi hib hn] at hv
      cases hv

/-- Settles O40: by the number of symbols; with two or more, the sums are those of the merges. -/
theorem nodeFrequencies : Obligations.NodeFrequencies := by
  intro f
  refine ⟨by have := freqTotal_lt f; omega, ?_⟩
  rcases table_cases f with hz | ⟨b, hb, hz⟩ | h2
  · have hno : ∀ {i n}, nodeAt (builtTree f).1 i = some n → n.valid ≠ true := fun hn => by
      rw [builtTree_none_valid hz hn]
      exact Bool.false_ne_true
    exact ⟨fun i n hn hv => absurd hv (hno hn), fun i n hn hv => absurd hv (hno hn),
      fun n hn => absurd (builtTree_none hz).1 (nodeAt_some_ne hn)⟩
  · obtain ⟨hroot, h256, -⟩ := builtTree_one hb hz
    refine ⟨fun i n hn hv => (builtTree_one_node hb hz hn hv).1.le,
      fun i n hn hv _ hr => absurd (builtTree_one_node hb hz hn hv).2 hr, fun n hn => ?_⟩
    have hv : n.valid = true := by
      rw [hroot, h256] at hn; cases hn
      rfl
    exact (builtTree_one_node hb hz hn hv).1
  · have h := (builtTree_many h2).2
    refine ⟨fun i n hn hv => nodeFreq_of_some hn ▸ h.freq_le_total hn hv,
      fun i n hn hv hl _ => (h.children hn hv (h.arena.internal_ge hn hv hl)).freq, fun n hn => ?_⟩
    simpa [nodeFreq_of_some hn] using h.total

end Sys2Proof.Machine
end

section
/-! PROOF. The codes GENCODES gives a tree, and DECODE where the tree of one symbol has no child (spec/42_tree.md R90, R94, R95;
spec/43_bitstream.md R100). -/

namespace Sys2Proof.Machine

/-! ### GENCODES (R94, R95) -/

/-- Settles O41: the code of a present symbol is the path the walk took to its leaf. -/
theorem gencodesResult : Obligations.GencodesResult := by
  intro s hr ht
  obtain ⟨c, hc, -, hcoded, huncoded, htight⟩ := gencodesBody_ok hr.1.flags ht
  refine ⟨c, ?_, fun b hb => ?_, fun b hb => ?_⟩
  · rw [exec_gencodes ht, hc, finish, complete_succeeded (by exact (hr.1.lifecycle.busyClean hr.2).2)]
    rfl
  · obtain ⟨hpath, hne, -⟩ := hcoded b hb
    refine ⟨⟨hpath, _, (hr.1.flags.treeFor ht).leaves b, by rw [leafSlot_present hb]; rfl⟩, ?_, htight b⟩
    rw [← codeBits_length]
    exact List.length_pos_iff.2 hne
  · rw [huncoded b hb]
    exact ⟨rfl, rfl⟩

/-- The root of a one-symbol tree, while TREE_V = 1 (R90). -/
theorem FlagsOk.lone_root {s : State} (hf : FlagsOk s) (ht : s.treeV = true) {b : Byte} (hb : freqAt s.freq b ≠ 0#32)
    (hz : ∀ c, c ≠ b → freqAt s.freq c = 0#32) : nodeAt s.node s.root = some
      { valid := true, leaf := false, freq := (freqAt s.freq b).setWidth 40, left := b.setWidth 9, right := NONE } := by
  obtain ⟨hroot, hnode, -⟩ := builtTree_one hb hz
  simp only [hf.tree ht] at hroot hnode
  rw [hroot, hnode]

/-- The one path of a one-symbol tree is a 0 bit (R90). -/
theorem FlagsOk.lone_path {s : State} (hf : FlagsOk s) (ht : s.treeV = true) {b : Byte} (hb : freqAt s.freq b ≠ 0#32)
    (hz : ∀ c, c ≠ b → freqAt s.freq c = 0#32) (p : List Bool) : IsPath s.node s.root p b ↔ p = [false] := by
  have hnode := hf.lone_root ht hb hz
  have hleaf := (hf.treeFor ht).leaves b
  rw [leafSlot_present hb] at hleaf
  constructor
  · intro hp
    cases p with
    | nil => exact absurd rfl (hf.path_ne_nil ht hp)
    | cons x p =>
      obtain ⟨n, hn, -, hx, hp⟩ := follow_cons_some hp.1
      rw [hnode] at hn; cases hn
      cases x with
      | true => exact absurd rfl hx
      | false => rw [(follow_of_leaf hleaf rfl hp).1]
  · rintro rfl
    exact ⟨follow_cons hnode rfl (symIdx_ne_none b), _, hleaf, rfl⟩

/-- A code of one bit, a zero (R37). -/
theorem code_zero {c : Code} (h : codeBits c = [false]) (ht : c.Tight) : c.len = 1#8 ∧ c.bits = 0#256 := by
  have hlen : c.len.toNat = 1 := by rw [← codeBits_length, h]; rfl
  have hbit : c.bits.toNat.testBit 0 = false := by
    rw [codeBits_eq, hlen] at h
    simpa [lowBits] using h
  rw [Code.Tight, hlen] at ht
  have hbits : c.bits.toNat = 0 := by
    rw [Nat.testBit_zero] at hbit
    have : c.bits.toNat % 2 ≠ 1 := by simpa using hbit
    omega
  exact ⟨BitVec.eq_of_toNat_eq hlen, BitVec.eq_of_toNat_eq hbits⟩

/-- Settles O42: an empty tree has no symbol to code, and the one symbol of a table has one path. -/
theorem degenerateCodes : Obligations.DegenerateCodes := by
  intro s hr ht
  obtain ⟨c, hc, hcoded, huncoded⟩ := gencodesResult s hr ht
  refine ⟨fun hN => ⟨_, hc, rfl, fun b => (huncoded b ?_).1⟩, fun b hb hz => ⟨_, hc, ?_⟩⟩
  · exact (hr.1.flags.treeFor ht).absent hN b
  · obtain ⟨hpath, -, htight⟩ := hcoded b hb
    exact code_zero ((hr.1.flags.lone_path ht hb hz _).1 hpath) htight

/-- Settles O43: a path that goes on from a leaf does not exist. -/
theorem codesArePrefixFree : Obligations.CodesArePrefixFree := by
  intro s hr ht
  obtain ⟨c, hc, hcoded, huncoded⟩ := gencodesResult s hr ht
  have hpresent : ∀ b, 1 ≤ (codeAt c b).len.toNat → IsPath s.node s.root (codeBits (codeAt c b)) b := fun b hlen =>
    (hcoded b fun hz => by simp [(huncoded b hz).1] at hlen).1
  refine ⟨_, hc, fun a b hab ha hb hpre => hab ?_⟩
  obtain ⟨q, hq⟩ := hpre
  obtain ⟨hpa, n, hn, hl⟩ := hpresent a ha
  exact (follow_prefix hn hl hpa (hq ▸ (hpresent b hb).1)).2

/-! ### DECODE of a one-symbol table (R90, R100) -/

/-- Zeros are as many times the path of the one symbol, and the 1 bit after them finds no child at the root (R90, R100). -/
theorem decodeBody_absent {s : State} {b : Byte} {k : Nat} {rest : List Bool} (hf : FlagsOk s) (ht : s.treeV = true)
    (hw : InputWritten s) (hb : freqAt s.freq b ≠ 0#32) (hz : ∀ c, c ≠ b → freqAt s.freq c = 0#32)
    (hk : k < s.total.toNat) (hroom : k ≤ s.cfg.obufSize.toNat) (hpay : payloadOf s = List.replicate k false ++ true :: rest) :
    ∃ t, decodeBody s = raise .streamAbsentChild k t ∧ Appends (decodeStart s) (List.replicate k b) t := by
  have hnode := hf.lone_root ht hb hz
  obtain ⟨hpath, hleaf⟩ := (hf.lone_path ht hb hz [false]).2 rfl
  obtain ⟨hu, hbits⟩ := decodeStart_unreads hw
  have hcodes : ((List.replicate k b).flatMap fun _ => [false]) = List.replicate k false := by
    rw [List.flatMap_replicate, List.flatten_replicate_singleton]
  have hfuel : 8 * s.inLen.toNat + 1 = (8 * s.inLen.toNat - k) + 1 + k := by
    have hlen := payloadOf_length s
    rw [hpay, List.length_append, List.length_replicate, List.length_cons] at hlen
    omega
  obtain ⟨w, hloop, hcur, hcnt, hwk, hu', hbits'⟩ := decode_prefix (s := decodeStart s) (code := fun _ => [false])
    (bytes := List.replicate k b) (rest := true :: rest) (8 * s.inLen.toNat - k + 1) rfl
    (fun c hc => by rw [List.eq_of_mem_replicate hc]; exact ⟨by simp, hpath, hleaf⟩) hu (by rw [hbits, hpay, hcodes])
    (by simpa using hk.le) (by simpa using hroom)
  rw [hcodes, List.length_replicate, List.length_replicate, ← hfuel] at hloop
  rw [hcodes, List.length_replicate] at hwk
  rw [List.length_replicate] at hcnt
  generalize hu1 : setWork w (setOutput _ _ (decodeStart s)) = u at hloop
  obtain ⟨w', habsent⟩ := decode_absent (s := u) (8 * s.inLen.toNat - k) (by rw [← hu1]; exact hu')
    (by rw [← hu1]; exact hbits') (by rw [← hu1, setWork_work, hcur]; exact hnode) rfl
    (by rw [← hu1, setWork_work, hcnt]; simpa using hk)
  have hk' : u.work.k = k := by rw [← hu1, setWork_work, hwk]; simp
  refine ⟨_, by rw [decodeBody, hloop, habsent, raise_bind, hk'], .inr (by simpa using hroom), w', s.draws, ?_⟩
  rw [← hu1, List.length_replicate]
  rfl

/-- Settles O49: the error of the 1 bit, after as many symbols as there are zeros. -/
theorem decodeAbsentChild : Obligations.DecodeAbsentChild := by
  intro s b k rest hr ht hsrc hw hb hz hk hroom hpay
  obtain ⟨t, hbody, happ⟩ := decodeBody_absent hr.1.flags ht hw hb hz hk hroom hpay
  obtain ⟨m, n, w, d, hframe⟩ := happ.frame
  have hk64 := s.total.isLt
  refine ⟨_, (exec_decode ht hsrc).trans (congrArg finish hbody), rfl, Nat.mod_eq_of_lt (by omega), happ.output_eq rfl,
    by rw [hframe]; rfl, by rw [hframe]; rfl⟩

end Sys2Proof.Machine
end

section
/-! PROOF. The bit packer and the bit unpacker: bits go into a byte and come out of it MSB first (spec/43_bitstream.md R96 to
R98; spec/20_memory.md R48). -/

namespace Sys2Proof.Machine

/-- Bit j of a byte in stream order is its bit 7 - j (R48). -/
theorem bitsOfByte_getElem? (v : Byte) {j : Nat} (hj : j < 8) : (bitsOfByte v)[j]? = some (v.getLsbD (7 - j)) := by
  rw [bitsOfByte, List.getElem?_reverse (by simpa using hj), List.length_map, List.length_range, List.getElem?_map,
    List.getElem?_range (by omega), Nat.sub_right_comm]
  rfl

/-- Zeros at the end of a list of bits say what a missing bit says. -/
theorem getD_append_zeros (bits : List Bool) (n j : Nat) :
    (bits ++ List.replicate n false).getD j false = bits.getD j false := by
  rcases Nat.lt_or_ge j bits.length with hj | hj
  · exact List.getD_append _ _ _ _ hj
  · rw [List.getD_append_right _ _ _ _ hj, List.getD_eq_default _ _ hj, List.getD_eq_getElem?_getD,
      List.getElem?_getD_replicate_default_eq]

/-! ### Packing (R96, R97) -/

/-- After an error no writeBit runs (R12). -/
theorem foldl_writeBit_raise (e : ErrCode) (info : Nat) (t : State) (bits : List Bool) :
    bits.foldl (fun (b : Body) x => b.bind (writeBit x)) (raise e info t) = raise e info t := by
  induction bits with
  | nil => rfl
  | cons x bits ih => rw [List.foldl_cons, raise_bind, ih]

/-- Any number of writeBits: all bits taken, or OBUF is full (R96). -/
theorem foldl_writeBit_spec {s t : State} {p : List Bool} {n : Nat} (bits : List Bool) (h : Packed s p n t) :
    (∃ t', bits.foldl (fun (b : Body) x => b.bind (writeBit x)) (.ok t) = .ok t' ∧ Packed s (p ++ bits) n t') ∨
    (∃ t', bits.foldl (fun (b : Body) x => b.bind (writeBit x)) (.ok t) = raise .ioErrorOutput s.cfg.obufSize.toNat t' ∧
      PackFull s (p ++ bits) t') := by
  induction bits generalizing p t with
  | nil => exact .inl ⟨t, rfl, by rwa [List.append_nil]⟩
  | cons x bits ih =>
    rw [List.foldl_cons, Body.bind_ok, List.append_cons]
    rcases writeBit_spec x h with ⟨u, hu, hp⟩ | ⟨u, hu, hp⟩
    · rw [hu]
      exact ih hp
    · rw [hu, foldl_writeBit_raise]
      exact .inr ⟨u, rfl, hp.more bits⟩

/-- OBUF with room for one byte does not fill up over eight bits (R51, R96). -/
theorem PackFull.length_gt {s t : State} {bits : List Bool} (h : PackFull s bits t) (hroom : s.outLen < s.cfg.obufSize) :
    8 < bits.length := by
  obtain ⟨bytes, w, d, hfull, ⟨more, rfl, hmore⟩, -⟩ := h
  have := List.length_pos_iff.2 hmore
  rw [BitVec.lt_def] at hroom
  rw [List.length_append, bitsOfBytes_length]
  omega

/-- Fewer than eight bits stay in the accumulator (R96). -/
theorem packed_lt_eight {s t : State} {bits : List Bool} {n : Nat} (h : Packed s bits n t) (h8 : bits.length < 8) :
    ∃ w d, t = setDraws d (setWork w s) ∧ w.acc = BitVec.ofNat 8 (pathValue 0 bits) ∧ w.nb = bits.length := by
  obtain ⟨bytes, rest, w, d, rfl, -, -, rfl, hacc, hnb, -⟩ := h
  rw [List.length_append, bitsOfBytes_length] at h8
  obtain rfl : bytes = [] := List.length_eq_zero_iff.1 (by omega)
  exact ⟨w, d, by simp [Memory.writeAll], hacc, hnb⟩

/-- The eighth bit sends the byte of the eight bits and leaves the packer empty (R96). -/
theorem packed_eight {s t : State} {bits : List Bool} {n : Nat} (h : Packed s bits n t) (h8 : bits.length = 8) :
    ∃ v w d, t = setDraws d (setWork w (setOutput (Memory.write s.obuf s.outLen.toNat v) (s.outLen + 1#32) s)) ∧
      bitsOfByte v = bits ∧ w.acc = 0#8 ∧ w.nb = 0 := by
  obtain ⟨bytes, rest, w, d, rfl, hrest, -, rfl, hacc, hnb, -⟩ := h
  rw [List.length_append, bitsOfBytes_length] at h8
  obtain ⟨v, rfl⟩ := List.length_eq_one_iff.1 (show bytes.length = 1 by omega)
  obtain rfl : rest = [] := List.length_eq_zero_iff.1 (by rw [List.length_singleton] at h8; omega)
  refine ⟨v, w, d, ?_, by simp [bitsOfBytes], hacc, hnb⟩
  rw [List.length_singleton, BitVec.ofNat_add, BitVec.ofNat_toNat, BitVec.setWidth_eq]
  rfl

/-- flushBits of 1 to 7 bits sends one byte, the bits and then zeros, and leaves the packer empty (R97). -/
theorem flushBits_of_lt_eight {s : State} {bits : List Bool} (hroom : s.outLen < s.cfg.obufSize) (h0 : 0 < bits.length)
    (h8 : bits.length < 8) (hacc : s.work.acc = BitVec.ofNat 8 (pathValue 0 bits)) (hnb : s.work.nb = bits.length) :
    ∃ v, flushBits s = .ok (emptyPacker (setOutput (Memory.write s.obuf s.outLen.toNat v) (s.outLen + 1#32) s)) ∧
      bitsOfByte v = bits ++ List.replicate (8 - bits.length) false := by
  refine ⟨_, ?_, bitsOfByte_path (by simp; omega)⟩
  rw [flushBits, hnb, if_pos h0, hacc, acc_flush, emitByte_fits hroom, Body.bind_ok]

/-- Settles O44: the accumulator holds the bits of the byte to come, and the byte in OBUF is those bits in stream order. -/
theorem packerIsMsbFirst : Obligations.PackerIsMsbFirst := by
  intro s bits hacc hnb hroom h8
  have hstart : Packed s [] s.work.nbits s :=
    ⟨[], [], s.work, s.draws, rfl, by simp, (BitVec.lt_def.1 hroom).le, by simp [Memory.writeAll], hacc, hnb, rfl⟩
  rcases foldl_writeBit_spec bits hstart with ⟨t, ht, hp⟩ | ⟨t, -, hfull⟩
  · rw [List.nil_append] at hp
    refine ⟨t, ht, fun hlt => ?_, fun heq => ?_, ?_, fun h0 hlt => ?_⟩
    · obtain ⟨w, d, rfl, -, hw⟩ := packed_lt_eight hp hlt
      exact ⟨rfl, rfl, hw⟩
    · obtain ⟨v, w, d, rfl, rfl, hwa, hwn⟩ := packed_eight hp heq
      exact ⟨hwa, hwn, rfl, v, Memory.read_write_same _ _ _, fun j hj => bitsOfByte_getElem? v hj⟩
    · rintro rfl
      obtain ⟨w, d, rfl, -, hw⟩ := packed_lt_eight hp (by simp)
      rw [flushBits, if_neg (by simp [hw])]
    · obtain ⟨w, d, rfl, hwa, hwn⟩ := packed_lt_eight hp hlt
      obtain ⟨v, hflush, hv⟩ := flushBits_of_lt_eight (s := setDraws d (setWork w s)) hroom h0 hlt hwa hwn
      refine ⟨_, v, hflush, rfl, rfl, rfl, Memory.read_write_same _ _ _, fun j hj => ?_⟩
      rw [← getD_append_zeros, ← hv, List.getD_eq_getElem?_getD, bitsOfByte_getElem? v hj, Option.getD_some]
  · have := hfull.length_gt hroom
    rw [List.nil_append] at this
    omega

/-! ### Unpacking (R98) -/

/-- Where no bit is left in RBUF, readBit takes the next byte of the input and gives its bit 7 (R98). -/
theorem readBit_refill {s : State} {x : Byte} (h0 : s.work.rem = 0) (hrp : s.work.rp < s.inLen.toNat)
    (hx : Memory.read s.ibuf s.work.rp = some x) : readBit s =
      (some (x.getLsbD 7), setWork { s.work with rbuf := x <<< 1, rem := 7, rp := s.work.rp + 1 } s) := by
  rw [readBit, if_pos h0, if_neg (by omega), refill, readIbuf_written hx]
  rfl

/-- Where bits are left in RBUF, readBit gives its bit 7 (R98). -/
theorem readBit_buffered {s : State} (h0 : s.work.rem ≠ 0) : readBit s =
    (some (s.work.rbuf.getLsbD 7), setWork { s.work with rbuf := s.work.rbuf <<< 1, rem := s.work.rem - 1 } s) := by
  rw [readBit, if_neg h0]
  rfl

/-- Call k + 1 of readBit gives bit 7 - k of the byte at RP (R98). -/
theorem readBit_iterate {s : State} {x : Byte} (h0 : s.work.rem = 0) (hrp : s.work.rp < s.inLen.toNat)
    (hx : Memory.read s.ibuf s.work.rp = some x) (k : Nat) (hk : k < 8) :
    readBit ((fun r => (readBit r).2)^[k] s) = (some (x.getLsbD (7 - k)),
      setWork { s.work with rbuf := x <<< (k + 1), rem := 7 - k, rp := s.work.rp + 1 } s) := by
  induction k with
  | zero => exact readBit_refill h0 hrp hx
  | succ k ih =>
    have hbit : (x <<< (k + 1)).getLsbD 7 = x.getLsbD (7 - (k + 1)) := by
      rw [BitVec.getLsbD_shiftLeft]
      simp
      omega
    rw [Function.iterate_succ_apply', ih (by omega), readBit_buffered (by simp; omega)]
    simp only [setWork_work, setWork_setWork, hbit, ← BitVec.shiftLeft_add, Nat.sub_sub]

/-- Settles O45: EOS where RBUF and the input are used up, else the bits of the byte at RP. -/
theorem readBitStream : Obligations.ReadBitStream := by
  refine ⟨fun s h0 hend => by rw [readBit, if_pos h0, if_pos hend], fun s x h0 hrp hx k hk => ⟨_, rfl, ?_⟩⟩
  rw [readBit_iterate h0 hrp hx k hk]
  exact ⟨rfl, fun h7 => ⟨by rw [h7]; rfl, rfl⟩⟩

end Sys2Proof.Machine
end

section
/-! PROOF. PACK and DECODE by value: the codes of the input as padded bytes, and the symbols whose paths the payload holds
(spec/43_bitstream.md R99 to R101; spec/20_memory.md R51). -/

namespace Sys2Proof.Machine

/-! ### PACK (R99) -/

/-- While CODES_V = 1 every present symbol has a code (R24, R95). -/
theorem FlagsOk.code_pos {s : State} (hf : FlagsOk s) (hc : s.codesV = true) {b : Byte} (hb : freqAt s.freq b ≠ 0#32) :
    1 ≤ (codeAt s.code b).len.toNat := by
  obtain ⟨c, -, hgen, hcoded, -⟩ := gencodesBody_ok hf (hf.codesNeedTree hc)
  obtain rfl : s.code = c := Option.some.inj ((hf.codes hc).symm.trans hgen)
  rw [← codeBits_length]
  exact List.length_pos_iff.2 (hcoded b hb).2.1

/-- Every byte of a counted input is a present symbol (R24, R79). -/
theorem FlagsOk.input_present {s : State} (hf : FlagsOk s) (ht : s.ftV = true) (hsrc : s.ftSrc = false) (hw : InputWritten s)
    {b : Byte} (hb : b ∈ inputOf s) : freqAt s.freq b ≠ 0#32 := by
  intro hz
  have hcount := (hf.counted ht hsrc).2 hw b
  rw [hz] at hcount
  exact (List.count_pos_iff.2 hb).ne hcount

/-- What stands in a full OBUF: a first part of the bits, with at least one bit to come (R51, R99). -/
theorem PackFull.appends {s t : State} {bits : List Bool} (h : PackFull s bits t) : ∃ bytes, Appends s bytes t ∧
    t.outLen = s.cfg.obufSize ∧ bitsOfBytes bytes <+: bits ∧ 8 * bytes.length < bits.length := by
  obtain ⟨bytes, w, d, hfull, ⟨more, rfl, hne⟩, rfl⟩ := h
  have hpos := List.length_pos_iff.2 hne
  refine ⟨bytes, ⟨.inr hfull.le, w, d, ?_⟩, rfl, List.prefix_append _ _, ?_⟩
  · rw [hfull, BitVec.ofNat_toNat, BitVec.setWidth_eq]
  · rw [List.length_append, bitsOfBytes_length]
    omega

/-- Settles O46: what PACK has appended is the payload, padded, or a first part of it that fills OBUF. -/
theorem packResult : Obligations.PackResult := by
  intro s n hr hc hsrc hw hn
  obtain ⟨⟨hbuf, hlife, hf⟩, hbusy⟩ := hr
  have hcoded : ∀ b ∈ inputOf s, 1 ≤ (codeAt s.code b).len.toNat := fun b hb =>
    hf.code_pos hc (hf.input_present (hf.treeNeedsTable (hf.codesNeedTree hc)) hsrc hw hb)
  rcases packBody_spec hw hbuf.outLen with ⟨bytes, w, d, hbody, hbits, hfit, pad, hpad, hbytes⟩ | ⟨t, hbody, hfull⟩
  · have hlen := congrArg List.length hbytes
    rw [List.length_append, List.length_replicate, bitsOfBytes_length] at hlen
    generalize hu : setDraws d (setWork w (setOutput _ _ (packStart s))) = u at hbody
    have happ : Appends (packStart s) bytes u := ⟨.inr hfit, w, d, hu.symm⟩
    refine ⟨_, (exec_pack hc hsrc).trans (congrArg finish hbody), hcoded, fun _ => ⟨?_, ?_, ?_, ?_⟩, fun h => by omega⟩
    · rw [complete_errCode, packEnd_errCode, ← hu]
      exact (hlife.busyClean hbusy).2
    · rw [show n = bytes.length by omega]
      exact happ.outLen
    · have hsize := s.cfg.obufSize.isLt
      rw [complete_compBits, ← hbits, ← hu]
      exact Nat.mod_eq_of_lt (show w.nbits < 2 ^ 64 by omega)
    · exact ⟨pad, hpad, by rw [← hbytes]; exact congrArg bitsOfBytes happ.output_drop⟩
  · obtain ⟨bytes, happ, hout, hpre, hlt⟩ := hfull.appends
    have hlen : s.cfg.obufSize.toNat = s.outLen.toNat + bytes.length := hout ▸ happ.outLen
    obtain ⟨m, l, w, d, hframe⟩ := happ.frame
    refine ⟨_, (exec_pack hc hsrc).trans (congrArg finish hbody), hcoded, fun h => by omega,
      fun _ => ⟨rfl, ?_, hout, ?_, ?_⟩⟩
    · exact Nat.mod_eq_of_lt (show s.cfg.obufSize.toNat < 2 ^ 64 by omega)
    · rw [hframe]
      rfl
    · rw [← happ.output_drop] at hpre
      exact hpre

/-! ### DECODE (R100, R101) -/

/-- DECODE has emitted these symbols after k bits of the payload, and these bits follow (R98, R100). -/
structure Decoded (s : State) (bytes : List Byte) (k : Nat) (rest : List Bool) (t : State) : Prop where
  appends : Appends (decodeStart s) bytes t
  cursor  : t.work.cur = s.root
  count   : t.work.cnt = bytes.length
  index   : t.work.k = k
  order   : Unpacking t
  unread  : unreadBits t = rest

/-- DECODE changes no table and no parameter (R25, R100). -/
theorem Decoded.frame {s t : State} {bytes : List Byte} {k : Nat} {rest : List Bool} (h : Decoded s bytes k rest t) :
    t.node = s.node ∧ t.root = s.root ∧ t.total = s.total ∧ t.cfg = s.cfg := by
  obtain ⟨m, n, w, d, rfl⟩ := h.appends.frame
  exact ⟨rfl, rfl, rfl, rfl⟩

/-- Where the payload starts with the paths of some symbols, DECODE's loop emits them, with a round left for every bit after
them and one more (R72, R100). -/
theorem decodeBody_prefix {s : State} {code : Byte → List Bool} {bytes : List Byte} {rest : List Bool} (hf : FlagsOk s)
    (ht : s.treeV = true) (hw : InputWritten s) (hpath : ∀ b ∈ bytes, IsPath s.node s.root (code b) b)
    (hpay : payloadOf s = bytes.flatMap code ++ rest) (hcnt : bytes.length ≤ s.total.toNat)
    (hroom : bytes.length ≤ s.cfg.obufSize.toNat) :
    ∃ fuel t, decodeBody s = (decodeLoop (fuel + 1 + rest.length) t).bind (fun u => .ok (decodeEnd u)) ∧
      Decoded s bytes (bytes.flatMap code).length rest t := by
  obtain ⟨hu, hbits⟩ := decodeStart_unreads hw
  have hlen := payloadOf_length s
  rw [hpay, List.length_append] at hlen
  obtain ⟨f, hfuel⟩ : ∃ f, 8 * s.inLen.toNat + 1 = f + 1 + rest.length + (bytes.flatMap code).length :=
    ⟨8 * s.inLen.toNat - (rest.length + (bytes.flatMap code).length), by omega⟩
  obtain ⟨w, hloop, hcur, hwcnt, hwk, hunp, hunread⟩ := decode_prefix (s := decodeStart s) (f + 1 + rest.length) rfl
    (fun b hb => ⟨hf.path_ne_nil ht (hpath b hb), hpath b hb⟩) hu (hbits.trans hpay) (by simpa using hcnt)
    (by simpa using hroom)
  refine ⟨f, _, by rw [decodeBody, hfuel, hloop]; rfl, ⟨.inr (by simpa using hroom), w, s.draws, rfl⟩, hcur, ?_, ?_, hunp,
    hunread⟩
  · simpa using hwcnt
  · simpa using hwk

/-- How DECODE ends with an error: the symbols it emitted are the output, and ORIG_BITS = COMP_BITS = 0 (R100, R109). -/
theorem exec_decode_raised {s t : State} {e : ErrCode} {k : Nat} {bytes : List Byte} (ht : s.treeV = true)
    (hsrc : s.ftSrc = true) (hbody : decodeBody s = raise e k t) (happ : Appends (decodeStart s) bytes t) (hk : k < 2 ^ 64) :
    ∃ u, exec .decode s = .next u ∧ u.errCode = e ∧ u.errInfo.toNat = k ∧ u.outLen = t.outLen ∧ outputOf u = bytes ∧
      u.origBits = 0#64 ∧ u.compBits = 0#64 := by
  obtain ⟨m, n, w, d, hframe⟩ := happ.frame
  refine ⟨_, (exec_decode ht hsrc).trans (congrArg finish hbody), rfl, Nat.mod_eq_of_lt hk, rfl, happ.output_eq rfl,
    by rw [hframe]; rfl, by rw [hframe]; rfl⟩

/-- Settles O47: after the last symbol DECODE looks at no further bit. -/
theorem decodeResult : Obligations.DecodeResult := by
  intro s code bytes rest hr ht hsrc hw hlen hroom hpath hpay
  obtain ⟨⟨-, hlife, hf⟩, hbusy⟩ := hr
  obtain ⟨fuel, t, hbody, hdec⟩ := decodeBody_prefix hf ht hw hpath hpay hlen.le hroom
  obtain ⟨-, -, htot, -⟩ := hdec.frame
  have hdone : ¬ t.work.cnt < t.total.toNat := by rw [hdec.count, htot, hlen]; exact Nat.lt_irrefl _
  rw [Nat.add_right_comm, decodeLoop, if_neg hdone, Body.bind_ok] at hbody
  have hpaylen := payloadOf_length s
  rw [hpay, List.length_append] at hpaylen
  have hin := s.inLen.isLt
  have htotal := s.total.isLt
  refine ⟨_, (exec_decode ht hsrc).trans (congrArg finish hbody), ?_, hdec.appends.output_eq rfl, ?_, ?_, ?_⟩
  · obtain ⟨m, n, w, d, hframe⟩ := hdec.appends.frame
    rw [complete_errCode, decodeEnd_errCode, hframe]
    exact (hlife.busyClean hbusy).2
  · rw [complete_outLen, decodeEnd_outLen, hdec.appends.outLen, hlen]
    exact Nat.zero_add _
  · rw [complete_origBits, decodeEnd_origBits, htot]
    exact Nat.mod_eq_of_lt (by omega)
  · rw [complete_compBits, decodeEnd_compBits, hdec.index]
    exact Nat.mod_eq_of_lt (by omega)

/-- Settles O48: DECODE takes the last bits of the payload without reaching a leaf, and then finds none. -/
theorem decodeRunsOut : Obligations.DecodeRunsOut := by
  intro s code bytes rest i n hr ht hsrc hw hlt hroom hpath hpay hfollow hn hl
  obtain ⟨fuel, t, hbody, hdec⟩ := decodeBody_prefix hr.1.flags ht hw hpath hpay hlt.le hroom
  obtain ⟨hnode, -, htot, -⟩ := hdec.frame
  have hcnt : t.work.cnt < t.total.toNat := by rw [hdec.count, htot]; exact hlt
  obtain ⟨w, hloop, -, hwcnt, hwk, hunp, hunread⟩ := decode_partial (rest := []) (fuel + 1)
    (by rw [hnode, hdec.cursor]; exact hfollow) (by rw [hnode]; exact hn) hl hdec.order
    (by rw [hdec.unread, List.append_nil]) hcnt
  rw [hloop, decode_eos fuel hunp hunread (by rw [setWork_work, hwcnt]; exact hcnt), raise_bind] at hbody
  have hk : (setWork w t).work.k = 8 * (s.inLen.toNat - s.payloadOff.toNat) := by
    rw [setWork_work, hwk, hdec.index, ← List.length_append, ← hpay, payloadOf_length]
  have hin := s.inLen.isLt
  obtain ⟨u, hu, he, hinfo, -, hrest⟩ := exec_decode_raised ht hsrc hbody (hdec.appends.of_work w) (by omega)
  exact ⟨u, hu, he, hinfo.trans hk, hrest⟩

/-- Settles O50: the symbol after OBUF_SIZE symbols has its path in the payload and no room in OBUF. -/
theorem decodeOverflow : Obligations.DecodeOverflow := by
  intro s code bytes b rest hr ht hsrc hw hfull hlt hpath hpay
  obtain ⟨hfollow, n, hn, hl⟩ := hpath b (by simp)
  have hne := hr.1.flags.path_ne_nil ht (hpath b (by simp))
  rw [List.flatMap_append, List.flatMap_singleton, List.append_assoc] at hpay
  obtain ⟨fuel, t, hbody, hdec⟩ := decodeBody_prefix hr.1.flags ht hw (fun c hc => hpath c (by simp [hc])) hpay hlt.le
    hfull.le
  obtain ⟨hnode, -, htot, hcfg⟩ := hdec.frame
  have hcnt : t.work.cnt < t.total.toNat := by rw [hdec.count, htot]; exact hlt
  have hout : t.outLen = s.cfg.obufSize := by
    apply BitVec.eq_of_toNat_eq
    rw [hdec.appends.outLen, hfull]
    exact Nat.zero_add _
  obtain ⟨w, hloop⟩ := decode_full (fuel + 1 + rest.length) (by rw [hnode]; exact hn) hl
    (by rw [hnode, hdec.cursor]; exact hfollow) hne hdec.order hdec.unread hcnt (by rw [hcfg, hout]; exact BitVec.le_refl _)
  rw [List.length_append, ← Nat.add_assoc, Nat.add_right_comm, hloop, raise_bind, hout] at hbody
  have hsize := s.cfg.obufSize.isLt
  obtain ⟨u, hu, he, hinfo, huout, hrest⟩ := exec_decode_raised ht hsrc hbody (hdec.appends.of_work w) (by omega)
  exact ⟨u, hu, he, hinfo, huout.trans hout, hrest⟩

end Sys2Proof.Machine
end

section
/-! PROOF. The pipelines by value: the file COMPRESS writes, what DECOMPRESS reads from a file, the round trip, and files cut
short (spec/44_pipelines.md R103 to R106). -/

namespace Sys2Proof.Machine

/-! ### Lengths and parts of the input and the output -/

theorem outputOf_length (s : State) : (outputOf s).length = s.outLen.toNat := by
  rw [outputOf, List.length_map, List.length_range]

theorem BodyKeeps.ibuf {s t : State} (h : BodyKeeps s t) : t.ibuf = s.ibuf :=
  show (bodyFrame t).ibuf = (bodyFrame s).ibuf from congrArg _ h

/-- No body changes the input. -/
theorem BodyKeeps.input {s t : State} (h : BodyKeeps s t) : inputOf t = inputOf s := by
  rw [inputOf, inputOf, h.inLen, h.ibuf]

theorem BodyKeeps.written {s t : State} (h : BodyKeeps s t) (hw : InputWritten s) : InputWritten t := by
  rw [InputWritten, h.inLen, h.ibuf]
  exact hw

/-- Bytes appended at OUT_LEN come after the output so far (R51, R74). -/
theorem Appends.output_append {s t : State} {x : List Byte} (h : Appends s x t) : outputOf t = outputOf s ++ x := by
  have hold : (outputOf t).take s.outLen.toNat = outputOf s := by
    rw [outputOf, outputOf, ← List.map_take, List.take_range, h.outLen, Nat.min_eq_left (Nat.le_add_right _ _)]
    refine List.map_congr_left fun j hj => ?_
    have hj := List.mem_range.1 hj
    rw [h.read, if_neg (by omega)]
  rw [← List.take_append_drop s.outLen.toNat (outputOf t), hold, h.output_drop]

/-- The host copied the first IN_LEN bytes of a written output to the input. -/
theorem input_of_copied_part {t s : State} (hw : ∀ i, i < t.outLen.toNat → (Memory.read t.obuf i).isSome = true)
    (hle : s.inLen ≤ t.outLen) (hcopy : ∀ i, i < s.inLen.toNat → Memory.read s.ibuf i = Memory.read t.obuf i) :
    InputWritten s ∧ inputOf s = (outputOf t).take s.inLen.toNat := by
  have hle : s.inLen.toNat ≤ t.outLen.toNat := hle
  refine ⟨fun i hi => hcopy i hi ▸ hw i (by omega), ?_⟩
  rw [inputOf, outputOf, ← List.map_take, List.take_range, Nat.min_eq_left hle]
  exact List.map_congr_left fun i hi => by rw [hcopy i (List.mem_range.1 hi)]

/-- A code has at most 255 bits (R37). -/
theorem payloadBits_length_le (t : Vector Code 256) (bytes : List Byte) :
    (payloadBits t bytes).length ≤ 255 * bytes.length := by
  induction bytes with
  | nil => exact Nat.le_refl _
  | cons b bytes ih =>
    have hlen : (payloadBits t (b :: bytes)).length = (codeAt t b).len.toNat + (payloadBits t bytes).length := by
      rw [payloadBits, List.flatMap_cons, List.length_append, codeBits_length, payloadBits]
    have hb := (codeAt t b).len.isLt
    rw [hlen, List.length_cons]
    omega

/-- The padding is less than a byte (R97). -/
theorem PaddedBits.length_eq {bytes : List Byte} {bits : List Bool} (h : PaddedBits bytes bits) :
    bytes.length = (bits.length + 7) / 8 := by
  obtain ⟨pad, hpad, heq⟩ := h
  have hlen := congrArg List.length heq
  rw [bitsOfBytes_length, List.length_append, List.length_replicate] at hlen
  omega

/-! ### COMPRESS (R103) -/

theorem SoundBody.running {b : Body} {t : State} (h : SoundBody b) (hb : b = .ok t) : Running t := by
  rcases h with ⟨u, hu, hr⟩ | ⟨e, i, u, hu, -⟩ <;> rw [hb] at hu <;> cases hu
  exact hr

/-- A body started in s ends in t, in a state of the invariant, and leaves these flags. -/
structure EndsIn (s : State) (b : Body) (f : Flags) (t : State) : Prop where
  ends    : b = .ok t
  running : Running t
  keeps   : BodyKeeps s t
  flags   : flagsOf t = f

/-- What the flags of a body and its soundness say of its end. -/
theorem EndsIn.of_ok {s t : State} {b : Body} {f : Flags} {err : ErrCode → Flags → Prop} (hb : b = .ok t) (hs : SoundBody b)
    (hf : LeavesFlags s f err b) : EndsIn s b f t :=
  have hends := hf.ends hb
  ⟨hb, hs.running hb, hends.1, hends.2⟩

/-- COUNT as a stage: ORIG_BITS is eight times IN_LEN (R79). -/
theorem countBody_stage {s : State} (h : Running s) (hin : inputFits s = true) :
    ∃ t, EndsIn s (countBody s) (true, false, false, false) t ∧ t.origBits.toNat = 8 * s.inLen.toNat := by
  refine ⟨_, .of_ok (err := fun _ _ => False) rfl (countBody_sound h hin) (countBody_leaves s), ?_⟩
  obtain ⟨f, d, hcount⟩ := countState_frame s
  rw [hcount]
  exact (countEnd_registers _).2.2

/-- SERIALIZE as a stage: the header of the table is the output (R81, R82). -/
theorem serializeBody_stage {s : State} {f : Flags} (h : Running s) (hft : s.ftV = true) (hf : flagsOf s = f) :
    ∃ t, EndsIn s (serializeBody s) f t ∧ t.freq = s.freq ∧ t.origBits = s.origBits ∧
      outputOf t = headerOf (entriesOf s.freq) := by
  obtain ⟨t, ht, happ⟩ := serializeBody_header h.buffers.config (h.flags.alphabet hft).1
  obtain ⟨m, n, w, d, hframe⟩ := happ.frame
  exact ⟨t, .of_ok ht (serializeBody_sound h) (serializeBody_leaves hf), by simp [hframe], by simp [hframe],
    happ.output_eq rfl⟩

/-- BUILD as a stage (R87). -/
theorem buildBody_stage {s : State} {src tree codes : Bool} (h : Running s) (hf : flagsOf s = (true, src, tree, codes)) :
    ∃ t, EndsIn s (buildBody s) (true, src, true, false) t ∧ t.freq = s.freq ∧ t.origBits = s.origBits ∧
      outputOf t = outputOf s := by
  refine ⟨_, .of_ok (err := fun _ _ => False) rfl (buildBody_sound h (congrArg Prod.fst hf)) (buildBody_leaves hf), ?_⟩
  obtain ⟨w, hbuild⟩ := buildState_frame s
  simp [hbuild, outputOf]

/-- GENCODES as a stage (R94). -/
theorem gencodesBody_stage {s : State} {ft src codes : Bool} (h : Running s) (hf : flagsOf s = (ft, src, true, codes)) :
    ∃ t, EndsIn s (gencodesBody s) (ft, src, true, true) t ∧ t.freq = s.freq ∧ t.origBits = s.origBits ∧
      outputOf t = outputOf s := by
  have htree : s.treeV = true := congrArg (fun f : Flags => f.2.2.1) hf
  obtain ⟨c, hgen, -⟩ := gencodesBody_ok h.flags htree
  exact ⟨_, .of_ok (err := fun _ _ => False) hgen (gencodesBody_sound h htree) (gencodesBody_leaves hf), rfl, rfl, rfl⟩

/-- Where PACK starts inside COMPRESS: the tables are in place and the header is the output (R103). -/
structure PackReady (s t : State) : Prop where
  running  : Running t
  keeps    : BodyKeeps s t
  flags    : flagsOf t = (true, false, true, true)
  origBits : t.origBits.toNat = 8 * s.inLen.toNat
  output   : outputOf t = headerOf (entriesOf t.freq)

/-- The first four stages of COMPRESS end without an error (R103). -/
theorem compressBody_stages {s : State} (h : Running s) (hin : inputFits s = true) :
    ∃ t, compressBody s = packBody t ∧ PackReady s t := by
  obtain ⟨t₁, h₁, horig⟩ := countBody_stage (h.stage 1) hin
  obtain ⟨t₂, h₂, hfreq₂, horig₂, hout₂⟩ := serializeBody_stage (h₁.running.stage 2) (congrArg Prod.fst h₁.flags)
    h₁.flags
  obtain ⟨t₃, h₃, hfreq₃, horig₃, hout₃⟩ := buildBody_stage (h₂.running.stage 3) h₂.flags
  obtain ⟨t₄, h₄, hfreq₄, horig₄, hout₄⟩ := gencodesBody_stage (h₃.running.stage 4) h₃.flags
  refine ⟨enterStage 5 t₄, ?_, h₄.running.stage 5, ?_, h₄.flags, ?_, ?_⟩
  · rw [compressBody, h₁.ends, Body.bind_ok, h₂.ends, Body.bind_ok, h₃.ends, Body.bind_ok, h₄.ends, Body.bind_ok]
  · exact h₁.keeps.trans (h₂.keeps.trans (h₃.keeps.trans h₄.keeps))
  · exact (congrArg BitVec.toNat (horig₄.trans (horig₃.trans horig₂))).trans horig
  · have hfreq : t₄.freq = t₁.freq := hfreq₄.trans (hfreq₃.trans hfreq₂)
    exact (hout₄.trans (hout₃.trans hout₂)).trans (congrArg (fun f => headerOf (entriesOf f)) hfreq.symm)

/-- What COMPRESS leaves where it succeeds on a written input: the tables of the input, and its file (R103). -/
structure Compressed (s t : State) : Prop where
  flags    : flagsOf t = (true, false, true, true)
  counts   : ∀ sym, (freqAt t.freq sym).toNat = (inputOf s).count sym
  nsym     : t.nsym.toNat = alphabetSize t.freq
  sum      : freqTotal t.freq = s.inLen.toNat
  total    : t.total.toNat = s.inLen.toNat
  origBits : t.origBits.toNat = 8 * s.inLen.toNat
  tree     : builtTree t.freq = (t.node, t.root)
  codes    : generatedCodes t.node t.root = some t.code
  compBits : t.compBits.toNat = (payloadBits t.code (inputOf s)).length
  file     : ∃ payload, PaddedBits payload (payloadBits t.code (inputOf s)) ∧
    outputOf t = headerOf (entriesOf t.freq) ++ payload

/-- OUT_LEN after COMPRESS: the header and the payload (R103). -/
theorem Compressed.outLen {s t : State} (h : Compressed s t) :
    t.outLen.toNat = 8 + 5 * t.nsym.toNat + (t.compBits.toNat + 7) / 8 := by
  obtain ⟨payload, hpad, hout⟩ := h.file
  rw [← outputOf_length, hout, List.length_append, headerOf_length, entriesOf_length, hpad.length_eq, h.nsym, h.compBits]

/-- PACK's registers and output, where it succeeds as the last stage of COMPRESS (R99, R103). -/
theorem PackReady.compressed {s p u : State} {bytes : List Byte} (h : PackReady s p) (hw : InputWritten s)
    (happ : Appends (packStart p) bytes u) (hbits : u.work.nbits = (payloadBits p.code (inputOf p)).length)
    (hpad : PaddedBits bytes (payloadBits p.code (inputOf p))) : Compressed s (complete (packEnd u)) := by
  obtain ⟨hr, hkeeps, hflags, horig, hout⟩ := h
  obtain ⟨hft, hsrc, htree, hcodes⟩ : p.ftV = true ∧ p.ftSrc = false ∧ p.treeV = true ∧ p.codesV = true := by
    simpa [flagsOf] using hflags
  obtain ⟨hnsym, htotal⟩ := hr.flags.alphabet hft
  obtain ⟨hlen, hcount⟩ := hr.flags.counted hft hsrc
  have hcount := hcount (hkeeps.written hw)
  have hbuilt := hr.flags.tree htree
  have hgen := hr.flags.codes hcodes
  have hle := payloadBits_length_le p.code (inputOf p)
  rw [hkeeps.inLen] at hlen
  rw [hkeeps.input] at hcount hbits hpad hle
  rw [inputOf_length] at hle
  have hflags : flagsOf u = (true, false, true, true) := happ.keeps.2.trans hflags
  have hout : outputOf u = headerOf (entriesOf p.freq) ++ bytes := happ.output_append.trans (congrArg (· ++ bytes) hout)
  obtain ⟨m, n, w, d, hframe⟩ := happ.frame
  have hfreq : (complete (packEnd u)).freq = p.freq := by simp [hframe]
  have hcode : (complete (packEnd u)).code = p.code := by simp [hframe]
  constructor
  case flags => exact hflags
  case counts => rw [hfreq]; exact hcount
  case nsym => simpa [hframe] using hnsym
  case sum => rw [hfreq]; exact htotal.symm.trans hlen
  case total => simpa [hframe] using hlen
  case origBits => simpa [hframe] using horig
  case tree => simpa [hframe] using hbuilt
  case codes => simpa [hframe] using hgen
  case compBits =>
    rw [hcode, complete_compBits, packEnd_compBits, BitVec.toNat_ofNat, hbits]
    omega
  case file =>
    rw [hfreq, hcode]
    exact ⟨bytes, hpad, hout⟩

/-- COMPRESS of a written input that fits: its file, or an OBUF smaller than R103 asks for is found full by PACK. -/
theorem exec_compress_written {s : State} (hr : Ready s) (hfit : s.inLen ≤ s.cfg.ibufSize) (hw : InputWritten s) :
    ∃ t, exec .compress s = .next t ∧ ((t.errCode = .noError ∧ Compressed s t) ∨
      (t.errCode = .ioErrorOutput ∧ s.cfg.obufSize.toNat < 1288 + 32 * s.inLen.toNat)) := by
  obtain ⟨p, hbody, hp⟩ := compressBody_stages hr.running (inputFits_true.2 hfit)
  have hwp := hp.keeps.written hw
  have hop := hp.running.buffers.outLen
  rw [exec_compress hfit, hbody]
  rcases packBody_spec hwp hop with ⟨bytes, w, d, hpack, hbits, hroom, hpad⟩ | ⟨u, hpack, -⟩
  · generalize hu : setDraws d _ = u at hpack
    have happ : Appends (packStart p) bytes u := ⟨.inr hroom, w, d, hu.symm⟩
    rw [hpack]
    exact ⟨_, rfl, .inl ⟨happ.keeps.1.errCode.trans hp.running.errCode,
      hp.compressed hw happ (by rw [← hu]; exact hbits) hpad⟩⟩
  · rw [hpack]
    refine ⟨_, rfl, .inr ⟨rfl, ?_⟩⟩
    obtain ⟨hfull, -⟩ := packBody_raised hwp hop hpack
    have hheader := congrArg List.length hp.output
    rw [outputOf_length, headerOf_length, entriesOf_length] at hheader
    have halpha := alphabetSize_le p.freq
    have hle := payloadBits_length_le p.code (inputOf p)
    rw [inputOf_length, hp.keeps.inLen] at hle
    rw [hp.keeps.cfg] at hfull
    omega

/-- A COMPRESS that ends without an error has written the file of its input. -/
theorem compressed_of_noError {s t : State} (hr : Ready s) (hw : InputWritten s) (h : exec .compress s = .next t)
    (he : t.errCode = .noError) : Compressed s t := by
  by_cases hfit : s.inLen ≤ s.cfg.ibufSize
  · obtain ⟨u, hu, ⟨-, hc⟩ | ⟨hfull, -⟩⟩ := exec_compress_written hr hfit hw <;>
      obtain rfl : t = u := Host.Outcome.next.inj (h.symm.trans hu)
    · exact hc
    · rw [he] at hfull; cases hfull
  · rw [exec_input_refused (BitVec.not_le.1 hfit) (by simp)] at h
    cases h
    cases he

/-- Settles O53: the OBUF of R103 has room for the largest header and for 255 bits per byte. -/
theorem compressResult : Obligations.CompressResult := by
  intro s hr hfit hw hroom
  obtain ⟨t, ht, ⟨he, hc⟩ | ⟨-, hfull⟩⟩ := exec_compress_written hr hfit hw
  · exact ⟨t, ht, he, hc.flags, hc.counts, hc.nsym, hc.total, hc.origBits, hc.tree, hc.codes, hc.compBits, hc.outLen,
      hc.file⟩
  · omega

/-! ### DECOMPRESS (R104) -/

/-- Where DECODE starts inside DECOMPRESS of a file of n entries with the table f: the tables are in place (R104). -/
structure DecodeReady (s : State) (f : Vector Word 256) (n : Nat) (t : State) : Prop where
  running    : Running t
  keeps      : BodyKeeps s t
  flags      : flagsOf t = (true, true, true, false)
  freq       : t.freq = f
  nsym       : t.nsym.toNat = n
  total      : t.total.toNat = freqTotal f
  payloadOff : t.payloadOff.toNat = 8 + 5 * n
  tree       : builtTree f = (t.node, t.root)

/-- The flags DECODE needs (R69). -/
theorem DecodeReady.ready {s t : State} {f : Vector Word 256} {n : Nat} (h : DecodeReady s f n t) :
    t.treeV = true ∧ t.ftSrc = true :=
  ⟨congrArg (fun f : Flags => f.2.2.1) h.flags, congrArg (fun f : Flags => f.2.1) h.flags⟩

/-- DECOMPRESS starts with OUT_LEN = 0 (R104). -/
theorem Running.emptied {s : State} (h : Running s) : Running (setOutput s.obuf 0#32 s) :=
  ⟨h.buffers.restart rfl rfl rfl rfl, h.flags.congr rfl rfl rfl rfl rfl rfl rfl rfl rfl rfl rfl rfl rfl rfl rfl rfl rfl,
    h.errCode, h.errInfo⟩

/-- The first two stages of DECOMPRESS over a file with a well-formed header (R83, R87, R104). -/
theorem decompressBody_stages {s : State} {es : Entries} {f : Vector Word 256} {payload : List Byte} (h : Running s)
    (hin : inputFits s = true) (hw : InputWritten s) (hfile : inputOf s = headerOf es ++ payload) (hes : EntriesOk es)
    (hf : TableOf es f) :
    ∃ t, decompressBody s = decodeBody t ∧ DecodeReady s f es.length t ∧ payloadOf t = bitsOfBytes payload := by
  obtain ⟨g, hg, hparse⟩ := deserializeBody_file (s := enterStage 1 (setOutput s.obuf 0#32 s)) hw hfile hes
  obtain rfl : g = f := hg.unique hf
  have h₁ := EndsIn.of_ok hparse (deserializeBody_sound (h.emptied.stage 1) hin) (deserializeBody_leaves _)
  generalize ht₁ : deserializeEnd es.length _ = t₁ at hparse h₁
  have hfreq₁ : t₁.freq = g := by rw [← ht₁]; rfl
  obtain ⟨t₂, h₂, hfreq₂, -, -⟩ := buildBody_stage (h₁.running.stage 2) h₁.flags
  have hkeeps : BodyKeeps s t₂ := BodyKeeps.trans (t := t₁) h₁.keeps h₂.keeps
  have hfreq : t₂.freq = g := hfreq₂.trans hfreq₁
  obtain ⟨hft, hsrc, htree, -⟩ : t₂.ftV = true ∧ t₂.ftSrc = true ∧ t₂.treeV = true ∧ t₂.codesV = false := by
    simpa [flagsOf] using h₂.flags
  obtain ⟨hnsym, htotal⟩ := h₂.running.flags.alphabet hft
  obtain ⟨hoff, -⟩ := h₂.running.flags.parsed hft hsrc
  rw [hfreq, (hf.sums hes).1] at hnsym
  rw [hfreq] at htotal
  rw [hnsym] at hoff
  refine ⟨enterStage 3 t₂, ?_, ⟨h₂.running.stage 3, hkeeps, h₂.flags, hfreq, hnsym, htotal, hoff,
    hfreq ▸ h₂.running.flags.tree htree⟩, ?_⟩
  · rw [decompressBody, hparse, Body.bind_ok, h₂.ends, Body.bind_ok]
  · have hinput : inputOf (enterStage 3 t₂) = inputOf s := hkeeps.input
    rw [payloadOf, hinput, hfile, enterStage_payloadOff, hoff, List.drop_left' (headerOf_length es)]

/-- DECODE over a payload that starts with the paths of TOTAL symbols ends after the last of them (R100, R101). -/
theorem decodeBody_ok {s : State} {code : Byte → List Bool} {bytes : List Byte} {rest : List Bool} (hf : FlagsOk s)
    (ht : s.treeV = true) (hw : InputWritten s) (hlen : bytes.length = s.total.toNat)
    (hroom : bytes.length ≤ s.cfg.obufSize.toNat) (hpath : ∀ b ∈ bytes, IsPath s.node s.root (code b) b)
    (hpay : payloadOf s = bytes.flatMap code ++ rest) :
    ∃ t, decodeBody s = .ok (decodeEnd t) ∧ Decoded s bytes (bytes.flatMap code).length rest t := by
  obtain ⟨fuel, t, hbody, hdec⟩ := decodeBody_prefix hf ht hw hpath hpay hlen.le hroom
  obtain ⟨-, -, htot, -⟩ := hdec.frame
  have hdone : ¬ t.work.cnt < t.total.toNat := by rw [hdec.count, htot, hlen]; exact Nat.lt_irrefl _
  rw [Nat.add_right_comm, decodeLoop, if_neg hdone, Body.bind_ok] at hbody
  exact ⟨t, hbody, hdec⟩

/-- Settles O54: DECODE starts with the table and the tree of the file, and its payload. -/
theorem decompressResult : Obligations.DecompressResult := by
  intro s es f payload code bytes rest hr hfit hw hfile hes hf hlen hroom hpath hbits
  obtain ⟨p, hbody, hp, hpay⟩ := decompressBody_stages hr.running (inputFits_true.2 hfit) hw hfile hes hf
  obtain ⟨htree, -⟩ := hp.ready
  obtain ⟨t, hdecode, hdec⟩ := decodeBody_ok hp.running.flags htree (hp.keeps.written hw) (hlen.trans hp.total.symm)
    (by rw [hp.keeps.cfg]; exact hroom) (by simpa [hp.tree] using hpath) (hpay.trans hbits)
  have hsize := congrArg List.length hpay
  rw [payloadOf_length, hbits, List.length_append] at hsize
  have hout := hdec.appends.output_eq rfl
  have hflags : flagsOf t = (true, true, true, false) := hdec.appends.keeps.2.trans hp.flags
  have hindex := hdec.index
  obtain ⟨m, n, w, d, hframe⟩ := hdec.appends.frame
  refine ⟨_, (exec_decompress hfit).trans (congrArg finish (hbody.trans hdecode)), ?_, hout, ?_, hflags, ?_, ?_, ?_, ?_, ?_⟩
  · simpa [hframe] using hp.running.errCode
  · simpa [hframe] using hp.freq
  · simpa [hframe] using hp.nsym
  · simpa [hframe, hlen] using hp.total
  · simpa [hframe] using hp.payloadOff
  · have htot : t.total = p.total := by simp [hframe]
    rw [complete_origBits, decodeEnd_origBits, htot, BitVec.toNat_ofNat, hp.total, ← hlen]
    omega
  · rw [complete_compBits, decodeEnd_compBits, BitVec.toNat_ofNat, hindex]
    omega

/-! ### There and back (R105) -/

/-- The codes of the input are the paths of the tree of its table (R94, R95). -/
theorem Compressed.path {s t : State} (h : Compressed s t) {b : Byte} (hb : b ∈ inputOf s) :
    IsPath (builtTree t.freq).1 (builtTree t.freq).2 (codeBits (codeAt t.code b)) b := by
  have hpresent : freqAt t.freq b ≠ 0#32 := fun hz => by
    have hcount := h.counts b
    rw [hz] at hcount
    exact (List.count_pos_iff.2 hb).ne hcount
  obtain ⟨c, -, hgen, hcoded, -⟩ := builtCodes_spec t.freq
  have hcodes := h.codes
  rw [h.tree] at hgen
  obtain rfl : t.code = c := Option.some.inj (hcodes.symm.trans hgen)
  exact ⟨(hcoded b hpresent).1, _, (treeFor_builtTree t.freq).leaves b, by rw [leafSlot_present hpresent]; rfl⟩

theorem Compressed.length_eq {s t : State} (h : Compressed s t) : (inputOf s).length = freqTotal t.freq := by
  rw [inputOf_length, h.sum]

/-- Settles O55: the file is a header of the table's entries and the codes of the input, which are the paths DECODE follows. -/
theorem compressDecompressRoundTrip : Obligations.CompressDecompressRoundTrip := by
  intro s t s' hr hw hexec he hr' hcopy hfit hroom
  have hc := compressed_of_noError hr hw hexec he
  obtain ⟨t', ht', hinv⟩ := exec_inv hr .compress
  obtain rfl : t = t' := Host.Outcome.next.inj (hexec.symm.trans ht')
  obtain ⟨hw', hin⟩ := hcopy.input hinv.buffers.output
  obtain ⟨payload, ⟨pad, -, hbits⟩, hfile⟩ := hc.file
  obtain ⟨u, hu, hue, hout, -⟩ := decompressResult s' (entriesOf t.freq) t.freq payload
    (fun b => codeBits (codeAt t.code b)) (inputOf s) _ hr' (hcopy.1 ▸ hfit) hw' (hin.trans hfile) (entriesOf_ok _)
    (entriesOf_table _) hc.length_eq (by rw [inputOf_length]; exact hroom) (fun b hb => hc.path hb) hbits
  refine ⟨u, hu, hue, hout, BitVec.eq_of_toNat_eq ?_⟩
  rw [← outputOf_length, hout, inputOf_length]

/-! ### Files cut short (R106) -/

/-- A path goes through the end of each of its first parts. -/
theorem follow_split {t : Vector Node 511} {i j : NodeIdx} {p q : List Bool} (h : follow t i (p ++ q) = some j) :
    ∃ x, follow t i p = some x ∧ follow t x q = some j := by
  induction p generalizing i with
  | nil => exact ⟨i, rfl, h⟩
  | cons b p ih =>
    obtain ⟨n, hn, hl, hc, h⟩ := follow_cons_some h
    rw [follow_cons hn hl hc]
    exact ih h

/-- Bits that are a first part, and not all, of the codes of some bytes are the codes of the first of these bytes and a first
part, and not all, of the next one's. -/
theorem cut_codes {code : Byte → List Bool} {bytes : List Byte} {q : List Bool} (hq : q <+: bytes.flatMap code)
    (hlt : q.length < (bytes.flatMap code).length) : ∃ before b after rest x more,
      bytes = before ++ b :: after ∧ q = before.flatMap code ++ rest ∧ code b = rest ++ x :: more := by
  induction bytes generalizing q with
  | nil => simp at hlt
  | cons b bytes ih =>
    rw [List.flatMap_cons] at hq hlt
    by_cases hshort : q.length < (code b).length
    · obtain ⟨tail, htail⟩ := List.prefix_of_prefix_length_le hq (List.prefix_append _ _) hshort.le
      cases tail with
      | nil => rw [← htail, List.append_nil] at hshort; exact absurd hshort (Nat.lt_irrefl _)
      | cons x more => exact ⟨[], b, bytes, q, x, more, rfl, rfl, htail.symm⟩
    · obtain ⟨q, rfl⟩ := List.prefix_of_prefix_length_le (List.prefix_append _ _) hq (Nat.le_of_not_lt hshort)
      rw [List.length_append, List.length_append] at hlt
      obtain ⟨before, c, after, rest, x, more, rfl, rfl, hc⟩ := ih ((List.prefix_append_right_inj _).1 hq) (by omega)
      exact ⟨b :: before, c, after, rest, x, more, rfl, by rw [List.flatMap_cons, List.append_assoc], hc⟩

/-- Fewer bytes than hold the bits have only a first part of them: the padding is less than a byte (R97). -/
theorem PaddedBits.cut {bytes : List Byte} {bits : List Bool} {k : Nat} (h : PaddedBits bytes bits) (hk : k < bytes.length) :
    bitsOfBytes (bytes.take k) <+: bits ∧ (bitsOfBytes (bytes.take k)).length < bits.length := by
  obtain ⟨pad, hpad, heq⟩ := h
  have hlen := congrArg List.length heq
  rw [bitsOfBytes_length, List.length_append, List.length_replicate] at hlen
  have hcut : (bitsOfBytes (bytes.take k)).length < bits.length := by
    rw [bitsOfBytes_length, List.length_take]
    omega
  have hpre : bitsOfBytes (bytes.take k) <+: bitsOfBytes bytes :=
    ⟨bitsOfBytes (bytes.drop k), by rw [← bitsOfBytes_append, List.take_append_drop]⟩
  exact ⟨List.prefix_of_prefix_length_le (heq ▸ hpre) (List.prefix_append _ _) hcut.le, hcut⟩

/-- DECODE over a payload cut inside the paths of TOTAL symbols (R100, R106). -/
theorem decodeBody_cut {s : State} {code : Byte → List Bool} {bytes : List Byte} (hf : FlagsOk s) (ht : s.treeV = true)
    (hw : InputWritten s) (hlen : bytes.length = s.total.toNat) (hroom : bytes.length ≤ s.cfg.obufSize.toNat)
    (hpath : ∀ b ∈ bytes, IsPath s.node s.root (code b) b) (hpay : payloadOf s <+: bytes.flatMap code)
    (hlt : (payloadOf s).length < (bytes.flatMap code).length) :
    ∃ t, decodeBody s = raise .streamEos (8 * (s.inLen.toNat - s.payloadOff.toNat)) t := by
  obtain ⟨before, b, after, rest, x, more, rfl, hbits, hcode⟩ := cut_codes hpay hlt
  rw [List.length_append, List.length_cons] at hlen hroom
  obtain ⟨i, hrest, hnext⟩ := follow_split (hcode ▸ (hpath b (by simp)).1)
  obtain ⟨n, hn, hl, -⟩ := follow_cons_some hnext
  obtain ⟨fuel, t, hbody, hdec⟩ := decodeBody_prefix hf ht hw (fun c hc => hpath c (by simp [hc])) hbits (by omega) (by omega)
  obtain ⟨hnode, -, htot, -⟩ := hdec.frame
  have hcnt : t.work.cnt < t.total.toNat := by rw [hdec.count, htot]; omega
  obtain ⟨w, hloop, -, hwcnt, hwk, hunp, hunread⟩ := decode_partial (rest := []) (fuel + 1)
    (by rw [hnode, hdec.cursor]; exact hrest) (by rw [hnode]; exact hn) hl hdec.order
    (by rw [hdec.unread, List.append_nil]) hcnt
  have hk : (setWork w t).work.k = 8 * (s.inLen.toNat - s.payloadOff.toNat) := by
    rw [setWork_work, hwk, hdec.index, ← List.length_append, ← hbits, payloadOf_length]
  rw [hloop, decode_eos fuel hunp hunread (by rw [setWork_work, hwcnt]; exact hcnt), raise_bind, hk] at hbody
  exact ⟨_, hbody⟩

/-- An error of DESERIALIZE ends DECOMPRESS (R104). -/
theorem exec_decompress_raised {s t : State} {e : ErrCode} {info : Nat} (hfit : s.inLen ≤ s.cfg.ibufSize)
    (h : deserializeBody (enterStage 1 (setOutput s.obuf 0#32 s)) = raise e info t) :
    exec .decompress s = .next (errorEntry e (BitVec.ofNat 64 info) t) := by
  rw [exec_decompress hfit, decompressBody, h, raise_bind, raise_bind, finish_raise]

/-- The entry count in the first bytes of a file (R78). -/
theorem Compressed.count_of_cut {s t : State} (h : Compressed s t) {n : Nat} (h8 : 8 ≤ n) :
    leValue (((outputOf t).take n).take 8) = t.nsym.toNat := by
  obtain ⟨payload, -, hfile⟩ := h.file
  rw [List.take_take, Nat.min_eq_left h8, hfile, headerOf_eq, List.append_assoc, List.take_left' (leBytes_length _ _),
    entriesOf_length, ← h.nsym, leValue_leBytes (by omega)]

section
variable {s t s' : State} (hc : Compressed s t) (hr : Ready s') (hfit : s'.inLen ≤ s'.cfg.ibufSize) (hw : InputWritten s')
  (hin : inputOf s' = (outputOf t).take s'.inLen.toNat)
include hc hfit hw hin

/-- A file cut inside its entries (R83, R106). -/
theorem decompress_cut_entries (h8 : 8 ≤ s'.inLen.toNat) (hcut : s'.inLen.toNat < 8 + 5 * t.nsym.toNat) :
    ∃ u, exec .decompress s' = .next u ∧ u.errCode = .hdrTruncated := by
  have hcount : leValue ((inputOf s').take 8) = t.nsym.toNat := hin ▸ hc.count_of_cut h8
  have hle : t.nsym.toNat ≤ 256 := hc.nsym ▸ alphabetSize_le t.freq
  exact ⟨_, exec_decompress_raised hfit (deserializeBody_truncated (s := enterStage 1 (setOutput s'.obuf 0#32 s')) hw h8
    (hcount.le.trans hle) (hcount.symm ▸ hcut)), rfl⟩

include hr in
/-- A file cut inside its payload, where OBUF holds the original (R100, R106). -/
theorem decompress_cut_payload (hcut : s'.inLen < t.outLen) (hheader : 8 + 5 * t.nsym.toNat ≤ s'.inLen.toNat)
    (hroom : s.inLen ≤ s'.cfg.obufSize) : ∃ u, exec .decompress s' = .next u ∧ u.errCode = .streamEos ∧
      u.errInfo.toNat = 8 * (s'.inLen.toNat - 8 - 5 * t.nsym.toNat) := by
  obtain ⟨payload, hpad, hfile⟩ := hc.file
  have hlen : (headerOf (entriesOf t.freq)).length = 8 + 5 * t.nsym.toNat := by
    rw [headerOf_length, entriesOf_length, hc.nsym]
  have hout := outputOf_length t
  rw [hfile, List.length_append, hlen] at hout
  have hlt : s'.inLen.toNat < t.outLen.toNat := hcut
  obtain ⟨hpre, hshort⟩ := hpad.cut (k := s'.inLen.toNat - (8 + 5 * t.nsym.toNat)) (by omega)
  rw [hfile, List.take_append, hlen, List.take_of_length_le (hlen.le.trans hheader)] at hin
  obtain ⟨p, hbody, hp, hpay⟩ := decompressBody_stages hr.running (inputFits_true.2 hfit) hw hin (entriesOf_ok _)
    (entriesOf_table _)
  have hn : p.nsym.toNat = t.nsym.toNat := by rw [hp.nsym, entriesOf_length, hc.nsym]
  have hoff := hp.payloadOff
  rw [entriesOf_length, ← hc.nsym] at hoff
  rw [← hpay] at hpre hshort
  obtain ⟨u, hu⟩ := decodeBody_cut (bytes := inputOf s) (code := fun b => codeBits (codeAt t.code b)) hp.running.flags
    hp.ready.1 (hp.keeps.written hw) (hc.length_eq.trans hp.total.symm)
    (by rw [inputOf_length, hp.keeps.cfg]; exact hroom) (fun b hb => by simpa [hp.tree] using hc.path hb) hpre hshort
  refine ⟨_, (exec_decompress hfit).trans (congrArg finish (hbody.trans hu)), rfl, ?_⟩
  rw [hoff, hp.keeps.inLen]
  refine (Nat.mod_eq_of_lt (by omega)).trans (by omega)

end

/-- Settles O56: by where the file is cut. -/
theorem truncatedFiles : Obligations.TruncatedFiles := by
  intro s t s' hr hw hexec he hr' hcut hfit hcopy
  have hc := compressed_of_noError hr hw hexec he
  obtain ⟨t', ht', hinv⟩ := exec_inv hr .compress
  obtain rfl : t = t' := Host.Outcome.next.inj (hexec.symm.trans ht')
  obtain ⟨hw', hin⟩ := input_of_copied_part hinv.buffers.output (BitVec.le_of_lt hcut) hcopy
  by_cases h8 : s'.inLen.toNat < 8
  · refine ⟨_, exec_decompress_raised hfit (deserializeBody_short h8), fun _ => rfl, fun h => by omega, fun _ => rfl,
      fun h => by omega⟩
  · by_cases hheader : s'.inLen.toNat < 8 + 5 * t.nsym.toNat
    · obtain ⟨u, hu, hue⟩ := decompress_cut_entries hc hfit hw' hin (by omega) hheader
      exact ⟨u, hu, fun h => absurd h h8, fun _ _ => hue, fun _ => by rw [hue]; rfl, fun h => by omega⟩
    · obtain ⟨u, hu, -⟩ := exec_inv hr' .decompress
      refine ⟨u, hu, fun h => absurd h h8, fun _ h => absurd h hheader, fun h => absurd h hheader, fun h hroom => ?_⟩
      obtain ⟨v, hv, hve⟩ := decompress_cut_payload hc hr' hfit hw' hin hcut h hroom
      obtain rfl : u = v := Host.Outcome.next.inj (hu.symm.trans hv)
      exact hve

end Sys2Proof.Machine
end

section
/-! PROOF. COMPRESS and DECOMPRESS as their single-stage commands (spec/44_pipelines.md R103, R104): after the completion of the
command before it a body does what it does inside a pipeline. -/

namespace Sys2Proof.Machine

/-! ### Bodies that a change of the state does not disturb -/

/-- A body with the state it comes to changed. -/
def Body.map (g : State → State) : Body → Body
  | .ok s => .ok (g s)
  | .raised e info s => .raised e info (g s)
  | .stuck r => .stuck r

/-- From a changed state the body does the same and comes to the changed result. -/
def Commutes (g : State → State) (k : State → Body) : Prop := ∀ s, k (g s) = (k s).map g

theorem commutes_ok (g : State → State) : Commutes g .ok := fun _ => rfl

theorem Commutes.bind {g : State → State} {k k' : State → Body} (h : Commutes g k) (h' : Commutes g k') :
    Commutes g fun s => (k s).bind k' := fun s => by
  simp only [h s]
  cases k s with
  | ok t => exact h' t
  | raised e info t => rfl
  | stuck r => rfl

/-- A body that ends by an update which g does not disturb. -/
theorem Commutes.update {g : State → State} {k : State → Body} (hk : Commutes g k) (s : State) {h : State → State}
    (hg : ∀ t, h (g t) = g (h t)) : ((k (g s)).bind fun t => .ok (h t)) = ((k s).bind fun t => .ok (h t)).map g :=
  hk.bind (k' := fun t => .ok (h t)) (fun t => congrArg Body.ok (hg t)) s

/-- A body that starts by an update which g does not disturb. -/
theorem Commutes.after {g h : State → State} {k : State → Body} (hk : Commutes g k) (hg : ∀ s, h (g s) = g (h s)) :
    Commutes g fun s => k (h s) := fun s => by
  simp only [hg s, hk (h s)]

/-! ### A completion between two stages -/

/-- s after a completion without an error (R70), with the part f of the working state kept. -/
def paused (f : Work → Work) (s : State) : State := setWork (f s.work) (succeeded s)

/-- A second completion changes nothing. -/
theorem complete_paused (f : Work → Work) (s : State) : complete (paused f s) = complete s := by
  have hirq : ∀ x y : BitVec 2, x ||| y ||| y = x ||| y := fun x y => by rw [BitVec.or_assoc, BitVec.or_self]
  by_cases h : s.errCode = .noError
  · have h' : (paused f s).errCode = .noError := h
    rw [complete_succeeded h, complete_succeeded h', succeeded, succeeded]
    simp only [paused, setWork, succeeded, hirq]
  · simp only [complete, paused, setWork, succeeded, ne_eq, h, not_false_eq_true, if_true, hirq]

theorem finish_map_paused (f : Work → Work) (b : Body) : finish (b.map (paused f)) = finish b := by
  cases b with
  | ok s => exact congrArg Host.Outcome.next (complete_paused f s)
  | raised e info s => exact congrArg Host.Outcome.next (complete_paused f (recordError e info s))
  | stuck r => rfl

/-- The command step of a body does not depend on whether the command before it has completed. -/
def SeesNoPause (body : State → Body) : Prop := ∀ s, finish (body (succeeded s)) = finish (body s)

/-- A body that comes to a paused state from a completed one sees no pause. -/
theorem SeesNoPause.of_map {body : State → Body} {f : Work → Work} (h : ∀ s, body (succeeded s) = (body s).map (paused f)) :
    SeesNoPause body := fun s => by
  rw [h, finish_map_paused]

/-- A body whose stages keep f of the working state sees no pause, where f keeps nothing. -/
theorem SeesNoPause.of_commutes {body : State → Body} (h : Commutes (paused fun _ => Work.idle) body) : SeesNoPause body :=
  .of_map h

/-- The stage counter is part of the working state, which a completion takes away (R38). -/
theorem SeesNoPause.stage {body : State → Body} (h : SeesNoPause body) (n : Nat) (s : State) :
    finish (body (enterStage n s)) = finish (body s) :=
  (h (enterStage n s)).symm.trans (h s)

/-! ### Reading and emitting -/

section
variable (f : Work → Work)

theorem readIbuf_paused (i : Nat) (s : State) :
    readIbuf i (paused f s) = ((readIbuf i s).1, paused f (readIbuf i s).2) := by
  have hbuf : (paused f s).ibuf = s.ibuf := rfl
  unfold readIbuf
  rw [hbuf]
  cases Memory.read s.ibuf i <;> rfl

theorem readBytes_paused (n a : Nat) (s : State) :
    readBytes n a (paused f s) = ((readBytes n a s).1, paused f (readBytes n a s).2) := by
  induction n generalizing a s with
  | zero => rfl
  | succ n ih => simp only [readBytes, readIbuf_paused, ih]

theorem memRead_paused (a n : Nat) (s : State) :
    memRead a n (paused f s) = ((memRead a n s).1, paused f (memRead a n s).2) := by
  simp only [memRead, readBytes_paused]

theorem emitByte_commutes (v : Byte) : Commutes (paused f) (emitByte v) := fun s => by
  by_cases h : s.cfg.obufSize ≤ s.outLen
  · rw [emitByte_full h, emitByte_full (s := paused f s) h]
    rfl
  · have h := BitVec.not_le.1 h
    rw [emitByte_fits h, emitByte_fits (s := paused f s) h]
    rfl

theorem emitBytes_commutes (bs : List Byte) : Commutes (paused f) (emitBytes bs) := by
  induction bs with
  | nil => exact commutes_ok _
  | cons b bs ih => exact (emitByte_commutes f b).bind ih

/-! ### COUNT, SERIALIZE and DESERIALIZE -/

theorem countByte_paused (i : Nat) (s : State) : countByte i (paused f s) = paused f (countByte i s) := by
  simp only [countByte, readIbuf_paused]
  rfl

theorem countLoop_paused (n i : Nat) (s : State) : countLoop n i (paused f s) = paused f (countLoop n i s) := by
  induction n generalizing i s with
  | zero => rfl
  | succ n ih => rw [countLoop, countByte_paused, ih, countLoop]

theorem readEntry_commutes (o : Nat) : Commutes (paused f) (readEntry o) := fun s => by
  unfold readEntry
  simp only [readIbuf_paused, memRead_paused]
  generalize readIbuf o s = r
  generalize memRead (o + 1) 4 r.2 = c
  have hfreq : (paused f c.2).freq = c.2.freq := rfl
  rw [hfreq]
  split
  · rfl
  · split <;> rfl

theorem readEntries_commutes (n o : Nat) : Commutes (paused f) (readEntries n o) := by
  induction n generalizing o with
  | zero => exact commutes_ok _
  | succ n ih => exact (readEntry_commutes f o).bind (ih (o + 5))

theorem deserializeEntries_commutes (e : Nat) : Commutes (paused f) (deserializeEntries e) := fun s => by
  have hlen : (paused f s).inLen = s.inLen := rfl
  unfold deserializeEntries
  rw [hlen]
  split
  · rfl
  · split
    · rfl
    · exact (readEntries_commutes f e 8).update s fun _ => rfl

/-! ### GENCODES -/

theorem walk_commutes (fuel : Nat) (i : NodeIdx) (c l : Nat) : Commutes (paused f) (walk fuel i c l) := by
  induction fuel generalizing i c l with
  | zero => exact fun _ => rfl
  | succ fuel ih =>
    intro s
    have hnode : (paused f s).node = s.node := rfl
    rw [walk, walk, hnode]
    cases nodeAt s.node i with
    | none => rfl
    | some n =>
      simp only
      split
      · split <;> rfl
      · refine (ih n.left (2 * c) (l + 1)).bind (fun t => ?_) s
        split
        · rfl
        · exact ih n.right (2 * c + 1) (l + 1) t

end

theorem countState_paused (s : State) :
    countState (paused (fun _ => Work.idle) s) = paused (fun _ => Work.idle) (countState s) := by
  have hlen : (paused (fun _ => Work.idle) s).inLen = s.inLen := rfl
  have hstart : countStart (paused (fun _ => Work.idle) s) = paused (fun _ => Work.idle) (countStart s) := rfl
  rw [countState, hlen, hstart, countLoop_paused]
  rfl

theorem countBody_seesNoPause : SeesNoPause countBody := .of_commutes fun s => congrArg Body.ok (countState_paused s)

theorem serializeBody_seesNoPause : SeesNoPause serializeBody :=
  .of_commutes fun s => emitBytes_commutes (fun _ => Work.idle) (headerBytes s.freq s.nsym) (setOutput s.obuf 0#32 s)

theorem deserializeBody_seesNoPause : SeesNoPause deserializeBody := .of_commutes fun s => by
  have hlen : (paused (fun _ => Work.idle) s).inLen = s.inLen := rfl
  have hstart : deserializeStart (paused (fun _ => Work.idle) s) = paused (fun _ => Work.idle) (deserializeStart s) := rfl
  unfold deserializeBody
  simp only [hlen, hstart, memRead_paused]
  split
  · rfl
  · exact deserializeEntries_commutes _ _ _

/-- BUILD leaves a tree that is a function of FREQ alone, and whatever working state (R38, R93). -/
theorem buildBody_seesNoPause : SeesNoPause buildBody := fun s => by
  obtain ⟨w, hw⟩ := buildState_frame s
  obtain ⟨w', hw'⟩ := buildState_frame (succeeded s)
  have h : buildState (succeeded s) = paused (fun _ => w') (buildState s) := by
    rw [hw, hw']
    rfl
  rw [buildBody, buildBody, h]
  exact finish_map_paused _ (.ok (buildState s))

theorem gencodesBody_seesNoPause : SeesNoPause gencodesBody := .of_commutes fun s => by
  have hstart : gencodesStart (paused (fun _ => Work.idle) s) = paused (fun _ => Work.idle) (gencodesStart s) := rfl
  have hroot : (paused (fun _ => Work.idle) (gencodesStart s)).root = (gencodesStart s).root := rfl
  unfold gencodesBody
  simp only [hstart, hroot]
  split
  · rfl
  · exact (walk_commutes _ 511 _ 0 0).update (gencodesStart s) fun _ => rfl

/-! ### PACK -/

/-- The working state of PACK: ACC, NB and nbits (R96, R99). -/
def packWork (w : Work) : Work := { Work.idle with acc := w.acc, nb := w.nb, nbits := w.nbits }

theorem writeBit_commutes (b : Bool) : Commutes (paused packWork) (writeBit b) := fun s => by
  have hnb : (paused packWork s).work.nb = s.work.nb := rfl
  unfold writeBit
  simp only [hnb]
  split
  · exact (emitByte_commutes packWork _).update (h := emptyPacker) (hg := fun _ => rfl)
      (setWork { s.work with acc := (s.work.acc <<< 1) ||| (BitVec.ofBool b).setWidth 8, nb := 8 } s)
  · rfl

theorem writeBits_commutes (n : Nat) (bits : BitVec 256) : Commutes (paused packWork) (writeBits n bits) := by
  induction n with
  | zero => exact commutes_ok _
  | succ n ih => exact (writeBit_commutes _).bind (ih.after fun _ => rfl)

theorem packByte_commutes (i : Nat) : Commutes (paused packWork) (packByte i) := fun s => by
  simp only [packByte, readIbuf_paused]
  exact writeBits_commutes _ _ _

theorem packLoop_commutes (n i : Nat) : Commutes (paused packWork) (packLoop n i) := by
  induction n generalizing i with
  | zero => exact commutes_ok _
  | succ n ih => exact (packByte_commutes i).bind (ih (i + 1))

theorem flushBits_commutes : Commutes (paused packWork) flushBits := fun s => by
  have hnb : (paused packWork s).work.nb = s.work.nb := rfl
  unfold flushBits
  rw [hnb]
  split
  · exact (emitByte_commutes packWork _).update s fun _ => rfl
  · rfl

/-- PACK sets ACC, NB and nbits before it reads them (R99). -/
theorem packBody_seesNoPause : SeesNoPause packBody := .of_map fun s =>
  ((packLoop_commutes s.inLen.toNat 0).bind flushBits_commutes).update (packStart s) (h := packEnd) fun _ => rfl

/-! ### DECODE -/

/-- The working state of DECODE: the unpacker, the cursor and the two counts (R98, R100). -/
def decodeWork (w : Work) : Work :=
  { Work.idle with rbuf := w.rbuf, rem := w.rem, rp := w.rp, cur := w.cur, cnt := w.cnt, k := w.k }

theorem readBit_paused (s : State) :
    readBit (paused decodeWork s) = ((readBit s).1, paused decodeWork (readBit s).2) := by
  have hrem : (paused decodeWork s).work.rem = s.work.rem := rfl
  have hrp : (paused decodeWork s).work.rp = s.work.rp := rfl
  have hlen : (paused decodeWork s).inLen = s.inLen := rfl
  have hrefill : refill (paused decodeWork s) = paused decodeWork (refill s) := by
    obtain ⟨d, hd⟩ := readIbuf_frame s.work.rp s
    simp only [refill, hrp, readIbuf_paused, hd]
    rfl
  unfold readBit
  rw [hrem, hrp, hlen, hrefill]
  split
  · split <;> rfl
  · rfl

theorem arrive_commutes (i : NodeIdx) : Commutes (paused decodeWork) (arrive i) := fun s => by
  have hnode : (paused decodeWork s).node = s.node := rfl
  unfold arrive
  rw [hnode]
  cases nodeAt s.node i with
  | none => rfl
  | some n =>
    simp only
    split
    · split
      · exact (emitByte_commutes decodeWork _).update s fun _ => rfl
      · rfl
    · rfl

theorem descend_commutes (b : Bool) : Commutes (paused decodeWork) (descend b) := fun s => by
  have hnode : (paused decodeWork s).node = s.node := rfl
  have hcur : (paused decodeWork s).work.cur = s.work.cur := rfl
  unfold descend
  rw [hnode, hcur]
  cases nodeAt s.node s.work.cur with
  | none => rfl
  | some n =>
    simp only
    split
    · rfl
    · exact arrive_commutes _ (setWork { s.work with k := s.work.k + 1 } s)

theorem decodeRound_commutes : Commutes (paused decodeWork) decodeRound := fun s => by
  unfold decodeRound
  rw [readBit_paused]
  generalize readBit s = r
  obtain ⟨_ | b, t⟩ := r
  · rfl
  · exact descend_commutes b t

theorem decodeLoop_commutes (fuel : Nat) : Commutes (paused decodeWork) (decodeLoop fuel) := by
  induction fuel with
  | zero => exact fun _ => rfl
  | succ fuel ih =>
    intro s
    have hcnt : (paused decodeWork s).work.cnt = s.work.cnt := rfl
    have htot : (paused decodeWork s).total = s.total := rfl
    rw [decodeLoop, decodeLoop, hcnt, htot]
    split
    · exact decodeRound_commutes.bind ih s
    · rfl

/-- DECODE sets its working state before it reads it (R100). -/
theorem decodeBody_seesNoPause : SeesNoPause decodeBody := .of_map fun s =>
  (decodeLoop_commutes (8 * s.inLen.toNat + 1)).update (decodeStart s) (h := decodeEnd) fun _ => rfl

/-! ### Stages and commands -/

/-- An error of a stage is an error: ERRCODE is not 0. -/
abbrev IsError (e : ErrCode) (_ : Flags) : Prop := e ≠ .noError

theorem serializeBody_leaves_or_errs {s : State} {f : Flags} (hf : flagsOf s = f) :
    LeavesFlags s f IsError (serializeBody s) := by
  rcases serializeBody_cases s with ⟨x, t, h, ha⟩ | ⟨x, t, h, ha, -⟩ <;> rw [h]
  · exact .of_ok ha.keeps.1 (ha.keeps.2.trans hf)
  · exact .of_raised ha.keeps.1 (by simp [IsError])

section
variable {s : State} {b : Body} {body : State → Body} {f f' : Flags}

/-- The next stage, from the flags the one before it leaves. -/
theorem LeavesFlags.next_stage {err : ErrCode → Flags → Prop} (h : LeavesFlags s f err b)
    (hbody : ∀ t, flagsOf t = f → LeavesFlags t f' err (body t)) (n : Nat) :
    LeavesFlags s f' err (b.bind fun t => body (enterStage n t)) :=
  h.bind fun t _ ht => .after (enterStage_keeps n t) (hbody (enterStage n t) ht)

/-- A stage after others is its command after their completion, where the flags they leave meet its precondition (R75, R103,
R104). -/
theorem LeavesFlags.finish_stage (h : LeavesFlags s f IsError b) (he : s.errCode = .noError) (hp : SeesNoPause body)
    {i : Instr} (hexec : ∀ t, flagsOf t = f → exec i t = finish (body t)) (n : Nat) :
    finish (b.bind fun t => body (enterStage n t)) = thenExec i (finish b) := by
  cases b with
  | ok t =>
    obtain ⟨hk, hf⟩ := h.ends rfl
    have het : t.errCode = .noError := hk.errCode.trans he
    calc finish (body (enterStage n t)) = finish (body t) := hp.stage n t
      _ = finish (body (succeeded t)) := (hp t).symm
      _ = exec i (succeeded t) := (hexec (succeeded t) hf).symm
      _ = exec i (complete t) := by rw [complete_succeeded het]
      _ = thenExec i (.next (complete t)) := (if_pos het).symm
  | raised e info t =>
    exact (if_neg (h.raises rfl).2).symm
  | stuck r => rfl

end

/-- Settles O51: each stage's flags meet the next one's precondition, and no stage sees the completion before it. -/
theorem compressIsItsStages : Obligations.CompressIsItsStages := by
  intro s _ he hfit
  have h₁ : LeavesFlags s _ IsError _ := .after (enterStage_keeps 1 s) (countBody_leaves _)
  have h₂ := h₁.next_stage (body := serializeBody) (fun _ => serializeBody_leaves_or_errs) 2
  have h₃ := h₂.next_stage (body := buildBody) (fun _ => buildBody_leaves) 3
  have h₄ := h₃.next_stage (body := gencodesBody) (fun _ => gencodesBody_leaves) 4
  rw [exec_compress hfit, compressBody,
    h₄.finish_stage he packBody_seesNoPause
      (fun t ht => exec_pack (congrArg (fun f : Flags => f.2.2.2) ht) (congrArg (fun f : Flags => f.2.1) ht)) 5,
    h₃.finish_stage he gencodesBody_seesNoPause (fun t ht => exec_gencodes (congrArg (fun f : Flags => f.2.2.1) ht)) 4,
    h₂.finish_stage he buildBody_seesNoPause (fun t ht => exec_build (congrArg Prod.fst ht)) 3,
    h₁.finish_stage he serializeBody_seesNoPause (fun t ht => exec_serialize (congrArg Prod.fst ht)) 2,
    countBody_seesNoPause.stage 1 s, exec_count hfit]
  rfl

/-- Settles O52: as for COMPRESS; a header error ends both at DESERIALIZE. -/
theorem decompressIsItsStages : Obligations.DecompressIsItsStages := by
  intro s he hfit
  have h₁ : LeavesFlags (setOutput s.obuf 0#32 s) _ IsError (deserializeBody (enterStage 1 (setOutput s.obuf 0#32 s))) :=
    .after (enterStage_keeps 1 _) ((deserializeBody_leaves _).mono fun e _ h hn => by rw [hn] at h; cases h.1)
  have h₂ := h₁.next_stage (body := buildBody) (fun _ => buildBody_leaves) 2
  rw [exec_decompress hfit, decompressBody,
    h₂.finish_stage he decodeBody_seesNoPause
      (fun t ht => exec_decode (congrArg (fun f : Flags => f.2.2.1) ht) (congrArg (fun f : Flags => f.2.1) ht)) 3,
    h₁.finish_stage he buildBody_seesNoPause (fun t ht => exec_build (congrArg Prod.fst ht)) 2,
    deserializeBody_seesNoPause.stage 1, ← exec_deserialize (s := setOutput s.obuf 0#32 s) hfit]
  rfl

end Sys2Proof.Machine
end

section
/-! PROOF. The interrupt output, its pending bits and their enables (spec/60_exceptions.md R114, R115; spec/10_state.md R33). -/

namespace Sys2Proof.Machine

/-! ### The end of a command -/

theorem BodyKeeps.irqEn {s t : State} (h : BodyKeeps s t) : t.irqEn = s.irqEn :=
  show (bodyFrame t).irqEn = (bodyFrame s).irqEn from congrArg _ h

/-- Every command ends in the completion of a state with the interrupt registers as they were before it. -/
theorem exec_completes {i : Instr} {s t : State} (h : exec i s = .next t) :
    ∃ u, u.irqEn = s.irqEn ∧ u.irqStatus = s.irqStatus ∧ t = complete u := by
  obtain ⟨u, hk, rfl | ⟨e, info, rfl⟩⟩ := exec_ends h
  · exact ⟨u, hk.irqEn, hk.irqStatus, rfl⟩
  · exact ⟨recordError e info u, hk.irqEn, hk.irqStatus, rfl⟩

/-- Completion sets IRQ_STATUS.DONE, and IRQ_STATUS.ERROR where there is an error (R70). -/
theorem complete_pending (s : State) : (complete s).irqStatus.getLsbD 0 = true ∧
    (complete s).irqStatus.getLsbD 1 = (s.irqStatus.getLsbD 1 || decide ((complete s).errCode ≠ .noError)) := by
  rw [complete_irqStatus_eq, complete_errCode]
  by_cases he : s.errCode = .noError
  · simp [irqDone, he]
  · simp [irqDone, irqError, he]

/-! ### Host steps -/

/-- Of the host's register writes only one to IRQ_STATUS changes a pending bit. -/
theorem hostRegWrite_keeps_irqStatus {off : BitVec 16} (h : wordOffset off ≠ 0x048#16) (v : Word) (s : State) :
    (hostRegWrite off v s).irqStatus = s.irqStatus := by
  have hreg : regAt off ≠ .irqStatus := fun hc =>
    h ((regAt_eq_iff_of_table (p := (0x048#16, .irqStatus)) (by decide)).1 hc)
  unfold hostRegWrite
  cases hr : regAt off with
  | irqStatus => exact absurd hr hreg
  | cmd => simp only; split <;> rfl
  | inLen => simp only; split <;> rfl
  | _ => rfl

/-- A pending bit survives every host action but a write of 1 to it and reset (R33). -/
theorem hostAct_keeps_pending {a : HostAction} {s : State} {j : Nat} (hj : s.irqStatus.getLsbD j = true)
    (hclear : ∀ off v, a = .regWrite off v → wordOffset off = 0x048#16 → v.getLsbD j = false) (ha : a ≠ .reset) :
    (hostAct a s).irqStatus.getLsbD j = true := by
  cases a with
  | regRead off =>
    obtain ⟨d, h⟩ := hostRegRead_frame off s
    rw [hostAct, h]; exact hj
  | regWrite off v =>
    by_cases hoff : wordOffset off = 0x048#16
    · have hlt : j < 2 := BitVec.lt_of_getLsbD hj
      have hv : (v.extractLsb' 0 2).getLsbD j = false := by
        rw [BitVec.getLsbD_extractLsb', Nat.zero_add, hclear off v rfl hoff, Bool.and_false]
      rw [hostAct, hostRegWrite_irqStatus hoff, BitVec.getLsbD_and, BitVec.getLsbD_not, hj, hv]
      simpa using hlt
    · rw [hostAct, hostRegWrite_keeps_irqStatus hoff]; exact hj
  | ibufRead i =>
    obtain ⟨v, d, h⟩ := hostIbufRead_frame i s
    rw [hostAct, h]; exact hj
  | ibufWrite i v =>
    simp only [hostAct, hostIbufWrite]
    split
    · split <;> exact hj
    · exact hj
  | obufRead i =>
    obtain ⟨v, d, h⟩ := hostObufRead_frame i s
    rw [hostAct, h]; exact hj
  | obufWrite i v => exact hj
  | wait =>
    obtain ⟨d, h⟩ := hostRegRead_frame 0x00C#16 s
    simp only [hostAct, h]
    split <;> exact hj
  | waitIrq =>
    simp only [hostAct]
    split <;> exact hj
  | reset => exact absurd rfl ha

/-- Settles O18: commands end in `complete`, and of the host's actions only the two named ones clear a pending bit. -/
theorem interruptOutput : Obligations.InterruptOutput := by
  refine ⟨fun s => by simp [irqLine], fun i s t h => ?_, fun s j hj => ?_, fun c => by simp [irqLine, State.resetWith]⟩
  · obtain ⟨u, hen, hst, rfl⟩ := exec_completes h
    obtain ⟨hdone, herror⟩ := complete_pending u
    exact ⟨hen, hdone, hst ▸ herror⟩
  · cases hs : s.script with
    | nil => exact .inl (by rwa [hostStep_nil hs])
    | cons a rest =>
      rw [hostStep_cons hs]
      by_cases ha : a = .reset
      · exact .inr (.inr (congrArg some ha))
      · by_cases hclear : ∃ off v, a = .regWrite off v ∧ wordOffset off = 0x048#16 ∧ v.getLsbD j = true
        · obtain ⟨off, v, rfl, hoff, hv⟩ := hclear
          exact .inr (.inl ⟨off, v, rfl, hoff, hv⟩)
        · exact .inl (hostAct_keeps_pending hj
            (fun off v h hoff => by simpa using fun hv => hclear ⟨off, v, h, hoff, hv⟩) ha)

end Sys2Proof.Machine
end

section
/-! PROOF. Which errors each command can end with, what causes them, and what ERR_INFO holds (spec/60_exceptions.md R108, R112;
spec/40_command_common.md R69). -/

namespace Sys2Proof.Machine

/-! ### Header errors (R83, R112) -/

/-- The cause and the ERR_INFO of each error of DESERIALIZE on the input of s. What a byte of the input says is known where the
host has written it (log 4). -/
inductive HeaderError (s : State) (info : Nat) : ErrCode → Prop where
  | short (hlen : s.inLen.toNat < 8) (hinfo : info = s.inLen.toNat) : HeaderError s info .hdrShort
  | countRange (h8 : 8 ≤ s.inLen.toNat) (hcount : 256 < info)
      (hbytes : InputWritten s → info = leValue ((inputOf s).take 8)) : HeaderError s info .hdrCountRange
  | truncated (h8 : 8 ≤ s.inLen.toNat) (hcount : info ≤ 256) (hlen : s.inLen.toNat < 8 + 5 * info)
      (hbytes : InputWritten s → info = leValue ((inputOf s).take 8)) : HeaderError s info .hdrTruncated
  | zeroFreq (j : Nat) (hinfo : info = 8 + 5 * j) (hlen : 8 + 5 * j + 5 ≤ s.inLen.toNat)
      (hbytes : InputWritten s → j < leValue ((inputOf s).take 8) ∧
        leValue (((inputOf s).drop (8 + 5 * j + 1)).take 4) = 0) : HeaderError s info .hdrZeroFreq
  | dupSymbol (j : Nat) (hinfo : info = 8 + 5 * j) (hlen : 8 + 5 * j + 5 ≤ s.inLen.toNat)
      (hbytes : InputWritten s → j < leValue ((inputOf s).take 8) ∧
        leValue (((inputOf s).drop (8 + 5 * j + 1)).take 4) ≠ 0 ∧
        ∃ j', j' < j ∧ (inputOf s)[8 + 5 * j']? = (inputOf s)[8 + 5 * j]?) : HeaderError s info .hdrDupSymbol

/-- A header error is one of the input, which no body changes. -/
theorem HeaderError.of_keeps {s p : State} {info : Nat} {e : ErrCode} (hk : BodyKeeps s p) (h : HeaderError p info e) :
    HeaderError s info e := by
  have hwritten := hk.written
  cases h with
  | short hlen hinfo => rw [hk.inLen] at hlen hinfo; exact .short hlen hinfo
  | countRange h8 hcount hbytes =>
    rw [hk.inLen] at h8; rw [hk.input] at hbytes
    exact .countRange h8 hcount fun hw => hbytes (hwritten hw)
  | truncated h8 hcount hlen hbytes =>
    rw [hk.inLen] at h8 hlen; rw [hk.input] at hbytes
    exact .truncated h8 hcount hlen fun hw => hbytes (hwritten hw)
  | zeroFreq j hinfo hlen hbytes =>
    rw [hk.inLen] at hlen; rw [hk.input] at hbytes
    exact .zeroFreq j hinfo hlen fun hw => hbytes (hwritten hw)
  | dupSymbol j hinfo hlen hbytes =>
    rw [hk.inLen] at hlen; rw [hk.input] at hbytes
    exact .dupSymbol j hinfo hlen fun hw => hbytes (hwritten hw)

/-- Entries of any bytes raise one of two errors, at the offset of an entry (R83). -/
theorem readEntries_raises {n o : Nat} {s t : State} {e : ErrCode} {info : DWord} (h : readEntries n o s = .raised e info t) :
    ∃ j, j < n ∧ info = BitVec.ofNat 64 (o + 5 * j) ∧ (e = .hdrZeroFreq ∨ e = .hdrDupSymbol) := by
  rcases readEntries_cases n o s with ⟨e', j, d, hr, hj, he⟩ | ⟨f, d, hr, -⟩ <;> rw [hr] at h <;> cases h
  exact ⟨j, hj, rfl, he⟩

/-- The first bad entry of a written input, in the bytes of the input (R83, R112). -/
theorem readEntries_input_raised {s t : State} {n : Nat} {e : ErrCode} {info : DWord} (hw : InputWritten s)
    (hlen : 8 + 5 * n ≤ s.inLen.toNat) (h : readEntries n 8 (deserializeStart s) = .raised e info t) :
    ∃ j, j < n ∧ info = BitVec.ofNat 64 (8 + 5 * j) ∧
      ((e = .hdrZeroFreq ∧ leValue (((inputOf s).drop (8 + 5 * j + 1)).take 4) = 0) ∨
       (e = .hdrDupSymbol ∧ leValue (((inputOf s).drop (8 + 5 * j + 1)).take 4) ≠ 0 ∧
         ∃ j', j' < j ∧ (inputOf s)[8 + 5 * j']? = (inputOf s)[8 + 5 * j]?)) := by
  have hin := inputOf_length s
  have hat : BytesAt (deserializeStart s) 8 (((inputOf s).drop 8).take (5 * n)) := by
    have h0 := bytesAt_input hw
    rw [← List.take_append_drop 8 (inputOf s)] at h0
    have h8 := h0.right
    rw [List.length_take, Nat.min_eq_left (by omega), ← List.take_append_drop (5 * n) ((inputOf s).drop 8)] at h8
    exact h8.left.congr rfl
  obtain ⟨j, hj, hinfo, hcase⟩ := readEntries_raised n hat (by rw [List.length_take, List.length_drop]; omega) h
  have hcount : ((((inputOf s).drop 8).take (5 * n)).drop (5 * j + 1)).take 4 =
      ((inputOf s).drop (8 + 5 * j + 1)).take 4 := by
    rw [List.drop_take, List.take_take, Nat.min_eq_left (by omega), List.drop_drop, Nat.add_assoc]
  have hsym : ∀ k, k ≤ j → (((inputOf s).drop 8).take (5 * n))[5 * k]? = (inputOf s)[8 + 5 * k]? := fun k hk => by
    rw [List.getElem?_take_of_lt (by omega), List.getElem?_drop]
  rw [hcount] at hcase
  refine ⟨j, hj, hinfo, hcase.imp_right ?_⟩
  rintro ⟨he, hc, b, hb, hz | ⟨j', hj', hb'⟩⟩
  · exact absurd (freqAt_zero b) hz
  · refine ⟨he, hc, j', hj', ?_⟩
    rw [← hsym j' (by omega), ← hsym j le_rfl, hb, hb']

/-- Every error of DESERIALIZE, with its cause and ERR_INFO (R83, R112). -/
theorem deserializeBody_error {s t : State} {e : ErrCode} {info : DWord} (h : deserializeBody s = .raised e info t) :
    HeaderError s info.toNat e := by
  have hlt := s.inLen.isLt
  rcases deserializeBody_raised h with ⟨hlen, rfl, rfl⟩ | ⟨h8, n, u, hread, hcase⟩
  · exact .short hlen (Nat.mod_eq_of_lt (by omega))
  · have hcount : InputWritten s → n = leValue ((inputOf s).take 8) ∧ u = deserializeStart s := fun hw =>
      Prod.mk.inj (hread.symm.trans (count_at hw h8))
    have hn : n < 2 ^ 64 := by simpa [hread] using memRead_lt 0 8 (deserializeStart s)
    have hinfo : (BitVec.ofNat 64 n).toNat = n := Nat.mod_eq_of_lt hn
    rcases hcase with ⟨h256, rfl, rfl⟩ | ⟨h256, hlen, rfl, rfl⟩ | ⟨h256, hlen, hentries⟩
    · rw [hinfo]
      exact .countRange h8 h256 fun hw => (hcount hw).1
    · rw [hinfo]
      exact .truncated h8 h256 hlen fun hw => (hcount hw).1
    · by_cases hw : InputWritten s
      · obtain ⟨hval, rfl⟩ := hcount hw
        obtain ⟨j, hj, rfl, ⟨rfl, hz⟩ | ⟨rfl, hdup⟩⟩ := readEntries_input_raised hw hlen hentries
        · exact .zeroFreq j (Nat.mod_eq_of_lt (by omega)) (by omega) fun _ => ⟨hval ▸ hj, hz⟩
        · exact .dupSymbol j (Nat.mod_eq_of_lt (by omega)) (by omega) fun _ => ⟨hval ▸ hj, hdup⟩
      · obtain ⟨j, hj, rfl, rfl | rfl⟩ := readEntries_raises hentries
        · exact .zeroFreq j (Nat.mod_eq_of_lt (by omega)) (by omega) fun hw' => absurd hw' hw
        · exact .dupSymbol j (Nat.mod_eq_of_lt (by omega)) (by omega) fun hw' => absurd hw' hw

/-! ### A full OBUF (R51, R99) -/

/-- OBUF is full after bytes have been appended only where OUT_LEN has reached its size. -/
theorem Appends.outLen_of_full {s t : State} {x : List Byte} (h : Appends s x t) (ho : s.outLen ≤ s.cfg.obufSize)
    (hfull : s.cfg.obufSize ≤ t.outLen) : t.outLen = s.cfg.obufSize :=
  BitVec.le_antisymm (h.keeps.1.cfg ▸ h.outLen_le ho) hfull

/-- PACK's only error (R99). -/
theorem packBody_error {s t : State} {e : ErrCode} {info : DWord} (ho : s.outLen ≤ s.cfg.obufSize)
    (h : packBody s = .raised e info t) :
    e = .ioErrorOutput ∧ info.toNat = s.cfg.obufSize.toNat ∧ t.outLen = s.cfg.obufSize := by
  rcases packBody_cases s with ⟨x, u, hu, -⟩ | ⟨x, u, hu, happ, hfull⟩ <;> rw [hu] at h <;> cases h
  have hout := happ.outLen_of_full ho hfull
  have hlt := s.cfg.obufSize.isLt
  exact ⟨rfl, by rw [hout]; exact Nat.mod_eq_of_lt (by omega), hout⟩

/-- Where COMPRESS starts to pack, the header takes 8 + 5 x NSYM bytes (R82, R103). -/
theorem PackReady.outLen {s p : State} (h : PackReady s p) : p.outLen.toNat = 8 + 5 * p.nsym.toNat := by
  rw [← outputOf_length, h.output, headerOf_length, entriesOf_length,
    (h.running.flags.alphabet (congrArg Prod.fst h.flags)).1]

/-! ### Errors of DECODE (R100, R112) -/

/-- The cause and the ERR_INFO of each error of DECODE on the input of s, where t is the state it leaves. -/
inductive DecodeError (s t : State) (info : Nat) : ErrCode → Prop where
  | absentChild (hsym : t.nsym = 1#9) (hindex : info < 8 * (s.inLen.toNat - t.payloadOff.toNat))
      (hbit : InputWritten s → (payloadOf t)[info]? = some true) : DecodeError s t info .streamAbsentChild
  | eos (hinfo : info = 8 * (s.inLen.toNat - t.payloadOff.toNat)) (hfewer : t.outLen.toNat < t.total.toNat) :
      DecodeError s t info .streamEos
  | full (hout : t.outLen = s.cfg.obufSize) (hinfo : info = s.cfg.obufSize.toNat)
      (hmore : s.cfg.obufSize.toNat < t.total.toNat) : DecodeError s t info .ioErrorOutput

/-- Only the tree of a one-symbol table has an internal node without a right child (R90, R92). -/
theorem builtTree_absent_right {f : Vector Word 256} {i : NodeIdx} {n : Node} (hn : nodeAt (builtTree f).1 i = some n)
    (hv : n.valid = true) (hl : n.leaf = false) (hr : n.right = NONE) : alphabetSize f = 1 := by
  rcases table_cases f with hz | ⟨b, hb, hz⟩ | h2
  · rw [builtTree_none_valid hz hn] at hv; cases hv
  · have htable : TableOf [(b, freqAt f b)] f := ⟨by simp, fun c hc => hz c (Ne.symm (hc _ List.mem_cons_self))⟩
    exact (htable.sums ⟨by simp, by simpa using hb⟩).1
  · have hgrown := (builtTree_many h2).2
    obtain ⟨r, hr', -⟩ := (hgrown.children hn hv (hgrown.arena.internal_ge hn hv hl)).right.2
    exact absurd hr (nodeAt_some_ne hr')

/-- Over written input STREAM_ABSENT_CHILD is raised at a payload bit that is 1 (R90, R100). -/
theorem decodeBody_absent_bit {s t : State} {info : DWord} (hf : FlagsOk s) (ht : s.treeV = true) (hw : InputWritten s)
    (h : decodeBody s = .raised .streamAbsentChild info t) : (payloadOf s)[info.toNat]? = some true := by
  have htree := hf.treeFor ht
  rcases Body.bind_raised_iff.1 h with hloop | ⟨u, -, hu⟩
  · have hcnt : 0 < s.total.toNat := by
      by_contra h0
      rw [decodeLoop, if_neg (by exact h0)] at hloop
      cases hloop
    have hroot := htree.atRoot ((hf.alphabet (hf.treeNeedsTable ht)).2 ▸ hcnt)
    obtain ⟨hu, hbits⟩ := decodeStart_unreads hw
    obtain ⟨m, rfl, hm⟩ := decodeLoop_absent _ (s := decodeStart s) htree.arena hroot hroot hu hloop
    rw [hbits] at hm
    have hlt := (List.getElem?_eq_some_iff.1 hm).1
    have hin := s.inLen.isLt
    rw [payloadOf_length] at hlt
    have hk : (decodeStart s).work.k + m = m := Nat.zero_add m
    rw [hk, BitVec.toNat_ofNat, Nat.mod_eq_of_lt (by omega)]
    exact hm
  · cases hu

/-- Bytes appended to the output leave the registers of the header (R51). -/
theorem Appends.registers {s t : State} {x : List Byte} (h : Appends s x t) :
    t.nsym = s.nsym ∧ t.total = s.total ∧ t.payloadOff = s.payloadOff := by
  obtain ⟨m, n, w, d, rfl⟩ := h.frame
  exact ⟨rfl, rfl, rfl⟩

/-- Every error of DECODE, with its cause and ERR_INFO (R100, R112). -/
theorem decodeBody_error {s t : State} {e : ErrCode} {info : DWord} (hf : FlagsOk s) (ht : s.treeV = true)
    (h : decodeBody s = .raised e info t) : DecodeError s t info.toNat e := by
  have hin := s.inLen.isLt
  rcases decodeBody_cases hf ht with ⟨x, u, hu, -⟩ | ⟨x, u, hu, happ, hfewer⟩ |
    ⟨x, u, k, hu, happ, hk, i, n, hn, hv, hl, hr⟩ | ⟨x, u, hu, happ, hfull, hfewer⟩ <;>
    obtain ⟨⟩ := hu.symm.trans h
  · obtain ⟨-, htotal, hoff⟩ := happ.registers
    rw [decodeStart_payloadOff] at hoff
    refine .eos ?_ ?_
    · rw [hoff]; exact Nat.mod_eq_of_lt (by omega)
    · rw [htotal, happ.outLen, decodeStart_outLen, decodeStart_total]; simpa using hfewer
  · obtain ⟨hnsym, -, hoff⟩ := happ.registers
    rw [decodeStart_payloadOff] at hoff
    have hinfo : (BitVec.ofNat 64 k).toNat = k := Nat.mod_eq_of_lt (by omega)
    have hone : alphabetSize s.freq = 1 := builtTree_absent_right (by rw [hf.tree ht]; exact hn) hv hl hr
    have hinput : inputOf t = inputOf s := happ.keeps.1.input
    refine .absentChild ?_ (by rw [hinfo, hoff]; exact hk) fun hw => ?_
    · exact hnsym.trans (BitVec.eq_of_toNat_eq ((hf.alphabet (hf.treeNeedsTable ht)).1.trans hone))
    · rw [payloadOf, hinput, hoff]
      exact decodeBody_absent_bit hf ht hw h
  · obtain ⟨-, htotal, -⟩ := happ.registers
    have hout : t.outLen = s.cfg.obufSize := happ.outLen_of_full (by simp [BitVec.le_def]) hfull
    have hlen := happ.outLen
    rw [hout, decodeStart_outLen] at hlen
    have hob := s.cfg.obufSize.isLt
    refine .full hout ?_ ?_
    · rw [hout]; exact Nat.mod_eq_of_lt (by omega)
    · rw [htotal, decodeStart_total]; rw [BitVec.toNat_ofNat, Nat.zero_mod, Nat.zero_add] at hlen; omega

/-- DECOMPRESS raises an error of DESERIALIZE or, with a tree in place, of DECODE (R104). -/
theorem decompressBody_raised {s t : State} {e : ErrCode} {info : DWord} (h : Running s) (hin : inputFits s = true)
    (hb : decompressBody s = .raised e info t) : ∃ p, BodyKeeps s p ∧ (deserializeBody p = .raised e info t ∨
      (Running p ∧ p.treeV = true ∧ decodeBody p = .raised e info t)) := by
  rw [decompressBody] at hb
  rcases Body.bind_raised_iff.1 hb with hb | ⟨t₂, hends, hb⟩
  · rcases Body.bind_raised_iff.1 hb with hb | ⟨t₁, -, hb⟩
    · exact ⟨enterStage 1 (setOutput s.obuf 0#32 s), rfl, .inl hb⟩
    · cases hb
  · obtain ⟨t₁, hparse, hbuild⟩ := Body.bind_ok_iff.1 hends
    have h₁ := (deserializeBody_sound (h.emptied.stage 1) hin).running hparse
    have h₂ := (buildBody_sound (h₁.stage 2) (deserializeBody_flags hparse).1).running hbuild
    have hkeeps : BodyKeeps s t₂ := ((deserializeBody_leaves _).ends hparse).1.trans
      ((buildBody_leaves (err := fun _ _ => False) rfl).ends hbuild).1
    exact ⟨enterStage 3 t₂, hkeeps, .inr ⟨h₂.stage 3, (buildBody_flags hbuild).1, hb⟩⟩

/-! ### How a command ends -/

/-- The command needs a validity flag that is 0 (FT_SRC for PACK: that is 1) (R69). -/
def SequenceViolated (i : Instr) (s : State) : Prop :=
  (i ∈ [Instr.serialize, .build] ∧ s.ftV = false) ∨ (i = .gencodes ∧ s.treeV = false) ∨
    (i = .pack ∧ (s.codesV = false ∨ s.ftSrc = true)) ∨ (i = .decode ∧ (s.treeV = false ∨ s.ftSrc = false))

/-- How command i, run in s, ends: without an error, refused by its precondition, or with an error that DESERIALIZE, PACK or
DECODE raises as the command or as a stage of it, started in a state p (R69, R75, R103, R104, R109). -/
inductive CommandEnd (i : Instr) (s : State) : State → Prop where
  | success {t : State} (he : t.errCode = .noError) (hinfo : t.errInfo = 0#64) : CommandEnd i s t
  | inputRefused (hi : i ∈ [Instr.count, .compress, .deserialize, .decompress]) (hlen : s.cfg.ibufSize < s.inLen) :
      CommandEnd i s (errorEntry .ioErrorInput (BitVec.ofNat 64 s.inLen.toNat) s)
  | sequenceRefused (hi : SequenceViolated i s) : CommandEnd i s (errorEntry .seqError 0#64 s)
  | header {p u : State} {e : ErrCode} {info : DWord} (hi : i ∈ [Instr.deserialize, .decompress]) (hp : BodyKeeps s p)
      (hb : deserializeBody p = .raised e info u) : CommandEnd i s (errorEntry e info u)
  | packed {u : State} {e : ErrCode} {info : DWord} (hi : i = .pack) (hb : packBody s = .raised e info u) :
      CommandEnd i s (errorEntry e info u)
  | compressed {p u : State} {e : ErrCode} {info : DWord} (hi : i = .compress) (hp : PackReady s p)
      (hb : packBody p = .raised e info u) : CommandEnd i s (errorEntry e info u)
  | decoded {p u : State} {e : ErrCode} {info : DWord} (hi : i ∈ [Instr.decode, .decompress]) (hp : BodyKeeps s p)
      (hr : Running p) (ht : p.treeV = true) (hb : decodeBody p = .raised e info u) : CommandEnd i s (errorEntry e info u)

/-- A command step with a sound body ends as in `CommandEnd`, where the errors of the body and of the precondition do. -/
theorem CommandEnd.of_runCommand {i : Instr} {pre : Bool} {e : ErrCode} {n : Nat} {body : State → Body} {s t : State}
    (h : runCommand pre e n body s = .next t) (hsound : pre = true → SoundBody (body s))
    (hraised : ∀ e' info u, pre = true → body s = .raised e' info u → CommandEnd i s (errorEntry e' info u))
    (hrefused : pre = false → CommandEnd i s (errorEntry e (BitVec.ofNat 64 n) s)) : CommandEnd i s t := by
  rcases runCommand_next h with ⟨hp, u, hu, rfl⟩ | ⟨hp, e', info, u, hu, rfl⟩ | ⟨hp, rfl⟩
  · have hr := (hsound hp).running hu
    exact .success hr.errCode hr.errInfo
  · exact hraised e' info u hp hu
  · exact hrefused hp

/-- Every command ends in one of these ways (R69, R75, R109). -/
theorem exec_commandEnd {i : Instr} {s t : State} (hr : Ready s) (h : exec i s = .next t) : CommandEnd i s t := by
  have hrun := hr.running
  cases i with
  | nop =>
    cases (exec_nop s).symm.trans h
    exact .success hrun.errCode hrun.errInfo
  | clear =>
    cases (exec_clear s).symm.trans h
    exact .success hrun.errCode rfl
  | count =>
    exact .of_runCommand h (countBody_sound hrun) (fun _ _ _ _ hb => nomatch hb)
      fun hp => .inputRefused (by simp) (inputFits_false.1 hp)
  | serialize =>
    refine .of_runCommand h (fun _ => serializeBody_sound hrun) (fun _ _ _ hp hb => ?_)
      fun hp => .sequenceRefused (.inl ⟨by simp, hp⟩)
    obtain ⟨u, hu, -⟩ := serializeBody_header hrun.buffers.config (hrun.flags.alphabet hp).1
    cases hu.symm.trans hb
  | build =>
    exact .of_runCommand h (buildBody_sound hrun) (fun _ _ _ _ hb => nomatch hb)
      fun hp => .sequenceRefused (.inl ⟨by simp, hp⟩)
  | gencodes =>
    refine .of_runCommand h (gencodesBody_sound hrun) (fun _ _ _ hp hb => ?_)
      fun hp => .sequenceRefused (.inr (.inl ⟨rfl, hp⟩))
    obtain ⟨c, hc, -⟩ := gencodesBody_ok hrun.flags hp
    cases hc.symm.trans hb
  | pack =>
    exact .of_runCommand h (fun _ => packBody_sound hrun) (fun _ _ _ _ hb => .packed rfl hb)
      fun hp => .sequenceRefused (.inr (.inr (.inl ⟨rfl, by simpa only [Bool.and_eq_false_iff, Bool.not_eq_false'] using hp⟩)))
  | compress =>
    refine .of_runCommand h (compressBody_sound hrun) (fun _ _ _ hp hb => ?_)
      fun hp => .inputRefused (by simp) (inputFits_false.1 hp)
    obtain ⟨p, hstages, hready⟩ := compressBody_stages hrun hp
    exact .compressed rfl hready (hstages.symm.trans hb)
  | deserialize =>
    exact .of_runCommand h (deserializeBody_sound hrun) (fun _ _ _ _ hb => .header (by simp) (.refl s) hb)
      fun hp => .inputRefused (by simp) (inputFits_false.1 hp)
  | decode =>
    exact .of_runCommand h (fun hp => decodeBody_sound hrun (Bool.and_eq_true_iff.1 hp).1)
      (fun _ _ _ hp hb => .decoded (by simp) (.refl s) hrun (Bool.and_eq_true_iff.1 hp).1 hb)
      fun hp => .sequenceRefused (.inr (.inr (.inr ⟨rfl, Bool.and_eq_false_iff.1 hp⟩)))
  | decompress =>
    refine .of_runCommand h (decompressBody_sound hrun) (fun _ _ _ hp hb => ?_)
      fun hp => .inputRefused (by simp) (inputFits_false.1 hp)
    obtain ⟨p, hk, hparse | ⟨hp, ht, hdecode⟩⟩ := decompressBody_raised hrun hp hb
    · exact .header (by simp) hk hparse
    · exact .decoded (by simp) hk hp ht hdecode

/-! ### The table of errors (R108) -/

/-- Settles O23: by how the command ends, and then by the error of the stage that raised it. -/
theorem errorTable : Obligations.ErrorTable := by
  intro i s t hr h
  have hin := s.inLen.isLt
  cases exec_commandEnd hr h with
  | success he hinfo => rw [he]; exact hinfo
  | inputRefused hi hlen => exact ⟨hi, hlen, Nat.mod_eq_of_lt (by omega)⟩
  | sequenceRefused hi => exact ⟨rfl, hi⟩
  | header hi hp hb =>
    cases (deserializeBody_error hb).of_keeps hp with
    | short hlen hinfo => exact ⟨hi, hlen, hinfo⟩
    | countRange h8 hcount hbytes => exact ⟨hi, h8, hcount, hbytes⟩
    | truncated h8 hcount hlen hbytes => exact ⟨hi, h8, hcount, hlen, hbytes⟩
    | zeroFreq j hinfo hlen hbytes => exact ⟨hi, j, hinfo, hlen, hbytes⟩
    | dupSymbol j hinfo hlen hbytes => exact ⟨hi, j, hinfo, hlen, hbytes⟩
  | packed hi hb =>
    subst hi
    have ho := hr.1.buffers.outLen
    obtain ⟨rfl, hinfo, hout⟩ := packBody_error ho hb
    exact ⟨by simp, hout, hinfo, by simp, fun hw => ⟨fun _ => (packBody_raised hw ho hb).1, by simp⟩⟩
  | compressed hi hp hb =>
    subst hi
    have ho := hp.running.buffers.outLen
    obtain ⟨rfl, hinfo, hout⟩ := packBody_error ho hb
    rw [hp.keeps.cfg] at hinfo hout
    refine ⟨by simp, hout, hinfo, by simp, fun hw => ⟨by simp, fun _ => ?_⟩⟩
    obtain ⟨hfull, hnsym, hcode⟩ := packBody_raised (hp.keeps.written hw) ho hb
    rw [hp.keeps.cfg, hp.outLen, hp.keeps.input, ← hnsym, ← hcode] at hfull
    exact hfull
  | decoded hi hp hrun ht hb =>
    cases decodeBody_error hrun.flags ht hb with
    | absentChild hsym hindex hbit =>
      rw [hp.inLen] at hindex
      exact ⟨hi, hsym, hindex, fun hw => hbit (hp.written hw)⟩
    | eos hinfo hfewer =>
      rw [hp.inLen] at hinfo
      exact ⟨hi, hinfo, hfewer⟩
    | full hout hinfo hmore =>
      rw [hp.cfg] at hout hinfo hmore
      exact ⟨List.mem_cons_of_mem _ (List.mem_cons_of_mem _ hi), hout, hinfo, fun _ => hmore,
        fun _ => ⟨fun hc => by simp [hc] at hi, fun hc => by simp [hc] at hi⟩⟩

end Sys2Proof.Machine
end

section
/-! PROOF. The reset input (spec/70_reset_and_hazards.md R123): the registers are those of the reset state (R39), and CMD is open. -/

namespace Sys2Proof.Machine

/-- The sizes and the host's own side, which the reset input keeps, drive no interrupt (R115). -/
theorem irqLine_resetInput (s : State) : irqLine (resetInput s) = false := by
  simp [irqLine, State.resetWith]

/-- The sizes and the host's own side, which the reset input keeps, are no field of STATUS (R22). -/
theorem statusWord_resetInput (s : State) : statusWord (resetInput s) = 0#32 :=
  statusWord_resetWith s.cfg

/-- Settles O20: the state is `resetInput s`, which is idle, so that the next CMD write is `acceptCmd`. (`resetInput` itself names
the model's function.) -/
theorem resetInputFromAnyState : Obligations.ResetInput := by
  intro s
  have hbusy : (resetInput s).busy = false := rfl
  refine ⟨resetInput s, rfl, rfl, hbusy, irqLine_resetInput s, statusWord_resetInput s, fun off v hoff => ?_⟩
  rw [hostRegWrite_cmd_idle hoff hbusy]
  exact ⟨rfl, rfl⟩

end Sys2Proof.Machine
end
